-- ==== Sys2Proof/Word.lean ====
section
/-!
DEFINITION. The words of the block (`00_scope.md` R6): unsigned bit vectors, bit 0 the least significant.
-/
namespace Sys2Proof

/-- One byte of IN or OUT, or a symbol value. -/
abbrev Byte := BitVec 8

/-- A command word, a host register, a length, a frequency. -/
abbrev Word := BitVec 32

/-- A code value (`CODE_W` = 64, R5): bit `k` is the branch at depth `k`. -/
abbrev CodeWord := BitVec 64

end Sys2Proof
end

