-- ==== Sys2Proof/Config.lean ====
section
/-!
DEFINITION. The parameters of the block, `00_scope.md` R5. All are constants.
The one open parameter, `IO_ORACLE` (`20_memory.md` R70), is no constant: its answers stand in `State` (log 1).
-/
namespace Sys2Proof.Config

/-- `ALPHABET`: symbol values, one per byte value (R5). -/
def alphabet : Nat := 256

/-- `NSYM_MAX`: largest symbol-table size after compaction (R5). -/
def nsymMax : Nat := 256

/-- `CODE_W`: width of a code value and largest legal code length (R5). -/
def codeW : Nat := 64

/-- `CODELEN_W`: width of a code-length field (R5). -/
def codelenW : Nat := 7

/-- `FREQ_W`: width of a frequency (R5). -/
def freqW : Nat := 32

/-- `LEN_W`: width of the input length, of `ORIGLEN` and of an IN address (R5). -/
def lenW : Nat := 32

/-- `HDR_COUNT_BYTES`: bytes of the header's symbolCount (R5). -/
def hdrCountBytes : Nat := 2

/-- `HDR_LEN_BYTES`: bytes of the header's originalLength (R5). -/
def hdrLenBytes : Nat := 4

/-- `HDR_ENTRY_BYTES`: bytes of one header entry (R5). -/
def hdrEntryBytes : Nat := 10

/-- Bytes of the fixed header fields, symbolCount and originalLength (R100). -/
def hdrFixedBytes : Nat := hdrCountBytes + hdrLenBytes

/-- Bytes of an entry's codeValue (R100). -/
def hdrCodeBytes : Nat := 8

/-- `NODE_CAP`: records of the node memory, 1 + 256 × 64 (R5). -/
def nodeCap : Nat := 16385

/-- `PAD_BIT`: the value of the unused bits of the last payload byte (R5). -/
def padBit : Bool := false

/-- `CMD_W`: width of a command word (R5). -/
def cmdW : Nat := 32

end Sys2Proof.Config
end

