-- ==== Sys2Proof/Syntax.lean ====
section
/-!
DEFINITION. The commands (`30_encoding.md` R92, one constructor per row of the opcode table), the fields of a command
word (R90), and the host's script of actions (R95, `00_scope.md` R13).
-/
namespace Sys2Proof

/-- The comparator of `HSORT` (`30_encoding.md` R90, `41_heap.md` R140). -/
inductive Cmp where
  /-- by frequency, ascending; `cmp` = 0 -/
  | freq
  /-- by symbol value, ascending; `cmp` = 1 -/
  | sym
  deriving DecidableEq, Repr

/-- The 15 commands of `30_encoding.md` R92. None has an operand but `cmp`, which tells the two spellings of `HSORT`
apart (R91). -/
inductive Instr where
  /-- `RST`, R263 -/
  | rst
  /-- `CLR`, R120 -/
  | clr
  /-- `SCAN`, R122 -/
  | scan
  /-- `PACK`, R124 -/
  | pack
  /-- `HSORT.F`, R146 with comparator `FREQ` -/
  | hsortF
  /-- `HSORT.S`, R146 with comparator `SYM` -/
  | hsortS
  /-- `TREE`, R162 -/
  | tree
  /-- `CODES`, R182 -/
  | codes
  /-- `WHDR`, R201 -/
  | whdr
  /-- `RHDR`, R206 -/
  | rhdr
  /-- `ENC`, R232 -/
  | enc
  /-- `FLUSH`, R233 -/
  | flush
  /-- `DEC`, R236 -/
  | dec
  /-- `COMPRESS`, R265 -/
  | compress
  /-- `DECOMPRESS`, R266 -/
  | decompress
  deriving DecidableEq, Repr

/-- The fields of a command word (R90): `zero` 31:9, `cmp` 8, `opcode` 7:0. -/
structure CmdFields where
  zero   : BitVec 23
  cmp    : BitVec 1
  opcode : BitVec 8
  deriving DecidableEq, Repr

/-- What decoding a word gives (R93): a command, or `Illegal`. -/
inductive Decoded where
  | command (i : Instr)
  | illegal
  deriving DecidableEq, Repr

/-- One action of the host, between commands (`00_scope.md` R13, `70_reset_and_hazards.md` R322, R326). A script (R95)
is a list of them; a line of a script is a write of its command word to `CMD`. -/
inductive HostAction where
  /-- a 32-bit write of `value` to the register at byte offset `offset` (`10_state.md` R21) -/
  | regWrite (offset value : Word)
  /-- a 32-bit read of the register at byte offset `offset` (R21) -/
  | regRead (offset : Word)
  /-- IN becomes these bytes, at addresses 0 upward (R322) -/
  | supply (bytes : List Byte)
  /-- the byte of IN at `addr` becomes `value` (R327: possible between the commands of a run) -/
  | setByte (addr : Word) (value : Byte)
  /-- hardware reset (R320) -/
  | hardReset
  deriving DecidableEq, Repr

end Sys2Proof
end

