-- ==== Sys2Proof/WellFormed.lean ====
section
/-!
DEFINITION. Which terms are well formed: the fields of a command word (`30_encoding.md` R90, R92, R94) and the host's
actions (`10_state.md` R21, `20_memory.md` R60). A term of `Instr` has no operand (R91), so every one is well formed.
-/
namespace Sys2Proof

/-- The opcodes of the opcode map (R92). -/
def listedOpcodes : List (BitVec 8) :=
  [0x01, 0x10, 0x11, 0x12, 0x20, 0x30, 0x40, 0x50, 0x51, 0x60, 0x61, 0x62, 0x70, 0x71]

/-- The opcode of `HSORT`, the only command that may have `cmp` = 1 (R90). -/
def hsortOpcode : BitVec 8 := 0x20

/-- The opcode is one of the map's (R94: every unlisted opcode is illegal). -/
def CmdFields.opcodeListed (f : CmdFields) : Bool := listedOpcodes.contains f.opcode

/-- `cmp` is 0 in every command but `HSORT` (R90). -/
def CmdFields.cmpAllowed (f : CmdFields) : Bool := f.cmp == 0 || f.opcode == hsortOpcode

/-- Bits 31:9 are 0 (R90). -/
def CmdFields.zeroClear (f : CmdFields) : Bool := f.zero == 0

/-- The three checks on the fields of a command word. -/
def CmdFields.wf (f : CmdFields) : Bool := f.opcodeListed && f.cmpAllowed && f.zeroClear

/-- A host register offset is that of an aligned 32-bit access (`10_state.md` R21). -/
def alignedOffset (offset : Word) : Bool := offset.toNat % 4 == 0

/-- An input of `n` bytes can be presented: `IN_LEN` is 32 bits (`10_state.md` R26). -/
def presentable (n : Nat) : Bool := decide (n < 2 ^ Config.lenW)

/-- A host action the spec defines: register accesses are aligned (R21), IN has 32-bit addresses (`20_memory.md` R60). -/
def HostAction.wf : HostAction → Bool
  | .regWrite offset _ => alignedOffset offset
  | .regRead offset => alignedOffset offset
  | .supply bytes => presentable bytes.length
  | .setByte _ _ => true
  | .hardReset => true

/-- Every command is well formed: it has no operand to check (R91). -/
def Instr.wf : Instr → Bool := fun _ => true

end Sys2Proof
end

