-- ==== Sys2Proof/Decode.lean ====
section
/-!
DEFINITION. Decoding a command word (`30_encoding.md` R92, R93) and encoding a command (R90, R92).
The decoder compares the whole word with the 15 constants of R92; the encoder puts the fields of R90 together. The two
are written from the two forms the spec gives, so that their agreement says something.
-/
namespace Sys2Proof

/-- The opcode map as words, row by row (R92). -/
def commandTable : List (Word × Instr) :=
  [(0x00000001, .rst), (0x00000010, .clr), (0x00000011, .scan), (0x00000012, .pack),
   (0x00000020, .hsortF), (0x00000120, .hsortS), (0x00000030, .tree), (0x00000040, .codes),
   (0x00000050, .whdr), (0x00000051, .rhdr), (0x00000060, .enc), (0x00000061, .flush),
   (0x00000062, .dec), (0x00000070, .compress), (0x00000071, .decompress)]

/-- The command of the first row whose word is `w`. -/
def lookupCommand (w : Word) : List (Word × Instr) → Decoded
  | [] => .illegal
  | (v, i) :: rows => if w = v then .command i else lookupCommand w rows

/-- `decode(w)` of R93: one of the 15 words, or `Illegal`. -/
def decode (w : Word) : Decoded := lookupCommand w commandTable

/-- The opcode column of R92. -/
def Instr.opcode : Instr → BitVec 8
  | .rst => 0x01
  | .clr => 0x10
  | .scan => 0x11
  | .pack => 0x12
  | .hsortF => 0x20
  | .hsortS => 0x20
  | .tree => 0x30
  | .codes => 0x40
  | .whdr => 0x50
  | .rhdr => 0x51
  | .enc => 0x60
  | .flush => 0x61
  | .dec => 0x62
  | .compress => 0x70
  | .decompress => 0x71

/-- The bit that stands for a comparator (R90). -/
def Cmp.bit : Cmp → BitVec 1
  | .freq => 0
  | .sym => 1

/-- The cmp column of R92. -/
def Instr.cmpBit : Instr → BitVec 1
  | .hsortF => Cmp.bit .freq
  | .hsortS => Cmp.bit .sym
  | .rst | .clr | .scan | .pack | .tree | .codes | .whdr | .rhdr | .enc | .flush | .dec | .compress | .decompress => 0

/-- The fields of a command (R90, R92). -/
def Instr.fields (i : Instr) : CmdFields := { zero := 0, cmp := i.cmpBit, opcode := i.opcode }

/-- A word from its fields (R90): `zero` high, `opcode` low. -/
def CmdFields.toWord (f : CmdFields) : Word := f.zero ++ f.cmp ++ f.opcode

/-- The fields of a word (R90). -/
def CmdFields.ofWord (w : Word) : CmdFields :=
  { zero := w.extractLsb' 9 23, cmp := w.extractLsb' 8 1, opcode := w.extractLsb' 0 8 }

/-- The command word of a command. -/
def encode (i : Instr) : Word := i.fields.toWord

/-- The instruction the decoder reads from the low `nbits` bits of `w`, higher bits 0. A command word is one 32-bit
number written to `CMD`, so there is no byte order (R90; log 3). -/
def decodeTableWord (nbits w : Nat) : Option Instr :=
  match decode (BitVec.ofNat 32 (w % 2 ^ nbits)) with
  | .command i => some i
  | .illegal => none

end Sys2Proof
end

