-- ==== Sys2Proof/Machine/Store.lean ====
section
/-!
DEFINITION. A memory as plain data: pairs of an index and its content, indices strictly rising, an index that is not
listed has no value (logs 4 and 5). IN is a store of bytes, `SYM` and `NODE` are stores of records.
-/
namespace Sys2Proof.Machine

/-- Contents by index. An index not listed holds no value. -/
abbrev Store (α : Type) := List (Nat × α)

/-- IN: bytes by address (`20_memory.md` R60); the same type as a list of `Host.Cell`. -/
abbrev Memory := Store Byte

/-- The content at `i`, or none where nothing is listed. -/
def Store.read {α : Type} : Store α → Nat → Option α
  | [], _ => none
  | (k, v) :: m, i => if i = k then some v else Store.read m i

/-- `m` with `v` at `i`, the order of indices kept. -/
def Store.write {α : Type} : Store α → Nat → α → Store α
  | [], i, v => [(i, v)]
  | (k, w) :: m, i, v =>
    if i < k then (i, v) :: (k, w) :: m
    else if i = k then (i, v) :: m
    else (k, w) :: Store.write m i v

/-- Values at indices `i`, `i + 1`, … -/
def Store.ofListFrom {α : Type} : Nat → List α → Store α
  | _, [] => []
  | i, v :: vs => (i, v) :: Store.ofListFrom (i + 1) vs

/-- Values at indices 0 upward. -/
def Store.ofList {α : Type} (vs : List α) : Store α := Store.ofListFrom 0 vs

/-- The values `vs` written at `i`, `i + 1`, … -/
def Store.writeList {α : Type} : Store α → Nat → List α → Store α
  | m, _, [] => m
  | m, i, v :: vs => Store.writeList (Store.write m i v) (i + 1) vs

/-- The canonical form: indices strictly rising. -/
abbrev Store.Rising {α : Type} (m : Store α) : Prop := m.Pairwise fun a b => a.1 < b.1

/-- Every listed index is below `n`. -/
abbrev Store.Below {α : Type} (n : Nat) (m : Store α) : Prop := ∀ c ∈ m, c.1 < n

/-- The canonical form of IN: addresses strictly rising, each a 32-bit number (R60). No entry equals what an unlisted
address reads as, since an unlisted address has no value (log 4). -/
abbrev Memory.wf (m : Memory) : Prop := Store.Rising m ∧ Store.Below (2 ^ Config.lenW) m

end Sys2Proof.Machine
end

