-- ==== Sys2Proof/Machine/State.lean ====
section
/-!
DEFINITION. The state of the block (`10_state.md` R20), what stands beside it (R36), its reset values (R44), and the
reasons the model can stop.
-/
namespace Sys2Proof.Machine

/-- The sequencer's values (`10_state.md` R22). The values 13 and 14 are never held and are not representable (log 13). -/
inductive Phase where
  | idle | cleared | counted | packed | fsorted | treed | coded | ssorted | hdrw | encoded | doneC | hdrr | doneD | error
  deriving DecidableEq, Repr

/-- The error kinds (`60_exceptions.md` R280). The codes 7 to 15 are never held and are not representable (log 13). -/
inductive ErrKind where
  | none | ioFailure | malformedHeader | capacityExceeded | badSequence | illegalCommand | inconsistentInput
  deriving DecidableEq, Repr

/-- A table record `SYM[i]` (`10_state.md` R28). -/
structure SymRec where
  symbol     : Byte
  frequency  : BitVec 32
  code       : CodeWord
  codeLength : BitVec 7
  deriving DecidableEq, Repr

/-- A node record `NODE[j]` (`10_state.md` R31). An optional node index is an index or none (`00_scope.md` R8). -/
structure NodeRec where
  leaf      : Bool
  symbol    : Byte
  frequency : BitVec 32
  left      : Option Nat
  right     : Option Nat
  deriving DecidableEq, Repr

/-- One answer of `IO_ORACLE` to one access (`20_memory.md` R70). -/
inductive IoAnswer where
  | ok | fail
  deriving DecidableEq, Repr

/-- The state. The fields down to `opos` are the table of R20, each of the width it gives; the rest stands beside the
block (R36): IN, OUT, the oracle's answers to come (log 1), the host's script (log 2), the host's last read (log 8). -/
structure State where
  /-- `PHASE`, R22 -/
  phase    : Phase
  /-- `ERR`, R24 -/
  err      : ErrKind
  /-- `ERRSUB`, R24 -/
  errsub   : BitVec 8
  /-- `ERRINFO`, R24 -/
  errinfo  : BitVec 32
  /-- `EMPTY`, R25 -/
  empty    : Bool
  /-- `IN_LEN`, R26 -/
  inLen    : BitVec 32
  /-- `LEN`, R26 -/
  len      : BitVec 32
  /-- `ORIGLEN`, R27 -/
  origLen  : BitVec 32
  /-- `SYM`, R28; an index not listed is unspecified (log 5) -/
  sym      : Store SymRec
  /-- `NSYM`, R29 -/
  nsym     : BitVec 9
  /-- `HSIZE`, R30 -/
  hsize    : BitVec 9
  /-- `NODE`, R31; an index not listed is unspecified (log 5) -/
  node     : Store NodeRec
  /-- `NNODE`, R32 -/
  nnode    : BitVec 15
  /-- `ROOT`, R32 -/
  root     : Option Nat
  /-- `ACC`, R33 -/
  acc      : BitVec 8
  /-- `ACCN`, R33; four bits, since it reaches 8 inside `put_bits` (R230, log 12) -/
  accn     : BitVec 4
  /-- `RBUF`, R34 -/
  rbuf     : BitVec 8
  /-- `RBN`, R34 -/
  rbn      : BitVec 4
  /-- `RPOS`, R34 -/
  rpos     : BitVec 32
  /-- `OPOS`, R35 -/
  opos     : BitVec 40
  /-- IN, R60; an address not listed is not supplied (log 4) -/
  input    : Memory
  /-- OUT, R65, position 0 first -/
  out      : List Byte
  /-- the answers of `IO_ORACLE` still to come; when none is left an access succeeds (R70, log 1) -/
  oracle   : List IoAnswer
  /-- the host's actions still to come (R95, log 2) -/
  script   : List HostAction
  /-- the data of the host's last register read (R21, log 8) -/
  readData : Word
  deriving DecidableEq, Repr

/-- Why a step can stop. Each is safe: the model stops where the spec gives no effect. Only `inputNotSupplied` can
happen in a run from reset. -/
inductive Fault where
  /-- Raised by `InByte` at an address below `LEN` where the host supplied no byte: it broke its duty (R322, R60); the
  spec gives no value. Safe (log 4). -/
  | inputNotSupplied (addr : Nat)
  /-- Raised by `InByte` at an address at or above `LEN`, which does not exist (R60) and which no rule reads (R62). Safe
  (log 15). -/
  | inputOutOfRange (addr : Nat)
  /-- Raised by a read of a record of `SYM` that no rule has written since reset, which R39 and R44 rule out. Safe (log 5). -/
  | unspecifiedSym (index : Nat)
  /-- Raised by a read of a record of `NODE` that no rule has written since reset, which R39 and R44 rule out. Safe (log 5). -/
  | unspecifiedNode (index : Nat)
  /-- Raised by `CODES` at an internal node without a child, which no tree of `TREE` has (R182). Safe (log 16). -/
  | missingChild (index : Nat)
  /-- Raised by `CODES` at a leaf whose symbol has no table record, which R184 rules out. Safe (log 16). -/
  | noRecordForLeaf (symbol : Byte)
  /-- Raised by `DEC` when the walk outlasts the bits of the payload, which cannot be (R236). Safe (log 14). -/
  | walkBound
  deriving DecidableEq, Repr

/-- Why a step can refuse. -/
inductive Refusal where
  /-- Raised by `exec` for an instruction without a meaning: none is left. Safe. -/
  | notModelled (mnemonic : String)
  /-- Raised by a host access at an offset that is not a multiple of 4, which is not defined (R21, U12). Safe (log 9). -/
  | misalignedAccess (offset : Word)
  /-- Raised when the host supplies an input of 2^32 bytes or more, which cannot be presented (U14). Safe (log 10). -/
  | inputTooLong (bytes : Nat)
  deriving DecidableEq, Repr

/-- The state right after hardware reset (`10_state.md` R44, `70_reset_and_hazards.md` R320), nothing supplied by the
host and no answer of the oracle and no action of the host pending. -/
def State.reset : State where
  phase := .idle
  err := .none
  errsub := 0
  errinfo := 0
  empty := false
  inLen := 0
  len := 0
  origLen := 0
  sym := []
  nsym := 0
  hsize := 0
  node := []
  nnode := 0
  root := none
  acc := 0
  accn := 0
  rbuf := 0
  rbn := 0
  rpos := 0
  opos := 0
  input := []
  out := []
  oracle := []
  script := []
  readData := 0

end Sys2Proof.Machine
end

