-- ==== Sys2Proof/Machine/Ops.lean ====
section
/-!
DEFINITION. The shared operations: how a rule's pseudocode runs and ends (`00_scope.md` R10, R11), taking an error and
coming back from it (`60_exceptions.md` R285, R287; `46_top_level.md` R263), starting a run (`10_state.md` R43), the byte
primitives of IN and OUT (`20_memory.md` R63 to R70), the records of `SYM` and `NODE`, and the legality of a command
(`46_top_level.md` R261, R262).
-/
namespace Sys2Proof.Machine

/-- How a piece of pseudocode ends: it goes on with a value, it raised (R10), or the model stops. -/
inductive Res (α : Type) where
  | ok (a : α) (s : State)
  | raised (s : State)
  | stop (f : Fault)

/-- Go on with `k` unless the first piece raised or stopped: nothing after a raise is executed (R10). -/
def Res.bind {α β : Type} : Res α → (α → State → Res β) → Res β
  | .ok a s, k => k a s
  | .raised s, _ => .raised s
  | .stop f, _ => .stop f

/-- A command's end: the state it left, raised or not (R260, R286), or the model's stop. -/
def Res.toOutcome : Res Unit → Host.Outcome State Fault Refusal
  | .ok _ s => .next s
  | .raised s => .next s
  | .stop f => .fault f

/-- `for k in i .. i+n-1` (R11): `n` rounds, the first with `i`. -/
def forUp (body : Nat → State → Res Unit) : (n i : Nat) → State → Res Unit
  | 0, _, s => .ok () s
  | n + 1, i, s => (body i s).bind fun _ s => forUp body n (i + 1) s

/-! ### Errors: entry and exit -/

/-- `raise Kind(sub, info)`, R285: the kind, the sub-cause and `info mod 2^32` are saved, `PHASE` becomes `ERROR`, and
nothing else changes. -/
def raise (kind : ErrKind) (sub : BitVec 8) (info : Nat) (s : State) : State :=
  { s with err := kind, errsub := sub, errinfo := BitVec.ofNat 32 info, phase := .error }

/-- End the running command with a raise (R10, R285). -/
def throwErr {α : Type} (kind : ErrKind) (sub : BitVec 8) (info : Nat) (s : State) : Res α :=
  .raised (raise kind sub info s)

/-- The state after `RST`, the only command that leaves `ERROR` (R263, R287): the column "after RST" of R44. `IN_LEN`
stays; `SYM` and `NODE` are unspecified, so they hold no value (log 6); OUT is empty; the host's side stays. -/
def resetByCommand (s : State) : State :=
  { State.reset with
    inLen := s.inLen, input := s.input, oracle := s.oracle, script := s.script, readData := s.readData }

/-- The state after hardware reset (R320): the column "after hardware reset" of R44. The host's side stays (log 17). -/
def hardwareReset (s : State) : State :=
  { State.reset with input := s.input, oracle := s.oracle, script := s.script, readData := s.readData }

/-! ### The start of a run and the end of a command -/

/-- `run_init()`, R43. -/
def runInit (s : State) : State :=
  { s with len := s.inLen, empty := false, acc := 0, accn := 0, rbuf := 0, rbn := 0, rpos := 0, opos := 0, out := [],
           nnode := 0, root := none }

/-- `PHASE <- p`, the end of every command (R22). -/
def setPhase (p : Phase) (s : State) : State := { s with phase := p }

/-- A command's pseudocode has ended: it writes `PHASE` (R22). -/
def finish (p : Phase) (s : State) : Res Unit := .ok () (setPhase p s)

/-! ### IN and OUT -/

/-- The oracle's next answer; an access succeeds where no answer is left (R70, log 1). -/
def nextAnswer (s : State) : IoAnswer :=
  match s.oracle with
  | [] => .ok
  | a :: _ => a

/-- One access has been issued: its answer is used up. -/
def popAnswer (s : State) : State := { s with oracle := s.oracle.tail }

/-- `InByte(a)`, R63. Its precondition `a < LEN` is R62; an address that holds no byte is log 4. -/
def inByte (a : Nat) (s : State) : Res Byte :=
  if s.len.toNat ≤ a then .stop (.inputOutOfRange a)
  else
    match nextAnswer s with
    | .fail => throwErr .ioFailure 1 a (popAnswer s)
    | .ok =>
      match Store.read s.input a with
      | some b => .ok b (popAnswer s)
      | none => .stop (.inputNotSupplied a)

/-- `MemWrite(OUT, OPOS, 1, v); OPOS <- OPOS + 1` of R66: OUT becomes OUT ++ [v]. -/
def emit (v : Byte) (s : State) : State := { s with out := s.out ++ [v], opos := s.opos + 1 }

/-- `OutByte(v)`, R66. -/
def outByte (v : Byte) (s : State) : Res Unit :=
  match nextAnswer s with
  | .fail => throwErr .ioFailure 2 (s.opos.toNat % 2 ^ 32) (popAnswer s)
  | .ok => .ok () (emit v (popAnswer s))

/-- `InLE(a, n)`, R68, with `v` the value of the bytes read so far and `k` their number. -/
def inLEFrom (a : Nat) : (n k v : Nat) → State → Res Nat
  | 0, _, v, s => .ok v s
  | n + 1, k, v, s => (inByte (a + k) s).bind fun b s => inLEFrom a n (k + 1) (v + b.toNat * 2 ^ (8 * k)) s

/-- `InLE(a, n)`, R68: an `n`-byte unsigned integer, least significant byte first. -/
def inLE (a n : Nat) (s : State) : Res Nat := inLEFrom a n 0 0 s

/-- The byte `v[8k+7 : 8k]` of a number (R69). -/
def byteOf (v k : Nat) : Byte := BitVec.ofNat 8 (v / 2 ^ (8 * k))

/-- `OutLE(v, n)`, R69. -/
def outLE (v n : Nat) (s : State) : Res Unit := forUp (fun k => outByte (byteOf v k)) n 0 s

/-! ### The records of SYM and NODE -/

/-- `SYM[i]`, R28. -/
def readSym (i : Nat) (s : State) : Res SymRec :=
  match Store.read s.sym i with
  | some r => .ok r s
  | none => .stop (.unspecifiedSym i)

/-- `SYM[i] <- r`, R8. -/
def writeSym (i : Nat) (r : SymRec) (s : State) : State := { s with sym := Store.write s.sym i r }

/-- `NODE[j]`, R31. -/
def readNode (j : Nat) (s : State) : Res NodeRec :=
  match Store.read s.node j with
  | some r => .ok r s
  | none => .stop (.unspecifiedNode j)

/-- `NODE[j] <- r`, R8. -/
def writeNode (j : Nat) (r : NodeRec) (s : State) : State := { s with node := Store.write s.node j r }

/-- `NODE[NNODE] <- r; NNODE <- NNODE + 1` (R32: allocated in index order). -/
def allocNode (r : NodeRec) (s : State) : State :=
  { s with node := Store.write s.node s.nnode.toNat r, nnode := s.nnode + 1 }

/-- The leaf of a symbol: both children none (R14, R31). -/
def leafNode (symbol : Byte) (frequency : BitVec 32) : NodeRec :=
  { leaf := true, symbol := symbol, frequency := frequency, left := none, right := none }

/-- An internal node; its symbol is the sentinel 0x00 (R31). -/
def innerNode (frequency : BitVec 32) (left right : Option Nat) : NodeRec :=
  { leaf := false, symbol := 0x00, frequency := frequency, left := left, right := right }

/-! ### Legality of a command -/

/-- A run may start here: `IDLE`, `DONE_C`, `DONE_D` (R262). -/
def startsRun : Phase → Bool
  | .idle | .doneC | .doneD => true
  | .cleared | .counted | .packed | .fsorted | .treed | .coded | .ssorted | .hdrw | .encoded | .hdrr | .error => false

/-- The column "legal in" of R262. -/
def legalIn : Instr → Phase → Bool
  | .rst, _ => true
  | .clr, p => startsRun p
  | .scan, p => p == .cleared
  | .pack, p => p == .counted
  | .hsortF, p => p == .packed
  | .tree, p => p == .fsorted
  | .codes, p => p == .treed
  | .hsortS, p => p == .coded
  | .whdr, p => p == .ssorted
  | .enc, p => p == .hdrw
  | .flush, p => p == .encoded
  | .rhdr, p => startsRun p
  | .dec, p => p == .hdrr
  | .compress, p => startsRun p
  | .decompress, p => startsRun p

/-- The dispatch of a command other than `RST` (R261): ignored in `ERROR`; `BadSequence(1, w)` in a phase where it is not
legal, `w` its command word; else its pseudocode. -/
def command (i : Instr) (body : State → Res Unit) (s : State) : Host.Outcome State Fault Refusal :=
  if s.phase = .error then .next s
  else if legalIn i s.phase then (body s).toOutcome
  else .next (raise .badSequence 1 (encode i).toNat s)

/-- The dispatch of a word that is no command (R261): ignored in `ERROR`, else `IllegalCommand(1, w)` (R94). -/
def illegalWord (w : Word) (s : State) : State :=
  if s.phase = .error then s else raise .illegalCommand 1 w.toNat s

end Sys2Proof.Machine
end

