-- ==== Sys2Proof/Machine/Operands.lean ====
section
/-!
DEFINITION. The one operand form of the block: the comparator field `cmp` of `HSORT` (`30_encoding.md` R91, `41_heap.md`
R140, R146). Everything else a command works on is implicit state.
-/
namespace Sys2Proof.Machine

/-- `before(cmp, a, b)`, R140: strict, unsigned. -/
def before : Cmp → SymRec → SymRec → Bool
  | .freq, a, b => decide (a.frequency < b.frequency)
  | .sym, a, b => decide (a.symbol < b.symbol)

/-- The phase `HSORT` leaves: `(cmp == FREQ) ? FSORTED : SSORTED`, R146. -/
def sortedPhase : Cmp → Phase
  | .freq => .fsorted
  | .sym => .ssorted

end Sys2Proof.Machine
end

