-- ==== Sys2Proof/Machine/Flags.lean ====
section
/-!
DEFINITION. The status: the one flag `EMPTY` (`10_state.md` R25) and the word `STATUS` (R23) with the codes it shows
(R22, `60_exceptions.md` R280).
-/
namespace Sys2Proof.Machine

/-- `EMPTY` as `PACK` and `RHDR` write it: 1 when the run has no symbols (R25, R124, R206). -/
def emptyFlag (symbols : Nat) : Bool := symbols == 0

/-- The value of `PHASE` (R22). -/
def Phase.code : Phase → BitVec 4
  | .idle => 0
  | .cleared => 1
  | .counted => 2
  | .packed => 3
  | .fsorted => 4
  | .treed => 5
  | .coded => 6
  | .ssorted => 7
  | .hdrw => 8
  | .encoded => 9
  | .doneC => 10
  | .hdrr => 11
  | .doneD => 12
  | .error => 15

/-- The value of `ERR` (R280). -/
def ErrKind.code : ErrKind → BitVec 4
  | .none => 0
  | .ioFailure => 1
  | .malformedHeader => 2
  | .capacityExceeded => 3
  | .badSequence => 4
  | .illegalCommand => 5
  | .inconsistentInput => 6

/-- `BUSY` always reads 0 (R23). -/
def busyBit : BitVec 1 := 0

/-- `STATUS`, R23: reserved 31:24, `ERRSUB` 23:16, reserved 15:10, `BUSY` 9, `EMPTY` 8, `ERR` 7:4, `PHASE` 3:0. -/
def statusWord (s : State) : Word :=
  (0 : BitVec 8) ++ s.errsub ++ (0 : BitVec 6) ++ busyBit ++ BitVec.ofBool s.empty ++ s.err.code ++ s.phase.code

end Sys2Proof.Machine
end

