-- ==== Sys2Proof/Machine/SymbolTable.lean ====
section
/-!
DEFINITION. The symbol table and the frequency counter: `CLR`, `SCAN`, `PACK`, and `find` (`40_symbol_table.md`).
-/
namespace Sys2Proof.Machine

/-- The record `CLR` writes at index `i` (R120). -/
def freshRecord (i : Nat) : SymRec := { symbol := BitVec.ofNat 8 i, frequency := 0, code := 0, codeLength := 0 }

/-- The table `CLR` leaves: all 256 records written (R120). -/
def freshTable : Store SymRec := Store.ofList ((List.range Config.alphabet).map freshRecord)

/-- `CLR`, R120. -/
def clrBody (s : State) : Res Unit :=
  finish .cleared { runInit s with sym := freshTable, nsym := 256, hsize := 256, origLen := 0 }

/-- `SYM[b].frequency <- SYM[b].frequency + 1` (R122). -/
def countByte (b : Byte) (s : State) : Res Unit :=
  (readSym b.toNat s).bind fun r s => .ok () (writeSym b.toNat { r with frequency := r.frequency + 1 } s)

/-- One round of `SCAN` (R122). -/
def scanByte (a : Nat) (s : State) : Res Unit := (inByte a s).bind countByte

/-- `SCAN`, R122. -/
def scanBody (s : State) : Res Unit :=
  (forUp scanByte s.len.toNat 0 s).bind fun _ s => finish .counted { s with origLen := s.len }

/-- The loop of `PACK` (R124): `n` indices from `i` on, `j` records kept so far; it gives the number kept. -/
def packFrom : (n i j : Nat) → State → Res Nat
  | 0, _, j, s => .ok j s
  | n + 1, i, j, s =>
    (readSym i s).bind fun r s =>
      if r.frequency ≠ 0 then packFrom n (i + 1) (j + 1) (writeSym j r s)
      else packFrom n (i + 1) j s

/-- `PACK`, R124. -/
def packBody (s : State) : Res Unit :=
  (packFrom Config.alphabet 0 0 s).bind fun j s =>
    finish .packed { s with nsym := BitVec.ofNat 9 j, hsize := BitVec.ofNat 9 j, empty := emptyFlag j }

/-- The loop of `find(s)` (R125): `n` indices from `i` on. -/
def findFrom (symbol : Byte) : (n i : Nat) → State → Res (Option Nat)
  | 0, _, s => .ok none s
  | n + 1, i, s =>
    (readSym i s).bind fun r s => if r.symbol = symbol then .ok (some i) s else findFrom symbol n (i + 1) s

/-- `find(s)`, R125: the first record of the table with this symbol. -/
def find (symbol : Byte) (s : State) : Res (Option Nat) := findFrom symbol s.nsym.toNat 0 s

/-- The meaning of `CLR`. -/
def execClr (s : State) : Host.Outcome State Fault Refusal := command .clr clrBody s

/-- The meaning of `SCAN`. -/
def execScan (s : State) : Host.Outcome State Fault Refusal := command .scan scanBody s

/-- The meaning of `PACK`. -/
def execPack (s : State) : Host.Outcome State Fault Refusal := command .pack packBody s

end Sys2Proof.Machine
end

