-- ==== Sys2Proof/Machine/Heap.lean ====
section
/-!
DEFINITION. The binary heap and the sort: `sift_down`, `heap_build`, `heap_extract_min`, `heap_sort`, `HSORT`
(`41_heap.md`, decision D13). The array `SYM[0 .. NSYM-1]` is taken out as a list, sorted by the steps of the rules, and
written back; `HSIZE` is the argument `h` in between and `NSYM` again at the end (R145). The steps are the rules' own: the
sort is not stable (R147).
-/
namespace Sys2Proof.Machine

/-- `before(cmp, SYM[a], SYM[b])` on a list of records. -/
def beforeAt (cmp : Cmp) (xs : List SymRec) (a b : Nat) : Bool :=
  match xs[a]?, xs[b]? with
  | some x, some y => before cmp x y
  | _, _ => false

/-- `swap(SYM[a], SYM[b])`, R8. -/
def swapAt (xs : List SymRec) (a b : Nat) : List SymRec :=
  match xs[a]?, xs[b]? with
  | some x, some y => (xs.set a y).set b x
  | _, _ => xs

/-- The index `m` of a round of `sift_down` (R142): the left child is tested first, the right child must be strictly
before the better of parent and left child. -/
def siftChoice (cmp : Cmp) (n i : Nat) (xs : List SymRec) : Nat :=
  let l := 2 * i + 1
  let r := 2 * i + 2
  let m := if l < n ∧ beforeAt cmp xs l i = true then l else i
  if r < n ∧ beforeAt cmp xs r m = true then r else m

/-- `sift_down(cmp, i, n)`, R142. `i` grows in every round, so `n` rounds are enough (log 14). -/
def siftDown (cmp : Cmp) (n : Nat) : (rounds i : Nat) → List SymRec → List SymRec
  | 0, _, xs => xs
  | k + 1, i, xs =>
    let m := siftChoice cmp n i xs
    if m = i then xs else siftDown cmp n k m (swapAt xs i m)

/-- The loop of `heap_build` (R143): `i` from `k - 1` down to 0. -/
def buildFrom (cmp : Cmp) (n : Nat) : (k : Nat) → List SymRec → List SymRec
  | 0, xs => xs
  | k + 1, xs => buildFrom cmp n k (siftDown cmp n n k xs)

/-- `heap_build(cmp)`, R143, with `n` = `HSIZE`. -/
def heapBuild (cmp : Cmp) (n : Nat) (xs : List SymRec) : List SymRec := buildFrom cmp n (n / 2) xs

/-- `heap_extract_min(cmp)`, R144, with `HSIZE` = `h` + 1 before and `h` after: root and last change places, the new root
is sifted down; the extracted record stands at index `h`. -/
def extractMin (cmp : Cmp) (h : Nat) (xs : List SymRec) : List SymRec := siftDown cmp h h 0 (swapAt xs 0 h)

/-- `while HSIZE > 1: heap_extract_min(cmp)`, R145, `HSIZE` the first number. -/
def extractAll (cmp : Cmp) : (h : Nat) → List SymRec → List SymRec
  | 0, xs => xs
  | h + 1, xs => if h = 0 then xs else extractAll cmp h (extractMin cmp h xs)

/-- The reversal in place of R145: rounds `k` = `i`, `i` + 1, … of `swap(SYM[k], SYM[n-1-k])`. -/
def reverseFrom (n : Nat) : (rounds i : Nat) → List SymRec → List SymRec
  | 0, _, xs => xs
  | c + 1, i, xs => reverseFrom n c (i + 1) (swapAt xs i (n - 1 - i))

/-- `heap_sort(cmp)` over the whole list, R145. -/
def heapSort (cmp : Cmp) (xs : List SymRec) : List SymRec :=
  let n := xs.length
  reverseFrom n (n / 2) 0 (extractAll cmp n (heapBuild cmp n xs))

/-- The records `SYM[i .. i+n-1]`. -/
def readSyms : (n i : Nat) → State → Res (List SymRec)
  | 0, _, s => .ok [] s
  | n + 1, i, s => (readSym i s).bind fun r s => (readSyms n (i + 1) s).bind fun rs s => .ok (r :: rs) s

/-- `HSORT(cmp)`, R146: `heap_sort` over `SYM[0 .. NSYM-1]`, `HSIZE` = `NSYM` on return. -/
def hsortBody (cmp : Cmp) (s : State) : Res Unit :=
  (readSyms s.nsym.toNat 0 s).bind fun rs s =>
    finish (sortedPhase cmp) { s with sym := Store.writeList s.sym 0 (heapSort cmp rs), hsize := s.nsym }

/-- The meaning of `HSORT.F`. -/
def execHsortF (s : State) : Host.Outcome State Fault Refusal := command .hsortF (hsortBody .freq) s

/-- The meaning of `HSORT.S`. -/
def execHsortS (s : State) : Host.Outcome State Fault Refusal := command .hsortS (hsortBody .sym) s

end Sys2Proof.Machine
end

