-- ==== Sys2Proof/Machine/TreeBuilder.lean ====
section
/-!
DEFINITION. The tree builder: `pick` and `TREE` (`42_tree_builder.md`, decision D14).
-/
namespace Sys2Proof.Machine

/-- The two queue heads of R161: `lq` of the leaves `NODE[lq .. N-1]`, `iq` of the internal nodes `NODE[iq .. NNODE-1]`. -/
structure Heads where
  lq : Nat
  iq : Nat
  deriving DecidableEq, Repr

/-- Take the record at the head of the leaf queue. -/
def takeLeaf (h : Heads) (s : State) : Res (Nat × Heads) := .ok (h.lq, { h with lq := h.lq + 1 }) s

/-- Take the record at the head of the internal-node queue. -/
def takeInner (h : Heads) (s : State) : Res (Nat × Heads) := .ok (h.iq, { h with iq := h.iq + 1 }) s

/-- `pick()`, R161: the lower frequency, the leaf on a tie. -/
def pick (n : Nat) (h : Heads) (s : State) : Res (Nat × Heads) :=
  if h.lq < n then
    if h.iq < s.nnode.toNat then
      (readNode h.lq s).bind fun l s =>
        (readNode h.iq s).bind fun r s => if l.frequency ≤ r.frequency then takeLeaf h s else takeInner h s
    else takeLeaf h s
  else takeInner h s

/-- `NODE[i]` becomes the leaf of `SYM[i]` (R162, source (a)). -/
def copyLeaf (i : Nat) (s : State) : Res Unit :=
  (readSym i s).bind fun r s => .ok () (writeNode i (leafNode r.symbol r.frequency) s)

/-- One merge of R162: two picks, then the new node is appended to source (b). -/
def merge (n : Nat) (h : Heads) (s : State) : Res Heads :=
  (pick n h s).bind fun a s =>
    (pick n a.2 s).bind fun b s =>
      (readNode a.1 s).bind fun ra s =>
        (readNode b.1 s).bind fun rb s =>
          .ok b.2 (allocNode (innerNode (ra.frequency + rb.frequency) (some a.1) (some b.1)) s)

/-- `repeat k times` a merge (R162). -/
def mergeTimes (n : Nat) : (k : Nat) → Heads → State → Res Unit
  | 0, _, s => .ok () s
  | k + 1, h, s => (merge n h s).bind fun h s => mergeTimes n k h s

/-- `TREE` after the leaf copy (R162): no tree, one leaf, or `N - 1` merges with the last node the root. -/
def growTree (n : Nat) (s : State) : Res Unit :=
  if n = 0 then .ok () { s with root := none }
  else if n = 1 then .ok () { s with root := some 0 }
  else (mergeTimes n (n - 1) { lq := 0, iq := n } s).bind fun _ s => .ok () { s with root := some (s.nnode.toNat - 1) }

/-- `TREE`, R162. -/
def treeBody (s : State) : Res Unit :=
  (forUp copyLeaf s.nsym.toNat 0 s).bind fun _ s =>
    (growTree s.nsym.toNat { s with nnode := BitVec.ofNat 15 s.nsym.toNat }).bind fun _ s => finish .treed s

/-- The meaning of `TREE`. -/
def execTree (s : State) : Host.Outcome State Fault Refusal := command .tree treeBody s

end Sys2Proof.Machine
end

