-- ==== Sys2Proof/Machine/CodeTable.lean ====
section
/-!
DEFINITION. The code-generator tree walker: `visit` and `CODES` (`43_code_table.md`, decision D17).
-/
namespace Sys2Proof.Machine

/-- A leaf of the walk: the record of its symbol gets the path's code and length (R182, R181). -/
def assignCode (symbol : Byte) (code : CodeWord) (len : Nat) (s : State) : Res Unit :=
  (find symbol s).bind fun found s =>
    match found with
    | none => .stop (.noRecordForLeaf symbol)
    | some i =>
      (readSym i s).bind fun r s => .ok () (writeSym i { r with code := code, codeLength := BitVec.ofNat 7 len } s)

/-- The child a branch leads to; both children of an internal node exist in a tree `TREE` built (R182). -/
def childOf (n : Nat) (child : Option Nat) (s : State) : Res Nat :=
  match child with
  | some c => .ok c s
  | none => .stop (.missingChild n)

/-- `visit(n, code, len)`, R182, with `room` = 64 - `len`: how many bits a code may still grow. Left subtree first; the
left branch appends a 0 at bit `len`, the right branch a 1; an internal node at depth 64 raises. -/
def visit : (room : Nat) → (n : Nat) → (code : CodeWord) → State → Res Unit
  | 0, n, code, s =>
    (readNode n s).bind fun r s =>
      if r.leaf then assignCode r.symbol code Config.codeW s else throwErr .capacityExceeded 1 n s
  | room + 1, n, code, s =>
    (readNode n s).bind fun r s =>
      if r.leaf then assignCode r.symbol code (Config.codeW - (room + 1)) s
      else
        (childOf n r.left s).bind fun l s =>
          (visit room l code s).bind fun _ s =>
            (childOf n r.right s).bind fun c s =>
              visit room c (code + BitVec.twoPow 64 (Config.codeW - (room + 1))) s

/-- `CODES`, R182. -/
def codesBody (s : State) : Res Unit :=
  match s.root with
  | none => finish .coded s
  | some n => (visit Config.codeW n 0 s).bind fun _ s => finish .coded s

/-- The meaning of `CODES`. -/
def execCodes (s : State) : Host.Outcome State Fault Refusal := command .codes codesBody s

end Sys2Proof.Machine
end

