-- ==== Sys2Proof/Machine/Container.lean ====
section
/-!
DEFINITION. The container codec: `WHDR`, `RHDR`, `insert` (`44_container.md`, `30_encoding.md` R100, decision D18).
-/
namespace Sys2Proof.Machine

/-! ### Writing the header -/

/-- One header entry: symbolValue, codeLength, codeValue (R201). -/
def writeEntry (i : Nat) (s : State) : Res Unit :=
  (readSym i s).bind fun r s =>
    (outByte r.symbol s).bind fun _ s =>
      (outByte (r.codeLength.zeroExtend 8) s).bind fun _ s => outLE r.code.toNat Config.hdrCodeBytes s

/-- `WHDR`, R201. -/
def whdrBody (s : State) : Res Unit :=
  (outLE s.nsym.toNat Config.hdrCountBytes s).bind fun _ s =>
    (outLE s.origLen.toNat Config.hdrLenBytes s).bind fun _ s =>
      (forUp writeEntry s.nsym.toNat 0 s).bind fun _ s => finish .hdrw s

/-! ### Rebuilding the tree -/

/-- A place that holds an optional node index (R207): `ROOT`, or a child field of a node. -/
inductive Slot where
  | root
  | left (n : Nat)
  | right (n : Nat)
  deriving DecidableEq, Repr

/-- What a slot holds. -/
def readSlot : Slot → State → Res (Option Nat)
  | .root, s => .ok s.root s
  | .left n, s => (readNode n s).bind fun r s => .ok r.left s
  | .right n, s => (readNode n s).bind fun r s => .ok r.right s

/-- `slot <- some j`. -/
def writeSlot : Slot → Nat → State → Res Unit
  | .root, j, s => .ok () { s with root := some j }
  | .left n, j, s => (readNode n s).bind fun r s => .ok () (writeNode n { r with left := some j } s)
  | .right n, j, s => (readNode n s).bind fun r s => .ok () (writeNode n { r with right := some j } s)

/-- `NODE[NNODE] <- r; slot <- some NNODE; NNODE <- NNODE + 1` (R207); it gives the new node's index. -/
def attach (slot : Slot) (r : NodeRec) (s : State) : Res Nat :=
  (writeSlot slot s.nnode.toNat (allocNode r s)).bind fun _ s' => .ok s.nnode.toNat s'

/-- The node a slot holds, an internal node created on demand (R207). -/
def nodeAt (slot : Slot) (s : State) : Res Nat :=
  (readSlot slot s).bind fun held s =>
    match held with
    | some n => .ok n s
    | none => attach slot (innerNode 0 none none) s

/-- The loop of `insert` (R207): `rounds` bits of `c` from bit `k` on; it gives the slot at the path's end. -/
def walkSlots (c : CodeWord) (entry : Nat) : (rounds k : Nat) → Slot → State → Res Slot
  | 0, _, slot, s => .ok slot s
  | rounds + 1, k, slot, s =>
    (nodeAt slot s).bind fun n s =>
      (readNode n s).bind fun r s =>
        if r.leaf then throwErr .malformedHeader 6 entry s
        else walkSlots c entry rounds (k + 1) (if c.getLsbD k then .right n else .left n) s

/-- `insert(s, c, L, i)`, R207. -/
def insertLeaf (symbol : Byte) (c : CodeWord) (len entry : Nat) (s : State) : Res Unit :=
  (walkSlots c entry len 0 .root s).bind fun slot s =>
    (readSlot slot s).bind fun held s =>
      match held with
      | some _ => throwErr .malformedHeader 7 entry s
      | none => (attach slot (leafNode symbol 0) s).bind fun _ s => .ok () s

/-! ### Reading the header -/

/-- One header entry (R206): all ten bytes are read, then sub-cause 5, then `insert`. -/
def readEntry (i : Nat) (s : State) : Res Unit :=
  let base := Config.hdrFixedBytes + Config.hdrEntryBytes * i
  (inByte base s).bind fun symbol s =>
    (inByte (base + 1) s).bind fun len s =>
      (inLE (base + 2) Config.hdrCodeBytes s).bind fun c s =>
        if len.toNat > Config.codeW then throwErr .malformedHeader 5 i s
        else insertLeaf symbol (BitVec.ofNat 64 c) len.toNat i s

/-- The checks on the counts and the entries (R206), `cnt` and `olen` read. -/
def readEntries (cnt olen : Nat) (s : State) : Res Unit :=
  if cnt > Config.nsymMax then throwErr .malformedHeader 2 cnt s
  else if Config.hdrFixedBytes + Config.hdrEntryBytes * cnt > s.len.toNat then throwErr .malformedHeader 3 cnt s
  else if cnt = 0 ∧ olen ≠ 0 then throwErr .malformedHeader 4 olen s
  else
    (forUp readEntry cnt 0
      { s with nsym := BitVec.ofNat 9 cnt, origLen := BitVec.ofNat 32 olen, empty := emptyFlag cnt }).bind fun _ s =>
        finish .hdrr { s with rpos := BitVec.ofNat 32 (Config.hdrFixedBytes + Config.hdrEntryBytes * cnt) }

/-- `RHDR` after `run_init` (R206). -/
def readHeader (s : State) : Res Unit :=
  if s.len.toNat < Config.hdrFixedBytes then throwErr .malformedHeader 1 s.len.toNat s
  else
    (inLE 0 Config.hdrCountBytes s).bind fun cnt s =>
      (inLE Config.hdrCountBytes Config.hdrLenBytes s).bind fun olen s => readEntries cnt olen s

/-- `RHDR`, R206. -/
def rhdrBody (s : State) : Res Unit := readHeader { runInit s with nsym := 0, origLen := 0 }

/-- The meaning of `WHDR`. -/
def execWhdr (s : State) : Host.Outcome State Fault Refusal := command .whdr whdrBody s

/-- The meaning of `RHDR`. -/
def execRhdr (s : State) : Host.Outcome State Fault Refusal := command .rhdr rhdrBody s

end Sys2Proof.Machine
end

