-- ==== Sys2Proof/Machine/Bitstream.lean ====
section
/-!
DEFINITION. The bit-stream writer, the reader and the decoder: `put_bits`, `ENC`, `FLUSH`, `get_bit`, `DEC`
(`45_bitstream.md`, decisions D9, D10, D19, D22).
-/
namespace Sys2Proof.Machine

/-! ### The writer -/

/-- The accumulator with a bit placed at position `ACCN` (R230). -/
def placeBit (bit : Bool) (s : State) : State :=
  { s with acc := s.acc + (if bit then BitVec.twoPow 8 s.accn.toNat else 0), accn := s.accn + 1 }

/-- The accumulator emptied (R230, R233). -/
def clearAcc (s : State) : State := { s with acc := 0, accn := 0 }

/-- One round of `put_bits` (R230). -/
def putBit (bit : Bool) (s : State) : Res Unit :=
  if (placeBit bit s).accn = 8 then
    (outByte (placeBit bit s).acc (placeBit bit s)).bind fun _ s => .ok () (clearAcc s)
  else .ok () (placeBit bit s)

/-- `put_bits(v, n)`, R230: bit 0 first. -/
def putBits (v : CodeWord) (n : Nat) (s : State) : Res Unit := forUp (fun k => putBit (v.getLsbD k)) n 0 s

/-- The code of a byte goes to the payload; a byte without record raises (R232). -/
def encodeByte (a : Nat) (b : Byte) (s : State) : Res Unit :=
  (find b s).bind fun found s =>
    match found with
    | none => throwErr .inconsistentInput 1 a s
    | some i => (readSym i s).bind fun r s => putBits r.code r.codeLength.toNat s

/-- One round of `ENC` (R232). -/
def encStep (a : Nat) (s : State) : Res Unit := (inByte a s).bind fun b s => encodeByte a b s

/-- `ENC`, R232. -/
def encBody (s : State) : Res Unit := (forUp encStep s.origLen.toNat 0 s).bind fun _ s => finish .encoded s

/-- `FLUSH`, R233. -/
def flushBody (s : State) : Res Unit :=
  if s.accn.toNat > 0 then (outByte s.acc s).bind fun _ s => finish .doneC (clearAcc s) else finish .doneC s

/-! ### The reader -/

/-- Fetch the next payload byte when the buffer is empty (R234). -/
def refill (s : State) : Res Unit :=
  if s.rbn = 0 then
    if s.len.toNat ≤ s.rpos.toNat then throwErr .malformedHeader 9 s.rpos.toNat s
    else (inByte s.rpos.toNat s).bind fun b s => .ok () { s with rbuf := b, rpos := s.rpos + 1, rbn := 8 }
  else .ok () s

/-- `get_bit()`, R234: bit 0 of the buffer first. -/
def getBit (s : State) : Res Bool :=
  (refill s).bind fun _ s => .ok (s.rbuf.getLsbD 0) { s with rbuf := s.rbuf >>> 1, rbn := s.rbn - 1 }

/-! ### The decoder -/

/-- The payload bits not yet delivered: those of the buffer and those of the bytes from `RPOS` on. -/
def bitsLeft (s : State) : Nat := s.rbn.toNat + 8 * (s.len.toNat - s.rpos.toNat)

/-- The inner loop of `DEC` (R236): from node `n` down to a leaf, whose record it gives. `decoded` is the number of
symbols decoded so far. A round takes a bit, so the bits left bound the rounds (log 14). -/
def walkDown (decoded : Nat) : (rounds : Nat) → (n : Nat) → State → Res NodeRec
  | 0, _, _ => .stop .walkBound
  | rounds + 1, n, s =>
    (readNode n s).bind fun r s =>
      if r.leaf then .ok r s
      else
        (getBit s).bind fun bit s =>
          match if bit then r.right else r.left with
          | none => throwErr .malformedHeader 10 decoded s
          | some c => walkDown decoded rounds c s

/-- One symbol of `DEC` (R236), the `decoded`-th from 0. -/
def decodeSymbol (decoded : Nat) (s : State) : Res Unit :=
  match s.root with
  | none => throwErr .malformedHeader 8 0 s
  | some n => (walkDown decoded (bitsLeft s + 1) n s).bind fun r s => outByte r.symbol s

/-- `DEC`, R236: `ORIGLEN` symbols; `ORIGLEN - remaining` counts up from 0. -/
def decBody (s : State) : Res Unit := (forUp decodeSymbol s.origLen.toNat 0 s).bind fun _ s => finish .doneD s

/-- The meaning of `ENC`. -/
def execEnc (s : State) : Host.Outcome State Fault Refusal := command .enc encBody s

/-- The meaning of `FLUSH`. -/
def execFlush (s : State) : Host.Outcome State Fault Refusal := command .flush flushBody s

/-- The meaning of `DEC`. -/
def execDec (s : State) : Host.Outcome State Fault Refusal := command .dec decBody s

end Sys2Proof.Machine
end

