-- ==== Sys2Proof/Machine/TopLevel.lean ====
section
/-!
DEFINITION. Reset by command and the two whole flows: `RST`, `COMPRESS`, `DECOMPRESS` (`46_top_level.md` R263, R265, R266).
-/
namespace Sys2Proof.Machine

/-- The pseudocode of two commands one after the other; the first raise ends the whole (R265, R266). -/
def andThen (first second : State → Res Unit) (s : State) : Res Unit := (first s).bind fun _ s => second s

/-- `COMPRESS`, R265: the ten commands in order, as one command. -/
def compressBody (s : State) : Res Unit :=
  (andThen clrBody <| andThen scanBody <| andThen packBody <| andThen (hsortBody .freq) <| andThen treeBody <|
    andThen codesBody <| andThen (hsortBody .sym) <| andThen whdrBody <| andThen encBody flushBody) s

/-- `DECOMPRESS`, R266: `RHDR`, then `DEC`, as one command. -/
def decompressBody (s : State) : Res Unit := andThen rhdrBody decBody s

/-- The meaning of `RST`: legal in every phase, `ERROR` included (R261, R263). -/
def execRst (s : State) : Host.Outcome State Fault Refusal := .next (resetByCommand s)

/-- The meaning of `COMPRESS`. -/
def execCompress (s : State) : Host.Outcome State Fault Refusal := command .compress compressBody s

/-- The meaning of `DECOMPRESS`. -/
def execDecompress (s : State) : Host.Outcome State Fault Refusal := command .decompress decompressBody s

end Sys2Proof.Machine
end

