-- ==== Sys2Proof/Machine/Dispatch.lean ====
section
/-!
DEFINITION. The dispatch of a decoded command to its meaning, one arm per constructor (`46_top_level.md` R261).
-/
namespace Sys2Proof.Machine

def exec (i : Instr) (s : State) : Host.Outcome State Fault Refusal :=
  match i with
  | .rst => Sys2Proof.Machine.execRst s
  | .clr => Sys2Proof.Machine.execClr s
  | .scan => Sys2Proof.Machine.execScan s
  | .pack => Sys2Proof.Machine.execPack s
  | .hsortF => Sys2Proof.Machine.execHsortF s
  | .hsortS => Sys2Proof.Machine.execHsortS s
  | .tree => Sys2Proof.Machine.execTree s
  | .codes => Sys2Proof.Machine.execCodes s
  | .whdr => Sys2Proof.Machine.execWhdr s
  | .rhdr => Sys2Proof.Machine.execRhdr s
  | .enc => Sys2Proof.Machine.execEnc s
  | .flush => Sys2Proof.Machine.execFlush s
  | .dec => Sys2Proof.Machine.execDec s
  | .compress => Sys2Proof.Machine.execCompress s
  | .decompress => Sys2Proof.Machine.execDecompress s

end Sys2Proof.Machine
end

