-- ==== Sys2Proof/Machine/Registers.lean ====
section
/-!
DEFINITION. The register file the host sees (`10_state.md` R21, R23).
-/
namespace Sys2Proof.Machine

/-- Offset of `CMD`. -/
def offCMD : Word := 0x00
/-- Offset of `STATUS`. -/
def offSTATUS : Word := 0x04
/-- Offset of `IN_LEN`. -/
def offINLEN : Word := 0x08
/-- Offset of `ORIG_LEN`. -/
def offORIGLEN : Word := 0x0C
/-- Offset of `NSYM`. -/
def offNSYM : Word := 0x10
/-- Offset of `OUT_LEN_LO`. -/
def offOUTLENLO : Word := 0x14
/-- Offset of `OUT_LEN_HI`. -/
def offOUTLENHI : Word := 0x18
/-- Offset of `ERRINFO`. -/
def offERRINFO : Word := 0x1C

/-- What an aligned 32-bit read at `offset` returns (R21): `CMD` and the offsets from 0x20 on read 0. -/
def regValue (offset : Word) (s : State) : Word :=
  if offset = offSTATUS then statusWord s
  else if offset = offINLEN then s.inLen
  else if offset = offORIGLEN then s.origLen
  else if offset = offNSYM then s.nsym.zeroExtend 32
  else if offset = offOUTLENLO then s.opos.extractLsb' 0 32
  else if offset = offOUTLENHI then (s.opos.extractLsb' 32 8).zeroExtend 32
  else if offset = offERRINFO then s.errinfo
  else 0

/-- What an aligned 32-bit write at an `offset` other than `CMD`'s does (R21): it sets `IN_LEN`, or is ignored. -/
def storeReg (offset value : Word) (s : State) : State :=
  if offset = offINLEN then { s with inLen := value } else s

end Sys2Proof.Machine
end

