-- ==== Sys2Proof/Machine/HostPort.lean ====
section
/-!
DEFINITION. What the host's actions do (`00_scope.md` R13, `10_state.md` R21): a write to `CMD` issues a command word
(`46_top_level.md` R261); the rest sets up a run or observes it (`70_reset_and_hazards.md` R320, R322, R323).
-/
namespace Sys2Proof.Machine

/-- A word written to `CMD` (R261). -/
def issueWord (w : Word) (s : State) : Host.Outcome State Fault Refusal :=
  match decode w with
  | .command i => exec i s
  | .illegal => .next (illegalWord w s)

/-- A register write (R21); an access that is not aligned is not defined (U12, log 9). -/
def writeReg (offset value : Word) (s : State) : Host.Outcome State Fault Refusal :=
  if alignedOffset offset then
    if offset = offCMD then issueWord value s else .next (storeReg offset value s)
  else .refused (.misalignedAccess offset)

/-- A register read (R21): no effect on the block, the value goes to the host (log 8). -/
def readReg (offset : Word) (s : State) : Host.Outcome State Fault Refusal :=
  if alignedOffset offset then .next { s with readData := regValue offset s } else .refused (.misalignedAccess offset)

/-- The host supplies IN (R322); 2^32 bytes and more cannot be presented (U14, log 10). -/
def supplyInput (bytes : List Byte) (s : State) : Host.Outcome State Fault Refusal :=
  if presentable bytes.length then .next { s with input := Store.ofList bytes } else .refused (.inputTooLong bytes.length)

/-- One action of the host. -/
def hostAct : HostAction → State → Host.Outcome State Fault Refusal
  | .regWrite offset value, s => writeReg offset value s
  | .regRead offset, s => readReg offset s
  | .supply bytes, s => supplyInput bytes s
  | .setByte addr value, s => .next { s with input := Store.write s.input addr.toNat value }
  | .hardReset, s => .next (hardwareReset s)

/-- The host's next action performed, and gone from the script; with none the block holds its state and does nothing
(`60_exceptions.md` R295). -/
def advance (s : State) : Host.Outcome State Fault Refusal :=
  match s.script with
  | [] => .next s
  | a :: rest => hostAct a { s with script := rest }

/-- The host's script with the write of a command word before it (R21, R90). -/
def issueFirst (w : Word) (s : State) : State := { s with script := .regWrite offCMD w :: s.script }

/-- The command word the host writes next, where its next action is a write to `CMD`. -/
def pendingWord (s : State) : Option Word :=
  match s.script with
  | .regWrite offset w :: _ => if offset = offCMD then some w else none
  | _ => none

end Sys2Proof.Machine
end

