-- ==== Sys2Proof/Safety.lean ====
section
/-!
DEFINITION. What counts as a safe run, and the terms claims are stated in: what a store holds, the bits of a byte and of a
code, the layout of a compressed file (`30_encoding.md` R100), trees over `NODE`, the invariants of the block.
-/
namespace Sys2Proof.Machine

/-! ### The tables of the spec, for claims to compare with -/

/-- R262, the rows of the table: where each command is legal and what phase it leaves. -/
def rowsOfR262 : List (Instr × List Phase × Phase) :=
  [(.clr, [.idle, .doneC, .doneD], .cleared), (.scan, [.cleared], .counted), (.pack, [.counted], .packed),
   (.hsortF, [.packed], .fsorted), (.tree, [.fsorted], .treed), (.codes, [.treed], .coded), (.hsortS, [.coded], .ssorted),
   (.whdr, [.ssorted], .hdrw), (.enc, [.hdrw], .encoded), (.flush, [.encoded], .doneC),
   (.rhdr, [.idle, .doneC, .doneD], .hdrr), (.dec, [.hdrr], .doneD), (.compress, [.idle, .doneC, .doneD], .doneC),
   (.decompress, [.idle, .doneC, .doneD], .doneD)]

/-- R22, the values of `PHASE`. -/
def phaseValues : List (Phase × Nat) :=
  [(.idle, 0), (.cleared, 1), (.counted, 2), (.packed, 3), (.fsorted, 4), (.treed, 5), (.coded, 6), (.ssorted, 7),
   (.hdrw, 8), (.encoded, 9), (.doneC, 10), (.hdrr, 11), (.doneD, 12), (.error, 15)]

/-- R280, the codes of `ERR`. -/
def errValues : List (ErrKind × Nat) :=
  [(.none, 0), (.ioFailure, 1), (.malformedHeader, 2), (.capacityExceeded, 3), (.badSequence, 4), (.illegalCommand, 5),
   (.inconsistentInput, 6)]

/-! ### Runs -/

/-- Commands one after the other, each on the state the one before left; the first stop ends the run. -/
def execAll : List Instr → State → Host.Outcome State Fault Refusal
  | [], s => .next s
  | i :: is, s =>
    match exec i s with
    | .next t => execAll is t
    | .fault f => .fault f
    | .refused r => .refused r

/-- A safe run of `k` steps: the machine neither faults nor refuses. -/
def SafeFor (k : Nat) (s : State) : Prop := ∃ t, Host.Core.run core k s = .next t

/-- No access to come fails: "`IO_ORACLE` = always `ok`" (`20_memory.md` R70). -/
abbrev NoFail (s : State) : Prop := IoAnswer.fail ∉ s.oracle

/-! ### What a store holds -/

/-- The store holds the list at indices 0 upward. -/
abbrev Store.Holds {α : Type} (m : Store α) (vs : List α) : Prop := ∀ k, k < vs.length → Store.read m k = vs[k]?

/-- The host presents these bytes: they stand in IN from address 0, and `IN_LEN` is their number (`70_reset_and_hazards.md`
R322). -/
abbrev Presents (bytes : List Byte) (s : State) : Prop := s.inLen.toNat = bytes.length ∧ Store.Holds s.input bytes

/-- The symbol table `SYM[0 .. NSYM-1]` is this list (`10_state.md` R29). -/
abbrev Table (rs : List SymRec) (s : State) : Prop := s.nsym.toNat = rs.length ∧ Store.Holds s.sym rs

/-! ### Bits and bytes -/

/-- The bits of a byte, bit 0 first (`20_memory.md` R71). -/
def byteBits (b : Byte) : List Bool := (List.range 8).map fun k => b.getLsbD k

/-- The bits of a record's code, bit 0 first (R71). -/
def codeBits (r : SymRec) : List Bool := (List.range r.codeLength.toNat).map fun k => r.code.getLsbD k

/-- The bits the accumulator holds, oldest first (`10_state.md` R33). -/
def accBits (s : State) : List Bool := (List.range s.accn.toNat).map fun k => s.acc.getLsbD k

/-- The bits the reader can still deliver (`10_state.md` R34), `file` the bytes of IN. -/
def readerBits (file : List Byte) (s : State) : List Bool :=
  ((List.range s.rbn.toNat).map fun k => s.rbuf.getLsbD k) ++ (file.drop s.rpos.toNat).flatMap byteBits

/-- The number whose bits these are, bit 0 first: the sum of `p_k` × 2^`k` (`43_code_table.md` R181). -/
def bitsValue : List Bool → Nat
  | [] => 0
  | b :: bs => b.toNat + 2 * bitsValue bs

/-- An `n`-byte number, least significant byte first (`20_memory.md` R69). -/
def leBytes (v n : Nat) : List Byte := (List.range n).map fun k => BitVec.ofNat 8 (v / 256 ^ k)

/-! ### The compressed file (R100) -/

/-- A header entry (`30_encoding.md` R103). -/
structure Entry where
  symbol : Byte
  length : Byte
  code   : CodeWord
  deriving DecidableEq, Repr

/-- The ten bytes of an entry (R100). -/
def Entry.bytes (e : Entry) : List Byte := e.symbol :: e.length :: leBytes e.code.toNat 8

/-- The path of an entry: the low `length` bits of its code, bit 0 first (R103). -/
def Entry.bits (e : Entry) : List Bool := (List.range e.length.toNat).map fun k => e.code.getLsbD k

/-- The entry of a table record (`44_container.md` R201). -/
def SymRec.entry (r : SymRec) : Entry := { symbol := r.symbol, length := r.codeLength.zeroExtend 8, code := r.code }

/-- The header of a file: symbolCount, originalLength, the entries (R100). -/
def headerOf (es : List Entry) (olen : Nat) : List Byte :=
  leBytes es.length 2 ++ leBytes olen 4 ++ es.flatMap Entry.bytes

/-- Neither path is a prefix of the other (`00_scope.md` R14, prefix code). -/
abbrev Apart (p q : List Bool) : Prop := ¬ p <+: q ∧ ¬ q <+: p

/-- The entries of a header the reader accepts: at most 256, lengths at most 64, paths that collide nowhere (`44_container.md`
R206, R207). -/
abbrev Acceptable (es : List Entry) : Prop :=
  es.length ≤ 256 ∧ (∀ e ∈ es, e.length.toNat ≤ 64) ∧ es.Pairwise fun a b => Apart a.bits b.bits

/-- The payload bits of an input under a table (`30_encoding.md` R104). -/
def payloadBits (rs : List SymRec) (input : List Byte) : List Bool :=
  input.flatMap fun b =>
    match rs.find? fun r => r.symbol == b with
    | some r => codeBits r
    | none => []

/-! ### Trees over NODE -/

/-- A binary tree with symbols at the leaves. -/
inductive HTree where
  | leaf (symbol : Byte)
  | node (left right : HTree)
  deriving DecidableEq, Repr

/-- The depth of the deepest leaf. -/
def HTree.depth : HTree → Nat
  | .leaf _ => 0
  | .node l r => max l.depth r.depth + 1

/-- Every leaf with its path from the root, 0 = left, 1 = right (`43_code_table.md` R181). -/
def HTree.paths : HTree → List (Byte × List Bool)
  | .leaf c => [(c, [])]
  | .node l r => (l.paths.map fun x => (x.1, false :: x.2)) ++ r.paths.map fun x => (x.1, true :: x.2)

/-- The symbols of the leaves, left to right. -/
def HTree.symbols (t : HTree) : List Byte := t.paths.map Prod.fst

/-- The tree below node `j` of the node memory. -/
inductive Represents (m : Store NodeRec) : Nat → HTree → Prop where
  | leaf {j : Nat} {r : NodeRec} : Store.read m j = some r → r.leaf = true → Represents m j (.leaf r.symbol)
  | node {j a b : Nat} {r : NodeRec} {l t : HTree} : Store.read m j = some r → r.leaf = false → r.left = some a →
      r.right = some b → Represents m a l → Represents m b t → Represents m j (.node l t)

/-- The node at the end of a path from node `j`, over internal nodes only. -/
def endFrom (m : Store NodeRec) : Nat → List Bool → Option Nat
  | j, [] => some j
  | j, b :: p =>
    match Store.read m j with
    | none => none
    | some r =>
      if r.leaf then none
      else
        match if b then r.right else r.left with
        | none => none
        | some c => endFrom m c p

/-- The node at the end of a path from the root. -/
def endOf (s : State) (p : List Bool) : Option Nat :=
  match s.root with
  | none => none
  | some j => endFrom s.node j p

/-- The record at the end of a path from the root. -/
def follow (s : State) (p : List Bool) : Option NodeRec :=
  match endOf s p with
  | none => none
  | some j => Store.read s.node j

/-- A symbol stands at the end of a path of the tree. -/
def LeafAt (s : State) (x : List Bool × Byte) : Prop :=
  ∃ r, follow s x.1 = some r ∧ r.leaf = true ∧ r.symbol = x.2

/-! ### Counting and sorting -/

/-- The table after some bytes have been counted (R122). -/
def countedRecord (rs : List SymRec) (bytes : List Byte) (i : Nat) : Option SymRec :=
  (rs[i]?).map fun r => { r with frequency := r.frequency + BitVec.ofNat 32 (bytes.count (BitVec.ofNat 8 i)) }

/-- A record with a symbol and a frequency. -/
def symFreq (symbol : Byte) (frequency : BitVec 32) : SymRec :=
  { symbol := symbol, frequency := frequency, code := 0, codeLength := 0 }

/-- R141: no record is strictly before its parent. -/
def MinHeap (cmp : Cmp) (xs : List SymRec) : Prop :=
  ∀ (i : Nat) (x p : SymRec), 1 ≤ i → xs[i]? = some x → xs[(i - 1) / 2]? = some p → before cmp x p = false

/-- R145: the records in the order successive extract-min calls return them, `h` the records left in the heap. -/
def extractionOrder (cmp : Cmp) : (h : Nat) → List SymRec → List SymRec
  | 0, _ => []
  | h + 1, xs => xs.take 1 ++ extractionOrder cmp h (extractMin cmp h xs)

/-! ### Invariants -/

/-- The stores of the state are in canonical form and inside their address spaces (`20_memory.md` R60, `10_state.md` R28, R31). -/
abbrev MemoryForm (s : State) : Prop :=
  Memory.wf s.input ∧ Store.Rising s.sym ∧ Store.Below Config.alphabet s.sym ∧ Store.Rising s.node ∧
    Store.Below Config.nodeCap s.node

/-- `PHASE = ERROR` if and only if `ERR != 0` (`10_state.md` R24). -/
abbrev ErrorForm (s : State) : Prop := s.phase = .error ↔ s.err ≠ .none

/-- Outside `ERROR` the accumulator holds at most 7 bits and nothing above them (`10_state.md` R33, `45_bitstream.md` R230). -/
abbrev AccForm (s : State) : Prop := s.phase ≠ .error → s.accn.toNat ≤ 7 ∧ s.acc.toNat < 2 ^ s.accn.toNat

/-- The reader holds at most 8 bits and nothing above them, and has not read past the input (`10_state.md` R34,
`46_top_level.md` R268 f, g). -/
abbrev ReaderForm (s : State) : Prop :=
  s.rbn.toNat ≤ 8 ∧ s.rbuf.toNat < 2 ^ s.rbn.toNat ∧ s.rpos.toNat ≤ s.len.toNat

/-- How many bytes a run can have written in a phase (`46_top_level.md` R268 h, with the 127 bits that a 7-bit length can
say in place of 64). -/
def outBound (s : State) : Nat :=
  match s.phase with
  | .idle | .cleared | .counted | .packed | .fsorted | .treed | .coded | .ssorted | .hdrr => 0
  | .hdrw => 6 + 10 * s.nsym.toNat
  | .encoded => 6 + 10 * s.nsym.toNat + 16 * s.origLen.toNat
  | .doneC => 6 + 10 * s.nsym.toNat + 16 * s.origLen.toNat + 1
  | .doneD => s.origLen.toNat
  | .error => 2 ^ 37

/-- `OPOS` is the number of bytes written in the run, and does not wrap (`10_state.md` R35). -/
abbrev OutForm (s : State) : Prop := s.opos.toNat = s.out.length ∧ s.out.length ≤ outBound s ∧ AccForm s

/-- The 256 records in index order, codes cleared: `CLEARED` and `COUNTED` (`10_state.md` R39). -/
abbrev FreshForm (s : State) : Prop :=
  s.nsym = 256 ∧ s.hsize = 256 ∧ s.nnode = 0 ∧ s.root = none ∧
    ∀ i, i < 256 → ∃ f, Store.read s.sym i = some { symbol := BitVec.ofNat 8 i, frequency := f, code := 0, codeLength := 0 }

/-- The observed symbols, each once, and `HSIZE = NSYM`: `PACKED` to `DONE_C` (`10_state.md` R29, R30, R39,
`40_symbol_table.md` R125). -/
abbrev PackedForm (s : State) : Prop :=
  s.nsym.toNat ≤ 256 ∧ s.hsize = s.nsym ∧ s.origLen = s.len ∧
    (∀ i, i < s.nsym.toNat → ∃ r, Store.read s.sym i = some r ∧ r.frequency ≠ 0 ∧ r.codeLength.toNat ≤ 64 ∧
      r.code.toNat < 2 ^ r.codeLength.toNat) ∧
    ∀ i j r q, i < j → j < s.nsym.toNat → Store.read s.sym i = some r → Store.read s.sym j = some q → r.symbol ≠ q.symbol

/-- The table in ascending symbol order (R39). -/
abbrev SymbolOrder (s : State) : Prop :=
  ∀ i j r q, i < j → j < s.nsym.toNat → Store.read s.sym i = some r → Store.read s.sym j = some q → r.symbol < q.symbol

/-- The table in non-decreasing frequency (R39). -/
abbrev FrequencyOrder (s : State) : Prop :=
  ∀ i j r q, i < j → j < s.nsym.toNat → Store.read s.sym i = some r → Store.read s.sym j = some q →
    r.frequency ≤ q.frequency

/-- No code assigned yet (R39). -/
abbrev NoCodes (s : State) : Prop :=
  ∀ i r, i < s.nsym.toNat → Store.read s.sym i = some r → r.code = 0 ∧ r.codeLength = 0

/-- The tree `TREE` leaves (`42_tree_builder.md` R162, `10_state.md` R31): the nodes in use are held, a leaf has no child
and its symbol is in the table, an internal node has two children of smaller index, the last node is the root. -/
abbrev BuiltTree (s : State) : Prop :=
  s.nnode.toNat = 2 * s.nsym.toNat - 1 ∧
    s.root = (if s.nsym.toNat = 0 then none else some (2 * s.nsym.toNat - 2)) ∧
    ∀ j, j < s.nnode.toNat → ∃ r, Store.read s.node j = some r ∧
      ((r.leaf = true ∧ r.left = none ∧ r.right = none ∧
          ∃ i q, i < s.nsym.toNat ∧ Store.read s.sym i = some q ∧ q.symbol = r.symbol) ∨
        (r.leaf = false ∧ ∃ a b, a < j ∧ b < j ∧ r.left = some a ∧ r.right = some b))

/-- The tree `RHDR` leaves (`44_container.md` R207, R209, `10_state.md` R31): the nodes in use are held, a leaf has no
child, an internal node has at least one, children have larger indices, the root is node 0, and where there is no tree there
is nothing to decode. -/
abbrev RebuiltTree (s : State) : Prop :=
  s.nnode.toNat ≤ Config.nodeCap ∧ s.root = (if s.nnode.toNat = 0 then none else some 0) ∧
    (s.root = none → s.origLen = 0) ∧
    ∀ j, j < s.nnode.toNat → ∃ r, Store.read s.node j = some r ∧
      (r.leaf = true ↔ (r.left = none ∧ r.right = none)) ∧
      (∀ c, r.left = some c → j < c ∧ c < s.nnode.toNat) ∧ ∀ c, r.right = some c → j < c ∧ c < s.nnode.toNat

/-- Which state means what, phase by phase (`10_state.md` R39). -/
def PhaseTable (s : State) : Prop :=
  match s.phase with
  | .idle => s.root = none ∧ s.nnode = 0
  | .cleared => FreshForm s
  | .counted => FreshForm s ∧ s.origLen = s.len
  | .packed => PackedForm s ∧ NoCodes s ∧ SymbolOrder s ∧ s.nnode = 0 ∧ s.root = none
  | .fsorted => PackedForm s ∧ NoCodes s ∧ FrequencyOrder s ∧ s.nnode = 0 ∧ s.root = none
  | .treed => PackedForm s ∧ NoCodes s ∧ FrequencyOrder s ∧ BuiltTree s
  | .coded => PackedForm s ∧ FrequencyOrder s ∧ BuiltTree s
  | .ssorted => PackedForm s ∧ SymbolOrder s ∧ BuiltTree s
  | .hdrw => PackedForm s ∧ SymbolOrder s ∧ BuiltTree s
  | .encoded => PackedForm s ∧ SymbolOrder s ∧ BuiltTree s
  | .doneC => PackedForm s ∧ SymbolOrder s ∧ BuiltTree s
  | .hdrr => RebuiltTree s
  | .doneD => RebuiltTree s
  | .error => True

end Sys2Proof.Machine
end

