-- ==== Sys2Proof/Certificates/Slice0/Obligations.lean ====
section
/-!
DEFINITION. The statements for the provers, one `def Obligations.<Name> : Prop` each. A statement about every state says what
it assumes of the state and the operands; `Tests/Slice0.lean` has a named witness for each. Where a statement writes
`t = { s with f := t.f, … }`, every field not named is unchanged: that is its frame.
-/

open Sys2Proof Sys2Proof.Machine

/-! ### Encoding -/

/-- R93, R92: the 15 words of the opcode map, written out, decode to the commands they stand for; every other word is
`Illegal`. -/
def Obligations.MapWordsDecode : Prop :=
  decode 0x00000001 = .command .rst ∧ decode 0x00000010 = .command .clr ∧ decode 0x00000011 = .command .scan ∧
    decode 0x00000012 = .command .pack ∧ decode 0x00000020 = .command .hsortF ∧ decode 0x00000120 = .command .hsortS ∧
    decode 0x00000030 = .command .tree ∧ decode 0x00000040 = .command .codes ∧ decode 0x00000050 = .command .whdr ∧
    decode 0x00000051 = .command .rhdr ∧ decode 0x00000060 = .command .enc ∧ decode 0x00000061 = .command .flush ∧
    decode 0x00000062 = .command .dec ∧ decode 0x00000070 = .command .compress ∧ decode 0x00000071 = .command .decompress ∧
    ∀ w : Word, w ∉ ([0x00000001, 0x00000010, 0x00000011, 0x00000012, 0x00000020, 0x00000120, 0x00000030, 0x00000040,
      0x00000050, 0x00000051, 0x00000060, 0x00000061, 0x00000062, 0x00000070, 0x00000071] : List Word) → decode w = .illegal

/-- R92, R93: a word decodes to a command exactly when it is that command's word. -/
def Obligations.DecodeEncodeAgree : Prop := ∀ (w : Word) (i : Instr), decode w = .command i ↔ w = encode i

/-- R90, R92, R94: the words that are a command are exactly those whose fields are well formed: a listed opcode, `cmp` 0
except for `HSORT`, bits 31:9 zero. -/
def Obligations.LegalWordsAreWellFormedFields : Prop :=
  ∀ w : Word, decode w ≠ .illegal ↔ (CmdFields.ofWord w).wf = true

/-! ### The step and the sequencer -/

/-- R260, R261: when the host's next action is a write of a command's word to `CMD`, the step is `exec` of that command; the
action is gone from the script (the model's form of the host's script is log 2). -/
def Obligations.StepRunsDecodedCommand : Prop :=
  ∀ (s : State) (w : Word) (rest : List HostAction) (i : Instr),
    s.script = .regWrite 0 w :: rest → decode w = .command i → step s = exec i { s with script := rest }

/-- R94, R261: a word that is no command raises `IllegalCommand(1, w)` outside `ERROR` and is ignored in `ERROR`. -/
def Obligations.IllegalWordRaises : Prop :=
  ∀ (s : State) (w : Word) (rest : List HostAction), s.script = .regWrite 0 w :: rest → decode w = .illegal →
    (s.phase ≠ .error →
      step s = .next { s with script := rest, phase := .error, err := .illegalCommand, errsub := 1, errinfo := w }) ∧
    (s.phase = .error → step s = .next { s with script := rest })

/-- R261, R287: in `ERROR` a command other than `RST` changes nothing. -/
def Obligations.ErrorIgnoresCommands : Prop :=
  ∀ (i : Instr) (s : State), i ≠ .rst → s.phase = .error → exec i s = .next s

/-- R261: a command in a phase outside its row of R262, and outside `ERROR`, raises `BadSequence(1, w)`, `w` its word, and
changes nothing else. -/
def Obligations.WrongPhaseRaisesBadSequence : Prop :=
  ∀ (i : Instr) (legal : List Phase) (after : Phase) (s : State), (i, legal, after) ∈ rowsOfR262 →
    s.phase ≠ .error → s.phase ∉ legal →
      exec i s = .next { s with phase := .error, err := .badSequence, errsub := 1, errinfo := encode i }

/-- R262: a command in a phase of its row leaves the phase of its row, the error registers untouched, or it raised: `ERROR`,
with an error recorded; in any other phase it leaves `ERROR`; `RST` is legal in every phase and leaves `IDLE`. -/
def Obligations.CommandLeavesPhaseOfItsRow : Prop :=
  (∀ (i : Instr) (legal : List Phase) (after : Phase) (s t : State), (i, legal, after) ∈ rowsOfR262 →
      exec i s = .next t →
        (s.phase ∈ legal → (t.phase = after ∧ t.err = s.err ∧ t.errsub = s.errsub ∧ t.errinfo = s.errinfo) ∨
          (t.phase = .error ∧ t.err ≠ .none)) ∧
        (s.phase ∉ legal → t.phase = .error)) ∧
    ∀ s : State, ∃ t, exec .rst s = .next t ∧ t.phase = .idle

/-- R287: only the `RST` word and hardware reset leave `ERROR`. -/
def Obligations.OnlyResetLeavesError : Prop :=
  ∀ s t : State, s.phase = .error → step s = .next t → t.phase ≠ .error →
    ∃ rest, s.script = .regWrite 0 0x00000001 :: rest ∨ s.script = .hardReset :: rest

/-- R295: with no action of the host the block holds its state. -/
def Obligations.NothingToDoHoldsState : Prop := ∀ s : State, s.script = [] → step s = .next s

/-! ### Reset and the register file -/

/-- R44, R320: the reset state, value by value. What stands beside the block (IN, the oracle's answers, the script, the last
read) is the model's own (logs 1, 2, 4, 8). -/
def Obligations.ResetStateValues : Prop :=
  State.reset.phase = .idle ∧ State.reset.err = .none ∧ State.reset.errsub = 0 ∧ State.reset.errinfo = 0 ∧
    State.reset.empty = false ∧ State.reset.inLen = 0 ∧ State.reset.len = 0 ∧ State.reset.origLen = 0 ∧
    State.reset.nsym = 0 ∧ State.reset.hsize = 0 ∧ State.reset.nnode = 0 ∧ State.reset.root = none ∧
    State.reset.acc = 0 ∧ State.reset.accn = 0 ∧ State.reset.rbuf = 0 ∧ State.reset.rbn = 0 ∧ State.reset.rpos = 0 ∧
    State.reset.opos = 0 ∧ State.reset.out = []

/-- R263, R44: `RST`, in every phase, gives every register its value after `RST`; `IN_LEN` stays; OUT is empty; IN and the
host's side stay. `SYM` and `NODE` are left unspecified (no claim here). -/
def Obligations.RstResetsAllButInLen : Prop :=
  ∀ s : State, ∃ t, exec .rst s = .next t ∧
    t = { s with phase := .idle, err := .none, errsub := 0, errinfo := 0, empty := false, len := 0, origLen := 0, nsym := 0,
                 hsize := 0, nnode := 0, root := none, acc := 0, accn := 0, rbuf := 0, rbn := 0, rpos := 0, opos := 0,
                 out := [], sym := t.sym, node := t.node }

/-- R320, R44: hardware reset gives every register its reset value, `IN_LEN` too. That the host's side stays is the model's
choice (log 17). -/
def Obligations.HardResetResetsAll : Prop :=
  ∀ (s : State) (rest : List HostAction), s.script = .hardReset :: rest →
    ∃ t, step s = .next t ∧
      t = { s with script := rest, phase := .idle, err := .none, errsub := 0, errinfo := 0, empty := false, inLen := 0,
                   len := 0, origLen := 0, nsym := 0, hsize := 0, nnode := 0, root := none, acc := 0, accn := 0, rbuf := 0,
                   rbn := 0, rpos := 0, opos := 0, out := [], sym := t.sym, node := t.node }

/-- R23 with R22 and R280: a host read at offset 4 gives `STATUS`: `PHASE` in 3:0, `ERR` in 7:4, `EMPTY` in 8, 0 in `BUSY`
and the reserved bits, `ERRSUB` in 23:16. -/
def Obligations.StatusWordLayout : Prop :=
  ∀ (s : State) (rest : List HostAction) (p e : Nat), s.script = .regRead 4 :: rest →
    (s.phase, p) ∈ phaseValues → (s.err, e) ∈ errValues →
      ∃ d : Word, step s = .next { s with script := rest, readData := d } ∧
        d.toNat = p + 2 ^ 4 * e + 2 ^ 8 * s.empty.toNat + 2 ^ 16 * s.errsub.toNat

/-- R21: what an aligned read at each offset other than `STATUS` returns, and that a read changes nothing in the block. The
read's data standing in the state is the model's own (log 8). -/
def Obligations.HostReadsRegisters : Prop :=
  ∀ (s : State) (off : Word) (rest : List HostAction), s.script = .regRead off :: rest → off.toNat % 4 = 0 → off ≠ 4 →
    ∃ d : Word, step s = .next { s with script := rest, readData := d } ∧
      d.toNat = (if off = 0x08 then s.inLen.toNat else if off = 0x0C then s.origLen.toNat
        else if off = 0x10 then s.nsym.toNat else if off = 0x14 then s.opos.toNat % 2 ^ 32
        else if off = 0x18 then s.opos.toNat / 2 ^ 32 else if off = 0x1C then s.errinfo.toNat else 0)

/-- R21, R26: an aligned write outside `CMD` sets `IN_LEN` at offset 8 and is ignored anywhere else. -/
def Obligations.HostWritesOnlyInLen : Prop :=
  ∀ (s : State) (off v : Word) (rest : List HostAction), s.script = .regWrite off v :: rest → off.toNat % 4 = 0 → off ≠ 0 →
    step s = .next { s with script := rest, inLen := if off = 8 then v else s.inLen }

/-- R322, R60, R327: an input of fewer than 2^32 bytes that the host supplies is what IN holds, from address 0; a byte the
host sets changes that address only; nothing in the block changes. What the spec leaves undefined is refused by name, the
model's choice (logs 9 and 10): a longer input (U14), a register access that is not aligned (R21, U12). That IN is a list
whose unlisted addresses hold no value is log 4, the script is log 2. -/
def Obligations.HostInputTakenOrRefused : Prop :=
  (∀ (s : State) (bytes : List Byte) (rest : List HostAction), s.script = .supply bytes :: rest → bytes.length < 2 ^ 32 →
      ∃ t, step s = .next t ∧ t = { s with script := rest, input := t.input } ∧ ∀ k, Store.read t.input k = bytes[k]?) ∧
    (∀ (s : State) (addr : Word) (v : Byte) (rest : List HostAction), s.script = .setByte addr v :: rest →
      ∃ t, step s = .next t ∧ t = { s with script := rest, input := t.input } ∧
        ∀ k, Store.read t.input k = if k = addr.toNat then some v else Store.read s.input k) ∧
    (∀ (s : State) (bytes : List Byte) (rest : List HostAction), s.script = .supply bytes :: rest → 2 ^ 32 ≤ bytes.length →
      step s = .refused (.inputTooLong bytes.length)) ∧
    (∀ (s : State) (off v : Word) (rest : List HostAction), s.script = .regWrite off v :: rest → off.toNat % 4 ≠ 0 →
      step s = .refused (.misalignedAccess off)) ∧
    ∀ (s : State) (off : Word) (rest : List HostAction), s.script = .regRead off :: rest → off.toNat % 4 ≠ 0 →
      step s = .refused (.misalignedAccess off)

/-! ### Errors -/

/-- R285: `raise` writes `ERR`, `ERRSUB`, `ERRINFO` and `PHASE`, and nothing else. -/
def Obligations.RaiseWritesErrorRegisters : Prop :=
  ∀ (kind : ErrKind) (sub : BitVec 8) (info : Nat) (s t : State), raise kind sub info s = t →
    t.err = kind ∧ t.errsub = sub ∧ t.errinfo.toNat = info % 2 ^ 32 ∧ t.phase = .error ∧
      t = { s with err := t.err, errsub := t.errsub, errinfo := t.errinfo, phase := t.phase }

/-- R70, R63, R66: a command uses up the oracle's answers in order, one per access, and the first failing one ends it at once
with `IOFailure`: 1 and an address below `LEN` for a read, 2 and `OPOS[31:0]` for a write. Where no answer it used was a
failure there is no `IOFailure`. -/
def Obligations.FailedAccessRaisesAtOnce : Prop :=
  ∀ (i : Instr) (s t : State), s.err = .none → exec i s = .next t →
    ∃ used, s.oracle = used ++ t.oracle ∧
      (t.err ≠ .ioFailure → IoAnswer.fail ∉ used) ∧
      (t.err = .ioFailure → t.phase = .error ∧ (∃ before, used = before ++ [.fail] ∧ IoAnswer.fail ∉ before) ∧
        ((t.errsub = 1 ∧ t.errinfo.toNat < t.len.toNat) ∨ (t.errsub = 2 ∧ t.errinfo = t.opos.extractLsb' 0 32)))

/-! ### The symbol table -/

/-- R120: `CLR` starts a run (R43) and writes all 256 records. -/
def Obligations.ClrStartsRun : Prop :=
  ∀ s : State, s.phase ∈ [Phase.idle, .doneC, .doneD] → ∃ t, exec .clr s = .next t ∧
    t = { s with len := s.inLen, empty := false, acc := 0, accn := 0, rbuf := 0, rbn := 0, rpos := 0, opos := 0, out := [],
                 nnode := 0, root := none, nsym := 256, hsize := 256, origLen := 0, phase := .cleared, sym := t.sym } ∧
    ∀ i, Store.read t.sym i =
      if i < 256 then some { symbol := BitVec.ofNat 8 i, frequency := 0, code := 0, codeLength := 0 } else none

/-- R122: `SCAN` counts every byte of IN once in the record of its value; `ORIGLEN` becomes `LEN`; one access per byte. -/
def Obligations.ScanCountsEveryByte : Prop :=
  ∀ (s : State) (bytes : List Byte) (rs : List SymRec), s.phase = .cleared → NoFail s → s.len.toNat = bytes.length →
    Store.Holds s.input bytes → rs.length = 256 → Store.Holds s.sym rs →
      ∃ t, exec .scan s = .next t ∧
        t = { s with sym := t.sym, origLen := s.len, oracle := s.oracle.drop bytes.length, phase := .counted } ∧
        ∀ i, Store.read t.sym i = if i < 256 then countedRecord rs bytes i else Store.read s.sym i

/-- R63, R122: when the environment fails the read at address `a`, `SCAN` raises `IOFailure(1, a)`; the counts made so far
stay. -/
def Obligations.ScanReadFailureRaises : Prop :=
  ∀ (s : State) (bytes : List Byte) (rs : List SymRec) (rest : List IoAnswer), s.phase = .cleared →
    s.oracle = List.replicate bytes.length .ok ++ .fail :: rest → bytes.length < s.len.toNat →
    Store.Holds s.input bytes → rs.length = 256 → Store.Holds s.sym rs →
      ∃ t, exec .scan s = .next t ∧
        t = { s with sym := t.sym, oracle := rest, phase := .error, err := .ioFailure, errsub := 1,
                     errinfo := BitVec.ofNat 32 bytes.length } ∧
        ∀ i, Store.read t.sym i = if i < 256 then countedRecord rs bytes i else Store.read s.sym i

/-- R124: `PACK` keeps the records with a frequency, in index order, and says so in `NSYM`, `HSIZE` and `EMPTY`; records from
`NSYM` on keep what they held. -/
def Obligations.PackKeepsObservedRecords : Prop :=
  ∀ (s : State) (rs : List SymRec), s.phase = .counted → rs.length = 256 → Store.Holds s.sym rs →
    ∃ t, exec .pack s = .next t ∧
      t = { s with sym := t.sym, nsym := t.nsym, hsize := t.nsym, empty := t.empty, phase := .packed } ∧
      Table (rs.filter fun r => r.frequency ≠ 0) t ∧ (t.empty = true ↔ t.nsym = 0) ∧
      ∀ i, t.nsym.toNat ≤ i → Store.read t.sym i = Store.read s.sym i

/-! ### The heap -/

/-- R143, R144: `heap_build` makes a min-heap of the same records; `heap_extract_min` on a min-heap of `h` + 1 records
leaves the old root at index `h`, before it a min-heap of the other records, and what lies beyond the heap untouched. -/
def Obligations.HeapStepsKeepMinHeap : Prop :=
  (∀ (cmp : Cmp) (xs : List SymRec), MinHeap cmp (heapBuild cmp xs.length xs) ∧
      (heapBuild cmp xs.length xs).Perm xs) ∧
    ∀ (cmp : Cmp) (h : Nat) (xs : List SymRec), h < xs.length → MinHeap cmp (xs.take (h + 1)) →
      MinHeap cmp ((extractMin cmp h xs).take h) ∧ (extractMin cmp h xs)[h]? = xs[0]? ∧
        ((extractMin cmp h xs).take h).Perm ((xs.take (h + 1)).drop 1) ∧
        (extractMin cmp h xs).drop (h + 1) = xs.drop (h + 1)

/-- R145: the result of `heap_sort` is the records in the order successive extract-min calls return them. -/
def Obligations.HeapSortIsExtractionOrder : Prop :=
  ∀ (cmp : Cmp) (xs : List SymRec),
    heapSort cmp xs = extractionOrder cmp xs.length (heapBuild cmp xs.length xs)

/-- R146, R145: `HSORT.F` leaves the same records in non-decreasing frequency, and `HSIZE` = `NSYM`. -/
def Obligations.HsortFSortsByFrequency : Prop :=
  ∀ (s : State) (rs : List SymRec), s.phase = .packed → Table rs s → ∃ t ys, exec .hsortF s = .next t ∧
    t = { s with sym := t.sym, hsize := s.nsym, phase := .fsorted } ∧ Table ys t ∧ ys.Perm rs ∧
    (ys.Pairwise fun a b => a.frequency ≤ b.frequency) ∧
    ∀ i, s.nsym.toNat ≤ i → Store.read t.sym i = Store.read s.sym i

/-- R146, R145: `HSORT.S` leaves the same records, whole, in strictly ascending symbol order when the symbols are distinct,
and `HSIZE` = `NSYM`. -/
def Obligations.HsortSSortsBySymbol : Prop :=
  ∀ (s : State) (rs : List SymRec), s.phase = .coded → Table rs s → ∃ t ys, exec .hsortS s = .next t ∧
    t = { s with sym := t.sym, hsize := s.nsym, phase := .ssorted } ∧ Table ys t ∧ ys.Perm rs ∧
    ((rs.map fun r => r.symbol).Nodup → ys.Pairwise fun a b => a.symbol < b.symbol) ∧
    ∀ i, s.nsym.toNat ≤ i → Store.read t.sym i = Store.read s.sym i

/-- R147 and the traces V-HEAP-1 to V-HEAP-4: how ties fall. The sort is not stable. -/
def Obligations.TiesFallAsTraced : Prop :=
  heapSort .freq [symFreq 0x61 3, symFreq 0x62 3, symFreq 0x63 3] =
      [symFreq 0x61 3, symFreq 0x63 3, symFreq 0x62 3] ∧
    heapSort .freq [symFreq 0x61 3, symFreq 0x62 2, symFreq 0x63 1] =
      [symFreq 0x63 1, symFreq 0x62 2, symFreq 0x61 3] ∧
    heapSort .freq [symFreq 0x61 5, symFreq 0x62 2, symFreq 0x63 1, symFreq 0x64 1,
        symFreq 0x72 2] =
      [symFreq 0x64 1, symFreq 0x63 1, symFreq 0x62 2, symFreq 0x72 2,
        symFreq 0x61 5] ∧
    heapSort .freq [symFreq 0x69 4, symFreq 0x6d 1, symFreq 0x70 2, symFreq 0x73 4] =
      [symFreq 0x6d 1, symFreq 0x70 2, symFreq 0x73 4, symFreq 0x69 4]

/-! ### The tree -/

/-- R161: `pick` takes the leaf when no internal node is left or its frequency is not above the internal node's, else the
internal node, and moves that head on. -/
def Obligations.PickPrefersLeafOnTie : Prop :=
  ∀ (n : Nat) (h : Heads) (s : State),
    (∀ l r : NodeRec, h.lq < n → h.iq < s.nnode.toNat → Store.read s.node h.lq = some l → Store.read s.node h.iq = some r →
      l.frequency ≤ r.frequency → pick n h s = .ok (h.lq, { lq := h.lq + 1, iq := h.iq }) s) ∧
    (∀ l r : NodeRec, h.lq < n → h.iq < s.nnode.toNat → Store.read s.node h.lq = some l → Store.read s.node h.iq = some r →
      r.frequency < l.frequency → pick n h s = .ok (h.iq, { lq := h.lq, iq := h.iq + 1 }) s) ∧
    (h.lq < n → s.nnode.toNat ≤ h.iq → pick n h s = .ok (h.lq, { lq := h.lq + 1, iq := h.iq }) s) ∧
    (n ≤ h.lq → h.iq < s.nnode.toNat → pick n h s = .ok (h.iq, { lq := h.lq, iq := h.iq + 1 }) s)

/-- R162: after `TREE`, the leaves are the table in order, each further node is internal with two children of smaller index
and the sum of their frequencies, `NNODE` and `ROOT` are as the rule says, and the rest of `NODE` is untouched. -/
def Obligations.TreeBuildsNodes : Prop :=
  ∀ (s : State) (rs : List SymRec), s.phase = .fsorted → Table rs s → ∃ t, exec .tree s = .next t ∧
    t = { s with node := t.node, nnode := BitVec.ofNat 15 (2 * rs.length - 1),
                 root := if rs.length = 0 then none else some (2 * rs.length - 2), phase := .treed } ∧
    (∀ i, i < rs.length →
      Store.read t.node i = (rs[i]?).map fun r =>
        { leaf := true, symbol := r.symbol, frequency := r.frequency, left := none, right := none }) ∧
    (∀ j, rs.length ≤ j → j < 2 * rs.length - 1 → ∃ a b ra rb, a < j ∧ b < j ∧ a ≠ b ∧
      Store.read t.node a = some ra ∧ Store.read t.node b = some rb ∧
      Store.read t.node j = some { leaf := false, symbol := 0x00, frequency := ra.frequency + rb.frequency,
                                   left := some a, right := some b }) ∧
    ∀ j, 2 * rs.length - 1 ≤ j → Store.read t.node j = Store.read s.node j

/-- R162, R163, R184: the nodes of `TREE` are one binary tree whose leaves are the symbols of the table, each once, and
where the frequencies sum to less than 2^32 the root's frequency is their sum: nothing wraps. -/
def Obligations.TreeIsOneTreeOverTheTable : Prop :=
  ∀ (s t : State) (rs : List SymRec), s.phase = .fsorted → Table rs s → rs ≠ [] → exec .tree s = .next t →
    ∃ root ht r, t.root = some root ∧ Represents t.node root ht ∧ (ht.symbols).Perm (rs.map fun q => q.symbol) ∧
      Store.read t.node root = some r ∧
      ((rs.map fun q => q.frequency.toNat).sum < 2 ^ 32 →
        r.frequency.toNat = (rs.map fun q => q.frequency.toNat).sum)

/-! ### The codes -/

/-- R181, R182: `CODES` gives the record of every leaf of a tree of depth at most 64 the code and the length of the leaf's
path, bit `k` the branch at depth `k`, and touches no other record; with no tree it only moves on. -/
def Obligations.CodesAssignsPaths : Prop :=
  (∀ (s : State) (rs : List SymRec) (root : Nat) (ht : HTree), s.phase = .treed → Table rs s → s.root = some root →
      Represents s.node root ht → ht.depth ≤ 64 → (rs.map fun r => r.symbol).Nodup → ht.symbols.Nodup →
      (∀ c, c ∈ ht.symbols → c ∈ rs.map fun r => r.symbol) →
        ∃ t, exec .codes s = .next t ∧ t = { s with sym := t.sym, phase := .coded } ∧
          (∀ i r c p, rs[i]? = some r → (c, p) ∈ ht.paths → r.symbol = c →
            Store.read t.sym i =
              some { r with code := BitVec.ofNat 64 (bitsValue p), codeLength := BitVec.ofNat 7 p.length }) ∧
          (∀ i r, rs[i]? = some r → r.symbol ∉ ht.symbols → Store.read t.sym i = some r) ∧
          ∀ i, rs.length ≤ i → Store.read t.sym i = Store.read s.sym i) ∧
    ∀ s : State, s.phase = .treed → s.root = none → exec .codes s = .next { s with phase := .coded }

/-- R184: the codes `CODES` assigns are prefix-free. -/
def Obligations.AssignedCodesArePrefixFree : Prop :=
  ∀ (s t : State) (rs qs : List SymRec) (root : Nat) (ht : HTree), s.phase = .treed → Table rs s → s.root = some root →
    Represents s.node root ht → ht.symbols.Perm (rs.map fun r => r.symbol) → (rs.map fun r => r.symbol).Nodup →
    exec .codes s = .next t → t.phase = .coded → Table qs t → qs.Pairwise fun a b => Apart (codeBits a) (codeBits b)

/-- R182, R183: `CODES` on a tree with a leaf deeper than 64 raises `CapacityExceeded(1, n)`, `n` an internal node at depth
64, and never truncates a code. -/
def Obligations.CodesGuardsCapacity : Prop :=
  ∀ (s : State) (rs : List SymRec) (root : Nat) (ht : HTree), s.phase = .treed → Table rs s → s.root = some root →
    Represents s.node root ht → 64 < ht.depth → (∀ c, c ∈ ht.symbols → c ∈ rs.map fun r => r.symbol) →
      ∃ t n p r, exec .codes s = .next t ∧
        t = { s with sym := t.sym, phase := .error, err := .capacityExceeded, errsub := 1, errinfo := BitVec.ofNat 32 n } ∧
        p.length = 64 ∧ endOf s p = some n ∧ Store.read s.node n = some r ∧ r.leaf = false

/-! ### The container -/

/-- R201: `WHDR` appends symbolCount, originalLength and one ten-byte entry per record, and nothing else. -/
def Obligations.WhdrWritesHeader : Prop :=
  ∀ (s : State) (rs : List SymRec), s.phase = .ssorted → NoFail s → Table rs s →
    exec .whdr s = .next { s with out := s.out ++ headerOf (rs.map SymRec.entry) s.origLen.toNat,
                                  opos := s.opos + BitVec.ofNat 40 (6 + 10 * rs.length),
                                  oracle := s.oracle.drop (6 + 10 * rs.length), phase := .hdrw }

/-- R66, R201: when the environment fails the `k`-th write, `WHDR` raises `IOFailure(2, OPOS[31:0])`; the bytes before it
stay in OUT. -/
def Obligations.WhdrWriteFailureRaises : Prop :=
  ∀ (s : State) (rs : List SymRec) (k : Nat) (rest : List IoAnswer), s.phase = .ssorted → Table rs s →
    k < 6 + 10 * rs.length → s.oracle = List.replicate k .ok ++ .fail :: rest →
    exec .whdr s = .next { s with out := s.out ++ (headerOf (rs.map SymRec.entry) s.origLen.toNat).take k,
                                  opos := s.opos + BitVec.ofNat 40 k, oracle := rest, phase := .error, err := .ioFailure,
                                  errsub := 2, errinfo := (s.opos + BitVec.ofNat 40 k).extractLsb' 0 32 }

/-- R206, R207, R209: `RHDR` on a file with an acceptable header rebuilds the tree: every entry's path leads from the root
to a leaf of its symbol and no other path leads to a leaf. `SYM` and `HSIZE` are untouched. -/
def Obligations.RhdrRebuildsTree : Prop :=
  ∀ (s : State) (es : List Entry) (olen : Nat) (tail : List Byte), s.phase ∈ [Phase.idle, .doneC, .doneD] → NoFail s →
    Presents (headerOf es olen ++ tail) s → Acceptable es → olen < 2 ^ 32 → (es = [] → olen = 0) →
      ∃ t, exec .rhdr s = .next t ∧
        t = { s with len := s.inLen, empty := es.isEmpty, acc := 0, accn := 0, rbuf := 0, rbn := 0,
                     rpos := BitVec.ofNat 32 (6 + 10 * es.length), opos := 0, out := [], node := t.node, nnode := t.nnode,
                     root := if es.isEmpty then none else some 0, nsym := BitVec.ofNat 9 es.length,
                     origLen := BitVec.ofNat 32 olen, oracle := s.oracle.drop (6 + 10 * es.length), phase := .hdrr } ∧
        t.nnode.toNat ≤ 16385 ∧
        (∀ e, e ∈ es → follow t e.bits =
          some { leaf := true, symbol := e.symbol, frequency := 0, left := none, right := none }) ∧
        ∀ p r, follow t p = some r → r.leaf = true → ∃ e, e ∈ es ∧ e.bits = p

/-- R206: the checks on the length and the counts, in their order: sub-causes 1, 2, 3, 4. -/
def Obligations.RhdrChecksCounts : Prop :=
  ∀ (s : State) (file : List Byte), s.phase ∈ [Phase.idle, .doneC, .doneD] → NoFail s → Presents file s →
    (file.length < 6 → ∃ t, exec .rhdr s = .next t ∧ t.phase = .error ∧ t.err = .malformedHeader ∧ t.errsub = 1 ∧
        t.errinfo.toNat = file.length ∧ t.oracle = s.oracle ∧ t.out = []) ∧
    ∀ (cnt olen : Nat) (rest : List Byte), cnt < 2 ^ 16 → olen < 2 ^ 32 → file = leBytes cnt 2 ++ leBytes olen 4 ++ rest →
      (256 < cnt ∨ file.length < 6 + 10 * cnt ∨ (cnt = 0 ∧ olen ≠ 0)) →
        ∃ t, exec .rhdr s = .next t ∧ t.phase = .error ∧ t.err = .malformedHeader ∧ t.out = [] ∧
          t.errsub = (if 256 < cnt then 2 else if file.length < 6 + 10 * cnt then 3 else 4) ∧
          t.errinfo.toNat = if 256 < cnt ∨ file.length < 6 + 10 * cnt then cnt else olen

/-- R206, R207: the first bad entry, after acceptable ones: a length above 64 is sub-cause 5; a path through an occupied leaf
is sub-cause 6; a path that ends at an occupied place is sub-cause 7; `ERRINFO` is the entry's index. -/
def Obligations.RhdrRejectsBadEntry : Prop :=
  ∀ (s : State) (es more : List Entry) (e : Entry) (olen : Nat) (tail : List Byte),
    s.phase ∈ [Phase.idle, .doneC, .doneD] → NoFail s → olen < 2 ^ 32 → Acceptable es → (es ++ e :: more).length ≤ 256 →
    Presents (headerOf (es ++ e :: more) olen ++ tail) s → ∀ sub : BitVec 8,
      ((64 < e.length.toNat ∧ sub = 5) ∨
        (e.length.toNat ≤ 64 ∧ sub = 6 ∧ ∃ d, d ∈ es ∧ d.bits <+: e.bits ∧ d.bits ≠ e.bits) ∨
        (e.length.toNat ≤ 64 ∧ sub = 7 ∧ ∃ d, d ∈ es ∧ e.bits <+: d.bits)) →
        ∃ t, exec .rhdr s = .next t ∧ t.phase = .error ∧ t.err = .malformedHeader ∧ t.errsub = sub ∧
          t.errinfo.toNat = es.length ∧ t.out = []

/-! ### The bit stream -/

/-- R230, R232: `ENC` appends the codes of the input's bytes, bit by bit after what the accumulator held: whole bytes to OUT,
at most 7 bits left in the accumulator. -/
def Obligations.EncWritesPayload : Prop :=
  ∀ (s : State) (bytes : List Byte) (rs : List SymRec), s.phase = .hdrw → NoFail s → s.origLen.toNat = bytes.length →
    bytes.length ≤ s.len.toNat → Store.Holds s.input bytes → Table rs s → (∀ b, b ∈ bytes → b ∈ rs.map fun r => r.symbol) →
    AccForm s →
      ∃ t new, exec .enc s = .next t ∧
        t = { s with out := s.out ++ new, opos := s.opos + BitVec.ofNat 40 new.length, acc := t.acc, accn := t.accn,
                     oracle := s.oracle.drop (bytes.length + new.length), phase := .encoded } ∧
        new.flatMap byteBits ++ accBits t = accBits s ++ payloadBits rs bytes ∧ AccForm t

/-- R232: the first byte without a table record raises `InconsistentInput(1, a)`, `a` its address; what was encoded before
it stays. -/
def Obligations.EncRejectsUnknownByte : Prop :=
  ∀ (s : State) (bytes : List Byte) (b : Byte) (rs : List SymRec), s.phase = .hdrw → NoFail s →
    bytes.length < s.origLen.toNat → s.origLen.toNat ≤ s.len.toNat → Store.Holds s.input (bytes ++ [b]) → Table rs s →
    (∀ c, c ∈ bytes → c ∈ rs.map fun r => r.symbol) → (b ∉ rs.map fun r => r.symbol) → AccForm s →
      ∃ t new, exec .enc s = .next t ∧
        t = { s with out := s.out ++ new, opos := s.opos + BitVec.ofNat 40 new.length, acc := t.acc, accn := t.accn,
                     oracle := s.oracle.drop (bytes.length + 1 + new.length), phase := .error, err := .inconsistentInput,
                     errsub := 1, errinfo := BitVec.ofNat 32 bytes.length } ∧
        new.flatMap byteBits ++ accBits t = accBits s ++ payloadBits rs bytes

/-- R233: `FLUSH` writes the partial byte, padded with zeros, and empties the accumulator; with an empty accumulator it
accesses nothing; where the environment fails the write it raises `IOFailure(2, OPOS[31:0])`. -/
def Obligations.FlushWritesPartialByte : Prop :=
  ∀ s : State, s.phase = .encoded →
    (s.accn = 0 → exec .flush s = .next { s with phase := .doneC }) ∧
    (s.accn ≠ 0 → NoFail s → AccForm s → ∃ b : Byte,
      exec .flush s = .next { s with out := s.out ++ [b], opos := s.opos + 1, acc := 0, accn := 0,
                                     oracle := s.oracle.drop 1, phase := .doneC } ∧
        byteBits b = accBits s ++ List.replicate (8 - s.accn.toNat) false) ∧
    ∀ rest : List IoAnswer, s.accn ≠ 0 → s.oracle = .fail :: rest →
      exec .flush s = .next { s with oracle := rest, phase := .error, err := .ioFailure, errsub := 2,
                                     errinfo := s.opos.extractLsb' 0 32 }

/-- R234, R236, R61: `DEC` reads the paths of `ORIGLEN` symbols from the payload, bit 0 first, writes the symbols, and looks
at no bit beyond them: a byte is fetched only when a bit of it is taken, so after a fetch, or where the buffer was not full
at the start, at most 7 bits are left in it, and the bits left then fix `RPOS`. -/
def Obligations.DecWritesSymbols : Prop :=
  ∀ (s : State) (file : List Byte) (xs : List (List Bool × Byte)) (rest : List Bool), s.phase = .hdrr → NoFail s →
    s.len.toNat = file.length → Store.Holds s.input file → s.origLen.toNat = xs.length →
    (∀ x, x ∈ xs → LeafAt s x) → readerBits file s = xs.flatMap Prod.fst ++ rest →
      ∃ t, exec .dec s = .next t ∧
        t = { s with out := s.out ++ xs.map Prod.snd, opos := s.opos + BitVec.ofNat 40 xs.length, rbuf := t.rbuf,
                     rbn := t.rbn, rpos := t.rpos, oracle := t.oracle, phase := .doneD } ∧
        readerBits file t = rest ∧ t.oracle = s.oracle.drop (xs.length + (t.rpos.toNat - s.rpos.toNat)) ∧
        (t.rpos ≠ s.rpos ∨ s.rbn.toNat < 8 → t.rbn.toNat < 8)

/-- R234, R236: a bit that selects a missing child raises `MalformedHeader(10, k)`, `k` the symbols decoded; a payload that
ends inside a symbol raises `MalformedHeader(9, RPOS)` with `RPOS` = `LEN`; the symbols before stay in OUT. -/
def Obligations.DecRejectsBadPayload : Prop :=
  ∀ (s : State) (file : List Byte) (xs : List (List Bool × Byte)) (p : List Bool) (r : NodeRec), s.phase = .hdrr → NoFail s →
    s.len.toNat = file.length → Store.Holds s.input file → s.rpos.toNat ≤ file.length → xs.length < s.origLen.toNat →
    (∀ x, x ∈ xs → LeafAt s x) → follow s p = some r → r.leaf = false →
      (∀ (bit : Bool) (rest : List Bool), (if bit then r.right else r.left) = none →
        readerBits file s = xs.flatMap Prod.fst ++ p ++ bit :: rest →
          ∃ t, exec .dec s = .next t ∧ t.phase = .error ∧ t.err = .malformedHeader ∧ t.errsub = 10 ∧
            t.errinfo = BitVec.ofNat 32 xs.length ∧ t.out = s.out ++ xs.map Prod.snd) ∧
      (readerBits file s = xs.flatMap Prod.fst ++ p →
        ∃ t, exec .dec s = .next t ∧ t.phase = .error ∧ t.err = .malformedHeader ∧ t.errsub = 9 ∧ t.errinfo = s.len ∧
          t.rpos = s.len ∧ t.out = s.out ++ xs.map Prod.snd)

/-! ### The whole flows -/

/-- R265, R266, R96: `COMPRESS` and `DECOMPRESS` equal their scripts, in every outcome. -/
def Obligations.WholeFlowsEqualTheirScripts : Prop :=
  ∀ s : State, s.phase ∈ [Phase.idle, .doneC, .doneD] →
    exec .compress s =
        execAll [.clr, .scan, .pack, .hsortF, .tree, .codes, .hsortS, .whdr, .enc, .flush] s ∧
      exec .decompress s = execAll [.rhdr, .dec] s

/-- R265, R100, R101, R102, R104, R233: on every input, of 0 to 256 distinct bytes, `COMPRESS` ends in `DONE_C` with OUT the
complete file: the header of a table with exactly the bytes of the input, in ascending order, with their counts and
prefix-free codes, then the payload padded with zeros. That the 64-bit guard never ends it is the bound R186 gives from
general knowledge and says not to assume (`CompressNeverExceedsCapacity`); here too it is claimed, not assumed. -/
def Obligations.CompressWritesWholeFile : Prop :=
  ∀ (s : State) (bytes : List Byte), s.phase ∈ [Phase.idle, .doneC, .doneD] → NoFail s → Presents bytes s →
      ∃ t rs pay pad, exec .compress s = .next t ∧
        t = { s with phase := .doneC, len := s.inLen, origLen := s.inLen, empty := bytes.isEmpty, sym := t.sym,
                     nsym := t.nsym, hsize := t.nsym, node := t.node, nnode := t.nnode, root := t.root, acc := 0, accn := 0,
                     rbuf := 0, rbn := 0, rpos := 0, opos := BitVec.ofNat 40 t.out.length,
                     out := headerOf (rs.map SymRec.entry) bytes.length ++ pay, oracle := t.oracle } ∧
        Table rs t ∧ (rs.Pairwise fun a b => a.symbol < b.symbol) ∧
        (∀ b, b ∈ bytes ↔ b ∈ rs.map fun r => r.symbol) ∧
        (∀ r, r ∈ rs → r.frequency.toNat = bytes.count r.symbol) ∧
        (rs.Pairwise fun a b => Apart (codeBits a) (codeBits b)) ∧
        pay.flatMap byteBits = payloadBits rs bytes ++ List.replicate pad false ∧ pad < 8

/-- R266, R206, R236: `DECOMPRESS` of a file with an acceptable header and a payload of whole symbols ends in `DONE_D` with
OUT the symbols; padding and trailing bytes do not matter. `SYM` and `HSIZE` are untouched. -/
def Obligations.DecompressReadsWholeFile : Prop :=
  ∀ (s : State) (es ds : List Entry) (pay : List Byte) (rest : List Bool), s.phase ∈ [Phase.idle, .doneC, .doneD] →
    NoFail s → Acceptable es → (∀ d, d ∈ ds → d ∈ es) → ds.length < 2 ^ 32 →
    Presents (headerOf es ds.length ++ pay) s → pay.flatMap byteBits = ds.flatMap Entry.bits ++ rest →
      ∃ t, exec .decompress s = .next t ∧
        t = { s with phase := .doneD, len := s.inLen, origLen := BitVec.ofNat 32 ds.length, empty := es.isEmpty,
                     nsym := BitVec.ofNat 9 es.length, node := t.node, nnode := t.nnode, root := t.root, acc := 0,
                     accn := 0, rbuf := t.rbuf, rbn := t.rbn, rpos := t.rpos, opos := BitVec.ofNat 40 ds.length,
                     out := ds.map fun d => d.symbol, oracle := t.oracle }

/-- R238: the round trip. Whatever `COMPRESS` writes without raising, `DECOMPRESS` turns back into the input, provided the
oracle fails no access. -/
def Obligations.DecompressInvertsCompress : Prop :=
  ∀ (bytes : List Byte) (s t u : State), s.phase ∈ [Phase.idle, .doneC, .doneD] → NoFail s → Presents bytes s →
    exec .compress s = .next t → t.phase = .doneC → u.phase ∈ [Phase.idle, .doneC, .doneD] → NoFail u →
    Presents t.out u → ∃ v, exec .decompress u = .next v ∧ v.phase = .doneD ∧ v.out = bytes

/-- R186, derived there from general knowledge and "not to be assumed": a run from a 32-bit length never reaches the 64-bit
guard, so `COMPRESS` never raises `CapacityExceeded`. -/
def Obligations.CompressNeverExceedsCapacity : Prop :=
  ∀ s t : State, s.phase ∈ [Phase.idle, .doneC, .doneD] → s.err = .none → exec .compress s = .next t →
    t.err ≠ .capacityExceeded

/-! ### Invariants every step keeps -/

/-- The canonical form of IN, `SYM` and `NODE`, and their address spaces (R60, R28, R31, R209). -/
def Obligations.StepKeepsMemoryForm : Prop := ∀ s t : State, MemoryForm s → step s = .next t → MemoryForm t

/-- R24: `PHASE = ERROR` if and only if `ERR != 0`. -/
def Obligations.StepKeepsErrorForm : Prop := ∀ s t : State, ErrorForm s → step s = .next t → ErrorForm t

/-- R33, R230: outside `ERROR` the accumulator holds at most 7 bits and nothing above them. -/
def Obligations.StepKeepsAccumulatorForm : Prop := ∀ s t : State, AccForm s → step s = .next t → AccForm t

/-- R34, R268 f, g: the reader holds at most 8 bits and is never past the input. -/
def Obligations.StepKeepsReaderForm : Prop := ∀ s t : State, ReaderForm s → step s = .next t → ReaderForm t

/-- R35, R268 h: `OPOS` is the number of bytes written, and never wraps. -/
def Obligations.StepKeepsOutputCount : Prop := ∀ s t : State, OutForm s → step s = .next t → OutForm t

/-- R39: which state means what, phase by phase. -/
def Obligations.StepKeepsPhaseTable : Prop := ∀ s t : State, PhaseTable s → step s = .next t → PhaseTable t

/-- R39, R44, R62: in a state of the phase table a step never reads a record no rule has written, never reads IN at or above
`LEN`, never meets a tree without a child; the one fault left is a byte of IN the host did not supply (log 4). -/
def Obligations.OnlyMissingInputFaults : Prop :=
  ∀ (s : State) (f : Fault), PhaseTable s → step s = .fault f →
    ∃ a, f = .inputNotSupplied a ∧ Store.read s.input a = none

/-- The reset state meets every invariant. -/
def Obligations.ResetMeetsInvariants : Prop :=
  MemoryForm State.reset ∧ ErrorForm State.reset ∧ AccForm State.reset ∧ ReaderForm State.reset ∧ OutForm State.reset ∧
    PhaseTable State.reset

/-! ### Frames -/

/-- R61, R26, R36: no command writes IN, `IN_LEN`, the host's script or the host's read data; the oracle's answers are used
up from the front. -/
def Obligations.CommandsLeaveHostSide : Prop :=
  ∀ (i : Instr) (s t : State), exec i s = .next t →
    t.input = s.input ∧ t.inLen = s.inLen ∧ t.script = s.script ∧ t.readData = s.readData ∧ t.oracle <:+ s.oracle

/-- What `SCAN`, `PACK`, `HSORT` and `CODES` leave alone, raised or not: all but the fields named, and in the table all but
the field or the part they work on. Every address of IN, every byte of OUT and every node is unchanged. -/
def Obligations.TableCommandFrames : Prop :=
  ∀ s t : State,
    (exec .scan s = .next t →
      t = { s with sym := t.sym, origLen := t.origLen, oracle := t.oracle, phase := t.phase, err := t.err,
                   errsub := t.errsub, errinfo := t.errinfo } ∧
      ∀ i, (Store.read t.sym i).map (fun r => (r.symbol, r.code, r.codeLength)) =
        (Store.read s.sym i).map fun r => (r.symbol, r.code, r.codeLength)) ∧
    (exec .pack s = .next t →
      t = { s with sym := t.sym, nsym := t.nsym, hsize := t.hsize, empty := t.empty, phase := t.phase, err := t.err,
                   errsub := t.errsub, errinfo := t.errinfo } ∧
      ∀ i, t.nsym.toNat ≤ i → Store.read t.sym i = Store.read s.sym i) ∧
    (∀ i, i ∈ [Instr.hsortF, .hsortS] → exec i s = .next t →
      t = { s with sym := t.sym, hsize := t.hsize, phase := t.phase, err := t.err, errsub := t.errsub,
                   errinfo := t.errinfo } ∧
      ∀ k, s.nsym.toNat ≤ k → Store.read t.sym k = Store.read s.sym k) ∧
    (exec .codes s = .next t →
      t = { s with sym := t.sym, phase := t.phase, err := t.err, errsub := t.errsub, errinfo := t.errinfo } ∧
      (∀ i, (Store.read t.sym i).map (fun r => (r.symbol, r.frequency)) =
        (Store.read s.sym i).map fun r => (r.symbol, r.frequency)) ∧
      ∀ k, s.nsym.toNat ≤ k → Store.read t.sym k = Store.read s.sym k)

/-- What `TREE`, `WHDR`, `ENC`, `FLUSH`, `DEC`, `RHDR` and `DECOMPRESS` leave alone, raised or not: all but the fields named;
`TREE` no node from `2 × NSYM - 1` on; the writers keep what was in OUT in front. -/
def Obligations.TreeAndStreamCommandFrames : Prop :=
  ∀ s t : State,
    (exec .tree s = .next t →
      t = { s with node := t.node, nnode := t.nnode, root := t.root, phase := t.phase, err := t.err, errsub := t.errsub,
                   errinfo := t.errinfo } ∧
      ∀ j, 2 * s.nsym.toNat - 1 ≤ j → Store.read t.node j = Store.read s.node j) ∧
    (exec .whdr s = .next t →
      t = { s with out := t.out, opos := t.opos, oracle := t.oracle, phase := t.phase, err := t.err, errsub := t.errsub,
                   errinfo := t.errinfo } ∧ s.out <+: t.out) ∧
    (∀ i, i ∈ [Instr.enc, .flush] → exec i s = .next t →
      t = { s with out := t.out, opos := t.opos, acc := t.acc, accn := t.accn, oracle := t.oracle, phase := t.phase,
                   err := t.err, errsub := t.errsub, errinfo := t.errinfo } ∧ s.out <+: t.out) ∧
    (exec .dec s = .next t →
      t = { s with out := t.out, opos := t.opos, rbuf := t.rbuf, rbn := t.rbn, rpos := t.rpos, oracle := t.oracle,
                   phase := t.phase, err := t.err, errsub := t.errsub, errinfo := t.errinfo } ∧ s.out <+: t.out) ∧
    ∀ i, i ∈ [Instr.rhdr, .decompress] → exec i s = .next t →
      t = { s with len := t.len, empty := t.empty, acc := t.acc, accn := t.accn, rbuf := t.rbuf, rbn := t.rbn,
                   rpos := t.rpos, opos := t.opos, out := t.out, node := t.node, nnode := t.nnode, root := t.root,
                   nsym := t.nsym, origLen := t.origLen, oracle := t.oracle, phase := t.phase, err := t.err,
                   errsub := t.errsub, errinfo := t.errinfo }
end

