-- ==== Sys2Proof/Laws/State.lean ====
section
/-!
SUPPORT. One lemma per field per named update of the state, each true by rfl, so that no later proof unfolds a record update.
-/
namespace Sys2Proof.Machine

/-! ### `raise` -/

@[simp] theorem raise_phase (kind : ErrKind) (sub : BitVec 8) (info : Nat) (s : State) : (raise kind sub info s).phase = .error := rfl
@[simp] theorem raise_err (kind : ErrKind) (sub : BitVec 8) (info : Nat) (s : State) : (raise kind sub info s).err = kind := rfl
@[simp] theorem raise_errsub (kind : ErrKind) (sub : BitVec 8) (info : Nat) (s : State) : (raise kind sub info s).errsub = sub := rfl
@[simp] theorem raise_errinfo (kind : ErrKind) (sub : BitVec 8) (info : Nat) (s : State) : (raise kind sub info s).errinfo = BitVec.ofNat 32 info := rfl
@[simp] theorem raise_empty (kind : ErrKind) (sub : BitVec 8) (info : Nat) (s : State) : (raise kind sub info s).empty = s.empty := rfl
@[simp] theorem raise_inLen (kind : ErrKind) (sub : BitVec 8) (info : Nat) (s : State) : (raise kind sub info s).inLen = s.inLen := rfl
@[simp] theorem raise_len (kind : ErrKind) (sub : BitVec 8) (info : Nat) (s : State) : (raise kind sub info s).len = s.len := rfl
@[simp] theorem raise_origLen (kind : ErrKind) (sub : BitVec 8) (info : Nat) (s : State) : (raise kind sub info s).origLen = s.origLen := rfl
@[simp] theorem raise_sym (kind : ErrKind) (sub : BitVec 8) (info : Nat) (s : State) : (raise kind sub info s).sym = s.sym := rfl
@[simp] theorem raise_nsym (kind : ErrKind) (sub : BitVec 8) (info : Nat) (s : State) : (raise kind sub info s).nsym = s.nsym := rfl
@[simp] theorem raise_hsize (kind : ErrKind) (sub : BitVec 8) (info : Nat) (s : State) : (raise kind sub info s).hsize = s.hsize := rfl
@[simp] theorem raise_node (kind : ErrKind) (sub : BitVec 8) (info : Nat) (s : State) : (raise kind sub info s).node = s.node := rfl
@[simp] theorem raise_nnode (kind : ErrKind) (sub : BitVec 8) (info : Nat) (s : State) : (raise kind sub info s).nnode = s.nnode := rfl
@[simp] theorem raise_root (kind : ErrKind) (sub : BitVec 8) (info : Nat) (s : State) : (raise kind sub info s).root = s.root := rfl
@[simp] theorem raise_acc (kind : ErrKind) (sub : BitVec 8) (info : Nat) (s : State) : (raise kind sub info s).acc = s.acc := rfl
@[simp] theorem raise_accn (kind : ErrKind) (sub : BitVec 8) (info : Nat) (s : State) : (raise kind sub info s).accn = s.accn := rfl
@[simp] theorem raise_rbuf (kind : ErrKind) (sub : BitVec 8) (info : Nat) (s : State) : (raise kind sub info s).rbuf = s.rbuf := rfl
@[simp] theorem raise_rbn (kind : ErrKind) (sub : BitVec 8) (info : Nat) (s : State) : (raise kind sub info s).rbn = s.rbn := rfl
@[simp] theorem raise_rpos (kind : ErrKind) (sub : BitVec 8) (info : Nat) (s : State) : (raise kind sub info s).rpos = s.rpos := rfl
@[simp] theorem raise_opos (kind : ErrKind) (sub : BitVec 8) (info : Nat) (s : State) : (raise kind sub info s).opos = s.opos := rfl
@[simp] theorem raise_input (kind : ErrKind) (sub : BitVec 8) (info : Nat) (s : State) : (raise kind sub info s).input = s.input := rfl
@[simp] theorem raise_out (kind : ErrKind) (sub : BitVec 8) (info : Nat) (s : State) : (raise kind sub info s).out = s.out := rfl
@[simp] theorem raise_oracle (kind : ErrKind) (sub : BitVec 8) (info : Nat) (s : State) : (raise kind sub info s).oracle = s.oracle := rfl
@[simp] theorem raise_script (kind : ErrKind) (sub : BitVec 8) (info : Nat) (s : State) : (raise kind sub info s).script = s.script := rfl
@[simp] theorem raise_readData (kind : ErrKind) (sub : BitVec 8) (info : Nat) (s : State) : (raise kind sub info s).readData = s.readData := rfl

/-! ### `setPhase` -/

@[simp] theorem setPhase_phase (p : Phase) (s : State) : (setPhase p s).phase = p := rfl
@[simp] theorem setPhase_err (p : Phase) (s : State) : (setPhase p s).err = s.err := rfl
@[simp] theorem setPhase_errsub (p : Phase) (s : State) : (setPhase p s).errsub = s.errsub := rfl
@[simp] theorem setPhase_errinfo (p : Phase) (s : State) : (setPhase p s).errinfo = s.errinfo := rfl
@[simp] theorem setPhase_empty (p : Phase) (s : State) : (setPhase p s).empty = s.empty := rfl
@[simp] theorem setPhase_inLen (p : Phase) (s : State) : (setPhase p s).inLen = s.inLen := rfl
@[simp] theorem setPhase_len (p : Phase) (s : State) : (setPhase p s).len = s.len := rfl
@[simp] theorem setPhase_origLen (p : Phase) (s : State) : (setPhase p s).origLen = s.origLen := rfl
@[simp] theorem setPhase_sym (p : Phase) (s : State) : (setPhase p s).sym = s.sym := rfl
@[simp] theorem setPhase_nsym (p : Phase) (s : State) : (setPhase p s).nsym = s.nsym := rfl
@[simp] theorem setPhase_hsize (p : Phase) (s : State) : (setPhase p s).hsize = s.hsize := rfl
@[simp] theorem setPhase_node (p : Phase) (s : State) : (setPhase p s).node = s.node := rfl
@[simp] theorem setPhase_nnode (p : Phase) (s : State) : (setPhase p s).nnode = s.nnode := rfl
@[simp] theorem setPhase_root (p : Phase) (s : State) : (setPhase p s).root = s.root := rfl
@[simp] theorem setPhase_acc (p : Phase) (s : State) : (setPhase p s).acc = s.acc := rfl
@[simp] theorem setPhase_accn (p : Phase) (s : State) : (setPhase p s).accn = s.accn := rfl
@[simp] theorem setPhase_rbuf (p : Phase) (s : State) : (setPhase p s).rbuf = s.rbuf := rfl
@[simp] theorem setPhase_rbn (p : Phase) (s : State) : (setPhase p s).rbn = s.rbn := rfl
@[simp] theorem setPhase_rpos (p : Phase) (s : State) : (setPhase p s).rpos = s.rpos := rfl
@[simp] theorem setPhase_opos (p : Phase) (s : State) : (setPhase p s).opos = s.opos := rfl
@[simp] theorem setPhase_input (p : Phase) (s : State) : (setPhase p s).input = s.input := rfl
@[simp] theorem setPhase_out (p : Phase) (s : State) : (setPhase p s).out = s.out := rfl
@[simp] theorem setPhase_oracle (p : Phase) (s : State) : (setPhase p s).oracle = s.oracle := rfl
@[simp] theorem setPhase_script (p : Phase) (s : State) : (setPhase p s).script = s.script := rfl
@[simp] theorem setPhase_readData (p : Phase) (s : State) : (setPhase p s).readData = s.readData := rfl

/-! ### `runInit` -/

@[simp] theorem runInit_phase (s : State) : (runInit s).phase = s.phase := rfl
@[simp] theorem runInit_err (s : State) : (runInit s).err = s.err := rfl
@[simp] theorem runInit_errsub (s : State) : (runInit s).errsub = s.errsub := rfl
@[simp] theorem runInit_errinfo (s : State) : (runInit s).errinfo = s.errinfo := rfl
@[simp] theorem runInit_empty (s : State) : (runInit s).empty = false := rfl
@[simp] theorem runInit_inLen (s : State) : (runInit s).inLen = s.inLen := rfl
@[simp] theorem runInit_len (s : State) : (runInit s).len = s.inLen := rfl
@[simp] theorem runInit_origLen (s : State) : (runInit s).origLen = s.origLen := rfl
@[simp] theorem runInit_sym (s : State) : (runInit s).sym = s.sym := rfl
@[simp] theorem runInit_nsym (s : State) : (runInit s).nsym = s.nsym := rfl
@[simp] theorem runInit_hsize (s : State) : (runInit s).hsize = s.hsize := rfl
@[simp] theorem runInit_node (s : State) : (runInit s).node = s.node := rfl
@[simp] theorem runInit_nnode (s : State) : (runInit s).nnode = 0 := rfl
@[simp] theorem runInit_root (s : State) : (runInit s).root = none := rfl
@[simp] theorem runInit_acc (s : State) : (runInit s).acc = 0 := rfl
@[simp] theorem runInit_accn (s : State) : (runInit s).accn = 0 := rfl
@[simp] theorem runInit_rbuf (s : State) : (runInit s).rbuf = 0 := rfl
@[simp] theorem runInit_rbn (s : State) : (runInit s).rbn = 0 := rfl
@[simp] theorem runInit_rpos (s : State) : (runInit s).rpos = 0 := rfl
@[simp] theorem runInit_opos (s : State) : (runInit s).opos = 0 := rfl
@[simp] theorem runInit_input (s : State) : (runInit s).input = s.input := rfl
@[simp] theorem runInit_out (s : State) : (runInit s).out = [] := rfl
@[simp] theorem runInit_oracle (s : State) : (runInit s).oracle = s.oracle := rfl
@[simp] theorem runInit_script (s : State) : (runInit s).script = s.script := rfl
@[simp] theorem runInit_readData (s : State) : (runInit s).readData = s.readData := rfl

/-! ### `popAnswer` -/

@[simp] theorem popAnswer_phase (s : State) : (popAnswer s).phase = s.phase := rfl
@[simp] theorem popAnswer_err (s : State) : (popAnswer s).err = s.err := rfl
@[simp] theorem popAnswer_errsub (s : State) : (popAnswer s).errsub = s.errsub := rfl
@[simp] theorem popAnswer_errinfo (s : State) : (popAnswer s).errinfo = s.errinfo := rfl
@[simp] theorem popAnswer_empty (s : State) : (popAnswer s).empty = s.empty := rfl
@[simp] theorem popAnswer_inLen (s : State) : (popAnswer s).inLen = s.inLen := rfl
@[simp] theorem popAnswer_len (s : State) : (popAnswer s).len = s.len := rfl
@[simp] theorem popAnswer_origLen (s : State) : (popAnswer s).origLen = s.origLen := rfl
@[simp] theorem popAnswer_sym (s : State) : (popAnswer s).sym = s.sym := rfl
@[simp] theorem popAnswer_nsym (s : State) : (popAnswer s).nsym = s.nsym := rfl
@[simp] theorem popAnswer_hsize (s : State) : (popAnswer s).hsize = s.hsize := rfl
@[simp] theorem popAnswer_node (s : State) : (popAnswer s).node = s.node := rfl
@[simp] theorem popAnswer_nnode (s : State) : (popAnswer s).nnode = s.nnode := rfl
@[simp] theorem popAnswer_root (s : State) : (popAnswer s).root = s.root := rfl
@[simp] theorem popAnswer_acc (s : State) : (popAnswer s).acc = s.acc := rfl
@[simp] theorem popAnswer_accn (s : State) : (popAnswer s).accn = s.accn := rfl
@[simp] theorem popAnswer_rbuf (s : State) : (popAnswer s).rbuf = s.rbuf := rfl
@[simp] theorem popAnswer_rbn (s : State) : (popAnswer s).rbn = s.rbn := rfl
@[simp] theorem popAnswer_rpos (s : State) : (popAnswer s).rpos = s.rpos := rfl
@[simp] theorem popAnswer_opos (s : State) : (popAnswer s).opos = s.opos := rfl
@[simp] theorem popAnswer_input (s : State) : (popAnswer s).input = s.input := rfl
@[simp] theorem popAnswer_out (s : State) : (popAnswer s).out = s.out := rfl
@[simp] theorem popAnswer_oracle (s : State) : (popAnswer s).oracle = s.oracle.tail := rfl
@[simp] theorem popAnswer_script (s : State) : (popAnswer s).script = s.script := rfl
@[simp] theorem popAnswer_readData (s : State) : (popAnswer s).readData = s.readData := rfl

/-! ### `emit` -/

@[simp] theorem emit_phase (v : Byte) (s : State) : (emit v s).phase = s.phase := rfl
@[simp] theorem emit_err (v : Byte) (s : State) : (emit v s).err = s.err := rfl
@[simp] theorem emit_errsub (v : Byte) (s : State) : (emit v s).errsub = s.errsub := rfl
@[simp] theorem emit_errinfo (v : Byte) (s : State) : (emit v s).errinfo = s.errinfo := rfl
@[simp] theorem emit_empty (v : Byte) (s : State) : (emit v s).empty = s.empty := rfl
@[simp] theorem emit_inLen (v : Byte) (s : State) : (emit v s).inLen = s.inLen := rfl
@[simp] theorem emit_len (v : Byte) (s : State) : (emit v s).len = s.len := rfl
@[simp] theorem emit_origLen (v : Byte) (s : State) : (emit v s).origLen = s.origLen := rfl
@[simp] theorem emit_sym (v : Byte) (s : State) : (emit v s).sym = s.sym := rfl
@[simp] theorem emit_nsym (v : Byte) (s : State) : (emit v s).nsym = s.nsym := rfl
@[simp] theorem emit_hsize (v : Byte) (s : State) : (emit v s).hsize = s.hsize := rfl
@[simp] theorem emit_node (v : Byte) (s : State) : (emit v s).node = s.node := rfl
@[simp] theorem emit_nnode (v : Byte) (s : State) : (emit v s).nnode = s.nnode := rfl
@[simp] theorem emit_root (v : Byte) (s : State) : (emit v s).root = s.root := rfl
@[simp] theorem emit_acc (v : Byte) (s : State) : (emit v s).acc = s.acc := rfl
@[simp] theorem emit_accn (v : Byte) (s : State) : (emit v s).accn = s.accn := rfl
@[simp] theorem emit_rbuf (v : Byte) (s : State) : (emit v s).rbuf = s.rbuf := rfl
@[simp] theorem emit_rbn (v : Byte) (s : State) : (emit v s).rbn = s.rbn := rfl
@[simp] theorem emit_rpos (v : Byte) (s : State) : (emit v s).rpos = s.rpos := rfl
@[simp] theorem emit_opos (v : Byte) (s : State) : (emit v s).opos = s.opos + 1 := rfl
@[simp] theorem emit_input (v : Byte) (s : State) : (emit v s).input = s.input := rfl
@[simp] theorem emit_out (v : Byte) (s : State) : (emit v s).out = s.out ++ [v] := rfl
@[simp] theorem emit_oracle (v : Byte) (s : State) : (emit v s).oracle = s.oracle := rfl
@[simp] theorem emit_script (v : Byte) (s : State) : (emit v s).script = s.script := rfl
@[simp] theorem emit_readData (v : Byte) (s : State) : (emit v s).readData = s.readData := rfl

/-! ### `writeSym` -/

@[simp] theorem writeSym_phase (i : Nat) (r : SymRec) (s : State) : (writeSym i r s).phase = s.phase := rfl
@[simp] theorem writeSym_err (i : Nat) (r : SymRec) (s : State) : (writeSym i r s).err = s.err := rfl
@[simp] theorem writeSym_errsub (i : Nat) (r : SymRec) (s : State) : (writeSym i r s).errsub = s.errsub := rfl
@[simp] theorem writeSym_errinfo (i : Nat) (r : SymRec) (s : State) : (writeSym i r s).errinfo = s.errinfo := rfl
@[simp] theorem writeSym_empty (i : Nat) (r : SymRec) (s : State) : (writeSym i r s).empty = s.empty := rfl
@[simp] theorem writeSym_inLen (i : Nat) (r : SymRec) (s : State) : (writeSym i r s).inLen = s.inLen := rfl
@[simp] theorem writeSym_len (i : Nat) (r : SymRec) (s : State) : (writeSym i r s).len = s.len := rfl
@[simp] theorem writeSym_origLen (i : Nat) (r : SymRec) (s : State) : (writeSym i r s).origLen = s.origLen := rfl
@[simp] theorem writeSym_sym (i : Nat) (r : SymRec) (s : State) : (writeSym i r s).sym = Store.write s.sym i r := rfl
@[simp] theorem writeSym_nsym (i : Nat) (r : SymRec) (s : State) : (writeSym i r s).nsym = s.nsym := rfl
@[simp] theorem writeSym_hsize (i : Nat) (r : SymRec) (s : State) : (writeSym i r s).hsize = s.hsize := rfl
@[simp] theorem writeSym_node (i : Nat) (r : SymRec) (s : State) : (writeSym i r s).node = s.node := rfl
@[simp] theorem writeSym_nnode (i : Nat) (r : SymRec) (s : State) : (writeSym i r s).nnode = s.nnode := rfl
@[simp] theorem writeSym_root (i : Nat) (r : SymRec) (s : State) : (writeSym i r s).root = s.root := rfl
@[simp] theorem writeSym_acc (i : Nat) (r : SymRec) (s : State) : (writeSym i r s).acc = s.acc := rfl
@[simp] theorem writeSym_accn (i : Nat) (r : SymRec) (s : State) : (writeSym i r s).accn = s.accn := rfl
@[simp] theorem writeSym_rbuf (i : Nat) (r : SymRec) (s : State) : (writeSym i r s).rbuf = s.rbuf := rfl
@[simp] theorem writeSym_rbn (i : Nat) (r : SymRec) (s : State) : (writeSym i r s).rbn = s.rbn := rfl
@[simp] theorem writeSym_rpos (i : Nat) (r : SymRec) (s : State) : (writeSym i r s).rpos = s.rpos := rfl
@[simp] theorem writeSym_opos (i : Nat) (r : SymRec) (s : State) : (writeSym i r s).opos = s.opos := rfl
@[simp] theorem writeSym_input (i : Nat) (r : SymRec) (s : State) : (writeSym i r s).input = s.input := rfl
@[simp] theorem writeSym_out (i : Nat) (r : SymRec) (s : State) : (writeSym i r s).out = s.out := rfl
@[simp] theorem writeSym_oracle (i : Nat) (r : SymRec) (s : State) : (writeSym i r s).oracle = s.oracle := rfl
@[simp] theorem writeSym_script (i : Nat) (r : SymRec) (s : State) : (writeSym i r s).script = s.script := rfl
@[simp] theorem writeSym_readData (i : Nat) (r : SymRec) (s : State) : (writeSym i r s).readData = s.readData := rfl

/-! ### `writeNode` -/

@[simp] theorem writeNode_phase (j : Nat) (r : NodeRec) (s : State) : (writeNode j r s).phase = s.phase := rfl
@[simp] theorem writeNode_err (j : Nat) (r : NodeRec) (s : State) : (writeNode j r s).err = s.err := rfl
@[simp] theorem writeNode_errsub (j : Nat) (r : NodeRec) (s : State) : (writeNode j r s).errsub = s.errsub := rfl
@[simp] theorem writeNode_errinfo (j : Nat) (r : NodeRec) (s : State) : (writeNode j r s).errinfo = s.errinfo := rfl
@[simp] theorem writeNode_empty (j : Nat) (r : NodeRec) (s : State) : (writeNode j r s).empty = s.empty := rfl
@[simp] theorem writeNode_inLen (j : Nat) (r : NodeRec) (s : State) : (writeNode j r s).inLen = s.inLen := rfl
@[simp] theorem writeNode_len (j : Nat) (r : NodeRec) (s : State) : (writeNode j r s).len = s.len := rfl
@[simp] theorem writeNode_origLen (j : Nat) (r : NodeRec) (s : State) : (writeNode j r s).origLen = s.origLen := rfl
@[simp] theorem writeNode_sym (j : Nat) (r : NodeRec) (s : State) : (writeNode j r s).sym = s.sym := rfl
@[simp] theorem writeNode_nsym (j : Nat) (r : NodeRec) (s : State) : (writeNode j r s).nsym = s.nsym := rfl
@[simp] theorem writeNode_hsize (j : Nat) (r : NodeRec) (s : State) : (writeNode j r s).hsize = s.hsize := rfl
@[simp] theorem writeNode_node (j : Nat) (r : NodeRec) (s : State) : (writeNode j r s).node = Store.write s.node j r := rfl
@[simp] theorem writeNode_nnode (j : Nat) (r : NodeRec) (s : State) : (writeNode j r s).nnode = s.nnode := rfl
@[simp] theorem writeNode_root (j : Nat) (r : NodeRec) (s : State) : (writeNode j r s).root = s.root := rfl
@[simp] theorem writeNode_acc (j : Nat) (r : NodeRec) (s : State) : (writeNode j r s).acc = s.acc := rfl
@[simp] theorem writeNode_accn (j : Nat) (r : NodeRec) (s : State) : (writeNode j r s).accn = s.accn := rfl
@[simp] theorem writeNode_rbuf (j : Nat) (r : NodeRec) (s : State) : (writeNode j r s).rbuf = s.rbuf := rfl
@[simp] theorem writeNode_rbn (j : Nat) (r : NodeRec) (s : State) : (writeNode j r s).rbn = s.rbn := rfl
@[simp] theorem writeNode_rpos (j : Nat) (r : NodeRec) (s : State) : (writeNode j r s).rpos = s.rpos := rfl
@[simp] theorem writeNode_opos (j : Nat) (r : NodeRec) (s : State) : (writeNode j r s).opos = s.opos := rfl
@[simp] theorem writeNode_input (j : Nat) (r : NodeRec) (s : State) : (writeNode j r s).input = s.input := rfl
@[simp] theorem writeNode_out (j : Nat) (r : NodeRec) (s : State) : (writeNode j r s).out = s.out := rfl
@[simp] theorem writeNode_oracle (j : Nat) (r : NodeRec) (s : State) : (writeNode j r s).oracle = s.oracle := rfl
@[simp] theorem writeNode_script (j : Nat) (r : NodeRec) (s : State) : (writeNode j r s).script = s.script := rfl
@[simp] theorem writeNode_readData (j : Nat) (r : NodeRec) (s : State) : (writeNode j r s).readData = s.readData := rfl

/-! ### `allocNode` -/

@[simp] theorem allocNode_phase (r : NodeRec) (s : State) : (allocNode r s).phase = s.phase := rfl
@[simp] theorem allocNode_err (r : NodeRec) (s : State) : (allocNode r s).err = s.err := rfl
@[simp] theorem allocNode_errsub (r : NodeRec) (s : State) : (allocNode r s).errsub = s.errsub := rfl
@[simp] theorem allocNode_errinfo (r : NodeRec) (s : State) : (allocNode r s).errinfo = s.errinfo := rfl
@[simp] theorem allocNode_empty (r : NodeRec) (s : State) : (allocNode r s).empty = s.empty := rfl
@[simp] theorem allocNode_inLen (r : NodeRec) (s : State) : (allocNode r s).inLen = s.inLen := rfl
@[simp] theorem allocNode_len (r : NodeRec) (s : State) : (allocNode r s).len = s.len := rfl
@[simp] theorem allocNode_origLen (r : NodeRec) (s : State) : (allocNode r s).origLen = s.origLen := rfl
@[simp] theorem allocNode_sym (r : NodeRec) (s : State) : (allocNode r s).sym = s.sym := rfl
@[simp] theorem allocNode_nsym (r : NodeRec) (s : State) : (allocNode r s).nsym = s.nsym := rfl
@[simp] theorem allocNode_hsize (r : NodeRec) (s : State) : (allocNode r s).hsize = s.hsize := rfl
@[simp] theorem allocNode_node (r : NodeRec) (s : State) : (allocNode r s).node = Store.write s.node s.nnode.toNat r := rfl
@[simp] theorem allocNode_nnode (r : NodeRec) (s : State) : (allocNode r s).nnode = s.nnode + 1 := rfl
@[simp] theorem allocNode_root (r : NodeRec) (s : State) : (allocNode r s).root = s.root := rfl
@[simp] theorem allocNode_acc (r : NodeRec) (s : State) : (allocNode r s).acc = s.acc := rfl
@[simp] theorem allocNode_accn (r : NodeRec) (s : State) : (allocNode r s).accn = s.accn := rfl
@[simp] theorem allocNode_rbuf (r : NodeRec) (s : State) : (allocNode r s).rbuf = s.rbuf := rfl
@[simp] theorem allocNode_rbn (r : NodeRec) (s : State) : (allocNode r s).rbn = s.rbn := rfl
@[simp] theorem allocNode_rpos (r : NodeRec) (s : State) : (allocNode r s).rpos = s.rpos := rfl
@[simp] theorem allocNode_opos (r : NodeRec) (s : State) : (allocNode r s).opos = s.opos := rfl
@[simp] theorem allocNode_input (r : NodeRec) (s : State) : (allocNode r s).input = s.input := rfl
@[simp] theorem allocNode_out (r : NodeRec) (s : State) : (allocNode r s).out = s.out := rfl
@[simp] theorem allocNode_oracle (r : NodeRec) (s : State) : (allocNode r s).oracle = s.oracle := rfl
@[simp] theorem allocNode_script (r : NodeRec) (s : State) : (allocNode r s).script = s.script := rfl
@[simp] theorem allocNode_readData (r : NodeRec) (s : State) : (allocNode r s).readData = s.readData := rfl

/-! ### `placeBit` -/

@[simp] theorem placeBit_phase (bit : Bool) (s : State) : (placeBit bit s).phase = s.phase := rfl
@[simp] theorem placeBit_err (bit : Bool) (s : State) : (placeBit bit s).err = s.err := rfl
@[simp] theorem placeBit_errsub (bit : Bool) (s : State) : (placeBit bit s).errsub = s.errsub := rfl
@[simp] theorem placeBit_errinfo (bit : Bool) (s : State) : (placeBit bit s).errinfo = s.errinfo := rfl
@[simp] theorem placeBit_empty (bit : Bool) (s : State) : (placeBit bit s).empty = s.empty := rfl
@[simp] theorem placeBit_inLen (bit : Bool) (s : State) : (placeBit bit s).inLen = s.inLen := rfl
@[simp] theorem placeBit_len (bit : Bool) (s : State) : (placeBit bit s).len = s.len := rfl
@[simp] theorem placeBit_origLen (bit : Bool) (s : State) : (placeBit bit s).origLen = s.origLen := rfl
@[simp] theorem placeBit_sym (bit : Bool) (s : State) : (placeBit bit s).sym = s.sym := rfl
@[simp] theorem placeBit_nsym (bit : Bool) (s : State) : (placeBit bit s).nsym = s.nsym := rfl
@[simp] theorem placeBit_hsize (bit : Bool) (s : State) : (placeBit bit s).hsize = s.hsize := rfl
@[simp] theorem placeBit_node (bit : Bool) (s : State) : (placeBit bit s).node = s.node := rfl
@[simp] theorem placeBit_nnode (bit : Bool) (s : State) : (placeBit bit s).nnode = s.nnode := rfl
@[simp] theorem placeBit_root (bit : Bool) (s : State) : (placeBit bit s).root = s.root := rfl
@[simp] theorem placeBit_acc (bit : Bool) (s : State) : (placeBit bit s).acc = s.acc + (if bit then BitVec.twoPow 8 s.accn.toNat else 0) := rfl
@[simp] theorem placeBit_accn (bit : Bool) (s : State) : (placeBit bit s).accn = s.accn + 1 := rfl
@[simp] theorem placeBit_rbuf (bit : Bool) (s : State) : (placeBit bit s).rbuf = s.rbuf := rfl
@[simp] theorem placeBit_rbn (bit : Bool) (s : State) : (placeBit bit s).rbn = s.rbn := rfl
@[simp] theorem placeBit_rpos (bit : Bool) (s : State) : (placeBit bit s).rpos = s.rpos := rfl
@[simp] theorem placeBit_opos (bit : Bool) (s : State) : (placeBit bit s).opos = s.opos := rfl
@[simp] theorem placeBit_input (bit : Bool) (s : State) : (placeBit bit s).input = s.input := rfl
@[simp] theorem placeBit_out (bit : Bool) (s : State) : (placeBit bit s).out = s.out := rfl
@[simp] theorem placeBit_oracle (bit : Bool) (s : State) : (placeBit bit s).oracle = s.oracle := rfl
@[simp] theorem placeBit_script (bit : Bool) (s : State) : (placeBit bit s).script = s.script := rfl
@[simp] theorem placeBit_readData (bit : Bool) (s : State) : (placeBit bit s).readData = s.readData := rfl

/-! ### `clearAcc` -/

@[simp] theorem clearAcc_phase (s : State) : (clearAcc s).phase = s.phase := rfl
@[simp] theorem clearAcc_err (s : State) : (clearAcc s).err = s.err := rfl
@[simp] theorem clearAcc_errsub (s : State) : (clearAcc s).errsub = s.errsub := rfl
@[simp] theorem clearAcc_errinfo (s : State) : (clearAcc s).errinfo = s.errinfo := rfl
@[simp] theorem clearAcc_empty (s : State) : (clearAcc s).empty = s.empty := rfl
@[simp] theorem clearAcc_inLen (s : State) : (clearAcc s).inLen = s.inLen := rfl
@[simp] theorem clearAcc_len (s : State) : (clearAcc s).len = s.len := rfl
@[simp] theorem clearAcc_origLen (s : State) : (clearAcc s).origLen = s.origLen := rfl
@[simp] theorem clearAcc_sym (s : State) : (clearAcc s).sym = s.sym := rfl
@[simp] theorem clearAcc_nsym (s : State) : (clearAcc s).nsym = s.nsym := rfl
@[simp] theorem clearAcc_hsize (s : State) : (clearAcc s).hsize = s.hsize := rfl
@[simp] theorem clearAcc_node (s : State) : (clearAcc s).node = s.node := rfl
@[simp] theorem clearAcc_nnode (s : State) : (clearAcc s).nnode = s.nnode := rfl
@[simp] theorem clearAcc_root (s : State) : (clearAcc s).root = s.root := rfl
@[simp] theorem clearAcc_acc (s : State) : (clearAcc s).acc = 0 := rfl
@[simp] theorem clearAcc_accn (s : State) : (clearAcc s).accn = 0 := rfl
@[simp] theorem clearAcc_rbuf (s : State) : (clearAcc s).rbuf = s.rbuf := rfl
@[simp] theorem clearAcc_rbn (s : State) : (clearAcc s).rbn = s.rbn := rfl
@[simp] theorem clearAcc_rpos (s : State) : (clearAcc s).rpos = s.rpos := rfl
@[simp] theorem clearAcc_opos (s : State) : (clearAcc s).opos = s.opos := rfl
@[simp] theorem clearAcc_input (s : State) : (clearAcc s).input = s.input := rfl
@[simp] theorem clearAcc_out (s : State) : (clearAcc s).out = s.out := rfl
@[simp] theorem clearAcc_oracle (s : State) : (clearAcc s).oracle = s.oracle := rfl
@[simp] theorem clearAcc_script (s : State) : (clearAcc s).script = s.script := rfl
@[simp] theorem clearAcc_readData (s : State) : (clearAcc s).readData = s.readData := rfl

/-! ### The two resets -/

@[simp] theorem resetByCommand_phase (s : State) : (resetByCommand s).phase = State.reset.phase := rfl
@[simp] theorem resetByCommand_err (s : State) : (resetByCommand s).err = State.reset.err := rfl
@[simp] theorem resetByCommand_errsub (s : State) : (resetByCommand s).errsub = State.reset.errsub := rfl
@[simp] theorem resetByCommand_errinfo (s : State) : (resetByCommand s).errinfo = State.reset.errinfo := rfl
@[simp] theorem resetByCommand_empty (s : State) : (resetByCommand s).empty = State.reset.empty := rfl
@[simp] theorem resetByCommand_inLen (s : State) : (resetByCommand s).inLen = s.inLen := rfl
@[simp] theorem resetByCommand_len (s : State) : (resetByCommand s).len = State.reset.len := rfl
@[simp] theorem resetByCommand_origLen (s : State) : (resetByCommand s).origLen = State.reset.origLen := rfl
@[simp] theorem resetByCommand_sym (s : State) : (resetByCommand s).sym = State.reset.sym := rfl
@[simp] theorem resetByCommand_nsym (s : State) : (resetByCommand s).nsym = State.reset.nsym := rfl
@[simp] theorem resetByCommand_hsize (s : State) : (resetByCommand s).hsize = State.reset.hsize := rfl
@[simp] theorem resetByCommand_node (s : State) : (resetByCommand s).node = State.reset.node := rfl
@[simp] theorem resetByCommand_nnode (s : State) : (resetByCommand s).nnode = State.reset.nnode := rfl
@[simp] theorem resetByCommand_root (s : State) : (resetByCommand s).root = State.reset.root := rfl
@[simp] theorem resetByCommand_acc (s : State) : (resetByCommand s).acc = State.reset.acc := rfl
@[simp] theorem resetByCommand_accn (s : State) : (resetByCommand s).accn = State.reset.accn := rfl
@[simp] theorem resetByCommand_rbuf (s : State) : (resetByCommand s).rbuf = State.reset.rbuf := rfl
@[simp] theorem resetByCommand_rbn (s : State) : (resetByCommand s).rbn = State.reset.rbn := rfl
@[simp] theorem resetByCommand_rpos (s : State) : (resetByCommand s).rpos = State.reset.rpos := rfl
@[simp] theorem resetByCommand_opos (s : State) : (resetByCommand s).opos = State.reset.opos := rfl
@[simp] theorem resetByCommand_input (s : State) : (resetByCommand s).input = s.input := rfl
@[simp] theorem resetByCommand_out (s : State) : (resetByCommand s).out = State.reset.out := rfl
@[simp] theorem resetByCommand_oracle (s : State) : (resetByCommand s).oracle = s.oracle := rfl
@[simp] theorem resetByCommand_script (s : State) : (resetByCommand s).script = s.script := rfl
@[simp] theorem resetByCommand_readData (s : State) : (resetByCommand s).readData = s.readData := rfl

@[simp] theorem hardwareReset_phase (s : State) : (hardwareReset s).phase = State.reset.phase := rfl
@[simp] theorem hardwareReset_err (s : State) : (hardwareReset s).err = State.reset.err := rfl
@[simp] theorem hardwareReset_errsub (s : State) : (hardwareReset s).errsub = State.reset.errsub := rfl
@[simp] theorem hardwareReset_errinfo (s : State) : (hardwareReset s).errinfo = State.reset.errinfo := rfl
@[simp] theorem hardwareReset_empty (s : State) : (hardwareReset s).empty = State.reset.empty := rfl
@[simp] theorem hardwareReset_inLen (s : State) : (hardwareReset s).inLen = State.reset.inLen := rfl
@[simp] theorem hardwareReset_len (s : State) : (hardwareReset s).len = State.reset.len := rfl
@[simp] theorem hardwareReset_origLen (s : State) : (hardwareReset s).origLen = State.reset.origLen := rfl
@[simp] theorem hardwareReset_sym (s : State) : (hardwareReset s).sym = State.reset.sym := rfl
@[simp] theorem hardwareReset_nsym (s : State) : (hardwareReset s).nsym = State.reset.nsym := rfl
@[simp] theorem hardwareReset_hsize (s : State) : (hardwareReset s).hsize = State.reset.hsize := rfl
@[simp] theorem hardwareReset_node (s : State) : (hardwareReset s).node = State.reset.node := rfl
@[simp] theorem hardwareReset_nnode (s : State) : (hardwareReset s).nnode = State.reset.nnode := rfl
@[simp] theorem hardwareReset_root (s : State) : (hardwareReset s).root = State.reset.root := rfl
@[simp] theorem hardwareReset_acc (s : State) : (hardwareReset s).acc = State.reset.acc := rfl
@[simp] theorem hardwareReset_accn (s : State) : (hardwareReset s).accn = State.reset.accn := rfl
@[simp] theorem hardwareReset_rbuf (s : State) : (hardwareReset s).rbuf = State.reset.rbuf := rfl
@[simp] theorem hardwareReset_rbn (s : State) : (hardwareReset s).rbn = State.reset.rbn := rfl
@[simp] theorem hardwareReset_rpos (s : State) : (hardwareReset s).rpos = State.reset.rpos := rfl
@[simp] theorem hardwareReset_opos (s : State) : (hardwareReset s).opos = State.reset.opos := rfl
@[simp] theorem hardwareReset_input (s : State) : (hardwareReset s).input = s.input := rfl
@[simp] theorem hardwareReset_out (s : State) : (hardwareReset s).out = State.reset.out := rfl
@[simp] theorem hardwareReset_oracle (s : State) : (hardwareReset s).oracle = s.oracle := rfl
@[simp] theorem hardwareReset_script (s : State) : (hardwareReset s).script = s.script := rfl
@[simp] theorem hardwareReset_readData (s : State) : (hardwareReset s).readData = s.readData := rfl

end Sys2Proof.Machine
end

