-- ==== Sys2Proof/Laws/Store.lean ====
section
/-!
SUPPORT. Laws of stores: a read after a write, the canonical form kept by every operation, and that equal contents in
canonical form are equal data.
-/
namespace Sys2Proof.Machine

variable {α : Type}

@[simp] theorem Store.read_nil (i : Nat) : Store.read ([] : Store α) i = none := rfl

theorem Store.read_cons (k : Nat) (v : α) (m : Store α) (i : Nat) :
    Store.read ((k, v) :: m) i = if i = k then some v else Store.read m i := rfl

/-- A read after a write to the same index gives the value written. -/
@[simp] theorem Store.read_write_same (m : Store α) (i : Nat) (v : α) : Store.read (Store.write m i v) i = some v := by
  induction m with
  | nil => simp [Store.write, Store.read]
  | cons c m ih =>
    obtain ⟨k, w⟩ := c
    simp only [Store.write]
    split
    · simp [Store.read]
    · split
      · simp [Store.read]
      · rename_i h; simp [Store.read, h, ih]

/-- A write leaves every other index alone. -/
theorem Store.read_write_other (m : Store α) {i j : Nat} (v : α) (h : j ≠ i) :
    Store.read (Store.write m i v) j = Store.read m j := by
  induction m with
  | nil => simp [Store.write, Store.read, h]
  | cons c m ih =>
    obtain ⟨k, w⟩ := c
    simp only [Store.write]
    split
    · simp [Store.read, h]
    · split
      · subst_vars; simp [Store.read, h]
      · simp [Store.read, ih]

theorem Store.read_write (m : Store α) (i j : Nat) (v : α) :
    Store.read (Store.write m i v) j = if j = i then some v else Store.read m j := by
  by_cases h : j = i
  · subst h; simp
  · simp [h, Store.read_write_other m v h]

/-- A listed index after a write is the written one or was listed. -/
theorem Store.mem_write {m : Store α} {i : Nat} {v : α} {c : Nat × α} (h : c ∈ Store.write m i v) :
    c = (i, v) ∨ c ∈ m := by
  induction m with
  | nil => simpa [Store.write] using h
  | cons d m ih =>
    obtain ⟨k, w⟩ := d
    simp only [Store.write] at h
    split at h
    · simpa using h
    · split at h
      · rcases List.mem_cons.1 h with h | h
        · exact .inl h
        · exact .inr (List.mem_cons_of_mem _ h)
      · rcases List.mem_cons.1 h with h | h
        · exact .inr (by simp [h])
        · exact (ih h).imp id (List.mem_cons_of_mem _)

/-- A write keeps the order of indices. -/
theorem Store.rising_write {m : Store α} (hm : Store.Rising m) (i : Nat) (v : α) : Store.Rising (Store.write m i v) := by
  induction m with
  | nil => simp [Store.write]
  | cons c m ih =>
    obtain ⟨k, w⟩ := c
    have hr := List.pairwise_cons.1 hm
    simp only [Store.write]
    split
    · rename_i hlt
      refine List.pairwise_cons.2 ⟨fun d hd => ?_, hm⟩
      rcases List.mem_cons.1 hd with rfl | hd
      · exact hlt
      · exact Nat.lt_trans hlt (hr.1 d hd)
    · split
      · subst_vars
        exact List.pairwise_cons.2 ⟨fun d hd => hr.1 d hd, hr.2⟩
      · rename_i h1 h2
        refine List.pairwise_cons.2 ⟨fun d hd => ?_, ih hr.2⟩
        rcases Store.mem_write hd with rfl | hd
        · show k < i; omega
        · exact hr.1 d hd

/-- A write inside a bound keeps the bound. -/
theorem Store.below_write {n : Nat} {m : Store α} (hm : Store.Below n m) {i : Nat} (hi : i < n) (v : α) :
    Store.Below n (Store.write m i v) := by
  intro c hc
  rcases Store.mem_write hc with rfl | hc
  · exact hi
  · exact hm c hc

theorem Store.read_ofListFrom (i : Nat) (vs : List α) (k : Nat) :
    Store.read (Store.ofListFrom i vs) k = if k < i then none else vs[k - i]? := by
  induction vs generalizing i with
  | nil => simp [Store.ofListFrom]
  | cons v vs ih =>
    simp only [Store.ofListFrom, Store.read, ih]
    by_cases hk : k = i
    · subst hk; simp
    · by_cases hlt : k < i
      · have h1 : k < i + 1 := by omega
        simp [hk, hlt, h1]
      · obtain ⟨d, rfl⟩ : ∃ d, k = i + 1 + d := ⟨k - (i + 1), by omega⟩
        have e1 : i + 1 + d - (i + 1) = d := by omega
        have e2 : i + 1 + d - i = d + 1 := by omega
        rw [if_neg hk, if_neg (by omega), if_neg hlt, e1, e2, List.getElem?_cons_succ]

@[simp] theorem Store.read_ofList (vs : List α) (k : Nat) : Store.read (Store.ofList vs) k = vs[k]? := by
  simp [Store.ofList, Store.read_ofListFrom]

theorem Store.holds_ofList (vs : List α) : Store.Holds (Store.ofList vs) vs := fun k _ => Store.read_ofList vs k

theorem Store.lt_of_mem_ofListFrom {i : Nat} {vs : List α} {c : Nat × α} (h : c ∈ Store.ofListFrom i vs) :
    i ≤ c.1 ∧ c.1 < i + vs.length := by
  induction vs generalizing i with
  | nil => simp [Store.ofListFrom] at h
  | cons v vs ih =>
    rcases List.mem_cons.1 h with rfl | h
    · simp
    · have := ih h; simp only [List.length_cons]; omega

theorem Store.rising_ofListFrom (i : Nat) (vs : List α) : Store.Rising (Store.ofListFrom i vs) := by
  induction vs generalizing i with
  | nil => simp [Store.ofListFrom]
  | cons v vs ih =>
    exact List.pairwise_cons.2 ⟨fun c hc => by have := Store.lt_of_mem_ofListFrom hc; show i < c.1; omega, ih (i + 1)⟩

/-- A supplied input is in canonical form. -/
theorem Memory.wf_ofList {bytes : List Byte} (h : bytes.length < 2 ^ Config.lenW) : Memory.wf (Store.ofList bytes) :=
  ⟨Store.rising_ofListFrom 0 bytes, fun c hc => by have := Store.lt_of_mem_ofListFrom hc; omega⟩

/-- A byte set at a 32-bit address keeps the canonical form of IN. -/
theorem Memory.wf_write {m : Memory} (hm : Memory.wf m) (addr : Word) (b : Byte) :
    Memory.wf (Store.write m addr.toNat b) :=
  ⟨Store.rising_write hm.1 _ b, Store.below_write hm.2 addr.isLt b⟩

/-- Reset memory has the canonical form. -/
theorem Memory.wf_reset : Memory.wf State.reset.input := ⟨List.Pairwise.nil, fun _ h => nomatch h⟩

theorem Store.read_writeList (m : Store α) (i : Nat) (vs : List α) (k : Nat) :
    Store.read (Store.writeList m i vs) k = if i ≤ k ∧ k < i + vs.length then vs[k - i]? else Store.read m k := by
  induction vs generalizing m i with
  | nil => rw [if_neg (by simp)]; rfl
  | cons v vs ih =>
    simp only [Store.writeList, ih, List.length_cons, Store.read_write]
    by_cases hk : k = i
    · subst hk
      simp [show ¬ (k + 1 ≤ k) by omega]
    · by_cases hr : i + 1 ≤ k ∧ k < i + 1 + vs.length
      · obtain ⟨d, rfl⟩ : ∃ d, k = i + 1 + d := ⟨k - (i + 1), by omega⟩
        have e1 : i + 1 + d - (i + 1) = d := by omega
        have e2 : i + 1 + d - i = d + 1 := by omega
        rw [if_pos hr, if_pos (by omega), e1, e2, List.getElem?_cons_succ]
      · rw [if_neg hr, if_neg hk, if_neg (by omega)]

/-- A list written from index 0 is held there. -/
theorem Store.holds_writeList (m : Store α) (vs : List α) : Store.Holds (Store.writeList m 0 vs) vs := fun k hk => by
  simp [Store.read_writeList, hk]

theorem Store.rising_writeList {m : Store α} (hm : Store.Rising m) (i : Nat) (vs : List α) :
    Store.Rising (Store.writeList m i vs) := by
  induction vs generalizing m i with
  | nil => exact hm
  | cons v vs ih => exact ih (Store.rising_write hm i v) (i + 1)

theorem Store.below_writeList {n : Nat} {m : Store α} (hm : Store.Below n m) {i : Nat} {vs : List α}
    (h : i + vs.length ≤ n) : Store.Below n (Store.writeList m i vs) := by
  induction vs generalizing m i with
  | nil => exact hm
  | cons v vs ih =>
    simp only [List.length_cons] at h
    exact ih (Store.below_write hm (by omega) v) (by omega)

theorem Store.read_eq_none_of_lt {m : Store α} {i : Nat} (h : ∀ c ∈ m, i < c.1) : Store.read m i = none := by
  induction m with
  | nil => rfl
  | cons c m ih =>
    obtain ⟨k, v⟩ := c
    have hk : i < k := h (k, v) (by simp)
    simp only [Store.read, show i ≠ k by omega, if_false]
    exact ih fun d hd => h d (List.mem_cons_of_mem _ hd)

theorem Store.mem_of_read {m : Store α} {i : Nat} {v : α} (h : Store.read m i = some v) : (i, v) ∈ m := by
  induction m with
  | nil => simp at h
  | cons c m ih =>
    obtain ⟨k, w⟩ := c
    simp only [Store.read] at h
    split at h
    · simp_all
    · exact List.mem_cons_of_mem _ (ih h)

/-- Equal contents in canonical form are equal data. -/
theorem Store.ext_of_rising {m n : Store α} (hm : Store.Rising m) (hn : Store.Rising n)
    (h : ∀ i, Store.read m i = Store.read n i) : m = n := by
  induction m generalizing n with
  | nil =>
    cases n with
    | nil => rfl
    | cons d n => have := h d.1; simp [Store.read] at this
  | cons c m ih =>
    obtain ⟨k, v⟩ := c
    have hm' := List.pairwise_cons.1 hm
    cases n with
    | nil => have := h k; simp [Store.read] at this
    | cons d n =>
      obtain ⟨l, w⟩ := d
      have hn' := List.pairwise_cons.1 hn
      have hkl : k = l := by
        rcases Nat.lt_trichotomy k l with hlt | heq | hgt
        · have := h k
          rw [Store.read_eq_none_of_lt (m := (l, w) :: n) (fun d hd => by
            rcases List.mem_cons.1 hd with rfl | hd
            · exact hlt
            · exact Nat.lt_trans hlt (hn'.1 d hd))] at this
          simp [Store.read] at this
        · exact heq
        · have := h l
          rw [Store.read_eq_none_of_lt (m := (k, v) :: m) (fun d hd => by
            rcases List.mem_cons.1 hd with rfl | hd
            · exact hgt
            · exact Nat.lt_trans hgt (hm'.1 d hd))] at this
          simp [Store.read] at this
      subst hkl
      have hv : v = w := by simpa [Store.read] using h k
      subst hv
      congr 1
      refine ih hm'.2 hn'.2 fun i => ?_
      by_cases hi : i = k
      · subst hi
        rw [Store.read_eq_none_of_lt hm'.1, Store.read_eq_none_of_lt hn'.1]
      · simpa [Store.read, hi] using h i

end Sys2Proof.Machine
end

