-- ==== Sys2Proof/Laws/Res.lean ====
section
/-!
SUPPORT. Laws of how pseudocode runs: what `bind`, a loop and a command can end in, said once, so that a proof about a
command cites them and never unfolds a loop.
-/
namespace Sys2Proof.Machine

variable {α β : Type}

/-! ### bind -/

@[simp] theorem Res.bind_ok (a : α) (s : State) (k : α → State → Res β) : (Res.ok a s).bind k = k a s := rfl
@[simp] theorem Res.bind_raised (s : State) (k : α → State → Res β) : (Res.raised s : Res α).bind k = .raised s := rfl
@[simp] theorem Res.bind_stop (f : Fault) (k : α → State → Res β) : (Res.stop f : Res α).bind k = .stop f := rfl

theorem Res.bind_eq_ok {m : Res α} {k : α → State → Res β} {b : β} {t : State} :
    m.bind k = .ok b t ↔ ∃ a s, m = .ok a s ∧ k a s = .ok b t := by
  cases m <;> simp [and_assoc]

theorem Res.bind_eq_raised {m : Res α} {k : α → State → Res β} {t : State} :
    m.bind k = .raised t ↔ m = .raised t ∨ ∃ a s, m = .ok a s ∧ k a s = .raised t := by
  cases m <;> simp [and_assoc]

theorem Res.bind_eq_stop {m : Res α} {k : α → State → Res β} {f : Fault} :
    m.bind k = .stop f ↔ m = .stop f ∨ ∃ a s, m = .ok a s ∧ k a s = .stop f := by
  cases m <;> simp [and_assoc]

theorem Res.bind_assoc {γ : Type} (m : Res α) (k : α → State → Res β) (l : β → State → Res γ) :
    (m.bind k).bind l = m.bind fun a s => (k a s).bind l := by
  cases m <;> rfl

/-! ### How a command ends -/

@[simp] theorem Res.toOutcome_ok (s : State) : (Res.ok () s).toOutcome = .next s := rfl
@[simp] theorem Res.toOutcome_raised (s : State) : (Res.raised s : Res Unit).toOutcome = .next s := rfl
@[simp] theorem Res.toOutcome_stop (f : Fault) : (Res.stop f : Res Unit).toOutcome = .fault f := rfl

theorem Res.toOutcome_eq_next {m : Res Unit} {t : State} : m.toOutcome = .next t ↔ m = .ok () t ∨ m = .raised t := by
  cases m <;> simp [Res.toOutcome]

theorem Res.toOutcome_eq_fault {m : Res Unit} {f : Fault} : m.toOutcome = .fault f ↔ m = .stop f := by
  cases m <;> simp [Res.toOutcome]

theorem Res.toOutcome_ne_refused (m : Res Unit) (r : Refusal) : m.toOutcome ≠ .refused r := by
  cases m <;> simp [Res.toOutcome]

/-- What a command's dispatch can do (R261): ignored in `ERROR`, `BadSequence`, or its pseudocode. -/
theorem command_cases (i : Instr) (body : State → Res Unit) (s : State) :
    (s.phase = .error ∧ command i body s = .next s) ∨
      (s.phase ≠ .error ∧ legalIn i s.phase = false ∧
        command i body s = .next (raise .badSequence 1 (encode i).toNat s)) ∨
      (s.phase ≠ .error ∧ legalIn i s.phase = true ∧ command i body s = (body s).toOutcome) := by
  unfold command
  by_cases he : s.phase = .error
  · simp [he]
  · by_cases hl : legalIn i s.phase = true <;> simp [he, hl]

/-- In a legal phase a command is its pseudocode. -/
theorem command_legal {i : Instr} {body : State → Res Unit} {s : State} (he : s.phase ≠ .error)
    (hl : legalIn i s.phase = true) : command i body s = (body s).toOutcome := by
  simp [command, he, hl]

/-! ### Every end of a piece of pseudocode -/

/-- Where it goes on `P` holds of value and state, where it raised `Q` holds of the state, where it stopped `F` of the
fault. -/
def Res.Ends (P : α → State → Prop) (Q : State → Prop) (F : Fault → Prop) : Res α → Prop
  | .ok a t => P a t
  | .raised t => Q t
  | .stop f => F f

variable {P P' : α → State → Prop} {Q Q' : State → Prop} {F F' : Fault → Prop}

@[simp] theorem Res.ends_ok (a : α) (t : State) : (Res.ok a t).Ends P Q F ↔ P a t := Iff.rfl
@[simp] theorem Res.ends_raised (t : State) : (Res.raised t : Res α).Ends P Q F ↔ Q t := Iff.rfl
@[simp] theorem Res.ends_stop (f : Fault) : (Res.stop f : Res α).Ends P Q F ↔ F f := Iff.rfl
@[simp] theorem ends_throwErr (kind : ErrKind) (sub : BitVec 8) (info : Nat) (s : State) :
    (throwErr kind sub info s : Res α).Ends P Q F ↔ Q (raise kind sub info s) := Iff.rfl

theorem Res.Ends.mono {m : Res α} (h : m.Ends P Q F) (hP : ∀ a t, P a t → P' a t) (hQ : ∀ t, Q t → Q' t)
    (hF : ∀ f, F f → F' f) : m.Ends P' Q' F' := by
  cases m with
  | ok a t => exact hP a t h
  | raised t => exact hQ t h
  | stop f => exact hF f h

theorem Res.Ends.bind {m : Res α} {k : α → State → Res β} {R : β → State → Prop} (h : m.Ends P Q F)
    (hk : ∀ a t, P a t → (k a t).Ends R Q F) : (m.bind k).Ends R Q F := by
  cases m with
  | ok a t => exact hk a t h
  | raised t => exact h
  | stop f => exact h

theorem Res.Ends.of_ok {m : Res α} {a : α} {t : State} (h : m.Ends P Q F) (e : m = .ok a t) : P a t := by
  subst e; exact h

theorem Res.Ends.of_raised {m : Res α} {t : State} (h : m.Ends P Q F) (e : m = .raised t) : Q t := by
  subst e; exact h

theorem Res.Ends.of_stop {m : Res α} {f : Fault} (h : m.Ends P Q F) (e : m = .stop f) : F f := by
  subst e; exact h

/-- The states a command can leave, and the faults it can stop with. -/
theorem command_ends {i : Instr} {body : State → Res Unit} {s t : State} {R : State → Prop}
    (h : command i body s = .next t) (h0 : s.phase = .error → R s)
    (h1 : s.phase ≠ .error → legalIn i s.phase = false → R (raise .badSequence 1 (encode i).toNat s))
    (h2 : s.phase ≠ .error → legalIn i s.phase = true → (body s).Ends (fun _ u => R u) R fun _ => True) : R t := by
  rcases command_cases i body s with ⟨he, hc⟩ | ⟨he, hl, hc⟩ | ⟨he, hl, hc⟩
  · rw [hc] at h; cases h; exact h0 he
  · rw [hc] at h; cases h; exact h1 he hl
  · rw [hc] at h
    rcases Res.toOutcome_eq_next.1 h with e | e
    · exact (h2 he hl).of_ok e
    · exact (h2 he hl).of_raised e

/-! ### Loops -/

@[simp] theorem forUp_zero (body : Nat → State → Res Unit) (i : Nat) (s : State) : forUp body 0 i s = .ok () s := rfl

theorem forUp_succ (body : Nat → State → Res Unit) (n i : Nat) (s : State) :
    forUp body (n + 1) i s = (body i s).bind fun _ s => forUp body n (i + 1) s := rfl

/-- A loop is its first `m` rounds and then the rest. -/
theorem forUp_add (body : Nat → State → Res Unit) (m n i : Nat) (s : State) :
    forUp body (m + n) i s = (forUp body m i s).bind fun _ s => forUp body n (i + m) s := by
  induction m generalizing i s with
  | zero => simp
  | succ m ih =>
    rw [show m + 1 + n = (m + n) + 1 by omega, forUp_succ, forUp_succ, Res.bind_assoc]
    congr 1
    funext _ u
    rw [ih (i + 1) u, show i + 1 + m = i + (m + 1) by omega]

/-- The loop rule: an invariant `I k` before round `k` holds after the last round. -/
theorem forUp_ends {body : Nat → State → Res Unit} {I : Nat → State → Prop} {n i : Nat} {s : State}
    (h0 : I i s) (h : ∀ k t, i ≤ k → k < i + n → I k t → (body k t).Ends (fun _ u => I (k + 1) u) Q F) :
    (forUp body n i s).Ends (fun _ u => I (i + n) u) Q F := by
  induction n generalizing i s with
  | zero => exact h0
  | succ n ih =>
    rw [forUp_succ]
    refine (h i s (Nat.le_refl i) (by omega) h0).bind fun _ t ht => ?_
    have := ih (i := i + 1) (s := t) ht fun k u h1 h2 hk => h k u (by omega) (by omega) hk
    rwa [show i + 1 + n = i + (n + 1) by omega] at this

/-- A loop whose every round goes on goes on. -/
theorem forUp_runs {body : Nat → State → Res Unit} {I : Nat → State → Prop} {n i : Nat} {s : State}
    (h0 : I i s) (h : ∀ k t, i ≤ k → k < i + n → I k t → ∃ u, body k t = .ok () u ∧ I (k + 1) u) :
    ∃ u, forUp body n i s = .ok () u ∧ I (i + n) u := by
  induction n generalizing i s with
  | zero => exact ⟨s, rfl, h0⟩
  | succ n ih =>
    obtain ⟨t, ht, hI⟩ := h i s (Nat.le_refl i) (by omega) h0
    obtain ⟨u, hu, hI'⟩ := ih (i := i + 1) (s := t) hI fun k v h1 h2 hk => h k v (by omega) (by omega) hk
    exact ⟨u, by rw [forUp_succ, ht, Res.bind_ok, hu], by rwa [show i + 1 + n = i + (n + 1) by omega] at hI'⟩

/-! ### Relations between the state before and after -/

/-- Every state a piece of pseudocode leaves, raised or not, is related to the one it started from. -/
def Res.Within (R : State → State → Prop) (s : State) : Res α → Prop := Res.Ends (fun _ t => R s t) (R s) fun _ => True

variable {R : State → State → Prop}

theorem Res.Within.bind (trans : ∀ a b c, R a b → R b c → R a c) {m : Res α} {k : α → State → Res β} {s : State}
    (h : m.Within R s) (hk : ∀ a t, (k a t).Within R t) : (m.bind k).Within R s :=
  Res.Ends.bind h fun a t hst => (hk a t).mono (fun _ _ => trans s t _ hst) (fun _ => trans s t _ hst) fun _ => id

theorem forUp_within (refl : ∀ a, R a a) (trans : ∀ a b c, R a b → R b c → R a c) {body : Nat → State → Res Unit}
    (h : ∀ k s, (body k s).Within R s) (n i : Nat) (s : State) : (forUp body n i s).Within R s := by
  induction n generalizing i s with
  | zero => exact refl s
  | succ n ih => exact Res.Within.bind trans (h i s) fun _ t => ih (i + 1) t

end Sys2Proof.Machine
end

