-- ==== Sys2Proof/Laws/Ops.lean ====
section
/-!
SUPPORT. One lemma per shared operation that says everything it can do; callers cite it and never unfold the operation.
-/
namespace Sys2Proof.Machine

variable {α : Type}

/-! ### The oracle -/

theorem nextAnswer_ok_of_noFail {s : State} (h : NoFail s) : nextAnswer s = .ok := by
  unfold nextAnswer
  split
  · rfl
  · rename_i a rest heq
    rw [NoFail, heq] at h
    cases a with
    | ok => rfl
    | fail => simp at h

theorem noFail_popAnswer {s : State} (h : NoFail s) : NoFail (popAnswer s) := fun hm => h (List.mem_of_mem_tail hm)

/-! ### InByte and OutByte -/

/-- Everything `InByte` can do (R63). -/
theorem inByte_cases (a : Nat) (s : State) :
    (s.len.toNat ≤ a ∧ inByte a s = .stop (.inputOutOfRange a)) ∨
      (a < s.len.toNat ∧ nextAnswer s = .fail ∧ inByte a s = .raised (raise .ioFailure 1 a (popAnswer s))) ∨
      (a < s.len.toNat ∧ nextAnswer s = .ok ∧ ∃ b, Store.read s.input a = some b ∧ inByte a s = .ok b (popAnswer s)) ∨
      (a < s.len.toNat ∧ nextAnswer s = .ok ∧ Store.read s.input a = none ∧ inByte a s = .stop (.inputNotSupplied a)) := by
  unfold inByte
  by_cases hl : s.len.toNat ≤ a
  · simp [hl]
  · cases hn : nextAnswer s with
    | fail => simp [hl, throwErr]; omega
    | ok =>
      cases hr : Store.read s.input a with
      | none => simp [hl]; omega
      | some b => simp [hl]; omega

/-- `InByte` where nothing fails and the host supplied the byte. -/
theorem inByte_reads {a : Nat} {s : State} {b : Byte} (hl : a < s.len.toNat) (hn : NoFail s)
    (hb : Store.read s.input a = some b) : inByte a s = .ok b (popAnswer s) := by
  simp [inByte, Nat.not_le.2 hl, nextAnswer_ok_of_noFail hn, hb]

/-- Everything `OutByte` can do (R66). -/
theorem outByte_cases (v : Byte) (s : State) :
    (nextAnswer s = .fail ∧ outByte v s = .raised (raise .ioFailure 2 (s.opos.toNat % 2 ^ 32) (popAnswer s))) ∨
      (nextAnswer s = .ok ∧ outByte v s = .ok () (emit v (popAnswer s))) := by
  unfold outByte
  cases nextAnswer s <;> simp [throwErr]

/-- `OutByte` where nothing fails. -/
theorem outByte_writes {s : State} (hn : NoFail s) (v : Byte) : outByte v s = .ok () (emit v (popAnswer s)) := by
  simp [outByte, nextAnswer_ok_of_noFail hn]

/-! ### The records -/

theorem readSym_of_held {i : Nat} {s : State} {r : SymRec} (h : Store.read s.sym i = some r) :
    readSym i s = .ok r s := by simp [readSym, h]

theorem readNode_of_held {j : Nat} {s : State} {r : NodeRec} (h : Store.read s.node j = some r) :
    readNode j s = .ok r s := by simp [readNode, h]

theorem readSym_cases (i : Nat) (s : State) :
    (∃ r, Store.read s.sym i = some r ∧ readSym i s = .ok r s) ∨
      (Store.read s.sym i = none ∧ readSym i s = .stop (.unspecifiedSym i)) := by
  unfold readSym
  cases Store.read s.sym i <;> simp

theorem readNode_cases (j : Nat) (s : State) :
    (∃ r, Store.read s.node j = some r ∧ readNode j s = .ok r s) ∨
      (Store.read s.node j = none ∧ readNode j s = .stop (.unspecifiedNode j)) := by
  unfold readNode
  cases Store.read s.node j <;> simp

/-- `find` changes nothing; it stops only at a record without a value (R125). -/
theorem findFrom_cases (c : Byte) (n i : Nat) (s : State) :
    (∃ k r, i ≤ k ∧ k < i + n ∧ Store.read s.sym k = some r ∧ r.symbol = c ∧ findFrom c n i s = .ok (some k) s) ∨
      ((∀ k, i ≤ k → k < i + n → ∃ r, Store.read s.sym k = some r ∧ r.symbol ≠ c) ∧ findFrom c n i s = .ok none s) ∨
      (∃ k, i ≤ k ∧ k < i + n ∧ Store.read s.sym k = none ∧ findFrom c n i s = .stop (.unspecifiedSym k)) := by
  induction n generalizing i with
  | zero => exact .inr (.inl ⟨fun k h1 h2 => by omega, rfl⟩)
  | succ n ih =>
    rcases readSym_cases i s with ⟨r, hr, he⟩ | ⟨hr, he⟩
    · by_cases hc : r.symbol = c
      · exact .inl ⟨i, r, Nat.le_refl i, by omega, hr, hc, by simp [findFrom, he, hc]⟩
      · have hf : findFrom c (n + 1) i s = findFrom c n (i + 1) s := by simp [findFrom, he, hc]
        rcases ih (i + 1) with ⟨k, q, h1, h2, h3⟩ | ⟨h1, h2⟩ | ⟨k, h1, h2, h3⟩
        · exact .inl ⟨k, q, by omega, by omega, h3.1, h3.2.1, by rw [hf, h3.2.2]⟩
        · refine .inr (.inl ⟨fun k hk1 hk2 => ?_, by rw [hf, h2]⟩)
          by_cases hki : k = i
          · subst hki; exact ⟨r, hr, hc⟩
          · exact h1 k (by omega) (by omega)
        · exact .inr (.inr ⟨k, by omega, by omega, h3.1, by rw [hf, h3.2]⟩)
    · exact .inr (.inr ⟨i, Nat.le_refl i, by omega, hr, by simp [findFrom, he]⟩)

/-! ### Relations the primitives respect -/

variable {R : State → State → Prop}

theorem inByte_within {a : Nat} {s : State} (h1 : R s (popAnswer s))
    (h2 : R s (raise .ioFailure 1 a (popAnswer s))) : (inByte a s).Within R s := by
  rcases inByte_cases a s with h | h | h | h
  · rw [h.2]; trivial
  · rw [h.2.2]; exact h2
  · obtain ⟨-, -, b, -, h⟩ := h; rw [h]; exact h1
  · rw [h.2.2.2]; trivial

theorem outByte_within {v : Byte} {s : State} (h1 : R s (emit v (popAnswer s)))
    (h2 : R s (raise .ioFailure 2 (s.opos.toNat % 2 ^ 32) (popAnswer s))) : (outByte v s).Within R s := by
  rcases outByte_cases v s with h | h
  · rw [h.2]; exact h2
  · rw [h.2]; exact h1

theorem outLE_within (refl : ∀ a, R a a) (trans : ∀ a b c, R a b → R b c → R a c)
    (hout : ∀ v s, (outByte v s).Within R s) (v n : Nat) (s : State) : (outLE v n s).Within R s :=
  forUp_within refl trans (fun _ _ => hout _ _) n 0 s

theorem inLEFrom_within (refl : ∀ a, R a a) (trans : ∀ a b c, R a b → R b c → R a c)
    (hin : ∀ a s, (inByte a s).Within R s) (a n k v : Nat) (s : State) : (inLEFrom a n k v s).Within R s := by
  induction n generalizing k v s with
  | zero => exact refl s
  | succ n ih => exact Res.Within.bind trans (hin _ s) fun b t => ih _ _ t

theorem readSym_within (refl : ∀ a, R a a) (i : Nat) (s : State) : (readSym i s).Within R s := by
  rcases readSym_cases i s with ⟨r, -, h⟩ | ⟨-, h⟩ <;> rw [h]
  · exact refl s
  · trivial

theorem readNode_within (refl : ∀ a, R a a) (j : Nat) (s : State) : (readNode j s).Within R s := by
  rcases readNode_cases j s with ⟨r, -, h⟩ | ⟨-, h⟩ <;> rw [h]
  · exact refl s
  · trivial

theorem find_within (refl : ∀ a, R a a) (c : Byte) (s : State) : (find c s).Within R s := by
  unfold find
  rcases findFrom_cases c s.nsym.toNat 0 s with ⟨k, r, -, -, -, -, h⟩ | ⟨-, h⟩ | ⟨k, -, -, -, h⟩ <;> rw [h]
  · exact refl s
  · exact refl s
  · trivial

/-! ### The dispatch of each command -/

/-- Every command but `RST` is dispatched alike; this is its pseudocode. -/
def bodyOf : Instr → State → Res Unit
  | .rst => fun s => .ok () (resetByCommand s)
  | .clr => clrBody
  | .scan => scanBody
  | .pack => packBody
  | .hsortF => hsortBody .freq
  | .hsortS => hsortBody .sym
  | .tree => treeBody
  | .codes => codesBody
  | .whdr => whdrBody
  | .rhdr => rhdrBody
  | .enc => encBody
  | .flush => flushBody
  | .dec => decBody
  | .compress => compressBody
  | .decompress => decompressBody

theorem exec_rst (s : State) : exec .rst s = .next (resetByCommand s) := rfl

theorem exec_eq_command {i : Instr} (h : i ≠ .rst) (s : State) : exec i s = command i (bodyOf i) s := by
  cases i <;> first | exact absurd rfl h | rfl

/-- No command is refused. -/
theorem exec_ne_refused (i : Instr) (s : State) (r : Refusal) : exec i s ≠ .refused r := by
  by_cases h : i = .rst
  · subst h; simp [exec_rst]
  · rw [exec_eq_command h]
    rcases command_cases i (bodyOf i) s with ⟨-, hc⟩ | ⟨-, -, hc⟩ | ⟨-, -, hc⟩ <;> rw [hc]
    · simp
    · simp
    · exact Res.toOutcome_ne_refused _ r

/-! ### The step -/

theorem step_nil {s : State} (h : s.script = []) : step s = .next s := by simp [step, advance, h]

theorem step_cons {s : State} {a : HostAction} {rest : List HostAction} (h : s.script = a :: rest) :
    step s = hostAct a { s with script := rest } := by simp [step, advance, h]

/-- What a step can do: nothing, or the host's next action. -/
theorem step_cases (s : State) :
    (s.script = [] ∧ step s = .next s) ∨
      ∃ a rest, s.script = a :: rest ∧ step s = hostAct a { s with script := rest } := by
  cases h : s.script with
  | nil => exact .inl ⟨rfl, step_nil h⟩
  | cons a rest => exact .inr ⟨a, rest, rfl, step_cons h⟩

/-- What an action of the host that ends in a next state did: a command, an illegal word, or one of the other actions. -/
theorem hostAct_next {a : HostAction} {s t : State} (h : hostAct a s = .next t) :
    (∃ w i, a = .regWrite 0 w ∧ decode w = .command i ∧ exec i s = .next t) ∨
      (∃ w, a = .regWrite 0 w ∧ decode w = .illegal ∧ t = illegalWord w s) ∨
      (∃ off v, a = .regWrite off v ∧ off ≠ 0 ∧ t = storeReg off v s) ∨
      (∃ off, a = .regRead off ∧ t = { s with readData := regValue off s }) ∨
      (∃ bytes, a = .supply bytes ∧ bytes.length < 2 ^ 32 ∧ t = { s with input := Store.ofList bytes }) ∨
      (∃ addr v, a = .setByte addr v ∧ t = { s with input := Store.write s.input addr.toNat v }) ∨
      (a = .hardReset ∧ t = hardwareReset s) := by
  cases a with
  | regWrite off v =>
    simp only [hostAct, writeReg] at h
    split at h
    · split at h
      · rename_i _ h0
        have h0 : off = 0 := h0
        subst h0
        simp only [issueWord] at h
        cases hd : decode v with
        | command i => rw [hd] at h; exact .inl ⟨v, i, rfl, hd, h⟩
        | illegal => rw [hd] at h; cases h; exact .inr (.inl ⟨v, rfl, hd, rfl⟩)
      · rename_i _ h0
        cases h
        exact .inr (.inr (.inl ⟨off, v, rfl, h0, rfl⟩))
    · cases h
  | regRead off =>
    simp only [hostAct, readReg] at h
    split at h
    · cases h; exact .inr (.inr (.inr (.inl ⟨off, rfl, rfl⟩)))
    · cases h
  | supply bytes =>
    by_cases hp : bytes.length < 2 ^ 32
    · have hs : supplyInput bytes s = .next { s with input := Store.ofList bytes } := if_pos (decide_eq_true hp)
      rw [hostAct, hs] at h
      cases h
      exact .inr (.inr (.inr (.inr (.inl ⟨bytes, rfl, hp, rfl⟩))))
    · have hs : supplyInput bytes s = .refused (.inputTooLong bytes.length) := if_neg (mt of_decide_eq_true hp)
      rw [hostAct, hs] at h
      cases h
  | setByte addr v =>
    cases h
    exact .inr (.inr (.inr (.inr (.inr (.inl ⟨addr, v, rfl, rfl⟩)))))
  | hardReset =>
    cases h
    exact .inr (.inr (.inr (.inr (.inr (.inr ⟨rfl, rfl⟩)))))

end Sys2Proof.Machine
end

