-- ==== Sys2Proof/Laws/Bytes.lean ====
section
/-!
SUPPORT. Multi-byte fields, the table read as a list, and the bit primitives: what each does where no access fails, and all
it can do.
-/
namespace Sys2Proof.Machine

/-! ### OutLE -/

/-- Bytes written one after the other where nothing fails. -/
theorem emit_list (s : State) (vs : List Byte) :
    vs.foldl (fun u v => emit v (popAnswer u)) s =
      { s with out := s.out ++ vs, opos := s.opos + BitVec.ofNat 40 vs.length, oracle := s.oracle.drop vs.length } := by
  induction vs generalizing s with
  | nil => simp
  | cons v vs ih =>
    rw [List.foldl_cons, ih]
    have h1 : (emit v (popAnswer s)).oracle.drop vs.length = s.oracle.drop (v :: vs).length := by
      simp [Nat.add_comm]
    have h2 : s.opos + 1 + BitVec.ofNat 40 vs.length = s.opos + BitVec.ofNat 40 (v :: vs).length := by
      apply BitVec.eq_of_toNat_eq
      simp [BitVec.toNat_add, BitVec.toNat_ofNat]
      omega
    simp only [emit, popAnswer, State.mk.injEq, true_and, and_true] at *
    exact ⟨h2, by simp, h1⟩

/-- A loop of writes where nothing fails. -/
theorem forUp_outByte {s : State} (hn : NoFail s) (f : Nat → Byte) (n i : Nat) :
    forUp (fun k => outByte (f k)) n i s =
      .ok () (((List.range' i n).map f).foldl (fun u v => emit v (popAnswer u)) s) := by
  induction n generalizing i s with
  | zero => rfl
  | succ n ih =>
    rw [forUp_succ, outByte_writes hn, Res.bind_ok, ih (s := emit (f i) (popAnswer s)) (noFail_popAnswer hn)]
    rfl

theorem byteOf_eq (v k : Nat) : byteOf v k = BitVec.ofNat 8 (v / 256 ^ k) := by
  rw [byteOf, show (256 : Nat) = 2 ^ 8 from rfl, ← Nat.pow_mul]

/-- `OutLE` where nothing fails (R69). -/
theorem outLE_writes {s : State} (hn : NoFail s) (v n : Nat) :
    outLE v n s = .ok () { s with out := s.out ++ leBytes v n, opos := s.opos + BitVec.ofNat 40 n, oracle := s.oracle.drop n } := by
  rw [outLE, forUp_outByte hn, emit_list]
  simp [leBytes, byteOf_eq, List.range_eq_range']

/-! ### InLE -/

/-- The number whose bytes these are, least significant first (R68). -/
def leValue : List Byte → Nat
  | [] => 0
  | b :: bs => b.toNat + 256 * leValue bs

theorem leBytes_succ (v n : Nat) : leBytes v (n + 1) = BitVec.ofNat 8 v :: leBytes (v / 256) n := by
  simp [leBytes, List.range_succ_eq_map, Nat.pow_succ, Nat.div_div_eq_div_mul, Nat.mul_comm]

@[simp] theorem length_leBytes (v n : Nat) : (leBytes v n).length = n := by simp [leBytes]

/-- A number comes back from its bytes. -/
theorem leValue_leBytes (v n : Nat) : leValue (leBytes v n) = v % 256 ^ n := by
  induction n generalizing v with
  | zero => simp [leBytes, leValue, Nat.mod_one]
  | succ n ih =>
    rw [leBytes_succ, leValue, ih, BitVec.toNat_ofNat]
    show v % 256 + 256 * (v / 256 % 256 ^ n) = v % 256 ^ (n + 1)
    rw [Nat.pow_succ, Nat.mul_comm (256 ^ n), Nat.mod_mul]

theorem inLEFrom_reads {a : Nat} {bs : List Byte} {k v : Nat} {s : State} (hn : NoFail s)
    (hl : a + k + bs.length ≤ s.len.toNat) (hb : ∀ j, j < bs.length → Store.read s.input (a + k + j) = bs[j]?) :
    inLEFrom a bs.length k v s = .ok (v + leValue bs * 256 ^ k) { s with oracle := s.oracle.drop bs.length } := by
  induction bs generalizing k v s with
  | nil => simp [inLEFrom, leValue]
  | cons b bs ih =>
    simp only [List.length_cons] at hl hb ⊢
    have h0 := hb 0 (by omega)
    simp only [Nat.add_zero, List.getElem?_cons_zero] at h0
    rw [inLEFrom, inByte_reads (by omega) hn h0, Res.bind_ok,
      ih (s := popAnswer s) (noFail_popAnswer hn) (by show a + (k + 1) + bs.length ≤ s.len.toNat; omega) ?_]
    · have hv : v + b.toNat * 2 ^ (8 * k) + leValue bs * 256 ^ (k + 1) = v + leValue (b :: bs) * 256 ^ k := by
        rw [leValue, Nat.pow_mul, show (2 : Nat) ^ 8 = 256 from rfl, Nat.pow_succ, Nat.add_mul, Nat.add_assoc]
        congr 2
        rw [Nat.mul_comm (256 ^ k), ← Nat.mul_assoc, Nat.mul_comm (leValue bs)]
      rw [hv]
      simp [popAnswer]
    · intro j hj
      have := hb (j + 1) (by omega)
      rw [show a + (k + 1) + j = a + k + (j + 1) by omega]
      simpa using this

/-- `InLE` where nothing fails and the bytes stand in IN (R68). -/
theorem inLE_reads {a : Nat} {bs : List Byte} {s : State} (hn : NoFail s) (hl : a + bs.length ≤ s.len.toNat)
    (hb : ∀ j, j < bs.length → Store.read s.input (a + j) = bs[j]?) :
    inLE a bs.length s = .ok (leValue bs) { s with oracle := s.oracle.drop bs.length } := by
  rw [inLE, inLEFrom_reads hn (by simpa using hl) (by simpa using hb)]
  simp

/-! ### The table as a list -/

/-- The records of the table, read one after the other. -/
theorem readSyms_holds {rs : List SymRec} {i : Nat} {s : State}
    (h : ∀ k, k < rs.length → Store.read s.sym (i + k) = rs[k]?) : readSyms rs.length i s = .ok rs s := by
  induction rs generalizing i with
  | nil => rfl
  | cons r rs ih =>
    have h0 : Store.read s.sym i = some r := by simpa using h 0 (by simp)
    have h1 : readSyms rs.length (i + 1) s = .ok rs s := ih fun k hk => by
      have := h (k + 1) (by simpa using hk)
      rw [show i + 1 + k = i + (k + 1) by omega]
      simpa using this
    show readSyms (rs.length + 1) i s = _
    rw [readSyms, readSym_of_held h0, Res.bind_ok, h1]
    rfl

/-- `find` over a table that is held: the first record with the symbol, or none (R125). -/
theorem find_table {rs : List SymRec} {s : State} (h : Table rs s) (c : Byte) :
    (∃ k r, rs[k]? = some r ∧ r.symbol = c ∧ find c s = .ok (some k) s) ∨
      ((c ∉ rs.map fun r => r.symbol) ∧ find c s = .ok none s) := by
  unfold find
  rw [h.1]
  have hr : ∀ k, k < rs.length → Store.read s.sym k = rs[k]? := h.2
  rcases findFrom_cases c rs.length 0 s with ⟨k, r, -, hk, h1, h2, h3⟩ | ⟨h1, h2⟩ | ⟨k, -, hk, h1, -⟩
  · exact .inl ⟨k, r, by rw [← hr k (by omega), h1], h2, h3⟩
  · refine .inr ⟨fun hc => ?_, h2⟩
    obtain ⟨r, hm, rfl⟩ := List.mem_map.1 hc
    obtain ⟨k, hk, rfl⟩ := List.getElem_of_mem hm
    obtain ⟨q, hq, hne⟩ := h1 k (Nat.zero_le k) (by omega)
    rw [hr k hk, List.getElem?_eq_getElem hk] at hq
    cases hq
    exact hne rfl
  · rw [hr k (by omega), List.getElem?_eq_getElem (by omega)] at h1
    cases h1

/-! ### The bit primitives -/

/-- Everything a round of `put_bits` can do (R230). -/
theorem putBit_cases (bit : Bool) (s : State) :
    ((placeBit bit s).accn ≠ 8 ∧ putBit bit s = .ok () (placeBit bit s)) ∨
      ((placeBit bit s).accn = 8 ∧ nextAnswer s = .ok ∧
        putBit bit s = .ok () (clearAcc (emit (placeBit bit s).acc (popAnswer (placeBit bit s))))) ∨
      ((placeBit bit s).accn = 8 ∧ nextAnswer s = .fail ∧
        putBit bit s =
          .raised (raise .ioFailure 2 (s.opos.toNat % 2 ^ 32) (popAnswer (placeBit bit s)))) := by
  unfold putBit
  by_cases h : (placeBit bit s).accn = 8
  · rcases outByte_cases (placeBit bit s).acc (placeBit bit s) with ⟨ha, ho⟩ | ⟨ha, ho⟩
    · exact .inr (.inr ⟨h, ha, by rw [if_pos h, ho]; rfl⟩)
    · exact .inr (.inl ⟨h, ha, by rw [if_pos h, ho]; rfl⟩)
  · exact .inl ⟨h, if_neg h⟩

/-- A bit out of the buffer (R234). -/
def takeBit (s : State) : State := { s with rbuf := s.rbuf >>> 1, rbn := s.rbn - 1 }

/-- A byte into the buffer (R234). -/
def loadByte (b : Byte) (s : State) : State := { s with rbuf := b, rpos := s.rpos + 1, rbn := 8 }

/-- Everything `get_bit` can do (R234). -/
theorem getBit_cases (s : State) :
    (s.rbn ≠ 0 ∧ getBit s = .ok (s.rbuf.getLsbD 0) (takeBit s)) ∨
      (s.rbn = 0 ∧ s.len.toNat ≤ s.rpos.toNat ∧ getBit s = .raised (raise .malformedHeader 9 s.rpos.toNat s)) ∨
      (s.rbn = 0 ∧ s.rpos.toNat < s.len.toNat ∧
        ((nextAnswer s = .fail ∧ getBit s = .raised (raise .ioFailure 1 s.rpos.toNat (popAnswer s))) ∨
          (nextAnswer s = .ok ∧ ∃ b, Store.read s.input s.rpos.toNat = some b ∧
            getBit s = .ok (b.getLsbD 0) (takeBit (loadByte b (popAnswer s)))) ∨
          (Store.read s.input s.rpos.toNat = none ∧ getBit s = .stop (.inputNotSupplied s.rpos.toNat)))) := by
  unfold getBit refill
  by_cases h : s.rbn = 0
  · by_cases hl : s.len.toNat ≤ s.rpos.toNat
    · exact .inr (.inl ⟨h, hl, by rw [if_pos h, if_pos hl]; rfl⟩)
    · refine .inr (.inr ⟨h, by omega, ?_⟩)
      rw [if_pos h, if_neg hl]
      rcases inByte_cases s.rpos.toNat s with ⟨h1, -⟩ | ⟨-, h1, h2⟩ | ⟨-, h1, b, h2, h3⟩ | ⟨-, -, h2, h3⟩
      · exact absurd h1 hl
      · exact .inl ⟨h1, by rw [h2]; rfl⟩
      · exact .inr (.inl ⟨h1, b, h2, by rw [h3]; rfl⟩)
      · exact .inr (.inr ⟨h2, by rw [h3]; rfl⟩)
  · exact .inl ⟨h, by rw [if_neg h]; rfl⟩

end Sys2Proof.Machine
end

