-- ==== Sys2Proof/Laws/PerInstr.lean ====
section
/-!
SUPPORT. Statements made per command of the syntax: that its word decodes to it (`30_encoding.md` R92, R93).
-/
namespace Sys2Proof.Laws.RoundTrip

/-- The command's word, put together from its fields (R90), decodes to the command (R93). -/
def Statement (i : Instr) : Prop := decode (encode i) = .command i

theorem rst : Statement .rst := by unfold Statement; decide
theorem clr : Statement .clr := by unfold Statement; decide
theorem scan : Statement .scan := by unfold Statement; decide
theorem pack : Statement .pack := by unfold Statement; decide
theorem hsortF : Statement .hsortF := by unfold Statement; decide
theorem hsortS : Statement .hsortS := by unfold Statement; decide
theorem tree : Statement .tree := by unfold Statement; decide
theorem codes : Statement .codes := by unfold Statement; decide
theorem whdr : Statement .whdr := by unfold Statement; decide
theorem rhdr : Statement .rhdr := by unfold Statement; decide
theorem enc : Statement .enc := by unfold Statement; decide
theorem flush : Statement .flush := by unfold Statement; decide
theorem dec : Statement .dec := by unfold Statement; decide
theorem compress : Statement .compress := by unfold Statement; decide
theorem decompress : Statement .decompress := by unfold Statement; decide

end Sys2Proof.Laws.RoundTrip
end

