-- ==== Sys2Proof/Tests/Slice0.lean ====
section
/-!
SUPPORT. Tests of the model and witnesses of the statements. Expected values come from `spec/95_test_vectors.md` (the vector
is named at each test) or are worked out by hand from the rule named. No test pastes the model's own answer.
-/
namespace Sys2Proof.Tests

open Sys2Proof Sys2Proof.Machine

/-! ### Helpers -/

/-- The outcome is a next state with this property. -/
def nextIs (p : State → Bool) : Host.Outcome State Fault Refusal → Bool
  | .next t => p t
  | .fault _ => false
  | .refused _ => false

theorem of_nextIs {p : State → Bool} {o : Host.Outcome State Fault Refusal} (h : nextIs p o = true) :
    ∃ t, o = .next t ∧ p t = true := by
  cases o with
  | next t => exact ⟨t, rfl, h⟩
  | fault f => cases h
  | refused r => cases h

/-- The reset state in another phase. -/
def inPhase (p : Phase) : State := { State.reset with phase := p }

/-- The host presents these bytes. -/
def presenting (bytes : List Byte) (s : State) : State :=
  { s with input := Store.ofList bytes, inLen := BitVec.ofNat 32 bytes.length }

/-- A run over these bytes is under way. -/
def running (bytes : List Byte) (s : State) : State :=
  { presenting bytes s with len := BitVec.ofNat 32 bytes.length, origLen := BitVec.ofNat 32 bytes.length }

/-- The symbol table is this list. -/
def withTable (rs : List SymRec) (s : State) : State :=
  { s with sym := Store.ofList rs, nsym := BitVec.ofNat 9 rs.length, hsize := BitVec.ofNat 9 rs.length }

/-- The node memory is this list, the root the last or the given node. -/
def withNodes (ns : List NodeRec) (root : Nat) (s : State) : State :=
  { s with node := Store.ofList ns, nnode := BitVec.ofNat 15 ns.length, root := some root }

/-- A record with its code. -/
def coded (symbol : Byte) (f : BitVec 32) (c : CodeWord) (l : BitVec 7) : SymRec := ⟨symbol, f, c, l⟩

/-- The first `n` records of the table. -/
def firstSyms (n : Nat) (s : State) : List (Option SymRec) := (List.range n).map (Store.read s.sym)

/-- The first `n` nodes. -/
def firstNodes (n : Nat) (s : State) : List (Option NodeRec) := (List.range n).map (Store.read s.node)

theorem table_withTable {rs : List SymRec} (h : rs.length < 512) (s : State) : Table rs (withTable rs s) :=
  ⟨by simp [withTable, Nat.mod_eq_of_lt h], Store.holds_ofList rs⟩

theorem presents_presenting {bytes : List Byte} (h : bytes.length < 2 ^ 32) (s : State) :
    Presents bytes (presenting bytes s) :=
  ⟨by simp only [presenting, BitVec.toNat_ofNat]; exact Nat.mod_eq_of_lt h, Store.holds_ofList bytes⟩

/-- "abcabcabc" -/
def abc : List Byte := [0x61, 0x62, 0x63, 0x61, 0x62, 0x63, 0x61, 0x62, 0x63]

/-- The 38 bytes of S2. -/
def fileS2 : List Byte :=
  [0x03, 0x00, 0x09, 0x00, 0x00, 0x00] ++ [0x61, 0x02, 0x01, 0, 0, 0, 0, 0, 0, 0] ++
    [0x62, 0x01, 0x00, 0, 0, 0, 0, 0, 0, 0] ++ [0x63, 0x02, 0x03, 0, 0, 0, 0, 0, 0, 0] ++ [0x39, 0x67]

/-- The table of V-CODES-1 after `HSORT.S` (V-WHDR-3). -/
def tableS2 : List SymRec := [coded 0x61 3 1 2, coded 0x62 3 0 1, coded 0x63 3 3 2]

/-- The entries of S2. -/
def entriesS2 : List Entry := [⟨0x61, 0x02, 1⟩, ⟨0x62, 0x01, 0⟩, ⟨0x63, 0x02, 3⟩]

/-- The nodes of V-RHDR-14. -/
def nodesS2 : List NodeRec :=
  [innerNode 0 (some 3) (some 1), innerNode 0 (some 2) (some 4), leafNode 0x61 0, leafNode 0x62 0, leafNode 0x63 0]

/-- The nodes of V-TREE-1. -/
def nodesTree1 : List NodeRec :=
  [leafNode 0x61 3, leafNode 0x63 3, leafNode 0x62 3, innerNode 6 (some 0) (some 1), innerNode 9 (some 2) (some 3)]

/-- The state `RHDR` leaves on a file like that of S2 (V-RHDR-14). -/
def afterRhdrS2 (file : List Byte) : State :=
  { withNodes nodesS2 0 (running file (inPhase .hdrr)) with nsym := 3, origLen := 9, rpos := 36 }

/-! ### Well-formedness: each check refuses an ill-formed term -/

theorem test_wf_opcode_unlisted : (CmdFields.mk 0 0 0x02).wf = false := by decide
theorem test_wf_opcode_zero : (CmdFields.mk 0 0 0x00).opcodeListed = false := by decide
theorem test_wf_cmp_only_hsort : (CmdFields.mk 0 1 0x01).cmpAllowed = false := by decide
theorem test_wf_cmp_hsort : (CmdFields.mk 0 1 0x20).wf = true := by decide
theorem test_wf_zero_bit_set : (CmdFields.mk 1 0 0x20).zeroClear = false := by decide
theorem test_wf_offset_not_aligned : HostAction.wf (.regRead 0x06) = false := by decide
theorem test_wf_write_offset_not_aligned : HostAction.wf (.regWrite 0x01 0) = false := by decide
theorem test_wf_input_too_long (bytes : List Byte) (h : bytes.length = 2 ^ 32) : HostAction.wf (.supply bytes) = false := by
  rw [HostAction.wf, h]; decide

/-! ### Decoding: words written out bit by bit from R90 and R92: `zero` 23 bits, `cmp`, `opcode` -/

theorem test_decode_rst : decode (0#23 ++ 0b0#1 ++ 0b00000001#8) = .command .rst := by decide
theorem test_decode_clr : decode (0#23 ++ 0b0#1 ++ 0b00010000#8) = .command .clr := by decide
theorem test_decode_scan : decode (0#23 ++ 0b0#1 ++ 0b00010001#8) = .command .scan := by decide
theorem test_decode_pack : decode (0#23 ++ 0b0#1 ++ 0b00010010#8) = .command .pack := by decide
theorem test_decode_hsortF : decode (0#23 ++ 0b0#1 ++ 0b00100000#8) = .command .hsortF := by decide
theorem test_decode_hsortS : decode (0#23 ++ 0b1#1 ++ 0b00100000#8) = .command .hsortS := by decide
theorem test_decode_tree : decode (0#23 ++ 0b0#1 ++ 0b00110000#8) = .command .tree := by decide
theorem test_decode_codes : decode (0#23 ++ 0b0#1 ++ 0b01000000#8) = .command .codes := by decide
theorem test_decode_whdr : decode (0#23 ++ 0b0#1 ++ 0b01010000#8) = .command .whdr := by decide
theorem test_decode_rhdr : decode (0#23 ++ 0b0#1 ++ 0b01010001#8) = .command .rhdr := by decide
theorem test_decode_enc : decode (0#23 ++ 0b0#1 ++ 0b01100000#8) = .command .enc := by decide
theorem test_decode_flush : decode (0#23 ++ 0b0#1 ++ 0b01100001#8) = .command .flush := by decide
theorem test_decode_dec : decode (0#23 ++ 0b0#1 ++ 0b01100010#8) = .command .dec := by decide
theorem test_decode_compress : decode (0#23 ++ 0b0#1 ++ 0b01110000#8) = .command .compress := by decide
theorem test_decode_decompress : decode (0#23 ++ 0b0#1 ++ 0b01110001#8) = .command .decompress := by decide
/-- V-SEQ-4, V-SEQ-6 to V-SEQ-10: words that are no command. -/
theorem test_decode_illegal :
    decode 0x00000000 = .illegal ∧ decode 0x00000101 = .illegal ∧ decode 0x00000110 = .illegal ∧
      decode 0x00000220 = .illegal ∧ decode 0x80000070 = .illegal ∧ decode 0x00000002 = .illegal := by decide
theorem test_decodeTableWord : decodeTableWord 32 0x120 = some .hsortS ∧ decodeTableWord 32 0x121 = none := by decide

/-! ### One step per command -/

/-- V-SEQ-13: `RST` in `HDRW`; `IN_LEN` stays. -/
theorem test_rst :
    nextIs (fun t => t.phase == .idle && t.out == [] && t.inLen == 9 && t.len == 0 && t.nsym == 0)
      (exec .rst { withTable tableS2 (running abc (inPhase .hdrw)) with out := [3, 0] }) = true := by decide

/-- V-SEQ-5: `RST` leaves `ERROR`. -/
theorem test_rst_leaves_error :
    nextIs (fun t => statusWord t == 0 && t.errinfo == 0)
      (exec .rst (raise .badSequence 1 0x11 State.reset)) = true := by decide

/-- V-SYM-1. -/
theorem test_clr :
    nextIs (fun t => t.phase == .cleared && t.len == 9 && t.nsym == 256 && t.hsize == 256 && t.origLen == 0 &&
        Store.read t.sym 0x61 == some (coded 0x61 0 0 0))
      (exec .clr { State.reset with inLen := 9 }) = true := by decide

/-- V-SYM-2, on the three records it touches. -/
theorem test_scan :
    nextIs (fun t => t.phase == .counted && t.origLen == 9 &&
        t.sym == [(0x61, symFreq 0x61 3), (0x62, symFreq 0x62 3), (0x63, symFreq 0x63 3)])
      (exec .scan { running abc (inPhase .cleared) with
        sym := [(0x61, symFreq 0x61 0), (0x62, symFreq 0x62 0), (0x63, symFreq 0x63 0)] }) = true := by decide

/-- V-SYM-7: the oracle fails the read at address 4. -/
theorem test_scan_read_fails :
    nextIs (fun t => statusWord t == 0x0001001F && t.errinfo == 4)
      (exec .scan { running abc (inPhase .cleared) with
        sym := [(0x61, symFreq 0x61 0), (0x62, symFreq 0x62 0), (0x63, symFreq 0x63 0)],
        oracle := [.ok, .ok, .ok, .ok, .fail] }) = true := by decide

/-- R124 by hand: the loop of `PACK` over four records keeps the second and the fourth, in order. -/
theorem test_pack_loop :
    (match packFrom 4 0 0 (withTable [symFreq 0 0, symFreq 1 7, symFreq 2 0, symFreq 3 5] State.reset) with
      | .ok j t => j == 2 && firstSyms 2 t == [some (symFreq 1 7), some (symFreq 3 5)]
      | _ => false) = true := by decide

/-- V-HEAP-3. -/
theorem test_hsortF :
    nextIs (fun t => t.phase == .fsorted && t.hsize == 5 && firstSyms 5 t ==
        [some (symFreq 0x64 1), some (symFreq 0x63 1), some (symFreq 0x62 2), some (symFreq 0x72 2), some (symFreq 0x61 5)])
      (exec .hsortF (withTable
        [symFreq 0x61 5, symFreq 0x62 2, symFreq 0x63 1, symFreq 0x64 1, symFreq 0x72 2] (inPhase .packed))) = true := by decide

/-- V-HEAP-9. -/
theorem test_hsortS_bad_sequence :
    nextIs (fun t => statusWord t == 0x0001004F && t.errinfo == 0x120)
      (exec .hsortS (withTable [symFreq 0x61 5] (inPhase .packed))) = true := by decide

/-- V-HEAP-5 with the codes of V-CODES-2: each record keeps its frequency, code and length. -/
theorem test_hsortS :
    nextIs (fun t => t.phase == .ssorted && firstSyms 5 t ==
        [some (coded 0x61 5 0 1), some (coded 0x62 2 3 3), some (coded 0x63 1 5 3), some (coded 0x64 1 1 3),
         some (coded 0x72 2 7 3)])
      (exec .hsortS (withTable
        [coded 0x64 1 1 3, coded 0x63 1 5 3, coded 0x62 2 3 3, coded 0x72 2 7 3, coded 0x61 5 0 1]
        (inPhase .coded))) = true := by decide

/-- V-TREE-2. -/
theorem test_tree :
    nextIs (fun t => t.phase == .treed && t.nnode == 9 && t.root == some 8 && firstNodes 9 t ==
        [some (leafNode 0x64 1), some (leafNode 0x63 1), some (leafNode 0x62 2), some (leafNode 0x72 2),
         some (leafNode 0x61 5), some (innerNode 2 (some 0) (some 1)), some (innerNode 4 (some 2) (some 3)),
         some (innerNode 6 (some 5) (some 6)), some (innerNode 11 (some 4) (some 7))])
      (exec .tree (withTable
        [symFreq 0x64 1, symFreq 0x63 1, symFreq 0x62 2, symFreq 0x72 2, symFreq 0x61 5] (inPhase .fsorted))) = true := by
  decide

/-- V-TREE-5: no symbol, no tree. -/
theorem test_tree_empty :
    nextIs (fun t => t.nnode == 0 && t.root == none && t.phase == .treed) (exec .tree (inPhase .fsorted)) = true := by decide

/-- V-CODES-1. -/
theorem test_codes :
    nextIs (fun t => t.phase == .coded && firstSyms 3 t ==
        [some (coded 0x61 3 1 2), some (coded 0x63 3 3 2), some (coded 0x62 3 0 1)])
      (exec .codes (withNodes nodesTree1 4 (withTable [symFreq 0x61 3, symFreq 0x63 3, symFreq 0x62 3]
        (inPhase .treed)))) = true := by decide

/-- V-WHDR-3: the header of S2. -/
theorem test_whdr :
    nextIs (fun t => t.phase == .hdrw && t.out == fileS2.take 36 && t.opos == 36)
      (exec .whdr (withTable tableS2 (running abc (inPhase .ssorted)))) = true := by decide

/-- V-WHDR-6: the oracle fails the write at position 7. -/
theorem test_whdr_write_fails :
    nextIs (fun t => t.out == [3, 0, 9, 0, 0, 0, 0x61] && statusWord t == 0x0002001F && t.errinfo == 7)
      (exec .whdr { withTable tableS2 (running abc (inPhase .ssorted)) with
        oracle := List.replicate 7 .ok ++ [.fail] }) = true := by decide

/-- V-RHDR-14. -/
theorem test_rhdr :
    nextIs (fun t => statusWord t == 0x0000000B && t.nsym == 3 && t.origLen == 9 && t.rpos == 36 && t.nnode == 5 &&
        t.root == some 0 && firstNodes 5 t == nodesS2.map some)
      (exec .rhdr (presenting fileS2 State.reset)) = true := by decide

/-- V-RHDR-8: the path of entry 1 runs through leaf a. -/
theorem test_rhdr_collision :
    nextIs (fun t => statusWord t == 0x0006002F && t.errinfo == 1)
      (exec .rhdr (presenting ([2, 0, 0, 0, 0, 0] ++ [0x61, 1, 0, 0, 0, 0, 0, 0, 0, 0] ++ [0x62, 2, 0, 0, 0, 0, 0, 0, 0, 0])
        State.reset)) = true := by decide

/-- V-ENC-2. -/
theorem test_enc :
    nextIs (fun t => t.phase == .encoded && t.out == [0x39] && t.acc == 0x67 && t.accn == 7)
      (exec .enc (withTable tableS2 (running abc (inPhase .hdrw)))) = true := by decide

/-- V-ENC-8: the byte at address 1 has no record. -/
theorem test_enc_unknown_byte :
    nextIs (fun t => statusWord t == 0x0001006F && t.errinfo == 1)
      (exec .enc (withTable [coded 0x61 2 1 1, coded 0x62 1 0 1] (running [0x61, 0x63, 0x62] (inPhase .hdrw)))) = true := by
  decide

/-- V-ENC-2. -/
theorem test_flush :
    nextIs (fun t => t.phase == .doneC && t.out == [0x67] && t.acc == 0 && t.accn == 0 && t.opos == 1)
      (exec .flush { inPhase .encoded with acc := 0x67, accn := 7 }) = true := by decide

/-- V-DEC-1, from the state of V-RHDR-14. -/
theorem test_dec :
    nextIs (fun t => statusWord t == 0x0000000C && t.out == abc && t.rpos == 38 && t.rbn == 1 && t.rbuf == 0)
      (exec .dec (afterRhdrS2 fileS2)) = true := by decide

/-- V-DEC-4: the payload ends inside the sixth symbol. -/
theorem test_dec_short_payload :
    nextIs (fun t => statusWord t == 0x0009002F && t.errinfo == 37 && t.out == [0x61, 0x62, 0x63, 0x61, 0x62])
      (exec .dec (afterRhdrS2 (fileS2.take 37))) = true := by decide

set_option maxRecDepth 10000 in
/-- S1: the whole flow on "aaaa". -/
theorem test_compress :
    nextIs (fun t => t.phase == .doneC && t.out == [1, 0, 4, 0, 0, 0, 0x61, 0, 0, 0, 0, 0, 0, 0, 0, 0] && t.nsym == 1)
      (exec .compress (presenting [0x61, 0x61, 0x61, 0x61] State.reset)) = true := by decide +kernel

/-- S1: the file of "aaaa" back. -/
theorem test_decompress :
    nextIs (fun t => statusWord t == 0x0000000C && t.out == [0x61, 0x61, 0x61, 0x61] && t.rpos == 16 && t.rbn == 0)
      (exec .decompress (presenting [1, 0, 4, 0, 0, 0, 0x61, 0, 0, 0, 0, 0, 0, 0, 0, 0] State.reset)) = true := by decide

/-- V-DEC-5: a bit selects the missing child. -/
theorem test_decompress_missing_child :
    nextIs (fun t => statusWord t == 0x000A002F && t.out == [])
      (exec .decompress (presenting ([1, 0, 1, 0, 0, 0] ++ [0x61, 1, 0, 0, 0, 0, 0, 0, 0, 0] ++ [1]) State.reset)) = true := by
  decide

/-! ### The step and the host -/

/-- V-SEQ-1: `SCAN` right after reset, placed by `withFetchWord`. -/
theorem test_step_from_reset :
    nextIs (fun t => statusWord t == 0x0001004F && t.errinfo == 0x11 && t.script == [])
      (step (State.reset.withFetchWord 32 0x11)) = true := by decide

/-- V-SEQ-9. -/
theorem test_step_illegal_word :
    nextIs (fun t => statusWord t == 0x0001005F && t.errinfo == 0x80000070)
      (step (State.reset.withFetchWord 32 0x80000070)) = true := by decide

/-- V-ENC-1: `get_bit` and `put_bits` alone; `put_bits(1, 2)` then `put_bits(0, 1)`. -/
theorem test_put_bits :
    (match (putBits 1 2 State.reset).bind fun _ s => putBits 0 1 s with
      | .ok _ t => t.acc == 1 && t.accn == 3
      | _ => false) = true := by decide

/-- R322, R327 by hand: a supplied input, then one byte of it set. -/
theorem test_supply_and_set :
    nextIs (fun t => Store.read t.input 0 == some 0x61 && Store.read t.input 1 == some 0x63 && Store.read t.input 2 == none)
      (step { State.reset with input := Store.ofList [0x61, 0x62], script := [.setByte 1 0x63] }) = true := by decide

/-- R21 by hand: `OUT_LEN_HI` is bits 39:32 of `OPOS`. -/
theorem test_read_out_len_hi :
    nextIs (fun t => t.readData == 0x12)
      (step { State.reset with opos := 0x123456789A, script := [.regRead 0x18] }) = true := by decide

/-! ### Witnesses: a state and operands that meet all hypotheses of a statement -/

/-- A host script whose first action writes a word to `CMD`. -/
def writing (w : Word) (s : State) : State := { s with script := [.regWrite 0 w] }

theorem witness_StepRunsDecodedCommand :
    (writing 0x62 State.reset).script = .regWrite 0 0x62 :: [] ∧ decode 0x62 = .command .dec := by decide

theorem witness_IllegalWordRaises :
    (writing 0x121 State.reset).script = .regWrite 0 0x121 :: [] ∧ decode 0x121 = .illegal ∧
      (writing 0x121 State.reset).phase ≠ .error := by decide

theorem witness_IllegalWordRaises_in_error :
    (writing 0x101 (inPhase .error)).script = .regWrite 0 0x101 :: [] ∧ decode 0x101 = .illegal ∧
      (writing 0x101 (inPhase .error)).phase = .error := by decide

theorem witness_ErrorIgnoresCommands : Instr.compress ≠ .rst ∧ (inPhase .error).phase = .error := by decide

theorem witness_WrongPhaseRaisesBadSequence :
    (Instr.flush, [Phase.encoded], Phase.doneC) ∈ rowsOfR262 ∧ (inPhase .doneC).phase ≠ .error ∧
      (inPhase .doneC).phase ∉ [Phase.encoded] := by decide

theorem witness_MapWordsDecode :
    (0x00000000 : Word) ∉ ([0x00000001, 0x00000010, 0x00000011, 0x00000012, 0x00000020, 0x00000120, 0x00000030, 0x00000040,
      0x00000050, 0x00000051, 0x00000060, 0x00000061, 0x00000062, 0x00000070, 0x00000071] : List Word) := by decide

theorem witness_CommandLeavesPhaseOfItsRow :
    ∃ t, (Instr.flush, [Phase.encoded], Phase.doneC) ∈ rowsOfR262 ∧ exec .flush (inPhase .encoded) = .next t ∧
      (inPhase .encoded).phase ∈ [Phase.encoded] := ⟨_, by decide, rfl, by decide⟩

theorem witness_CommandLeavesPhaseOfItsRow_not_legal :
    ∃ t, (Instr.flush, [Phase.encoded], Phase.doneC) ∈ rowsOfR262 ∧ exec .flush (inPhase .doneC) = .next t ∧
      (inPhase .doneC).phase ∉ [Phase.encoded] := ⟨_, by decide, rfl, by decide⟩

theorem witness_OnlyResetLeavesError :
    ∃ t, (writing 1 (inPhase .error)).phase = .error ∧ step (writing 1 (inPhase .error)) = .next t ∧ t.phase ≠ .error :=
  ⟨_, rfl, rfl, by decide⟩

theorem witness_NothingToDoHoldsState : (inPhase .coded).script = [] := rfl

theorem witness_HardResetResetsAll :
    ({ inPhase .error with script := [.hardReset] } : State).script = .hardReset :: [] := rfl

theorem witness_StatusWordLayout :
    ∃ s : State, s.script = .regRead 4 :: [] ∧ (s.phase, 15) ∈ phaseValues ∧ (s.err, 6) ∈ errValues :=
  ⟨{ raise .inconsistentInput 1 2 State.reset with script := [.regRead 4] }, by decide⟩

theorem witness_HostReadsRegisters :
    ∃ s : State, s.script = .regRead 0x1C :: [] ∧ (0x1C : Word).toNat % 4 = 0 ∧ (0x1C : Word) ≠ 4 :=
  ⟨{ State.reset with script := [.regRead 0x1C] }, by decide⟩

theorem witness_HostReadsRegisters_beyond :
    ∃ s : State, s.script = .regRead 0x20 :: [] ∧ (0x20 : Word).toNat % 4 = 0 ∧ (0x20 : Word) ≠ 4 :=
  ⟨{ State.reset with script := [.regRead 0x20] }, by decide⟩

theorem witness_HostWritesOnlyInLen :
    ∃ s : State, s.script = .regWrite 8 9 :: [] ∧ (8 : Word).toNat % 4 = 0 ∧ (8 : Word) ≠ 0 :=
  ⟨{ State.reset with script := [.regWrite 8 9] }, by decide⟩

theorem witness_HostWritesOnlyInLen_ignored :
    ∃ s : State, s.script = .regWrite 4 9 :: [] ∧ (4 : Word).toNat % 4 = 0 ∧ (4 : Word) ≠ 0 :=
  ⟨{ State.reset with script := [.regWrite 4 9] }, by decide⟩

theorem witness_HostInputTakenOrRefused_misaligned_write :
    ∃ s : State, s.script = .regWrite 1 9 :: [] ∧ (1 : Word).toNat % 4 ≠ 0 :=
  ⟨{ State.reset with script := [.regWrite 1 9] }, by decide⟩

theorem witness_HostInputTakenOrRefused_misaligned_read :
    ∃ s : State, s.script = .regRead 0xFFFFFFFF :: [] ∧ (0xFFFFFFFF : Word).toNat % 4 ≠ 0 :=
  ⟨{ State.reset with script := [.regRead 0xFFFFFFFF] }, by decide⟩

theorem exists_bytes (n : Nat) : ∃ bytes : List Byte, bytes.length = n := ⟨List.replicate n 0, List.length_replicate⟩

theorem witness_HostInputTakenOrRefused_too_long :
    ∃ (s : State) (bytes : List Byte), s.script = .supply bytes :: [] ∧ 2 ^ 32 ≤ bytes.length := by
  obtain ⟨bytes, h⟩ := exists_bytes (2 ^ 32)
  exact ⟨{ State.reset with script := [.supply bytes] }, bytes, rfl, Nat.le_of_eq h.symm⟩

/-- The longest input that can be presented. -/
theorem witness_HostInputTakenOrRefused_longest :
    ∃ (s : State) (bytes : List Byte), s.script = .supply bytes :: [] ∧ bytes.length < 2 ^ 32 ∧ bytes.length = 2 ^ 32 - 1 := by
  obtain ⟨bytes, h⟩ := exists_bytes (2 ^ 32 - 1)
  exact ⟨{ State.reset with script := [.supply bytes] }, bytes, rfl, by rw [h]; decide, h⟩

theorem witness_HostInputTakenOrRefused_set_byte :
    ∃ s : State, s.script = .setByte 0xFFFFFFFF 7 :: [] := ⟨{ State.reset with script := [.setByte 0xFFFFFFFF 7] }, rfl⟩

theorem witness_RaiseWritesErrorRegisters :
    ∃ t, raise .ioFailure 2 (2 ^ 32 + 7) (inPhase .encoded) = t ∧ t.errinfo = 7 := ⟨_, rfl, by decide⟩

/-- V-SYM-7. -/
theorem witness_FailedAccessRaisesAtOnce :
    ∃ (s t : State), s.err = .none ∧ exec .scan s = .next t ∧ t.err = .ioFailure := by
  obtain ⟨t, ht, hp⟩ := of_nextIs (p := fun t => t.err == .ioFailure) (o := exec .scan { running abc (inPhase .cleared) with
    sym := [(0x61, symFreq 0x61 0), (0x62, symFreq 0x62 0), (0x63, symFreq 0x63 0)],
    oracle := [.ok, .ok, .ok, .ok, .fail] }) (by decide)
  exact ⟨_, t, rfl, ht, by simpa using hp⟩

theorem witness_ClrStartsRun : (inPhase .doneD).phase ∈ [Phase.idle, .doneC, .doneD] := by decide

/-- The table `CLR` leaves, as a list. -/
def fresh : List SymRec := (List.range Config.alphabet).map freshRecord

theorem length_fresh : fresh.length = 256 := by simp [fresh, Config.alphabet]

theorem witness_ScanCountsEveryByte :
    ∃ s : State, s.phase = .cleared ∧ NoFail s ∧ s.len.toNat = abc.length ∧ Store.Holds s.input abc ∧ fresh.length = 256 ∧
      Store.Holds s.sym fresh :=
  ⟨withTable fresh (running abc (inPhase .cleared)), rfl, by decide, by decide, Store.holds_ofList _, length_fresh,
    Store.holds_ofList _⟩

theorem witness_ScanReadFailureRaises :
    ∃ s : State, s.phase = .cleared ∧ s.oracle = List.replicate [0x61#8].length .ok ++ .fail :: [] ∧
      [0x61#8].length < s.len.toNat ∧ Store.Holds s.input [0x61#8] ∧ fresh.length = 256 ∧ Store.Holds s.sym fresh :=
  ⟨{ withTable fresh (running [0x61] (inPhase .cleared)) with len := 2, oracle := [.ok, .fail] }, rfl, by decide, by decide,
    Store.holds_ofList _, length_fresh, Store.holds_ofList _⟩

theorem witness_PackKeepsObservedRecords :
    ∃ s : State, s.phase = .counted ∧ fresh.length = 256 ∧ Store.Holds s.sym fresh :=
  ⟨withTable fresh (inPhase .counted), rfl, length_fresh, Store.holds_ofList _⟩

theorem minHeap_pair (cmp : Cmp) (a b : SymRec) (h : before cmp b a = false) : MinHeap cmp [a, b] := by
  intro i x p hi hx hp
  match i, hi with
  | 1, _ => cases hx; cases hp; exact h
  | i + 2, _ => simp at hx

theorem witness_HeapStepsKeepMinHeap :
    1 < [symFreq 1 2, symFreq 2 2, symFreq 3 1].length ∧
      MinHeap .freq ([symFreq 1 2, symFreq 2 2, symFreq 3 1].take (1 + 1)) := ⟨by decide, minHeap_pair _ _ _ (by decide)⟩

theorem witness_HsortFSortsByFrequency :
    ∃ s : State, s.phase = .packed ∧ Table [symFreq 0x61 2, symFreq 0x62 1] s :=
  ⟨withTable _ (inPhase .packed), rfl, table_withTable (by decide) _⟩

theorem witness_HsortSSortsBySymbol :
    ∃ s : State, s.phase = .coded ∧ Table [coded 0x62 1 0 1, coded 0x61 2 1 1] s ∧
      ([coded 0x62 1 0 1, coded 0x61 2 1 1].map fun r => r.symbol).Nodup :=
  ⟨withTable _ (inPhase .coded), rfl, table_withTable (by decide) _, by decide⟩

/-- The nodes of V-TREE-1 with the internal ones in use. -/
def picking : State := withNodes nodesTree1 4 (inPhase .fsorted)

theorem witness_PickPrefersLeafOnTie_tie :
    ∃ (l r : NodeRec) (s : State), 0 < 1 ∧ 1 < s.nnode.toNat ∧ Store.read s.node 0 = some l ∧ Store.read s.node 1 = some r ∧
      l.frequency ≤ r.frequency :=
  ⟨leafNode 0x61 3, leafNode 0x63 3, picking, by decide, by decide, rfl, rfl, by decide⟩

theorem witness_PickPrefersLeafOnTie_inner :
    ∃ (l r : NodeRec) (s : State), 4 < 5 ∧ 3 < s.nnode.toNat ∧ Store.read s.node 4 = some l ∧ Store.read s.node 3 = some r ∧
      r.frequency < l.frequency :=
  ⟨innerNode 9 (some 2) (some 3), innerNode 6 (some 0) (some 1), picking, by decide, by decide, rfl, rfl, by decide⟩

theorem witness_PickPrefersLeafOnTie_no_inner : 2 < 3 ∧ picking.nnode.toNat ≤ 5 := by decide

theorem witness_PickPrefersLeafOnTie_no_leaf : 3 ≤ 3 ∧ 4 < picking.nnode.toNat := by decide

theorem witness_TreeBuildsNodes :
    ∃ s : State, s.phase = .fsorted ∧ Table [symFreq 0x62 1, symFreq 0x61 2] s :=
  ⟨withTable _ (inPhase .fsorted), rfl, table_withTable (by decide) _⟩

theorem witness_TreeIsOneTreeOverTheTable :
    ∃ s t : State, s.phase = .fsorted ∧ Table [symFreq 0x62 1, symFreq 0x61 2] s ∧
      [symFreq 0x62 1, symFreq 0x61 2] ≠ [] ∧ exec .tree s = .next t ∧
      ([symFreq 0x62 1, symFreq 0x61 2].map fun q => q.frequency.toNat).sum < 2 ^ 32 :=
  ⟨withTable _ (inPhase .fsorted), _, rfl, table_withTable (by decide) _, by decide, rfl, by decide⟩

/-! The chains of V-CODES-5 and V-CODES-6: `n` internal nodes in a row, the deepest leaf at depth `n`. -/

/-- The tree below node `k` of the chain: the left child is the rest, the right child a leaf. -/
def chainTree : Nat → HTree
  | 0 => .leaf 0
  | k + 1 => .node (chainTree k) (.leaf (BitVec.ofNat 8 (k + 1)))

/-- The nodes of the chain: `NODE[0]` a leaf, `NODE[j]` internal with left `j - 1`, right `n + j`, then the other leaves. -/
def chainNodes (n : Nat) : List NodeRec :=
  (leafNode 0 1 :: (List.range n).map fun k => innerNode 1 (some k) (some (n + k + 1))) ++
    (List.range n).map fun k => leafNode (BitVec.ofNat 8 (k + 1)) 1

/-- The table of the chain. -/
def chainTable (n : Nat) : List SymRec := (List.range (n + 1)).map fun k => symFreq (BitVec.ofNat 8 k) 1

theorem length_chainTable (n : Nat) : (chainTable n).length = n + 1 := by simp [chainTable]

theorem represents_chain (n : Nat) (s : State) {k : Nat} (hk : k ≤ n) :
    Represents (withNodes (chainNodes n) n s).node k (chainTree k) := by
  induction k with
  | zero => exact .leaf (r := leafNode 0 1) (by simp [withNodes, chainNodes]) rfl
  | succ k ih =>
    have h1 : Store.read (withNodes (chainNodes n) n s).node (k + 1) = some (innerNode 1 (some k) (some (n + k + 1))) := by
      simp [withNodes, chainNodes, List.getElem?_append, show k < n by omega]
    have h2 : Store.read (withNodes (chainNodes n) n s).node (n + k + 1) = some (leafNode (BitVec.ofNat 8 (k + 1)) 1) := by
      simp [withNodes, chainNodes, show k < n by omega]
    exact .node (r := innerNode 1 (some k) (some (n + k + 1))) h1 rfl rfl rfl (ih (by omega))
      (.leaf (r := leafNode (BitVec.ofNat 8 (k + 1)) 1) h2 rfl)

theorem depth_chain (n : Nat) : (chainTree n).depth = n := by
  induction n with
  | zero => rfl
  | succ n ih => simp [chainTree, HTree.depth, ih]

theorem symbols_chain {n : Nat} {c : Byte} (h : c ∈ (chainTree n).symbols) : ∃ k, k ≤ n ∧ c = BitVec.ofNat 8 k := by
  induction n with
  | zero => exact ⟨0, Nat.le_refl 0, by simpa [chainTree, HTree.symbols, HTree.paths] using h⟩
  | succ n ih =>
    simp only [chainTree, HTree.symbols, HTree.paths, List.map_append, List.map_map, List.mem_append, List.map_cons,
      List.map_nil, List.mem_singleton] at h
    rcases h with h | h
    · obtain ⟨k, hk, e⟩ := ih (by simpa [HTree.symbols, Function.comp_def] using h)
      exact ⟨k, by omega, e⟩
    · exact ⟨n + 1, Nat.le_refl _, h⟩

theorem symbols_chain_in_table {n : Nat} {c : Byte} (h : c ∈ (chainTree n).symbols) :
    c ∈ (chainTable n).map fun r => r.symbol := by
  obtain ⟨k, hk, rfl⟩ := symbols_chain h
  simp only [chainTable, List.map_map, List.mem_map, List.mem_range]
  exact ⟨k, by omega, rfl⟩

/-- V-CODES-6: a leaf at depth exactly 64 is legal. -/
theorem witness_CodesAssignsPaths :
    ∃ s : State, s.phase = .treed ∧ Table (chainTable 64) s ∧ s.root = some 64 ∧ Represents s.node 64 (chainTree 64) ∧
      (chainTree 64).depth ≤ 64 ∧ ((chainTable 64).map fun r => r.symbol).Nodup ∧ (chainTree 64).symbols.Nodup ∧
      ∀ c, c ∈ (chainTree 64).symbols → c ∈ (chainTable 64).map fun r => r.symbol :=
  ⟨withNodes (chainNodes 64) 64 (withTable (chainTable 64) (inPhase .treed)), rfl,
    table_withTable (rs := chainTable 64) (by rw [length_chainTable]; decide) (inPhase .treed), rfl,
    represents_chain 64 (withTable (chainTable 64) (inPhase .treed)) (Nat.le_refl 64),
    Nat.le_of_eq (depth_chain 64), by decide, by decide, fun _ => symbols_chain_in_table⟩

theorem witness_CodesAssignsPaths_no_tree : (inPhase .treed).phase = .treed ∧ (inPhase .treed).root = none := by decide

theorem witness_AssignedCodesArePrefixFree :
    ∃ (s t : State) (qs : List SymRec), s.phase = .treed ∧ Table [symFreq 0x61 2] s ∧ s.root = some 0 ∧
      Represents s.node 0 (.leaf 0x61) ∧ (HTree.leaf 0x61).symbols.Perm ([symFreq 0x61 2].map fun r => r.symbol) ∧
      ([symFreq 0x61 2].map fun r => r.symbol).Nodup ∧ exec .codes s = .next t ∧ t.phase = .coded ∧ Table qs t :=
  ⟨withNodes [leafNode 0x61 2] 0 (withTable [symFreq 0x61 2] (inPhase .treed)), _, [symFreq 0x61 2], rfl,
    table_withTable (rs := [symFreq 0x61 2]) (by decide) (inPhase .treed), rfl, .leaf (r := leafNode 0x61 2) rfl rfl, .refl _, by decide, rfl, rfl, rfl,
    fun k hk => by
      have : k = 0 := by simpa using hk
      subst this; rfl⟩

/-- V-CODES-5: a leaf at depth 65. -/
theorem witness_CodesGuardsCapacity :
    ∃ s : State, s.phase = .treed ∧ Table (chainTable 65) s ∧ s.root = some 65 ∧ Represents s.node 65 (chainTree 65) ∧
      64 < (chainTree 65).depth ∧ ∀ c, c ∈ (chainTree 65).symbols → c ∈ (chainTable 65).map fun r => r.symbol :=
  ⟨withNodes (chainNodes 65) 65 (withTable (chainTable 65) (inPhase .treed)), rfl,
    table_withTable (rs := chainTable 65) (by rw [length_chainTable]; decide) (inPhase .treed), rfl,
    represents_chain 65 (withTable (chainTable 65) (inPhase .treed)) (Nat.le_refl 65),
    by rw [depth_chain]; decide, fun _ => symbols_chain_in_table⟩

theorem witness_WhdrWritesHeader : ∃ s : State, s.phase = .ssorted ∧ NoFail s ∧ Table tableS2 s :=
  ⟨withTable tableS2 (inPhase .ssorted), rfl, by decide, table_withTable (by decide) _⟩

theorem witness_WhdrWriteFailureRaises :
    ∃ s : State, s.phase = .ssorted ∧ Table tableS2 s ∧ 35 < 6 + 10 * tableS2.length ∧
      s.oracle = List.replicate 35 .ok ++ .fail :: [] :=
  ⟨{ withTable tableS2 (inPhase .ssorted) with oracle := List.replicate 35 .ok ++ .fail :: [] }, rfl,
    table_withTable (rs := tableS2) (by decide) (inPhase .ssorted), by decide, rfl⟩

theorem acceptable_entriesS2 : Acceptable entriesS2 := by decide

theorem witness_RhdrRebuildsTree :
    ∃ s : State, s.phase ∈ [Phase.idle, .doneC, .doneD] ∧ NoFail s ∧ Presents (headerOf entriesS2 9 ++ [0x39, 0x67]) s ∧
      Acceptable entriesS2 ∧ 9 < 2 ^ 32 ∧ (entriesS2 = [] → 9 = 0) :=
  ⟨presenting _ State.reset, by decide, by decide, presents_presenting (by decide) _, acceptable_entriesS2, by decide,
    by decide⟩

theorem witness_RhdrRebuildsTree_empty :
    ∃ s : State, s.phase ∈ [Phase.idle, .doneC, .doneD] ∧ NoFail s ∧ Presents (headerOf [] 0 ++ []) s ∧ Acceptable [] ∧
      0 < 2 ^ 32 ∧ (([] : List Entry) = [] → 0 = 0) :=
  ⟨presenting _ State.reset, by decide, by decide, presents_presenting (by decide) _, by decide, by decide, by decide⟩

theorem witness_RhdrChecksCounts_short :
    ∃ s : State, s.phase ∈ [Phase.idle, .doneC, .doneD] ∧ NoFail s ∧ Presents [0, 0, 0, 0, 0] s ∧
      ([0, 0, 0, 0, 0] : List Byte).length < 6 :=
  ⟨presenting _ State.reset, by decide, by decide, presents_presenting (by decide) _, by decide⟩

theorem witness_RhdrChecksCounts_too_many :
    ∃ (s : State) (file : List Byte), s.phase ∈ [Phase.idle, .doneC, .doneD] ∧ NoFail s ∧ Presents file s ∧ 257 < 2 ^ 16 ∧
      0 < 2 ^ 32 ∧ file = leBytes 257 2 ++ leBytes 0 4 ++ [] ∧ 256 < 257 :=
  ⟨presenting (leBytes 257 2 ++ leBytes 0 4 ++ []) State.reset, _, by decide, by decide, presents_presenting (by decide) _,
    by decide, by decide, rfl, by decide⟩

theorem witness_RhdrChecksCounts_past_the_file :
    ∃ (s : State) (file : List Byte), s.phase ∈ [Phase.idle, .doneC, .doneD] ∧ NoFail s ∧ Presents file s ∧ 1 < 2 ^ 16 ∧
      0 < 2 ^ 32 ∧ file = leBytes 1 2 ++ leBytes 0 4 ++ List.replicate 9 0 ∧ file.length < 6 + 10 * 1 :=
  ⟨presenting (leBytes 1 2 ++ leBytes 0 4 ++ List.replicate 9 0) State.reset, _, by decide, by decide,
    presents_presenting (by decide) _, by decide, by decide, rfl, by decide⟩

theorem witness_RhdrChecksCounts_no_symbols :
    ∃ (s : State) (file : List Byte), s.phase ∈ [Phase.idle, .doneC, .doneD] ∧ NoFail s ∧ Presents file s ∧ 0 < 2 ^ 16 ∧
      1 < 2 ^ 32 ∧ file = leBytes 0 2 ++ leBytes 1 4 ++ [] ∧ (0 = 0 ∧ 1 ≠ 0) :=
  ⟨presenting (leBytes 0 2 ++ leBytes 1 4 ++ []) State.reset, _, by decide, by decide, presents_presenting (by decide) _,
    by decide, by decide, rfl, by decide⟩

/-- V-RHDR-7: length 65. -/
theorem witness_RhdrRejectsBadEntry_length :
    ∃ s : State, s.phase ∈ [Phase.idle, .doneC, .doneD] ∧ NoFail s ∧ 0 < 2 ^ 32 ∧ Acceptable [] ∧
      ([] ++ ⟨0x61, 65, 0⟩ :: [] : List Entry).length ≤ 256 ∧ Presents (headerOf ([] ++ ⟨0x61, 65, 0⟩ :: []) 0 ++ []) s ∧
      64 < (Entry.mk 0x61 65 0).length.toNat :=
  ⟨presenting _ State.reset, by decide, by decide, by decide, by decide, by decide, presents_presenting (by decide) _,
    by decide⟩

/-- V-RHDR-8: entry 1's path runs through leaf a. -/
theorem witness_RhdrRejectsBadEntry_through :
    ∃ s : State, s.phase ∈ [Phase.idle, .doneC, .doneD] ∧ NoFail s ∧ 0 < 2 ^ 32 ∧ Acceptable [⟨0x61, 1, 0⟩] ∧
      ([⟨0x61, 1, 0⟩] ++ ⟨0x62, 2, 0⟩ :: [] : List Entry).length ≤ 256 ∧
      Presents (headerOf ([⟨0x61, 1, 0⟩] ++ ⟨0x62, 2, 0⟩ :: []) 0 ++ []) s ∧ (Entry.mk 0x62 2 0).length.toNat ≤ 64 ∧
      ∃ d, d ∈ [Entry.mk 0x61 1 0] ∧ d.bits <+: (Entry.mk 0x62 2 0).bits ∧ d.bits ≠ (Entry.mk 0x62 2 0).bits :=
  ⟨presenting _ State.reset, by decide, by decide, by decide, by decide, by decide, presents_presenting (by decide) _,
    by decide, ⟨0x61, 1, 0⟩, by decide, by decide, by decide⟩

/-- V-RHDR-10: entry 1 ends on an internal node. -/
theorem witness_RhdrRejectsBadEntry_occupied :
    ∃ s : State, s.phase ∈ [Phase.idle, .doneC, .doneD] ∧ NoFail s ∧ 0 < 2 ^ 32 ∧ Acceptable [⟨0x61, 2, 0⟩] ∧
      ([⟨0x61, 2, 0⟩] ++ ⟨0x62, 1, 0⟩ :: [] : List Entry).length ≤ 256 ∧
      Presents (headerOf ([⟨0x61, 2, 0⟩] ++ ⟨0x62, 1, 0⟩ :: []) 0 ++ []) s ∧ (Entry.mk 0x62 1 0).length.toNat ≤ 64 ∧
      ∃ d, d ∈ [Entry.mk 0x61 2 0] ∧ (Entry.mk 0x62 1 0).bits <+: d.bits :=
  ⟨presenting _ State.reset, by decide, by decide, by decide, by decide, by decide, presents_presenting (by decide) _,
    by decide, ⟨0x61, 2, 0⟩, by decide, by decide⟩

theorem witness_EncWritesPayload :
    ∃ s : State, s.phase = .hdrw ∧ NoFail s ∧ s.origLen.toNat = abc.length ∧ abc.length ≤ s.len.toNat ∧
      Store.Holds s.input abc ∧ Table tableS2 s ∧ (∀ b, b ∈ abc → b ∈ tableS2.map fun r => r.symbol) ∧ AccForm s :=
  ⟨withTable tableS2 (running abc (inPhase .hdrw)), rfl, by decide, by decide, by decide, Store.holds_ofList _,
    table_withTable (by decide) _, by decide, by decide⟩

theorem witness_EncRejectsUnknownByte :
    ∃ s : State, s.phase = .hdrw ∧ NoFail s ∧ ([0x61] : List Byte).length < s.origLen.toNat ∧
      s.origLen.toNat ≤ s.len.toNat ∧ Store.Holds s.input ([0x61] ++ [0x7A]) ∧ Table tableS2 s ∧
      (∀ c, c ∈ ([0x61] : List Byte) → c ∈ tableS2.map fun r => r.symbol) ∧
      ((0x7A : Byte) ∉ tableS2.map fun r => r.symbol) ∧ AccForm s :=
  ⟨withTable tableS2 (running [0x61, 0x7A] (inPhase .hdrw)), rfl, by decide, by decide, by decide, Store.holds_ofList _,
    table_withTable (by decide) _, by decide, by decide, by decide⟩

theorem witness_FlushWritesPartialByte_empty :
    ∃ s : State, s.phase = .encoded ∧ s.accn = 0 := ⟨inPhase .encoded, by decide⟩

theorem witness_FlushWritesPartialByte :
    ∃ s : State, s.phase = .encoded ∧ s.accn ≠ 0 ∧ NoFail s ∧ AccForm s :=
  ⟨{ inPhase .encoded with acc := 0x67, accn := 7 }, by decide⟩

theorem witness_FlushWritesPartialByte_write_fails :
    ∃ s : State, s.phase = .encoded ∧ s.accn ≠ 0 ∧ s.oracle = .fail :: [] :=
  ⟨{ inPhase .encoded with acc := 0x67, accn := 7, oracle := [.fail] }, by decide⟩

/-- The symbols of S2's payload with their paths. -/
def pathsABC : List (List Bool × Byte) := [([true, false], 0x61), ([false], 0x62), ([true, true], 0x63)]

theorem leafAt_S2 (file : List Byte) : ∀ x, x ∈ pathsABC → LeafAt (afterRhdrS2 file) x := by
  intro x hx
  rcases List.mem_cons.1 hx with rfl | hx
  · exact ⟨leafNode 0x61 0, rfl, rfl, rfl⟩
  rcases List.mem_cons.1 hx with rfl | hx
  · exact ⟨leafNode 0x62 0, rfl, rfl, rfl⟩
  rcases List.mem_cons.1 hx with rfl | hx
  · exact ⟨leafNode 0x63 0, rfl, rfl, rfl⟩
  · cases hx

theorem witness_DecWritesSymbols :
    ∃ (s : State) (xs : List (List Bool × Byte)) (rest : List Bool), s.phase = .hdrr ∧ NoFail s ∧
      s.len.toNat = fileS2.length ∧ Store.Holds s.input fileS2 ∧ s.origLen.toNat = xs.length ∧ (∀ x, x ∈ xs → LeafAt s x) ∧
      readerBits fileS2 s = xs.flatMap Prod.fst ++ rest :=
  ⟨afterRhdrS2 fileS2, pathsABC ++ (pathsABC ++ pathsABC), [false], rfl, by decide, by decide, Store.holds_ofList _,
    by decide, fun x hx => by
      rcases List.mem_append.1 hx with hx | hx
      · exact leafAt_S2 _ x hx
      · exact leafAt_S2 _ x ((List.mem_append.1 hx).elim id id), by decide⟩

/-- V-DEC-5: the root has a left child only, and the payload's first bit is 1. -/
def lopsided : State :=
  { withNodes [innerNode 0 (some 1) none, leafNode 0x61 0] 0 (running (headerOf [⟨0x61, 1, 0⟩] 1 ++ [1]) (inPhase .hdrr)) with
    nsym := 1, origLen := 1, rpos := 16 }

theorem witness_DecRejectsBadPayload_missing_child :
    ∃ (s : State) (file : List Byte) (r : NodeRec) (bit : Bool) (rest : List Bool), s.phase = .hdrr ∧ NoFail s ∧
      s.len.toNat = file.length ∧ Store.Holds s.input file ∧ s.rpos.toNat ≤ file.length ∧
      ([] : List (List Bool × Byte)).length < s.origLen.toNat ∧
      (∀ x, x ∈ ([] : List (List Bool × Byte)) → LeafAt s x) ∧ follow s [] = some r ∧ r.leaf = false ∧
      (if bit then r.right else r.left) = none ∧
      readerBits file s = ([] : List (List Bool × Byte)).flatMap Prod.fst ++ [] ++ bit :: rest :=
  ⟨lopsided, headerOf [⟨0x61, 1, 0⟩] 1 ++ [1], innerNode 0 (some 1) none, true, List.replicate 7 false, rfl, by decide,
    by decide, Store.holds_ofList _, by decide, by decide, (fun _ h => nomatch h), rfl, rfl, rfl, by decide⟩

/-- V-DEC-4: five symbols use up the last payload byte. -/
theorem witness_DecRejectsBadPayload_short :
    ∃ (s : State) (file : List Byte) (xs : List (List Bool × Byte)) (r : NodeRec), s.phase = .hdrr ∧ NoFail s ∧
      s.len.toNat = file.length ∧ Store.Holds s.input file ∧ s.rpos.toNat ≤ file.length ∧ xs.length < s.origLen.toNat ∧
      (∀ x, x ∈ xs → LeafAt s x) ∧ follow s [] = some r ∧ r.leaf = false ∧
      readerBits file s = xs.flatMap Prod.fst ++ [] :=
  ⟨{ afterRhdrS2 (fileS2.take 37) with origLen := 9 }, fileS2.take 37, pathsABC ++ pathsABC.take 2,
    innerNode 0 (some 3) (some 1), rfl, by decide, by decide, Store.holds_ofList _, by decide, by decide, fun x hx => by
      rcases List.mem_append.1 hx with hx | hx
      · exact leafAt_S2 _ x hx
      · exact leafAt_S2 _ x (List.mem_of_mem_take hx), rfl, rfl, by decide⟩

theorem witness_WholeFlowsEqualTheirScripts : (inPhase .doneC).phase ∈ [Phase.idle, .doneC, .doneD] := by decide

/-- The boundary: all 256 byte values. -/
theorem witness_CompressWritesWholeFile :
    ∃ (s : State) (bytes : List Byte), s.phase ∈ [Phase.idle, .doneC, .doneD] ∧ NoFail s ∧ Presents bytes s ∧
      bytes.length = 256 ∧ ∀ k, k < 256 → BitVec.ofNat 8 k ∈ bytes :=
  ⟨presenting ((List.range 256).map (BitVec.ofNat 8)) State.reset, _, List.mem_cons_self, List.not_mem_nil,
    presents_presenting (by simp) _, by simp, fun k hk => List.mem_map.2 ⟨k, List.mem_range.2 hk, rfl⟩⟩

/-- The other boundary: no byte at all. -/
theorem witness_CompressWritesWholeFile_empty :
    ∃ s : State, s.phase ∈ [Phase.idle, .doneC, .doneD] ∧ NoFail s ∧ Presents [] s :=
  ⟨State.reset, by decide, by decide, rfl, fun k hk => absurd hk (Nat.not_lt_zero k)⟩

theorem witness_DecompressReadsWholeFile :
    ∃ (s : State) (ds : List Entry) (rest : List Bool), s.phase ∈ [Phase.idle, .doneC, .doneD] ∧ NoFail s ∧
      Acceptable entriesS2 ∧ (∀ d, d ∈ ds → d ∈ entriesS2) ∧ ds.length < 2 ^ 32 ∧
      Presents (headerOf entriesS2 ds.length ++ [0x39, 0x67]) s ∧
      ([0x39, 0x67] : List Byte).flatMap byteBits = ds.flatMap Entry.bits ++ rest :=
  ⟨presenting _ State.reset, entriesS2 ++ entriesS2 ++ entriesS2, [false], by decide, by decide, acceptable_entriesS2,
    by decide, by decide, presents_presenting (by decide) _, by decide⟩

/-- The file of "aaaa" (S1), compressed and presented again. -/
theorem witness_DecompressInvertsCompress :
    ∃ (bytes : List Byte) (s t u : State), s.phase ∈ [Phase.idle, .doneC, .doneD] ∧ NoFail s ∧ Presents bytes s ∧
      exec .compress s = .next t ∧ t.phase = .doneC ∧ u.phase ∈ [Phase.idle, .doneC, .doneD] ∧ NoFail u ∧
      Presents t.out u := by
  obtain ⟨t, ht, hp⟩ := of_nextIs test_compress
  simp only [Bool.and_eq_true, beq_iff_eq] at hp
  exact ⟨_, _, t, presenting t.out State.reset, by decide, by decide, presents_presenting (by decide) _, ht, hp.1.1,
    List.mem_cons_self, List.not_mem_nil, presents_presenting (by rw [hp.1.2]; decide) _⟩

theorem witness_CompressNeverExceedsCapacity :
    ∃ s t : State, s.phase ∈ [Phase.idle, .doneC, .doneD] ∧ s.err = .none ∧ exec .compress s = .next t := by
  obtain ⟨t, ht, -⟩ := of_nextIs test_compress
  exact ⟨_, t, by decide, rfl, ht⟩

/-! ### Witnesses of the invariants and frames -/

theorem witness_StepKeepsMemoryForm :
    ∃ s t : State, MemoryForm s ∧ step s = .next t :=
  ⟨{ afterRhdrS2 [0x61] with script := [.setByte 0xFFFFFFFF 7] }, _, by decide, rfl⟩

theorem witness_StepKeepsErrorForm :
    ∃ s t : State, ErrorForm s ∧ step s = .next t :=
  ⟨writing 0x10 (raise .badSequence 1 0x11 State.reset), _, by decide, rfl⟩

theorem witness_StepKeepsAccumulatorForm :
    ∃ s t : State, AccForm s ∧ step s = .next t :=
  ⟨writing 0x61 { inPhase .encoded with acc := 0x67, accn := 7 }, _, by decide, rfl⟩

theorem witness_StepKeepsReaderForm :
    ∃ s t : State, ReaderForm s ∧ step s = .next t :=
  ⟨writing 0x62 (afterRhdrS2 fileS2), _, by decide, rfl⟩

theorem witness_StepKeepsOutputCount :
    ∃ s t : State, OutForm s ∧ step s = .next t :=
  ⟨writing 0x61 { inPhase .encoded with acc := 0x67, accn := 7, origLen := 4, out := [1], opos := 1 }, _, by decide, rfl⟩

theorem witness_StepKeepsPhaseTable :
    ∃ s t : State, PhaseTable s ∧ step s = .next t :=
  ⟨writing 0x51 State.reset, _, ⟨rfl, rfl⟩, rfl⟩

/-- `SCAN` of one byte that the host never supplied. -/
theorem witness_OnlyMissingInputFaults :
    ∃ (s : State) (f : Fault), PhaseTable s ∧ step s = .fault f :=
  ⟨writing 0x11 { withTable fresh (inPhase .cleared) with nsym := 256, hsize := 256, len := 1 }, .inputNotSupplied 0,
    ⟨rfl, rfl, rfl, rfl, fun i hi => ⟨0, by
      show Store.read (Store.ofList fresh) i = _
      simp [fresh, Config.alphabet, freshRecord, hi]⟩⟩, rfl⟩

theorem witness_CommandsLeaveHostSide : ∃ s t : State, exec .flush s = .next t := ⟨inPhase .encoded, _, rfl⟩

theorem witness_TableCommandFrames_scan : ∃ s t : State, s.phase = .cleared ∧ exec .scan s = .next t := by
  obtain ⟨t, ht, -⟩ := of_nextIs test_scan
  exact ⟨_, t, rfl, ht⟩

/-- `PACK`'s loop over records that are held goes on. -/
theorem packFrom_runs {n i j : Nat} {s : State} (h : ∀ k, k < i + n → ∃ r, Store.read s.sym k = some r) (hj : j ≤ i) :
    ∃ m t, packFrom n i j s = .ok m t := by
  induction n generalizing i j s with
  | zero => exact ⟨j, s, rfl⟩
  | succ n ih =>
    obtain ⟨r, hr⟩ := h i (by omega)
    simp only [packFrom, readSym_of_held hr, Res.bind_ok]
    split
    · refine ih (s := writeSym j r s) (fun k hk => ?_) (by omega)
      by_cases hkj : k = j
      · exact ⟨r, by simp [writeSym, hkj]⟩
      · simpa [writeSym, Store.read_write_other _ _ hkj] using h k (by omega)
    · exact ih (fun k hk => h k (by omega)) (by omega)

/-- `PACK` in `COUNTED` over 256 records that are held leaves a next state. -/
theorem pack_runs {s : State} (hp : s.phase = .counted) (h : ∀ k, k < 256 → ∃ r, Store.read s.sym k = some r) :
    ∃ t, exec .pack s = .next t := by
  obtain ⟨m, t, hr⟩ := packFrom_runs (n := Config.alphabet) (i := 0) (j := 0) (s := s)
    (by simpa [Config.alphabet] using h) (Nat.le_refl 0)
  have e : exec .pack s = (packBody s).toOutcome := command_legal (by rw [hp]; decide) (by rw [hp]; rfl)
  rw [packBody, hr] at e
  exact ⟨_, e⟩

theorem witness_TableCommandFrames_pack : ∃ s t : State, s.phase = .counted ∧ exec .pack s = .next t := by
  obtain ⟨t, ht⟩ := pack_runs (s := withTable fresh (inPhase .counted)) rfl fun k hk => ⟨freshRecord k, by
    show Store.read (Store.ofList fresh) k = _
    simp [fresh, Config.alphabet, hk]⟩
  exact ⟨_, t, rfl, ht⟩

theorem witness_TableCommandFrames_hsortF : ∃ s t : State, s.phase = .packed ∧ exec .hsortF s = .next t := by
  obtain ⟨t, ht, -⟩ := of_nextIs test_hsortF
  exact ⟨_, t, rfl, ht⟩

theorem witness_TableCommandFrames_hsortS : ∃ s t : State, s.phase = .coded ∧ exec .hsortS s = .next t := by
  obtain ⟨t, ht, -⟩ := of_nextIs test_hsortS
  exact ⟨_, t, rfl, ht⟩

theorem witness_TableCommandFrames_codes : ∃ s t : State, s.phase = .treed ∧ exec .codes s = .next t := by
  obtain ⟨t, ht, -⟩ := of_nextIs test_codes
  exact ⟨_, t, rfl, ht⟩

theorem witness_TreeAndStreamCommandFrames_tree : ∃ s t : State, s.phase = .fsorted ∧ exec .tree s = .next t := by
  obtain ⟨t, ht, -⟩ := of_nextIs test_tree
  exact ⟨_, t, rfl, ht⟩

theorem witness_TreeAndStreamCommandFrames_whdr : ∃ s t : State, s.phase = .ssorted ∧ exec .whdr s = .next t := by
  obtain ⟨t, ht, -⟩ := of_nextIs test_whdr
  exact ⟨_, t, rfl, ht⟩

theorem witness_TreeAndStreamCommandFrames_enc : ∃ s t : State, s.phase = .hdrw ∧ exec .enc s = .next t := by
  obtain ⟨t, ht, -⟩ := of_nextIs test_enc
  exact ⟨_, t, rfl, ht⟩

theorem witness_TreeAndStreamCommandFrames_flush : ∃ s t : State, s.phase = .encoded ∧ exec .flush s = .next t := by
  obtain ⟨t, ht, -⟩ := of_nextIs test_flush
  exact ⟨_, t, rfl, ht⟩

theorem witness_TreeAndStreamCommandFrames_dec : ∃ s t : State, s.phase = .hdrr ∧ exec .dec s = .next t := by
  obtain ⟨t, ht, -⟩ := of_nextIs test_dec
  exact ⟨_, t, rfl, ht⟩

theorem witness_TreeAndStreamCommandFrames_rhdr : ∃ s t : State, s.phase = .idle ∧ exec .rhdr s = .next t := by
  obtain ⟨t, ht, -⟩ := of_nextIs test_rhdr
  exact ⟨_, t, rfl, ht⟩

theorem witness_TreeAndStreamCommandFrames_decompress : ∃ s t : State, s.phase = .idle ∧ exec .decompress s = .next t := by
  obtain ⟨t, ht, -⟩ := of_nextIs test_decompress
  exact ⟨_, t, rfl, ht⟩

end Sys2Proof.Tests
end

section
/-!
SUPPORT. Invariants of the block: what a predicate on states must survive for every step to keep it, and how the two whole
flows follow from the commands they are made of (`46_top_level.md` R261, R262, R265, R266).
-/
namespace Sys2Proof.Machine

variable {J Q : State → Prop} {F : Fault → Prop}

/-- The column "phase after" of R262. -/
def phaseAfter : Instr → Phase
  | .rst => .idle
  | .clr => .cleared
  | .scan => .counted
  | .pack => .packed
  | .hsortF => .fsorted
  | .tree => .treed
  | .codes => .coded
  | .hsortS => .ssorted
  | .whdr => .hdrw
  | .enc => .encoded
  | .flush => .doneC
  | .rhdr => .hdrr
  | .dec => .doneD
  | .compress => .doneC
  | .decompress => .doneD

theorem phaseAfter_ne_error (i : Instr) : phaseAfter i ≠ .error := by cases i <;> decide

/-- A command other than `RST` that is no sequence of others (R265, R266). -/
def isSingle : Instr → Bool
  | .rst | .compress | .decompress => false
  | .clr | .scan | .pack | .hsortF | .hsortS | .tree | .codes | .whdr | .rhdr | .enc | .flush | .dec => true

/-- `ERROR` is no phase a command but `RST` is legal in. -/
theorem phase_ne_error_of_legalIn {i : Instr} {s : State} (hi : i ≠ .rst) (hl : legalIn i s.phase = true) :
    s.phase ≠ .error := by
  intro he
  rw [he] at hl
  cases i
  case rst => exact hi rfl
  all_goals exact absurd hl (by decide)

/-- The phase in which a command in the middle of a run is legal. -/
theorem phase_eq_of_legalIn {i : Instr} {p : Phase} {s : State} (hl : legalIn i s.phase = (s.phase == p))
    (h : legalIn i s.phase = true) :
    s.phase = p := by
  rwa [hl, beq_iff_eq] at h

/-- Only what holds where it goes on is weakened. -/
theorem Res.Ends.imp {α : Type} {P P' : α → State → Prop} {m : Res α} (h : m.Ends P Q F)
    (hP : ∀ a t, P a t → P' a t) : m.Ends P' Q F :=
  h.mono hP (fun _ => id) fun _ => id

/-! ### Commands -/

/-- Every single command, started from a state of `J` in a phase of its row of R262, leaves the phase of its row and a
state of `J`, or raises into a state of `Q`, or stops with a fault of `F`. -/
def RowsEnd (J Q : State → Prop) (F : Fault → Prop) : Prop :=
  ∀ (i : Instr) (s : State), isSingle i = true → J s → legalIn i s.phase = true →
    (bodyOf i s).Ends (fun _ t => J t ∧ t.phase = phaseAfter i) Q F

theorem andThen_ends {P R : State → Prop} {first second : State → Res Unit} {s : State}
    (h1 : (first s).Ends (fun _ => P) Q F) (h2 : ∀ t, P t → (second t).Ends (fun _ => R) Q F) :
    (andThen first second s).Ends (fun _ => R) Q F :=
  Res.Ends.bind h1 fun _ t => h2 t

/-- In the phase one command leaves, the next one runs. -/
theorem RowsEnd.next (h : RowsEnd J Q F) (i j : Instr) (hj : isSingle j = true)
    (hl : legalIn j (phaseAfter i) = true) (t : State) (ht : J t ∧ t.phase = phaseAfter i) :
    (bodyOf j t).Ends (fun _ u => J u ∧ u.phase = phaseAfter j) Q F :=
  h j t hj ht.1 (by rw [ht.2]; exact hl)

theorem RowsEnd.compress (h : RowsEnd J Q F) {s : State} (hJ : J s) (hl : legalIn .compress s.phase = true) :
    (compressBody s).Ends (fun _ t => J t ∧ t.phase = .doneC) Q F := by
  refine andThen_ends (h .clr s rfl hJ hl) fun t ht => ?_
  refine andThen_ends (h.next .clr .scan rfl rfl t ht) fun t ht => ?_
  refine andThen_ends (h.next .scan .pack rfl rfl t ht) fun t ht => ?_
  refine andThen_ends (h.next .pack .hsortF rfl rfl t ht) fun t ht => ?_
  refine andThen_ends (h.next .hsortF .tree rfl rfl t ht) fun t ht => ?_
  refine andThen_ends (h.next .tree .codes rfl rfl t ht) fun t ht => ?_
  refine andThen_ends (h.next .codes .hsortS rfl rfl t ht) fun t ht => ?_
  refine andThen_ends (h.next .hsortS .whdr rfl rfl t ht) fun t ht => ?_
  exact andThen_ends (h.next .whdr .enc rfl rfl t ht) fun t ht => h.next .enc .flush rfl rfl t ht

theorem RowsEnd.decompress (h : RowsEnd J Q F) {s : State} (hJ : J s) (hl : legalIn .decompress s.phase = true) :
    (decompressBody s).Ends (fun _ t => J t ∧ t.phase = .doneD) Q F :=
  andThen_ends (h .rhdr s rfl hJ hl) fun t ht => h.next .rhdr .dec rfl rfl t ht

/-- What the single commands do, every command but `RST` does. -/
theorem RowsEnd.body (h : RowsEnd J Q F) {i : Instr} (hi : i ≠ .rst) {s : State} (hJ : J s)
    (hl : legalIn i s.phase = true) : (bodyOf i s).Ends (fun _ t => J t ∧ t.phase = phaseAfter i) Q F := by
  cases i
  case rst => exact absurd rfl hi
  case compress => exact h.compress hJ hl
  case decompress => exact h.decompress hJ hl
  all_goals exact h _ s rfl hJ hl

/-! ### Steps -/

/-- What an invariant of the block must survive beside the commands' own pseudocode: the host's actions (R36), the two
resets (R263, R320), and the errors of the dispatch (R261). -/
structure KeptOutside (J : State → Prop) : Prop where
  host : ∀ (s : State) (n : BitVec 32) (m : Memory) (script : List HostAction) (d : Word), J s →
    J { s with inLen := n, input := m, script := script, readData := d }
  rst : ∀ s : State, J (resetByCommand s)
  hardReset : ∀ s : State, J (hardwareReset s)
  raised : ∀ (kind : ErrKind) (sub : BitVec 8) (info : Nat) (s : State), kind ≠ .none → J s → J (raise kind sub info s)

theorem KeptOutside.exec (hk : KeptOutside J) (hr : RowsEnd J J F) {i : Instr} {s t : State} (hJ : J s)
    (h : exec i s = .next t) : J t := by
  by_cases hi : i = .rst
  · subst hi; cases h; exact hk.rst s
  · rw [exec_eq_command hi] at h
    refine command_ends h (fun _ => hJ) (fun _ _ => hk.raised _ _ _ _ (by decide) hJ) fun _ hl => ?_
    exact (hr.body hi hJ hl).mono (fun _ _ ht => ht.1) (fun _ => id) fun _ _ => trivial

theorem KeptOutside.illegalWord (hk : KeptOutside J) (w : Word) {s : State} (hJ : J s) : J (illegalWord w s) := by
  unfold Machine.illegalWord
  split
  · exact hJ
  · exact hk.raised _ _ _ _ (by decide) hJ

/-- An invariant that survives the commands and what is outside them is kept by every step. -/
theorem KeptOutside.step (hk : KeptOutside J) (hr : RowsEnd J J F) {s t : State} (hJ : J s) (h : step s = .next t) :
    J t := by
  rcases step_cases s with ⟨-, he⟩ | ⟨a, rest, -, he⟩
  · rw [he] at h; cases h; exact hJ
  · have hJ' : J { s with script := rest } := hk.host s s.inLen s.input rest s.readData hJ
    rw [he] at h
    rcases hostAct_next h with ⟨w, i, -, -, hx⟩ | ⟨w, -, -, rfl⟩ | ⟨off, v, -, -, rfl⟩ | ⟨off, -, rfl⟩ |
      ⟨bytes, -, -, rfl⟩ | ⟨addr, v, -, rfl⟩ | ⟨-, rfl⟩
    · exact hk.exec hr hJ' hx
    · exact hk.illegalWord w hJ'
    · unfold storeReg
      split
      · exact hk.host s v s.input rest s.readData hJ
      · exact hJ'
    · exact hk.host s s.inLen s.input rest _ hJ
    · exact hk.host s s.inLen _ rest s.readData hJ
    · exact hk.host s s.inLen _ rest s.readData hJ
    · exact hk.hardReset _

/-- A command stops only where its pseudocode does. -/
theorem RowsEnd.exec_fault (hr : RowsEnd J Q F) {i : Instr} {s : State} {f : Fault} (hJ : J s)
    (h : exec i s = .fault f) : F f := by
  by_cases hi : i = .rst
  · subst hi; cases h
  · rw [exec_eq_command hi] at h
    rcases command_cases i (bodyOf i) s with ⟨-, hc⟩ | ⟨-, -, hc⟩ | ⟨-, hl, hc⟩ <;> rw [hc] at h
    · cases h
    · cases h
    · exact (hr.body hi hJ hl).of_stop (Res.toOutcome_eq_fault.1 h)

/-- The one action of the host that can stop the model is a command. -/
theorem hostAct_fault {a : HostAction} {s : State} {f : Fault} (h : hostAct a s = .fault f) :
    ∃ i, exec i s = .fault f := by
  cases a with
  | regWrite off v =>
    simp only [hostAct, writeReg] at h
    split at h
    · split at h
      · simp only [issueWord] at h
        split at h
        · exact ⟨_, h⟩
        · cases h
      · cases h
    · cases h
  | regRead off => simp only [hostAct, readReg] at h; split at h <;> cases h
  | supply bytes => simp only [hostAct, supplyInput] at h; split at h <;> cases h
  | setByte addr v => cases h
  | hardReset => cases h

/-- A step stops only where a command's pseudocode does. -/
theorem RowsEnd.step_fault (hr : RowsEnd J Q F) {s : State} {f : Fault} (hJ : ∀ rest, J { s with script := rest })
    (h : step s = .fault f) : F f := by
  rcases step_cases s with ⟨-, he⟩ | ⟨a, rest, -, he⟩
  · rw [he] at h; cases h
  · rw [he] at h
    obtain ⟨i, hx⟩ := hostAct_fault h
    exact hr.exec_fault (hJ rest) hx

end Sys2Proof.Machine
end

section
/-!
SUPPORT. One rule per command's pseudocode: from a predicate that survives the updates the command makes, what holds at each
of its ends. `P` holds on the way, `Q` where it raised, `F` of the fault it stopped with; a rule for writers counts: `P k`
says that `k` more units may be written.
-/
namespace Sys2Proof.Machine

variable {α : Type} {Q : State → Prop} {F : Fault → Prop}

/-! ### Reading IN -/

/-- What a piece of pseudocode that reads IN below `limit` asks of `P`, `Q` and `F`. -/
structure Reader (limit : Nat) (P Q : State → Prop) (F : Fault → Prop) : Prop where
  pop : ∀ s, P s → P (popAnswer s)
  raised : ∀ kind sub info s, kind ≠ .none → P s → Q (raise kind sub info s)
  missing : ∀ s a, P s → Store.read s.input a = none → F (.inputNotSupplied a)
  range : ∀ s a, P s → a < limit → s.len.toNat ≤ a → F (.inputOutOfRange a)

section
variable {limit : Nat} {P : State → Prop}

theorem Reader.inByte (hr : Reader limit P Q F) {a : Nat} (ha : a < limit) {s : State} (h : P s) :
    (inByte a s).Ends (fun _ => P) Q F := by
  rcases inByte_cases a s with ⟨hl, e⟩ | ⟨-, -, e⟩ | ⟨-, -, b, -, e⟩ | ⟨-, -, hb, e⟩ <;> rw [e]
  · exact hr.range s a h ha hl
  · exact hr.raised _ _ _ _ (by decide) (hr.pop s h)
  · exact hr.pop s h
  · exact hr.missing s a h hb

theorem Reader.inLEFrom (hr : Reader limit P Q F) (a : Nat) {n k : Nat} (ha : a + k + n ≤ limit) (v : Nat) {s : State}
    (h : P s) : (inLEFrom a n k v s).Ends (fun _ => P) Q F := by
  induction n generalizing k v s with
  | zero => exact h
  | succ n ih => exact (hr.inByte (by omega) h).bind fun b t ht => ih (by omega) _ ht

theorem Reader.inLE (hr : Reader limit P Q F) {a n : Nat} (ha : a + n ≤ limit) {s : State} (h : P s) :
    (inLE a n s).Ends (fun _ => P) Q F :=
  hr.inLEFrom a (by omega) 0 h

/-- `SCAN` (R122). -/
theorem Reader.scanBody {s : State} (hr : Reader s.len.toNat P Q F)
    (count : ∀ t i r f, P t → Store.read t.sym i = some r → P (writeSym i { r with frequency := f } t))
    (held : ∀ t i, P t → i < 256 → Store.read t.sym i = none → F (.unspecifiedSym i)) (h : P s) :
    (scanBody s).Ends (fun _ t => ∃ u, P u ∧ t = setPhase .counted { u with origLen := u.len }) Q F := by
  have round : ∀ a t, 0 ≤ a → a < 0 + s.len.toNat → P t → (scanByte a t).Ends (fun _ => P) Q F := fun a t _ ha ht => by
    refine (hr.inByte (by omega) ht).bind fun b u hu => ?_
    unfold countByte
    rcases readSym_cases b.toNat u with ⟨r, hb, e⟩ | ⟨hb, e⟩ <;> rw [e]
    · exact count u _ r _ hu hb
    · exact held u _ hu b.isLt hb
  exact (forUp_ends (I := fun _ => P) h round).bind fun _ u hu => ⟨u, hu, rfl⟩

end

/-! ### Writing OUT -/

/-- What a piece of pseudocode that writes OUT asks of `P` and `Q`: each byte lowers the count. -/
structure Writer (P : Nat → State → Prop) (Q : State → Prop) : Prop where
  pop : ∀ k s, P k s → P k (popAnswer s)
  emit : ∀ k v s, P (k + 1) s → P k (emit v s)
  raised : ∀ kind sub info k s, kind ≠ .none → P k s → Q (raise kind sub info s)

section
variable {P : Nat → State → Prop}

theorem Writer.outByte (hw : Writer P Q) {k : Nat} (v : Byte) {s : State} (h : P (k + 1) s) :
    (outByte v s).Ends (fun _ => P k) Q F := by
  rcases outByte_cases v s with ⟨-, e⟩ | ⟨-, e⟩ <;> rw [e]
  · exact hw.raised _ _ _ _ _ (by decide) (hw.pop _ s h)
  · exact hw.emit _ _ _ (hw.pop _ s h)

theorem Writer.outLE (hw : Writer P Q) {k : Nat} (v n : Nat) {s : State} (h : P (k + n) s) :
    (outLE v n s).Ends (fun _ => P k) Q F := by
  have := forUp_ends (Q := Q) (F := F) (I := fun i => P (k + n - i)) (n := n) (i := 0) h fun i t _ hi ht =>
    hw.outByte (byteOf v i) (by rwa [show k + n - (i + 1) + 1 = k + n - i by omega])
  simpa [Machine.outLE] using this

/-- `WHDR` (R201): six bytes and ten for each record. -/
theorem Writer.whdrBody (hw : Writer P Q) {s : State}
    (held : ∀ k t i, P k t → i < s.nsym.toNat → Store.read t.sym i = none → F (.unspecifiedSym i))
    (nsym : ∀ k t, P k t → t.nsym = s.nsym) (h : P (6 + 10 * s.nsym.toNat) s) :
    (whdrBody s).Ends (fun _ t => ∃ u, P 0 u ∧ t = setPhase .hdrw u) Q F := by
  have entry : ∀ k i t, i < s.nsym.toNat → P (k + 10) t → (writeEntry i t).Ends (fun _ => P k) Q F := by
    intro k i t hi ht
    unfold writeEntry
    rcases readSym_cases i t with ⟨r, -, e⟩ | ⟨hb, e⟩ <;> rw [e]
    · exact (hw.outByte (k := k + 9) _ ht).bind fun _ u hu =>
        (hw.outByte (k := k + 8) _ hu).bind fun _ v hv => hw.outLE _ _ hv
    · exact held _ t i ht hi hb
  rw [show 6 + 10 * s.nsym.toNat = 10 * s.nsym.toNat + Config.hdrLenBytes + Config.hdrCountBytes by
    simp only [Config.hdrLenBytes, Config.hdrCountBytes]; omega] at h
  refine (hw.outLE _ _ h).bind fun _ t ht => (hw.outLE _ _ ht).bind fun _ u hu => ?_
  rw [nsym _ u hu]
  have loop := forUp_ends (Q := Q) (F := F) (I := fun i => P (10 * (s.nsym.toNat - i))) (n := s.nsym.toNat) (i := 0)
    (body := writeEntry) hu fun i v _ hi hv =>
      entry _ i v (by omega) (by rwa [show 10 * (s.nsym.toNat - (i + 1)) + 10 = 10 * (s.nsym.toNat - i) by omega])
  exact loop.bind fun _ v hv => ⟨v, by simpa using hv, rfl⟩

end

/-! ### The table, the sort and the tree -/

/-- `PACK` writes table records and nothing else before it ends (R124). -/
theorem packFrom_frame (n i j : Nat) (s : State) :
    (packFrom n i j s).Ends (fun _ t => ∃ m, t = { s with sym := m }) (fun _ => False) fun _ => True := by
  induction n generalizing i j s with
  | zero => exact ⟨s.sym, rfl⟩
  | succ n ih =>
    rw [packFrom]
    rcases readSym_cases i s with ⟨r, -, e⟩ | ⟨-, e⟩ <;> rw [e]
    · rw [Res.bind_ok]
      split
      · exact (ih (i + 1) (j + 1) (writeSym j r s)).imp fun _ _ ⟨m, hm⟩ => ⟨m, hm⟩
      · exact ih (i + 1) j s
    · trivial

/-- The records of the table as a list, or the first that holds no value. -/
theorem readSyms_cases (n i : Nat) (s : State) :
    (∃ rs, rs.length = n ∧ (∀ k, k < n → Store.read s.sym (i + k) = rs[k]?) ∧ readSyms n i s = .ok rs s) ∨
      ∃ k, i ≤ k ∧ k < i + n ∧ Store.read s.sym k = none ∧ readSyms n i s = .stop (.unspecifiedSym k) := by
  induction n generalizing i with
  | zero => exact .inl ⟨[], rfl, fun k hk => absurd hk (Nat.not_lt_zero k), rfl⟩
  | succ n ih =>
    rw [readSyms]
    rcases readSym_cases i s with ⟨r, hr, e⟩ | ⟨hr, e⟩ <;> rw [e]
    · rw [Res.bind_ok]
      rcases ih (i + 1) with ⟨rs, hl, h, e⟩ | ⟨k, h1, h2, h3, e⟩ <;> rw [e]
      · refine .inl ⟨r :: rs, by simp [hl], fun k hk => ?_, rfl⟩
        cases k with
        | zero => simpa using hr
        | succ k => simpa [Nat.add_assoc, Nat.add_comm 1 k] using h k (by omega)
      · exact .inr ⟨k, by omega, by omega, h3, rfl⟩
    · exact .inr ⟨i, Nat.le_refl i, by omega, hr, rfl⟩

/-- Everything `HSORT` can do (R146). -/
theorem hsortBody_cases (cmp : Cmp) (s : State) :
    (∃ rs, Table rs s ∧ hsortBody cmp s = .ok () (setPhase (sortedPhase cmp)
        { s with sym := Store.writeList s.sym 0 (heapSort cmp rs), hsize := s.nsym })) ∨
      ∃ k, k < s.nsym.toNat ∧ Store.read s.sym k = none ∧ hsortBody cmp s = .stop (.unspecifiedSym k) := by
  unfold hsortBody
  rcases readSyms_cases s.nsym.toNat 0 s with ⟨rs, hl, h, e⟩ | ⟨k, -, h2, h3, e⟩ <;> rw [e]
  · exact .inl ⟨rs, ⟨hl.symm, fun k hk => by simpa using h k (by omega)⟩, rfl⟩
  · exact .inr ⟨k, by omega, h3, rfl⟩

/-- `pick` changes nothing (R161). -/
theorem pick_frame (n : Nat) (h : Heads) (s : State) :
    (pick n h s).Ends (fun _ t => t = s) (fun _ => False) fun _ => True := by
  unfold pick takeLeaf takeInner
  split
  · split
    · rcases readNode_cases h.lq s with ⟨l, -, e⟩ | ⟨-, e⟩ <;> rw [e]
      · rw [Res.bind_ok]
        rcases readNode_cases h.iq s with ⟨r, -, e⟩ | ⟨-, e⟩ <;> rw [e]
        · rw [Res.bind_ok]
          split <;> rfl
        · trivial
      · trivial
    · rfl
  · rfl

/-- A merge writes the node memory and nothing else (R162). -/
theorem merge_frame (n : Nat) (h : Heads) (s : State) :
    (merge n h s).Ends (fun _ t => ∃ m k, t = { s with node := m, nnode := k }) (fun _ => False) fun _ => True := by
  refine (pick_frame n h s).bind fun a t ht => ?_
  subst ht
  refine (pick_frame n a.2 t).bind fun b u hu => ?_
  subst hu
  rcases readNode_cases a.1 u with ⟨ra, -, e⟩ | ⟨-, e⟩ <;> rw [e]
  · rw [Res.bind_ok]
    rcases readNode_cases b.1 u with ⟨rb, -, e⟩ | ⟨-, e⟩ <;> rw [e]
    · exact ⟨_, _, rfl⟩
    · trivial
  · trivial

theorem mergeTimes_frame (n k : Nat) (h : Heads) (s : State) :
    (mergeTimes n k h s).Ends (fun _ t => ∃ m k, t = { s with node := m, nnode := k }) (fun _ => False) fun _ => True := by
  induction k generalizing h s with
  | zero => exact ⟨s.node, s.nnode, rfl⟩
  | succ k ih =>
    refine (merge_frame n h s).bind fun h' t ht => ?_
    obtain ⟨m, j, rfl⟩ := ht
    exact (ih h' _).imp fun _ _ ⟨m, j, ht⟩ => ⟨m, j, ht⟩

/-- `TREE` writes `NODE`, `NNODE`, `ROOT` and nothing else before it ends, and raises nothing (R162). -/
theorem treeBody_frame (s : State) :
    (treeBody s).Ends (fun _ t => ∃ m k r, t = setPhase .treed { s with node := m, nnode := k, root := r })
      (fun _ => False) fun _ => True := by
  have copy : (forUp copyLeaf s.nsym.toNat 0 s).Ends (fun _ t => ∃ m, t = { s with node := m }) (fun _ => False)
      fun _ => True := by
    refine forUp_ends (I := fun _ t => ∃ m, t = { s with node := m }) ⟨s.node, rfl⟩ fun i t _ _ ht => ?_
    obtain ⟨m, rfl⟩ := ht
    unfold copyLeaf
    rcases readSym_cases i { s with node := m } with ⟨r, -, e⟩ | ⟨-, e⟩ <;> rw [e]
    · exact ⟨_, rfl⟩
    · trivial
  have grow : ∀ n t, (growTree n t).Ends (fun _ u => ∃ m k r, u = { t with node := m, nnode := k, root := r })
      (fun _ => False) fun _ => True := by
    intro n t
    unfold growTree
    split
    · exact ⟨_, _, _, rfl⟩
    · split
      · exact ⟨_, _, _, rfl⟩
      · refine (mergeTimes_frame n (n - 1) _ t).bind fun _ u hu => ?_
        obtain ⟨m, k, rfl⟩ := hu
        exact ⟨_, _, _, rfl⟩
  refine copy.bind fun _ t ht => ?_
  obtain ⟨m, rfl⟩ := ht
  refine (grow _ _).bind fun _ u hu => ?_
  obtain ⟨m, k, r, rfl⟩ := hu
  exact ⟨_, _, _, rfl⟩

/-! ### The codes -/

/-- What `CODES` asks of `P`, `Q` and `F`; `G` holds of the nodes the walk can meet (R182). -/
structure CodeWalk (P Q : State → Prop) (F : Fault → Prop) (G : Nat → Prop) : Prop where
  assign : ∀ s i r (code : CodeWord) len, P s → i < s.nsym.toNat → Store.read s.sym i = some r → len ≤ 64 →
    code.toNat < 2 ^ len → P (writeSym i { r with code := code, codeLength := BitVec.ofNat 7 len } s)
  raised : ∀ kind sub info s, kind ≠ .none → P s → Q (raise kind sub info s)
  record : ∀ s i, P s → i < s.nsym.toNat → Store.read s.sym i = none → F (.unspecifiedSym i)
  node : ∀ s j, P s → G j → Store.read s.node j = none → F (.unspecifiedNode j)
  leaf : ∀ s j r, P s → G j → Store.read s.node j = some r → r.leaf = true →
    (∀ i, i < s.nsym.toNat → ∃ q, Store.read s.sym i = some q ∧ q.symbol ≠ r.symbol) → F (.noRecordForLeaf r.symbol)
  child : ∀ s j r c, P s → G j → Store.read s.node j = some r → r.leaf = false → c = r.left ∨ c = r.right →
    (∀ k, c = some k → G k) ∧ (c = none → F (.missingChild j))

section
variable {P : State → Prop} {G : Nat → Prop}

theorem CodeWalk.assignCode (hw : CodeWalk P Q F G) {s : State} (h : P s) {j : Nat} (hj : G j) {r : NodeRec}
    (hr : Store.read s.node j = some r) (hl : r.leaf = true) {code : CodeWord} {len : Nat} (hlen : len ≤ 64)
    (hc : code.toNat < 2 ^ len) : (assignCode r.symbol code len s).Ends (fun _ => P) Q F := by
  unfold Machine.assignCode find
  rcases findFrom_cases r.symbol s.nsym.toNat 0 s with ⟨k, q, -, hk, hq, -, e⟩ | ⟨hn, e⟩ | ⟨k, -, hk, hq, e⟩ <;> rw [e]
  · simp only [Res.bind_ok, readSym_of_held hq]
    exact hw.assign s k q code len h (by omega) hq hlen hc
  · exact hw.leaf s j r h hj hr hl fun i hi => hn i (Nat.zero_le i) (by omega)
  · exact hw.record s k h (by omega) hq

theorem childOf_ends {s : State} (h : P s) {j : Nat} {c : Option Nat}
    (hc : (∀ k, c = some k → G k) ∧ (c = none → F (.missingChild j))) :
    (childOf j c s).Ends (fun k t => G k ∧ P t) Q F := by
  cases c with
  | some k => exact ⟨hc.1 k rfl, h⟩
  | none => exact hc.2 rfl

/-- The right branch at depth `len` sets bit `len` of a code below it. -/
theorem toNat_add_twoPow_lt {code : CodeWord} {len : Nat} (hlen : len < 64) (hc : code.toNat < 2 ^ len) :
    (code + BitVec.twoPow 64 len).toNat < 2 ^ (len + 1) := by
  have h64 : 2 ^ len ≤ 2 ^ 63 := Nat.pow_le_pow_right (by decide) (by omega)
  rw [BitVec.toNat_add, BitVec.toNat_twoPow, Nat.mod_eq_of_lt (by omega : 2 ^ len < 2 ^ 64), Nat.pow_succ]
  exact Nat.lt_of_le_of_lt (Nat.mod_le _ _) (by omega)

theorem CodeWalk.visit (hw : CodeWalk P Q F G) {room n : Nat} {code : CodeWord} {s : State} (hroom : room ≤ 64)
    (hc : code.toNat < 2 ^ (64 - room)) (hn : G n) (h : P s) : (visit room n code s).Ends (fun _ => P) Q F := by
  induction room generalizing n code s with
  | zero =>
    rw [Machine.visit]
    rcases readNode_cases n s with ⟨r, hr, e⟩ | ⟨hr, e⟩ <;> rw [e]
    · rw [Res.bind_ok]
      cases hl : r.leaf with
      | true => exact hw.assignCode h hn hr hl (Nat.le_refl 64) hc
      | false => exact hw.raised _ _ _ _ (by decide) h
    · exact hw.node s n h hn hr
  | succ room ih =>
    rw [Machine.visit]
    rcases readNode_cases n s with ⟨r, hr, e⟩ | ⟨hr, e⟩ <;> rw [e]
    · rw [Res.bind_ok]
      cases hl : r.leaf with
      | true => exact hw.assignCode h hn hr hl (by simp only [Config.codeW]; omega) hc
      | false =>
        have child := fun c => hw.child s n r c h hn hr hl
        have grow : 64 - room = 64 - (room + 1) + 1 := by omega
        refine (childOf_ends h (child _ (.inl rfl))).bind fun l t ⟨hl', ht⟩ => ?_
        refine (ih (by omega) (by rw [grow, Nat.pow_succ]; omega) hl' ht).bind fun _ u hu => ?_
        refine (childOf_ends hu (child _ (.inr rfl))).bind fun c v ⟨hc', hv⟩ => ?_
        exact ih (by omega) (by rw [grow]; exact toNat_add_twoPow_lt (by simp only [Config.codeW]; omega) hc) hc' hv
    · exact hw.node s n h hn hr

/-- `CODES` (R182). -/
theorem CodeWalk.codesBody (hw : CodeWalk P Q F G) {s : State} (hroot : ∀ j, s.root = some j → G j) (h : P s) :
    (codesBody s).Ends (fun _ t => ∃ u, P u ∧ t = setPhase .coded u) Q F := by
  unfold Machine.codesBody
  cases hr : s.root with
  | none => exact ⟨s, h, rfl⟩
  | some n => exact (hw.visit (Nat.le_refl 64) (by decide) (hroot n hr) h).bind fun _ u hu => ⟨u, hu, rfl⟩

end

/-! ### The header read -/

/-- What `RHDR` asks of `P` beside reading: the rebuilding of the tree, the counts of the header, the start of the payload
(R206, R207). -/
structure HeaderReader (P Q : State → Prop) : Prop where
  reader : ∀ limit, Reader limit P Q fun _ => True
  grow : ∀ s m k r, P s → P { s with node := m, nnode := k, root := r }
  counts : ∀ s n o e, P s → P { s with nsym := n, origLen := o, empty := e }
  rest : ∀ s (p : BitVec 32), P s → p.toNat ≤ s.len.toNat → P { s with rpos := p }

section
variable {P : State → Prop}

theorem readNode_ends (j : Nat) {s : State} (h : P s) :
    (readNode j s).Ends (fun _ => P) Q fun _ => True := by
  rcases readNode_cases j s with ⟨r, -, e⟩ | ⟨-, e⟩ <;> rw [e]
  · exact h
  · trivial

theorem readSlot_ends (slot : Slot) {s : State} (h : P s) :
    (readSlot slot s).Ends (fun _ => P) Q fun _ => True := by
  cases slot with
  | root => exact h
  | left n => exact (readNode_ends n h).bind fun _ _ ht => ht
  | right n => exact (readNode_ends n h).bind fun _ _ ht => ht

theorem HeaderReader.attach (hr : HeaderReader P Q) (slot : Slot) (r : NodeRec) {s : State} (h : P s) :
    (attach slot r s).Ends (fun _ => P) Q fun _ => True := by
  have hw : (writeSlot slot s.nnode.toNat (allocNode r s)).Ends (fun _ => P) Q fun _ => True := by
    have ha : P (allocNode r s) := hr.grow s _ _ s.root h
    cases slot with
    | root => exact hr.grow s _ _ _ h
    | left n => exact (readNode_ends n ha).bind fun _ t ht => hr.grow t _ t.nnode t.root ht
    | right n => exact (readNode_ends n ha).bind fun _ t ht => hr.grow t _ t.nnode t.root ht
  exact hw.bind fun _ _ ht => ht

theorem HeaderReader.nodeAt (hr : HeaderReader P Q) (slot : Slot) {s : State} (h : P s) :
    (nodeAt slot s).Ends (fun _ => P) Q fun _ => True :=
  (readSlot_ends slot h).bind fun held t ht => by
    cases held with
    | some n => exact ht
    | none => exact hr.attach slot _ ht

theorem HeaderReader.walkSlots (hr : HeaderReader P Q) (c : CodeWord) (entry rounds k : Nat) (slot : Slot) {s : State}
    (h : P s) : (walkSlots c entry rounds k slot s).Ends (fun _ => P) Q fun _ => True := by
  induction rounds generalizing k slot s with
  | zero => exact h
  | succ rounds ih =>
    refine (hr.nodeAt slot h).bind fun n t ht => (readNode_ends n ht).bind fun r u hu => ?_
    split
    · exact (hr.reader 0).raised _ _ _ _ (by decide) hu
    · exact ih _ _ hu

theorem HeaderReader.insertLeaf (hr : HeaderReader P Q) (symbol : Byte) (c : CodeWord) (len entry : Nat) {s : State}
    (h : P s) : (insertLeaf symbol c len entry s).Ends (fun _ => P) Q fun _ => True := by
  refine (hr.walkSlots c entry len 0 .root h).bind fun slot t ht => (readSlot_ends slot ht).bind fun held u hu => ?_
  cases held with
  | some _ => exact (hr.reader 0).raised _ _ _ _ (by decide) hu
  | none => exact (hr.attach slot _ hu).bind fun _ _ hv => hv

theorem HeaderReader.readEntry (hr : HeaderReader P Q) (i : Nat) {s : State} (h : P s) :
    (readEntry i s).Ends (fun _ => P) Q fun _ => True := by
  refine ((hr.reader _).inByte (Nat.lt_succ_self _) h).bind fun _ t ht => ?_
  refine ((hr.reader _).inByte (Nat.lt_succ_self _) ht).bind fun _ u hu => ?_
  refine ((hr.reader _).inLE (Nat.le_refl _) hu).bind fun _ v hv => ?_
  split
  · exact (hr.reader 0).raised _ _ _ _ (by decide) hv
  · exact hr.insertLeaf _ _ _ _ hv

/-- `RHDR` (R206). `len` does not change after `run_init`. -/
theorem HeaderReader.rhdrBody (hr : HeaderReader P Q) {s : State} (len : ∀ t, P t → t.len = s.inLen)
    (h : P { runInit s with nsym := 0, origLen := 0 }) :
    (rhdrBody s).Ends (fun _ t => ∃ u, P u ∧ t = setPhase .hdrr u) Q fun _ => True := by
  unfold Machine.rhdrBody readHeader
  split
  · exact (hr.reader 0).raised _ _ _ _ (by decide) h
  · refine ((hr.reader _).inLE (Nat.le_refl _) h).bind fun cnt t ht => ?_
    refine ((hr.reader _).inLE (Nat.le_refl _) ht).bind fun olen u hu => ?_
    unfold readEntries
    split
    · exact (hr.reader 0).raised _ _ _ _ (by decide) hu
    · split
      · exact (hr.reader 0).raised _ _ _ _ (by decide) hu
      · split
        · exact (hr.reader 0).raised _ _ _ _ (by decide) hu
        · rename_i hlen _
          refine (forUp_ends (I := fun _ => P) (hr.counts u _ _ _ hu) fun i v _ _ hv => hr.readEntry i hv).bind
            fun _ v hv => ⟨_, hr.rest v _ hv ?_, rfl⟩
          rw [len v hv, ← len u hu, BitVec.toNat_ofNat]
          exact Nat.le_trans (Nat.mod_le _ _) (by omega)

end

/-! ### The payload -/

/-- What the bit writer asks of `P` and `Q`: each bit lowers the count (R230). -/
structure BitWriter (P : Nat → State → Prop) (Q : State → Prop) : Prop where
  bit : ∀ k b s, P (k + 1) s → (placeBit b s).accn ≠ 8 → P k (placeBit b s)
  byte : ∀ k b s, P (k + 1) s → (placeBit b s).accn = 8 → P k (clearAcc (emit (placeBit b s).acc (popAnswer s)))
  raised : ∀ info k b s, P (k + 1) s → (placeBit b s).accn = 8 →
    Q (raise .ioFailure 2 info (popAnswer (placeBit b s)))

/-- What `ENC` asks (R232): 127 bits for each byte of the input, the most a 7-bit length can say. -/
structure Encoder (limit : Nat) (P : Nat → State → Prop) (Q : State → Prop) (F : Fault → Prop) : Prop where
  reader : ∀ k, Reader limit (P k) Q F
  bits : BitWriter P Q
  mono : ∀ k s, P (k + 1) s → P k s
  record : ∀ k s i, P k s → i < s.nsym.toNat → Store.read s.sym i = none → F (.unspecifiedSym i)

section
variable {limit : Nat} {P : Nat → State → Prop}

/-- Once the byte is out, what the accumulator held does not matter (R230). -/
theorem clearAcc_placeBit (v : Byte) (b : Bool) (s : State) :
    clearAcc (emit v (popAnswer (placeBit b s))) = clearAcc (emit v (popAnswer s)) := rfl

theorem BitWriter.putBits (hw : BitWriter P Q) (v : CodeWord) (n : Nat) {k : Nat} {s : State} (h : P (k + n) s) :
    (putBits v n s).Ends (fun _ => P k) Q F := by
  have := forUp_ends (Q := Q) (F := F) (I := fun i => P (k + n - i)) (n := n) (i := 0)
    (body := fun i => putBit (v.getLsbD i)) h fun i t _ hi ht => by
      have ht : P (k + n - (i + 1) + 1) t := by rwa [show k + n - (i + 1) + 1 = k + n - i by omega]
      rcases putBit_cases (v.getLsbD i) t with ⟨ha, e⟩ | ⟨ha, -, e⟩ | ⟨ha, -, e⟩ <;> rw [e]
      · exact hw.bit _ _ t ht ha
      · rw [clearAcc_placeBit]; exact hw.byte _ _ t ht ha
      · exact hw.raised _ _ _ t ht ha
  simpa [Machine.putBits] using this

theorem Encoder.mono_le (he : Encoder limit P Q F) {k n : Nat} (hkn : k ≤ n) {s : State} (h : P n s) : P k s := by
  induction n with
  | zero => rwa [Nat.le_zero.1 hkn]
  | succ n ih =>
    by_cases hk : k = n + 1
    · rwa [hk]
    · exact ih (by omega) (he.mono n s h)

theorem Encoder.encodeByte (he : Encoder limit P Q F) (a : Nat) (b : Byte) {k : Nat} {s : State} (h : P (k + 127) s) :
    (encodeByte a b s).Ends (fun _ => P k) Q F := by
  unfold Machine.encodeByte find
  rcases findFrom_cases b s.nsym.toNat 0 s with ⟨i, r, -, -, hr, -, e⟩ | ⟨-, e⟩ | ⟨i, -, hi, hr, e⟩ <;> rw [e]
  · simp only [Res.bind_ok, readSym_of_held hr]
    have hlt := r.codeLength.isLt
    exact he.bits.putBits r.code _ (he.mono_le (by omega) h)
  · exact (he.reader _).raised _ _ _ _ (by decide) h
  · exact he.record _ s i h (by omega) hr

/-- `ENC` (R232). -/
theorem Encoder.encBody {s : State} (he : Encoder s.origLen.toNat P Q F) (h : P (127 * s.origLen.toNat) s) :
    (encBody s).Ends (fun _ t => ∃ u, P 0 u ∧ t = setPhase .encoded u) Q F := by
  have loop := forUp_ends (Q := Q) (F := F) (I := fun i => P (127 * (s.origLen.toNat - i))) (n := s.origLen.toNat) (i := 0)
    (body := encStep) h fun i t _ hi ht => by
      refine ((he.reader _).inByte (by omega) ht).bind fun b u hu => he.encodeByte i b ?_
      rwa [show 127 * (s.origLen.toNat - (i + 1)) + 127 = 127 * (s.origLen.toNat - i) by omega]
  exact loop.bind fun _ u hu => ⟨u, by simpa using hu, rfl⟩

/-- `FLUSH` (R233): one byte where the accumulator is not empty. -/
theorem Writer.flushBody (hw : Writer P Q) {s : State} (h : P 1 s) (hz : s.accn = 0 → P 0 s) :
    (flushBody s).Ends (fun _ t => ∃ u, P 0 u ∧ (t = setPhase .doneC (clearAcc u) ∨ u.accn = 0 ∧ t = setPhase .doneC u))
      Q F := by
  unfold Machine.flushBody
  split
  · exact (hw.outByte s.acc h).bind fun _ u hu => ⟨u, hu, .inl rfl⟩
  · have h0 : s.accn = 0 := BitVec.eq_of_toNat_eq (by show s.accn.toNat = 0; omega)
    exact ⟨s, hz h0, .inr ⟨h0, rfl⟩⟩

end

/-- What `DEC` asks (R234, R236); `G` holds of the nodes the walk can meet. -/
structure Decoder (P : Nat → State → Prop) (Q : State → Prop) (F : Fault → Prop) (G : Nat → Prop) : Prop where
  writer : Writer P Q
  take : ∀ k s, P k s → s.rbn ≠ 0 → P k (takeBit s)
  load : ∀ k b s, P k s → s.rpos.toNat < s.len.toNat → P k (takeBit (loadByte b s))
  missing : ∀ k s a, P k s → Store.read s.input a = none → F (.inputNotSupplied a)
  node : ∀ k s j, P k s → G j → Store.read s.node j = none → F (.unspecifiedNode j)
  child : ∀ k s j r c, P k s → G j → Store.read s.node j = some r → r.leaf = false → r.left = some c ∨ r.right = some c →
    G c
  root : ∀ k s j, P k s → s.root = some j → G j

section
variable {P : Nat → State → Prop} {G : Nat → Prop}

/-- A bit delivered is a bit less to deliver (R234). -/
theorem bitsLeft_takeBit {s : State} (h : s.rbn ≠ 0) : bitsLeft (takeBit s) + 1 = bitsLeft s := by
  have h0 : s.rbn.toNat ≠ 0 := fun e => h (BitVec.eq_of_toNat_eq (by simpa using e))
  have h1 : (s.rbn - 1).toNat = s.rbn.toNat - 1 := BitVec.toNat_sub_of_le (by
    rw [BitVec.le_def]; show 1 ≤ s.rbn.toNat; omega)
  show (s.rbn - 1).toNat + 8 * (s.len.toNat - s.rpos.toNat) + 1 = s.rbn.toNat + 8 * (s.len.toNat - s.rpos.toNat)
  omega

theorem bitsLeft_loadByte (b : Byte) {s : State} (h : s.rbn = 0) (hl : s.rpos.toNat < s.len.toNat) :
    bitsLeft (loadByte b s) = bitsLeft s := by
  have h1 : (s.rpos + 1).toNat = s.rpos.toNat + 1 := by
    rw [BitVec.toNat_add]; exact Nat.mod_eq_of_lt (by have := s.len.isLt; simp; omega)
  show 8 + 8 * (s.len.toNat - (s.rpos + 1).toNat) = s.rbn.toNat + 8 * (s.len.toNat - s.rpos.toNat)
  have h0 : s.rbn.toNat = 0 := by rw [h]; rfl
  omega

theorem Decoder.getBit (hd : Decoder P Q F G) {k : Nat} {s : State} (h : P k s) :
    (getBit s).Ends (fun _ t => P k t ∧ bitsLeft t + 1 = bitsLeft s) Q F := by
  rcases getBit_cases s with ⟨h0, e⟩ | ⟨-, -, e⟩ | ⟨h0, hl, ⟨-, e⟩ | ⟨-, b, -, e⟩ | ⟨hb, e⟩⟩ <;> rw [e]
  · exact ⟨hd.take k s h h0, bitsLeft_takeBit h0⟩
  · exact hd.writer.raised _ _ _ _ _ (by decide) h
  · exact hd.writer.raised _ _ _ _ _ (by decide) (hd.writer.pop k s h)
  · refine ⟨hd.load k b _ (hd.writer.pop k s h) hl, ?_⟩
    rw [bitsLeft_takeBit (show (8 : BitVec 4) ≠ 0 by decide), bitsLeft_loadByte b (s := popAnswer s) h0 hl]
    rfl
  · exact hd.missing k s _ h hb

/-- The walk to a leaf takes at most the bits left, so its bound is never reached (log 14). -/
theorem Decoder.walkDown (hd : Decoder P Q F G) (decoded : Nat) {rounds n k : Nat} {s : State}
    (hb : bitsLeft s + 1 ≤ rounds) (hn : G n) (h : P k s) : (walkDown decoded rounds n s).Ends (fun _ => P k) Q F := by
  induction rounds generalizing n s with
  | zero => omega
  | succ rounds ih =>
    rw [Machine.walkDown]
    rcases readNode_cases n s with ⟨r, hr, e⟩ | ⟨hr, e⟩ <;> rw [e]
    · rw [Res.bind_ok]
      cases hl : r.leaf with
      | true => exact h
      | false =>
        refine (hd.getBit h).bind fun bit t ⟨ht, hbt⟩ => ?_
        cases hc : (if bit = true then r.right else r.left) with
        | none => exact hd.writer.raised _ _ _ _ _ (by decide) ht
        | some c =>
          refine ih (by omega) (hd.child k s n r c h hn hr hl ?_) ht
          cases bit with
          | true => exact .inr hc
          | false => exact .inl hc
    · exact hd.node k s n h hn hr

/-- `DEC` (R236): a byte for each symbol. -/
theorem Decoder.decBody (hd : Decoder P Q F G) {s : State} (h : P s.origLen.toNat s) :
    (decBody s).Ends (fun _ t => ∃ u, P 0 u ∧ t = setPhase .doneD u) Q F := by
  have symbol : ∀ k i t, P (k + 1) t → (decodeSymbol i t).Ends (fun _ => P k) Q F := by
    intro k i t ht
    unfold decodeSymbol
    cases hr : t.root with
    | none => exact hd.writer.raised _ _ _ _ _ (by decide) ht
    | some n => exact (hd.walkDown i (Nat.le_refl _) (hd.root _ t n ht hr) ht).bind fun r u hu => hd.writer.outByte _ hu
  have loop := forUp_ends (Q := Q) (F := F) (I := fun i => P (s.origLen.toNat - i)) (n := s.origLen.toNat) (i := 0)
    (body := decodeSymbol) h fun i t _ hi ht =>
      symbol _ i t (by rwa [show s.origLen.toNat - (i + 1) + 1 = s.origLen.toNat - i by omega])
  exact loop.bind fun _ u hu => ⟨u, by simpa using hu, rfl⟩

end

end Sys2Proof.Machine
end

section
/-!
SUPPORT. Predicates on states that no update of a command disturbs, and the invariants of the error, accumulator and reader
registers (`10_state.md` R24, R33, R34) as such predicates.
-/
namespace Sys2Proof.Machine

variable {P Q : State → Prop}

/-- The commands that write no byte and take no bit. -/
def isQuiet : Instr → Bool
  | .clr | .scan | .pack | .hsortF | .hsortS | .tree | .codes | .rhdr => true
  | .rst | .whdr | .enc | .flush | .dec | .compress | .decompress => false

/-- `P` survives every update of the quiet commands, and an error from a state of `P` leaves a state of `Q`. -/
structure QuietlyKept (P Q : State → Prop) : Prop where
  pop : ∀ s, P s → P (popAnswer s)
  raised : ∀ kind sub info s, kind ≠ .none → P s → Q (raise kind sub info s)
  table : ∀ s m n h o e, P s → P { s with sym := m, nsym := n, hsize := h, origLen := o, empty := e }
  tree : ∀ s m k r, P s → P { s with node := m, nnode := k, root := r }
  rest : ∀ s (p : BitVec 32), P s → p.toNat ≤ s.len.toNat → P { s with rpos := p }
  phase : ∀ s p, P s → P (setPhase p s)
  start : ∀ s, P s → P (runInit s)

/-- `P` survives every update of every command. -/
structure Kept (P Q : State → Prop) : Prop extends QuietlyKept P Q where
  emit : ∀ v s, P s → P (emit v s)
  bit : ∀ b s, P s → (placeBit b s).accn ≠ 8 → P (placeBit b s)
  placedRaise : ∀ info b s, P s → Q (raise .ioFailure 2 info (popAnswer (placeBit b s)))
  clear : ∀ s, P s → P (clearAcc s)
  take : ∀ s, P s → s.rbn ≠ 0 → P (takeBit s)
  load : ∀ b s, P s → s.rpos.toNat < s.len.toNat → P (takeBit (loadByte b s))

theorem QuietlyKept.reader (hk : QuietlyKept P Q) (limit : Nat) : Reader limit P Q fun _ => True where
  pop := hk.pop
  raised := hk.raised
  missing _ _ _ _ := trivial
  range _ _ _ _ _ := trivial

theorem QuietlyKept.codeWalk (hk : QuietlyKept P Q) : CodeWalk P Q (fun _ => True) fun _ => True where
  assign s _ _ _ _ h _ _ _ _ := hk.table s _ s.nsym s.hsize s.origLen s.empty h
  raised := hk.raised
  record _ _ _ _ _ := trivial
  node _ _ _ _ _ := trivial
  leaf _ _ _ _ _ _ _ _ := trivial
  child _ _ _ _ _ _ _ _ _ := ⟨fun _ _ => trivial, fun _ => trivial⟩

theorem QuietlyKept.headerReader (hk : QuietlyKept P Q) (n : BitVec 32) :
    HeaderReader (fun t => P t ∧ t.len = n) Q where
  reader _ :=
    { pop := fun s h => ⟨hk.pop s h.1, h.2⟩
      raised := fun _ _ _ s hkind h => hk.raised _ _ _ s hkind h.1
      missing := fun _ _ _ _ => trivial
      range := fun _ _ _ _ _ => trivial }
  grow s m k r h := ⟨hk.tree s m k r h.1, h.2⟩
  counts s n o e h := ⟨hk.table s s.sym n s.hsize o e h.1, h.2⟩
  rest s p h hp := ⟨hk.rest s p h.1 hp, h.2⟩

theorem QuietlyKept.hsort (hk : QuietlyKept P Q) (cmp : Cmp) {s : State} (h : P s) :
    (hsortBody cmp s).Ends (fun _ t => P t ∧ t.phase = sortedPhase cmp) Q fun _ => True := by
  rcases hsortBody_cases cmp s with ⟨rs, -, e⟩ | ⟨k, -, -, e⟩ <;> rw [e]
  · exact ⟨hk.phase _ _ (hk.table s _ s.nsym s.nsym s.origLen s.empty h), rfl⟩
  · trivial

theorem QuietlyKept.pack (hk : QuietlyKept P Q) {s : State} (h : P s) :
    (packBody s).Ends (fun _ t => P t ∧ t.phase = .packed) Q fun _ => True := by
  have frame := (packFrom_frame Config.alphabet 0 0 s).mono (Q' := Q) (F' := fun _ => True) (fun _ _ => id)
    (fun _ => False.elim) fun _ => id
  refine frame.bind fun j t ht => ?_
  obtain ⟨m, rfl⟩ := ht
  exact ⟨hk.phase _ _ (hk.table s m _ _ s.origLen _ h), rfl⟩

theorem QuietlyKept.clr (hk : QuietlyKept P Q) {s : State} (h : P (runInit s)) :
    (clrBody s).Ends (fun _ t => P t ∧ t.phase = .cleared) Q fun _ => True :=
  ⟨hk.phase _ _ (hk.table _ freshTable 256 256 0 false h), rfl⟩

theorem QuietlyKept.rhdr (hk : QuietlyKept P Q) {s : State} (h : P (runInit s)) :
    (rhdrBody s).Ends (fun _ t => P t ∧ t.phase = .hdrr) Q fun _ => True := by
  have hrun := hk.table _ (runInit s).sym 0 (runInit s).hsize 0 (runInit s).empty h
  refine ((hk.headerReader s.inLen).rhdrBody (fun _ ht => ht.2) ⟨hrun, rfl⟩).imp fun _ t ht => ?_
  obtain ⟨u, hu, rfl⟩ := ht
  exact ⟨hk.phase _ _ hu.1, rfl⟩

/-- What no quiet update disturbs, the quiet commands keep. -/
theorem QuietlyKept.rows (hk : QuietlyKept P Q) {i : Instr} (hi : isQuiet i = true) {s : State} (h : P s) :
    (bodyOf i s).Ends (fun _ t => P t ∧ t.phase = phaseAfter i) Q fun _ => True := by
  cases i with
  | clr => exact hk.clr (hk.start s h)
  | scan =>
    have scan := (hk.reader _).scanBody (s := s) (fun t _ _ _ ht _ => hk.table t _ t.nsym t.hsize t.origLen t.empty ht)
      (fun _ _ _ _ _ => trivial) h
    refine scan.imp fun _ t ht => ?_
    obtain ⟨u, hu, rfl⟩ := ht
    exact ⟨hk.phase _ _ (hk.table u u.sym u.nsym u.hsize u.len u.empty hu), rfl⟩
  | pack => exact hk.pack h
  | hsortF => exact hk.hsort .freq h
  | hsortS => exact hk.hsort .sym h
  | tree =>
    refine (treeBody_frame s).mono (fun _ t ht => ?_) (fun _ => False.elim) fun _ => id
    obtain ⟨m, k, r, rfl⟩ := ht
    exact ⟨hk.phase _ _ (hk.tree s m k r h), rfl⟩
  | codes =>
    refine (hk.codeWalk.codesBody (fun _ _ => trivial) h).imp fun _ t ht => ?_
    obtain ⟨u, hu, rfl⟩ := ht
    exact ⟨hk.phase _ _ hu, rfl⟩
  | rhdr => exact hk.rhdr (hk.start s h)
  | rst | whdr | enc | flush | dec | compress | decompress => cases hi

theorem Kept.writer (hk : Kept P Q) (n : BitVec 9) : Writer (fun _ t => P t ∧ t.nsym = n) Q where
  pop _ s h := ⟨hk.pop s h.1, h.2⟩
  emit _ v s h := ⟨hk.emit v s h.1, h.2⟩
  raised _ _ _ _ s hkind h := hk.raised _ _ _ s hkind h.1

theorem Kept.encoder (hk : Kept P Q) (limit : Nat) : Encoder limit (fun _ => P) Q fun _ => True where
  reader _ := hk.reader limit
  bits :=
    { bit := fun _ b s h => hk.bit b s h
      byte := fun _ _ s h _ => hk.clear _ (hk.emit _ _ (hk.pop s h))
      raised := fun info _ b s h _ => hk.placedRaise info b s h }
  mono _ _ := id
  record _ _ _ _ _ _ := trivial

theorem Kept.decoder (hk : Kept P Q) : Decoder (fun _ => P) Q (fun _ => True) fun _ => True where
  writer := { pop := fun _ => hk.pop, emit := fun _ => hk.emit, raised := fun _ _ _ _ s => hk.raised _ _ _ s }
  take _ := hk.take
  load _ := hk.load
  missing _ _ _ _ _ := trivial
  node _ _ _ _ _ _ := trivial
  child _ _ _ _ _ _ _ _ _ _ := trivial
  root _ _ _ _ _ := trivial

/-- What no update disturbs, every single command keeps. -/
theorem Kept.rows (hk : Kept P Q) {i : Instr} (hi : isSingle i = true) {s : State} (h : P s) :
    (bodyOf i s).Ends (fun _ t => P t ∧ t.phase = phaseAfter i) Q fun _ => True := by
  cases i with
  | whdr =>
    refine ((hk.writer s.nsym).whdrBody (fun _ _ _ _ _ _ => trivial) (fun _ _ ht => ht.2) ⟨h, rfl⟩).imp fun _ t ht => ?_
    obtain ⟨u, hu, rfl⟩ := ht
    exact ⟨hk.phase _ _ hu.1, rfl⟩
  | enc =>
    refine ((hk.encoder _).encBody h).imp fun _ t ht => ?_
    obtain ⟨u, hu, rfl⟩ := ht
    exact ⟨hk.phase _ _ hu, rfl⟩
  | flush =>
    refine ((hk.writer s.nsym).flushBody ⟨h, rfl⟩ fun _ => ⟨h, rfl⟩).imp fun _ t ht => ?_
    obtain ⟨u, hu, rfl | ⟨-, rfl⟩⟩ := ht
    · exact ⟨hk.phase _ _ (hk.clear u hu.1), rfl⟩
    · exact ⟨hk.phase _ _ hu.1, rfl⟩
  | dec =>
    refine (hk.decoder.decBody h).imp fun _ t ht => ?_
    obtain ⟨u, hu, rfl⟩ := ht
    exact ⟨hk.phase _ _ hu, rfl⟩
  | rst | compress | decompress => cases hi
  | clr | scan | pack | hsortF | hsortS | tree | codes | rhdr => exact hk.toQuietlyKept.rows rfl h

/-- An invariant that is a predicate no update disturbs outside `ERROR`, and whatever errors leave in `ERROR`. -/
theorem Kept.rowsEnd {J : State → Prop} (hk : Kept P J) (hin : ∀ s, J s → s.phase ≠ .error → P s)
    (hout : ∀ s, P s → s.phase ≠ .error → J s) : RowsEnd J J fun _ => True := by
  intro i s hi hJ hl
  have hs : s.phase ≠ .error := phase_ne_error_of_legalIn (by rintro rfl; cases hi) hl
  refine (hk.rows hi (hin s hJ hs)).imp fun _ t ht => ⟨hout t ht.1 ?_, ht.2⟩
  rw [ht.2]
  exact phaseAfter_ne_error i

/-! ### The error registers -/

theorem kept_noError : Kept (fun s => s.err = .none) ErrorForm where
  pop _ h := h
  raised _ _ _ _ hkind _ := ⟨fun _ => hkind, fun _ => rfl⟩
  table _ _ _ _ _ _ h := h
  tree _ _ _ _ h := h
  rest _ _ h _ := h
  phase _ _ h := h
  start _ h := h
  emit _ _ h := h
  bit _ _ h _ := h
  placedRaise _ _ _ _ := ⟨fun _ => ErrKind.noConfusion, fun _ => rfl⟩
  clear _ h := h
  take _ h _ := h
  load _ _ h _ := h

theorem keptOutside_errorForm : KeptOutside ErrorForm where
  host _ _ _ _ _ h := h
  rst _ := (by decide : ErrorForm State.reset)
  hardReset _ := (by decide : ErrorForm State.reset)
  raised _ _ _ _ hkind _ := ⟨fun _ => hkind, fun _ => rfl⟩

/-- Settles O51: an error is recorded by every raise and by nothing else, and every command that does not raise ends
outside `ERROR`. -/
theorem stepKeepsErrorForm : Obligations.StepKeepsErrorForm := fun _ _ hJ h =>
  keptOutside_errorForm.step
    (kept_noError.rowsEnd (fun _ hs hp => by simpa using mt hs.2 hp) fun _ hs hp =>
      ⟨fun he => absurd he hp, fun he => absurd hs he⟩) hJ h

/-! ### The accumulator -/

/-- The accumulator holds at most 7 bits and nothing above them (R33). -/
def AccHeld (s : State) : Prop := s.accn.toNat ≤ 7 ∧ s.acc.toNat < 2 ^ s.accn.toNat

theorem accHeld_empty {s : State} (hacc : s.acc = 0) (hn : s.accn = 0) : AccHeld s := by
  simp [AccHeld, hacc, hn]

theorem toNat_placeBit_accn {s : State} (h : AccHeld s) (b : Bool) :
    (placeBit b s).accn.toNat = s.accn.toNat + 1 := by
  have := h.1
  show (s.accn + 1).toNat = _
  rw [BitVec.toNat_add]
  exact Nat.mod_eq_of_lt (by simp; omega)

/-- A bit placed above the bits held (R230). -/
theorem toNat_placeBit_acc_lt {s : State} (h : AccHeld s) (b : Bool) :
    (placeBit b s).acc.toNat < 2 ^ (placeBit b s).accn.toNat := by
  obtain ⟨hn, ha⟩ := h
  have hp : 2 ^ s.accn.toNat ≤ 2 ^ 7 := Nat.pow_le_pow_right (by decide) hn
  have hbit : (if b = true then BitVec.twoPow 8 s.accn.toNat else 0).toNat ≤ 2 ^ s.accn.toNat := by
    cases b
    · simp
    · rw [if_pos rfl, BitVec.toNat_twoPow]; exact Nat.mod_le _ _
  rw [toNat_placeBit_accn ⟨hn, ha⟩, Nat.pow_succ]
  show (s.acc + _).toNat < _
  rw [BitVec.toNat_add]
  exact Nat.lt_of_le_of_lt (Nat.mod_le _ _) (by omega)

theorem accHeld_placeBit {s : State} (h : AccHeld s) (b : Bool) (h8 : (placeBit b s).accn ≠ 8) :
    AccHeld (placeBit b s) := by
  refine ⟨?_, toNat_placeBit_acc_lt h b⟩
  have hn : (placeBit b s).accn.toNat ≠ 8 := fun e => h8 (BitVec.eq_of_toNat_eq e)
  have := h.1
  rw [toNat_placeBit_accn h] at hn ⊢
  omega

theorem accForm_raise (kind : ErrKind) (sub : BitVec 8) (info : Nat) (s : State) : AccForm (raise kind sub info s) :=
  fun h => absurd rfl h

theorem kept_accHeld : Kept AccHeld AccForm where
  pop _ h := h
  raised _ _ _ _ _ _ := accForm_raise _ _ _ _
  table _ _ _ _ _ _ h := h
  tree _ _ _ _ h := h
  rest _ _ h _ := h
  phase _ _ h := h
  start _ _ := accHeld_empty rfl rfl
  emit _ _ h := h
  bit b _ h h8 := accHeld_placeBit h b h8
  placedRaise _ _ _ _ := accForm_raise _ _ _ _
  clear _ _ := accHeld_empty rfl rfl
  take _ h _ := h
  load _ _ h _ := h

theorem keptOutside_accForm : KeptOutside AccForm where
  host _ _ _ _ _ h := h
  rst _ _ := accHeld_empty rfl rfl
  hardReset _ _ := accHeld_empty rfl rfl
  raised _ _ _ _ _ _ := accForm_raise _ _ _ _

/-- Settles O52: `put_bits` empties the accumulator as soon as it holds eight bits. -/
theorem stepKeepsAccumulatorForm : Obligations.StepKeepsAccumulatorForm := fun _ _ hJ h =>
  keptOutside_accForm.step (kept_accHeld.rowsEnd (fun _ hs hp => hs hp) fun _ hs _ _ => hs) hJ h

/-! ### The reader -/

theorem readerForm_takeBit {s : State} (h : ReaderForm s) (h0 : s.rbn ≠ 0) : ReaderForm (takeBit s) := by
  obtain ⟨hn, hb, hp⟩ := h
  have h0 : s.rbn.toNat ≠ 0 := fun e => h0 (BitVec.eq_of_toNat_eq (by simpa using e))
  have h1 : (s.rbn - 1).toNat = s.rbn.toNat - 1 := BitVec.toNat_sub_of_le (by
    rw [BitVec.le_def]; show 1 ≤ s.rbn.toNat; omega)
  refine ⟨?_, ?_, hp⟩
  · show (s.rbn - 1).toNat ≤ 8; omega
  · show (s.rbuf >>> 1).toNat < 2 ^ (s.rbn - 1).toNat
    rw [h1, BitVec.toNat_ushiftRight, Nat.shiftRight_eq_div_pow]
    rw [show s.rbn.toNat = s.rbn.toNat - 1 + 1 by omega, Nat.pow_succ] at hb
    omega

theorem readerForm_loadByte (b : Byte) {s : State} (hl : s.rpos.toNat < s.len.toNat) : ReaderForm (loadByte b s) := by
  refine ⟨Nat.le_refl 8, b.isLt, ?_⟩
  show (s.rpos + 1).toNat ≤ s.len.toNat
  rw [BitVec.toNat_add]
  exact Nat.le_trans (Nat.mod_le _ _) hl

theorem readerForm_empty {s : State} (hb : s.rbuf = 0) (hn : s.rbn = 0) (hp : s.rpos = 0) : ReaderForm s := by
  simp [ReaderForm, hb, hn, hp]

theorem kept_readerForm : Kept ReaderForm ReaderForm where
  pop _ h := h
  raised _ _ _ _ _ h := h
  table _ _ _ _ _ _ h := h
  tree _ _ _ _ h := h
  rest _ _ h hp := ⟨h.1, h.2.1, hp⟩
  phase _ _ h := h
  start _ _ := readerForm_empty rfl rfl rfl
  emit _ _ h := h
  bit _ _ h _ := h
  placedRaise _ _ _ h := h
  clear _ h := h
  take _ h h0 := readerForm_takeBit h h0
  load b _ _ hl := readerForm_takeBit (readerForm_loadByte b hl) (show (8 : BitVec 4) ≠ 0 by decide)

theorem keptOutside_readerForm : KeptOutside ReaderForm where
  host _ _ _ _ _ h := h
  rst _ := readerForm_empty rfl rfl rfl
  hardReset _ := readerForm_empty rfl rfl rfl
  raised _ _ _ _ _ h := h

/-- Settles O53: a byte is fetched only below `LEN`, and a bit is taken only from a buffer that is not empty. -/
theorem stepKeepsReaderForm : Obligations.StepKeepsReaderForm := fun _ _ hJ h =>
  keptOutside_readerForm.step (kept_readerForm.rowsEnd (fun _ hs _ => hs) fun _ hs _ => hs) hJ h

end Sys2Proof.Machine
end

section
/-!
SUPPORT. The register file as the host sees it, and the reset state (`10_state.md` R21, R23, R44).
-/
namespace Sys2Proof.Machine

/-! ### Register accesses -/

theorem step_regRead {s : State} {off : Word} {rest : List HostAction} (h : s.script = .regRead off :: rest)
    (ha : off.toNat % 4 = 0) :
    step s = .next { s with script := rest, readData := regValue off { s with script := rest } } := by
  rw [step_cons h]
  exact if_pos (by simpa [alignedOffset] using ha)

theorem step_regWrite {s : State} {off v : Word} {rest : List HostAction} (h : s.script = .regWrite off v :: rest)
    (ha : off.toNat % 4 = 0) (h0 : off ≠ 0) : step s = .next (storeReg off v { s with script := rest }) := by
  rw [step_cons h]
  exact (if_pos (by simpa [alignedOffset] using ha)).trans (if_neg h0)

/-- Settles O16: an aligned write outside `CMD` goes to the register file, which stores `IN_LEN` only. -/
theorem hostWritesOnlyInLen : Obligations.HostWritesOnlyInLen := by
  intro s off v rest h ha h0
  rw [step_regWrite h ha h0]
  by_cases h8 : off = 8
  · subst h8; rfl
  · rw [storeReg, if_neg (show off ≠ offINLEN from h8), if_neg h8]

/-- A concatenation as a sum. -/
theorem toNat_append_eq_add {m n : Nat} (x : BitVec m) (y : BitVec n) :
    (x ++ y).toNat = x.toNat * 2 ^ n + y.toNat := by
  rw [BitVec.toNat_append, ← Nat.shiftLeft_add_eq_or_of_lt y.isLt, Nat.shiftLeft_eq]

theorem eq_code_of_mem_phaseValues {q : Phase} {p : Nat} (h : (q, p) ∈ phaseValues) : p = q.code.toNat := by
  have : ∀ x ∈ phaseValues, x.2 = x.1.code.toNat := by decide
  exact this _ h

theorem eq_code_of_mem_errValues {k : ErrKind} {e : Nat} (h : (k, e) ∈ errValues) : e = k.code.toNat := by
  have : ∀ x ∈ errValues, x.2 = x.1.code.toNat := by decide
  exact this _ h

/-- The fields of `STATUS` at their places (R23). -/
theorem toNat_statusWord (s : State) :
    (statusWord s).toNat =
      s.phase.code.toNat + 2 ^ 4 * s.err.code.toNat + 2 ^ 8 * s.empty.toNat + 2 ^ 16 * s.errsub.toNat := by
  simp only [statusWord, busyBit, toNat_append_eq_add, BitVec.toNat_ofBool, BitVec.ofNat_eq_ofNat, BitVec.toNat_ofNat,
    Nat.zero_mod]
  omega

/-- Settles O14: the codes are those of R22 and R280, at the places of R23. -/
theorem statusWordLayout : Obligations.StatusWordLayout := by
  intro s rest p e h hp he
  refine ⟨_, step_regRead h rfl, ?_⟩
  rw [eq_code_of_mem_phaseValues hp, eq_code_of_mem_errValues he]
  exact toNat_statusWord _

/-- What a read gives at each offset but that of `STATUS` (R21). -/
theorem toNat_regValue (s : State) {off : Word} (h4 : off ≠ 4) :
    (regValue off s).toNat = (if off = 0x08 then s.inLen.toNat else if off = 0x0C then s.origLen.toNat
      else if off = 0x10 then s.nsym.toNat else if off = 0x14 then s.opos.toNat % 2 ^ 32
      else if off = 0x18 then s.opos.toNat / 2 ^ 32 else if off = 0x1C then s.errinfo.toNat else 0) := by
  have hi : s.opos.toNat / 2 ^ 32 < 2 ^ 8 := by have := s.opos.isLt; omega
  have hn : s.nsym.toNat < 2 ^ 32 := Nat.lt_trans s.nsym.isLt (by decide)
  unfold regValue offSTATUS offINLEN offORIGLEN offNSYM offOUTLENLO offOUTLENHI offERRINFO
  rw [if_neg h4]
  by_cases h08 : off = 0x08
  · rw [if_pos h08, if_pos h08]
  rw [if_neg h08, if_neg h08]
  by_cases h0C : off = 0x0C
  · rw [if_pos h0C, if_pos h0C]
  rw [if_neg h0C, if_neg h0C]
  by_cases h10 : off = 0x10
  · rw [if_pos h10, if_pos h10, BitVec.toNat_setWidth, Nat.mod_eq_of_lt hn]
  rw [if_neg h10, if_neg h10]
  by_cases h14 : off = 0x14
  · rw [if_pos h14, if_pos h14, BitVec.extractLsb'_toNat, Nat.shiftRight_zero]
  rw [if_neg h14, if_neg h14]
  by_cases h18 : off = 0x18
  · rw [if_pos h18, if_pos h18, BitVec.toNat_setWidth, BitVec.extractLsb'_toNat, Nat.shiftRight_eq_div_pow,
      Nat.mod_eq_of_lt hi, Nat.mod_eq_of_lt (Nat.lt_trans hi (by decide))]
  rw [if_neg h18, if_neg h18]
  by_cases h1C : off = 0x1C
  · rw [if_pos h1C, if_pos h1C]
  rw [if_neg h1C, if_neg h1C]
  rfl

/-- Settles O15: an aligned read puts the register's value into the read data and nothing else. -/
theorem hostReadsRegisters : Obligations.HostReadsRegisters :=
  fun s _ rest h ha h4 => ⟨_, step_regRead h ha, toNat_regValue { s with script := rest } h4⟩

/-! ### The reset state -/

/-- Settles O11: the reset state is the table of R44, register by register. -/
theorem resetStateValues : Obligations.ResetStateValues :=
  ⟨rfl, rfl, rfl, rfl, rfl, rfl, rfl, rfl, rfl, rfl, rfl, rfl, rfl, rfl, rfl, rfl, rfl, rfl, rfl⟩

theorem memoryForm_reset : MemoryForm State.reset :=
  ⟨Memory.wf_reset, List.Pairwise.nil, (fun _ h => nomatch h), List.Pairwise.nil, (fun _ h => nomatch h)⟩

/-- Settles O57: reset memories hold nothing, reset registers are 0. -/
theorem resetMeetsInvariants : Obligations.ResetMeetsInvariants :=
  ⟨memoryForm_reset, by decide, by decide, by decide, by decide, rfl, rfl⟩

end Sys2Proof.Machine
end

section
/-!
SUPPORT. The count of the bytes written (`10_state.md` R35, `46_top_level.md` R268 h): each command that writes is given the
number of bytes it may still write.
-/
namespace Sys2Proof.Machine

theorem outBound_le (s : State) : outBound s ≤ 2 ^ 37 := by
  have := s.nsym.isLt
  have := s.origLen.isLt
  unfold outBound
  split <;> omega

theorem outForm_raise (kind : ErrKind) (sub : BitVec 8) (info : Nat) {s : State} (hp : s.opos.toNat = s.out.length)
    (hl : s.out.length ≤ 2 ^ 37) : OutForm (raise kind sub info s) :=
  ⟨hp, hl, accForm_raise _ _ _ _⟩

theorem keptOutside_outForm : KeptOutside OutForm where
  host _ _ _ _ _ h := h
  rst _ := (by decide : OutForm State.reset)
  hardReset _ := (by decide : OutForm State.reset)
  raised _ _ _ s _ h := outForm_raise _ _ _ h.1 (Nat.le_trans h.2.1 (outBound_le s))

/-! ### Commands that write nothing -/

/-- Nothing written yet in this run. -/
def NothingWritten (s : State) : Prop := s.out = [] ∧ s.opos = 0 ∧ AccHeld s

theorem NothingWritten.outForm {s : State} (h : NothingWritten s) : OutForm s := by
  obtain ⟨ho, hp, ha⟩ := h
  exact ⟨by rw [hp, ho]; rfl, by rw [ho]; exact Nat.zero_le _, fun _ => ha⟩

theorem nothingWritten_of_outForm {s : State} (h : OutForm s) (hp : s.phase ≠ .error) (h0 : outBound s = 0) :
    NothingWritten s := by
  obtain ⟨hpos, hl, ha⟩ := h
  have ho : s.out = [] := List.eq_nil_of_length_eq_zero (by omega)
  exact ⟨ho, BitVec.eq_of_toNat_eq (by rw [hpos, ho]; rfl), ha hp⟩

theorem nothingWritten_runInit (s : State) : NothingWritten (runInit s) := ⟨rfl, rfl, accHeld_empty rfl rfl⟩

theorem quietlyKept_nothingWritten : QuietlyKept NothingWritten OutForm where
  pop _ h := h
  raised _ _ _ s _ h := outForm_raise _ _ _ h.outForm.1 (Nat.le_trans h.outForm.2.1 (outBound_le s))
  table _ _ _ _ _ _ h := h
  tree _ _ _ _ h := h
  rest _ _ h _ := h
  phase _ _ h := h
  start s _ := nothingWritten_runInit s

/-! ### Commands that write -/

/-- The bytes written are counted, `NSYM` and `ORIGLEN` are these. -/
def Counted (n : BitVec 9) (o : BitVec 32) (s : State) : Prop :=
  s.opos.toNat = s.out.length ∧ AccHeld s ∧ s.nsym = n ∧ s.origLen = o

/-- `k` more bytes make at most `total`. -/
def BytesFit (total : Nat) (n : BitVec 9) (o : BitVec 32) (k : Nat) (s : State) : Prop :=
  Counted n o s ∧ s.out.length + k ≤ total

/-- `k` more bits make at most `total` bytes and an accumulator. -/
def BitsFit (total : Nat) (n : BitVec 9) (o : BitVec 32) (k : Nat) (s : State) : Prop :=
  Counted n o s ∧ 8 * s.out.length + s.accn.toNat + k ≤ 8 * total + 7

variable {total : Nat} {n : BitVec 9} {o : BitVec 32} {s : State}

theorem counted_of_outForm (h : OutForm s) (hp : s.phase ≠ .error) : Counted s.nsym s.origLen s :=
  ⟨h.1, h.2.2 hp, rfl, rfl⟩

theorem Counted.raise (h : Counted n o s) (hl : s.out.length ≤ 2 ^ 37) (kind : ErrKind) (sub : BitVec 8) (info : Nat) :
    OutForm (raise kind sub info s) :=
  outForm_raise _ _ _ h.1 hl

theorem Counted.emit (h : Counted n o s) (hl : s.out.length < 2 ^ 37) (v : Byte) : Counted n o (emit v s) := by
  obtain ⟨hp, hrest⟩ := h
  refine ⟨?_, hrest⟩
  show (s.opos + 1).toNat = (s.out ++ [v]).length
  rw [BitVec.toNat_add, List.length_append, hp]
  exact Nat.mod_eq_of_lt (by simp; omega)

/-- What a counted run leaves is in form when the phase allows as many bytes. -/
theorem BytesFit.outForm {k : Nat} (h : BytesFit total n o k s) {p : Phase} (hb : total ≤ outBound (setPhase p s)) :
    OutForm (setPhase p s) := by
  obtain ⟨⟨hp, ha, -, -⟩, hl⟩ := h
  exact ⟨hp, Nat.le_trans (by show s.out.length ≤ total; omega) hb, fun _ => ha⟩

theorem writer_bytesFit (hT : total ≤ 2 ^ 37) : Writer (BytesFit total n o) OutForm where
  pop _ _ h := h
  emit k v s h := by
    obtain ⟨hc, hl⟩ := h
    refine ⟨hc.emit (by omega) v, ?_⟩
    show (s.out ++ [v]).length + k ≤ total
    rw [List.length_append]
    simp only [List.length_cons, List.length_nil]
    omega
  raised _ _ _ _ _ _ h := h.1.raise (by have := h.2; omega) _ _ _

theorem decoder_bytesFit (hT : total ≤ 2 ^ 37) :
    Decoder (BytesFit total n o) OutForm (fun _ => True) fun _ => True where
  writer := writer_bytesFit hT
  take _ _ h _ := h
  load _ _ _ h _ := h
  missing _ _ _ _ _ := trivial
  node _ _ _ _ _ _ := trivial
  child _ _ _ _ _ _ _ _ _ _ := trivial
  root _ _ _ _ _ := trivial

theorem encoder_bitsFit (limit : Nat) (hT : total < 2 ^ 37) :
    Encoder limit (BitsFit total n o) OutForm fun _ => True where
  reader _ :=
    { pop := fun _ h => h
      raised := fun _ _ _ _ _ h => h.1.raise (by have := h.2; omega) _ _ _
      missing := fun _ _ _ _ => trivial
      range := fun _ _ _ _ _ => trivial }
  bits :=
    { bit := fun k b s h h8 => by
        obtain ⟨⟨hp, ha, hrest⟩, hl⟩ := h
        refine ⟨⟨hp, accHeld_placeBit ha b h8, hrest⟩, ?_⟩
        rw [toNat_placeBit_accn ha]
        show 8 * s.out.length + (s.accn.toNat + 1) + k ≤ _
        omega
      byte := fun k b s h h8 => by
        obtain ⟨⟨hp, ha, hrest⟩, hl⟩ := h
        have h7 : s.accn.toNat + 1 = 8 := by rw [← toNat_placeBit_accn ha b, h8]; rfl
        have hc : Counted n o (clearAcc s) := ⟨hp, accHeld_empty rfl rfl, hrest⟩
        obtain ⟨hp', -⟩ := hc.emit (by show s.out.length < _; omega) (placeBit b s).acc
        refine ⟨⟨hp', accHeld_empty rfl rfl, hrest⟩, ?_⟩
        show 8 * (s.out ++ [(placeBit b s).acc]).length + 0 + k ≤ _
        rw [List.length_append]
        simp only [List.length_cons, List.length_nil]
        omega
      raised := fun info k b s h _ =>
        outForm_raise _ _ _ (s := popAnswer (placeBit b s)) h.1.1 (by show s.out.length ≤ _; have := h.2; omega) }
  mono _ _ h := ⟨h.1, by have := h.2; omega⟩
  record _ _ _ _ _ _ := trivial

theorem whdr_keeps_outForm (h : OutForm s) (hp : s.phase = .ssorted) :
    (whdrBody s).Ends (fun _ t => OutForm t ∧ t.phase = .hdrw) OutForm fun _ => True := by
  have hn := s.nsym.isLt
  have h0 : s.out.length ≤ 0 := by have := h.2.1; rwa [outBound, hp] at this
  have hfit : BytesFit (6 + 10 * s.nsym.toNat) s.nsym s.origLen (6 + 10 * s.nsym.toNat) s :=
    ⟨counted_of_outForm h (by rw [hp]; decide), by omega⟩
  refine ((writer_bytesFit (by omega)).whdrBody (fun _ _ _ _ _ _ => trivial) (fun _ _ ⟨⟨_, _, hnsym, _⟩, _⟩ => hnsym)
    hfit).imp fun _ t ht => ?_
  obtain ⟨u, hu, rfl⟩ := ht
  obtain ⟨⟨-, -, hnsym, -⟩, -⟩ := id hu
  exact ⟨hu.outForm (by show _ ≤ 6 + 10 * u.nsym.toNat; exact Nat.le_of_eq (by rw [hnsym])), rfl⟩

theorem enc_keeps_outForm (h : OutForm s) (hp : s.phase = .hdrw) :
    (encBody s).Ends (fun _ t => OutForm t ∧ t.phase = .encoded) OutForm fun _ => True := by
  have hn := s.nsym.isLt
  have ho := s.origLen.isLt
  have h0 : s.out.length ≤ 6 + 10 * s.nsym.toNat := by have := h.2.1; rwa [outBound, hp] at this
  have hc := counted_of_outForm h (by rw [hp]; decide)
  have hfit : BitsFit (6 + 10 * s.nsym.toNat + 16 * s.origLen.toNat) s.nsym s.origLen (127 * s.origLen.toNat) s :=
    ⟨hc, by obtain ⟨-, ⟨h7, -⟩, -⟩ := hc; omega⟩
  refine ((encoder_bitsFit _ (by omega)).encBody hfit).imp fun _ t ht => ?_
  obtain ⟨u, hu, rfl⟩ := ht
  obtain ⟨hcu, hl⟩ := hu
  obtain ⟨-, -, hnsym, horig⟩ := id hcu
  have hfit : BytesFit (6 + 10 * s.nsym.toNat + 16 * s.origLen.toNat) s.nsym s.origLen 0 u := ⟨hcu, by omega⟩
  have hb : 6 + 10 * s.nsym.toNat + 16 * s.origLen.toNat ≤ outBound (setPhase .encoded u) := by
    show _ ≤ 6 + 10 * u.nsym.toNat + 16 * u.origLen.toNat
    exact Nat.le_of_eq (by rw [hnsym, horig])
  exact ⟨hfit.outForm hb, rfl⟩

theorem flush_keeps_outForm (h : OutForm s) (hp : s.phase = .encoded) :
    (flushBody s).Ends (fun _ t => OutForm t ∧ t.phase = .doneC) OutForm fun _ => True := by
  have hn := s.nsym.isLt
  have ho := s.origLen.isLt
  have h0 : s.out.length ≤ 6 + 10 * s.nsym.toNat + 16 * s.origLen.toNat := by
    have := h.2.1; rwa [outBound, hp] at this
  have hc := counted_of_outForm h (by rw [hp]; decide)
  have hfit : BytesFit (6 + 10 * s.nsym.toNat + 16 * s.origLen.toNat + 1) s.nsym s.origLen 1 s := ⟨hc, by omega⟩
  refine ((writer_bytesFit (by omega)).flushBody hfit fun _ => ⟨hc, by omega⟩).imp fun _ t ht => ?_
  obtain ⟨u, hu, ht⟩ := ht
  obtain ⟨⟨hp, ha, hnsym, horig⟩, hl⟩ := id hu
  have hb : 6 + 10 * s.nsym.toNat + 16 * s.origLen.toNat + 1 ≤ outBound (setPhase .doneC u) := by
    show _ ≤ 6 + 10 * u.nsym.toNat + 16 * u.origLen.toNat + 1
    exact Nat.le_of_eq (by rw [hnsym, horig])
  rcases ht with rfl | ⟨-, rfl⟩
  · have hclear : BytesFit (6 + 10 * s.nsym.toNat + 16 * s.origLen.toNat + 1) s.nsym s.origLen 0 (clearAcc u) :=
      ⟨⟨hp, accHeld_empty rfl rfl, hnsym, horig⟩, hl⟩
    exact ⟨hclear.outForm hb, rfl⟩
  · exact ⟨hu.outForm hb, rfl⟩

theorem dec_keeps_outForm (h : OutForm s) (hp : s.phase = .hdrr) :
    (decBody s).Ends (fun _ t => OutForm t ∧ t.phase = .doneD) OutForm fun _ => True := by
  have ho := s.origLen.isLt
  have h0 : s.out.length ≤ 0 := by have := h.2.1; rwa [outBound, hp] at this
  have hfit : BytesFit s.origLen.toNat s.nsym s.origLen s.origLen.toNat s :=
    ⟨counted_of_outForm h (by rw [hp]; decide), by omega⟩
  refine ((decoder_bytesFit (by omega)).decBody hfit).imp fun _ t ht => ?_
  obtain ⟨u, hu, rfl⟩ := ht
  obtain ⟨⟨-, -, -, horig⟩, -⟩ := id hu
  exact ⟨hu.outForm (by show _ ≤ u.origLen.toNat; exact Nat.le_of_eq (by rw [horig])), rfl⟩

/-! ### Every command -/

theorem quiet_keeps_outForm {i : Instr} (hi : isQuiet i = true) (h : NothingWritten s) :
    (bodyOf i s).Ends (fun _ t => OutForm t ∧ t.phase = phaseAfter i) OutForm fun _ => True :=
  (quietlyKept_nothingWritten.rows hi h).imp fun _ _ ht => ⟨ht.1.outForm, ht.2⟩

theorem rowsEnd_outForm : RowsEnd OutForm OutForm fun _ => True := by
  intro i s hi hJ hl
  have quiet : ∀ {p}, isQuiet i = true → s.phase = p → p ≠ .error → outBound (setPhase p s) = 0 →
      (bodyOf i s).Ends (fun _ t => OutForm t ∧ t.phase = phaseAfter i) OutForm fun _ => True := by
    intro p hq hp hne h0
    subst hp
    exact quiet_keeps_outForm hq (nothingWritten_of_outForm hJ hne h0)
  cases i with
  | rst | compress | decompress => cases hi
  | clr =>
    exact (quietlyKept_nothingWritten.clr (nothingWritten_runInit s)).imp fun _ _ ht => ⟨ht.1.outForm, ht.2⟩
  | rhdr =>
    exact (quietlyKept_nothingWritten.rhdr (nothingWritten_runInit s)).imp fun _ _ ht => ⟨ht.1.outForm, ht.2⟩
  | scan => exact quiet rfl (phase_eq_of_legalIn rfl hl) (by decide) rfl
  | pack => exact quiet rfl (phase_eq_of_legalIn rfl hl) (by decide) rfl
  | hsortF => exact quiet rfl (phase_eq_of_legalIn rfl hl) (by decide) rfl
  | tree => exact quiet rfl (phase_eq_of_legalIn rfl hl) (by decide) rfl
  | codes => exact quiet rfl (phase_eq_of_legalIn rfl hl) (by decide) rfl
  | hsortS => exact quiet rfl (phase_eq_of_legalIn rfl hl) (by decide) rfl
  | whdr => exact whdr_keeps_outForm hJ (phase_eq_of_legalIn rfl hl)
  | enc => exact enc_keeps_outForm hJ (phase_eq_of_legalIn rfl hl)
  | flush => exact flush_keeps_outForm hJ (phase_eq_of_legalIn rfl hl)
  | dec => exact dec_keeps_outForm hJ (phase_eq_of_legalIn rfl hl)

/-- Settles O54: a header is 6 bytes and 10 per record, a code at most 127 bits, the rest of the accumulator one byte. -/
theorem stepKeepsOutputCount : Obligations.StepKeepsOutputCount := fun _ _ hJ h =>
  keptOutside_outForm.step rowsEnd_outForm hJ h

end Sys2Proof.Machine
end

section
/-!
SUPPORT. The heap sort (`41_heap.md` R142 to R146): it permutes the records and leaves them in non-decreasing order. Lists
are compared by the keys at their places.
-/
namespace Sys2Proof.Machine

/-! ### Keys -/

/-- What a comparator compares (R140). -/
def key : Cmp → SymRec → Nat
  | .freq, r => r.frequency.toNat
  | .sym, r => r.symbol.toNat

theorem before_iff (cmp : Cmp) (a b : SymRec) : before cmp a b = true ↔ key cmp a < key cmp b := by
  cases cmp <;> simp [before, key, BitVec.lt_def]

/-- The key at a place of a list. -/
def keyAt (cmp : Cmp) (xs : List SymRec) (i : Nat) : Nat := ((xs[i]?).map (key cmp)).getD 0

variable {cmp : Cmp} {xs ys zs : List SymRec} {n a b : Nat}

theorem keyAt_congr {j : Nat} (h : ys[a]? = xs[j]?) : keyAt cmp ys a = keyAt cmp xs j := by
  rw [keyAt, h, keyAt]

theorem keyAt_eq (h : a < xs.length) : keyAt cmp xs a = key cmp xs[a] := by
  simp [keyAt, List.getElem?_eq_getElem h]

theorem beforeAt_iff (ha : a < xs.length) (hb : b < xs.length) :
    beforeAt cmp xs a b = true ↔ keyAt cmp xs a < keyAt cmp xs b := by
  rw [keyAt_eq ha, keyAt_eq hb, ← before_iff]
  simp [beforeAt, List.getElem?_eq_getElem ha, List.getElem?_eq_getElem hb]

/-! ### Swaps, and what stays below a bound -/

theorem swapAt_eq (ha : a < xs.length) (hb : b < xs.length) : swapAt xs a b = (xs.set a xs[b]).set b xs[a] := by
  simp [swapAt, List.getElem?_eq_getElem ha, List.getElem?_eq_getElem hb]

theorem getElem?_swapAt (ha : a < xs.length) (hb : b < xs.length) (j : Nat) :
    (swapAt xs a b)[j]? = if j = a then xs[b]? else if j = b then xs[a]? else xs[j]? := by
  rw [swapAt_eq ha hb]
  grind

theorem keyAt_swapAt (ha : a < xs.length) (hb : b < xs.length) (j : Nat) :
    keyAt cmp (swapAt xs a b) j =
      if j = a then keyAt cmp xs b else if j = b then keyAt cmp xs a else keyAt cmp xs j := by
  rw [keyAt, getElem?_swapAt ha hb]
  split
  · rfl
  · split <;> rfl

/-- `ys` is `xs` with its first `n` places rearranged. -/
structure RearrangedBelow (n : Nat) (xs ys : List SymRec) : Prop where
  perm : ys.Perm xs
  above : ∀ j, n ≤ j → ys[j]? = xs[j]?
  below : ∀ j, j < n → ∃ k, k < n ∧ ys[j]? = xs[k]?

theorem RearrangedBelow.refl (n : Nat) (xs : List SymRec) : RearrangedBelow n xs xs :=
  ⟨List.Perm.refl xs, fun _ _ => rfl, fun j hj => ⟨j, hj, rfl⟩⟩

theorem RearrangedBelow.trans (h1 : RearrangedBelow n xs ys) (h2 : RearrangedBelow n ys zs) : RearrangedBelow n xs zs where
  perm := h2.perm.trans h1.perm
  above j hj := (h2.above j hj).trans (h1.above j hj)
  below j hj := by
    obtain ⟨k, hk, e⟩ := h2.below j hj
    obtain ⟨l, hl, e'⟩ := h1.below k hk
    exact ⟨l, hl, e.trans e'⟩

theorem rearrangedBelow_swapAt (hn : n ≤ xs.length) (ha : a < n) (hb : b < n) : RearrangedBelow n xs (swapAt xs a b) where
  perm := by rw [swapAt_eq (by omega) (by omega)]; exact List.set_set_perm _ _
  above j hj := by
    rw [getElem?_swapAt (by omega) (by omega), if_neg (by omega), if_neg (by omega)]
  below j hj := by
    rw [getElem?_swapAt (by omega) (by omega)]
    split
    · exact ⟨b, hb, rfl⟩
    · split
      · exact ⟨a, ha, rfl⟩
      · exact ⟨j, hj, rfl⟩

/-! ### `sift_down` -/

/-- The place a round of `sift_down` goes to: `i` or a child of it inside the heap, with the least key of the three. -/
theorem siftChoice_spec (cmp : Cmp) (hn : n ≤ xs.length) {i : Nat} (hi : i < n) :
    (siftChoice cmp n i xs = i ∨ siftChoice cmp n i xs = 2 * i + 1 ∨ siftChoice cmp n i xs = 2 * i + 2) ∧
      siftChoice cmp n i xs < n ∧ keyAt cmp xs (siftChoice cmp n i xs) ≤ keyAt cmp xs i ∧
      ∀ c, (c = 2 * i + 1 ∨ c = 2 * i + 2) → c < n → keyAt cmp xs (siftChoice cmp n i xs) ≤ keyAt cmp xs c := by
  have hb : ∀ c d, c < n → d < n → (beforeAt cmp xs c d = true ↔ keyAt cmp xs c < keyAt cmp xs d) :=
    fun c d hc hd => beforeAt_iff (by omega) (by omega)
  by_cases hl : 2 * i + 1 < n ∧ beforeAt cmp xs (2 * i + 1) i = true
  · have hlk := (hb _ _ hl.1 hi).1 hl.2
    by_cases hr : 2 * i + 2 < n ∧ beforeAt cmp xs (2 * i + 2) (2 * i + 1) = true
    · have hrk := (hb _ _ hr.1 hl.1).1 hr.2
      have e : siftChoice cmp n i xs = 2 * i + 2 := by simp [siftChoice, hl, hr]
      rw [e]
      refine ⟨by omega, hr.1, by omega, ?_⟩
      rintro c (rfl | rfl) hc <;> omega
    · have e : siftChoice cmp n i xs = 2 * i + 1 := by simp only [siftChoice, if_pos hl, if_neg hr]
      rw [e]
      refine ⟨by omega, hl.1, by omega, ?_⟩
      rintro c (rfl | rfl) hc
      · omega
      · have := mt (hb _ _ hc hl.1).2 fun h => hr ⟨hc, h⟩; omega
  · have hlk : 2 * i + 1 < n → keyAt cmp xs i ≤ keyAt cmp xs (2 * i + 1) := fun hc => by
      have := mt (hb _ _ hc hi).2 fun h => hl ⟨hc, h⟩; omega
    by_cases hr : 2 * i + 2 < n ∧ beforeAt cmp xs (2 * i + 2) i = true
    · have hrk := (hb _ _ hr.1 hi).1 hr.2
      have e : siftChoice cmp n i xs = 2 * i + 2 := by simp only [siftChoice, if_neg hl, if_pos hr]
      rw [e]
      refine ⟨by omega, hr.1, by omega, ?_⟩
      rintro c (rfl | rfl) hc
      · have := hlk hc; omega
      · omega
    · have e : siftChoice cmp n i xs = i := by simp only [siftChoice, if_neg hl, if_neg hr]
      rw [e]
      refine ⟨by omega, hi, by omega, ?_⟩
      rintro c (rfl | rfl) hc
      · exact hlk hc
      · have := mt (hb _ _ hc hi).2 fun h => hr ⟨hc, h⟩; omega

theorem siftChoice_of_le {i : Nat} (hi : n ≤ i) : siftChoice cmp n i xs = i := by
  have h1 : ¬ 2 * i + 1 < n := by omega
  have h2 : ¬ 2 * i + 2 < n := by omega
  simp [siftChoice, h1, h2]

theorem rearrangedBelow_siftDown (cmp : Cmp) (hn : n ≤ xs.length) (rounds i : Nat) :
    RearrangedBelow n xs (siftDown cmp n rounds i xs) := by
  induction rounds generalizing i xs with
  | zero => exact .refl n xs
  | succ k ih =>
    rw [siftDown]
    split
    · exact .refl n xs
    · rename_i hm
      have hi : i < n := Nat.lt_of_not_le fun h => hm (siftChoice_of_le h)
      have hs := rearrangedBelow_swapAt hn hi (siftChoice_spec cmp hn hi).2.1
      exact hs.trans (ih (by rw [hs.perm.length_eq]; exact hn) _)

/-- No record of the heap `0 .. n-1` is before its parent, where the parent's index is at least `lo` (R141). -/
def HeapFrom (cmp : Cmp) (lo n : Nat) (xs : List SymRec) : Prop :=
  ∀ c, 1 ≤ c → c < n → lo ≤ (c - 1) / 2 → keyAt cmp xs ((c - 1) / 2) ≤ keyAt cmp xs c

/-- `HeapFrom` but for the record at `i`, which may be too large for its place. -/
def HeapBut (cmp : Cmp) (lo n i : Nat) (xs : List SymRec) : Prop :=
  (∀ c, 1 ≤ c → c < n → lo ≤ (c - 1) / 2 → (c - 1) / 2 ≠ i → keyAt cmp xs ((c - 1) / 2) ≤ keyAt cmp xs c) ∧
    ∀ c, 1 ≤ c → c < n → (c - 1) / 2 = i → 1 ≤ i → lo ≤ (i - 1) / 2 → keyAt cmp xs ((i - 1) / 2) ≤ keyAt cmp xs c

/-- One round moves the one place that may be wrong down to the child chosen. -/
theorem heapBut_swapAt {lo i m : Nat} (hn : n ≤ xs.length) (hi : i < n) (h : HeapBut cmp lo n i xs)
    (hm : m = 2 * i + 1 ∨ m = 2 * i + 2) (hmn : m < n) (hmi : keyAt cmp xs m ≤ keyAt cmp xs i)
    (hleast : ∀ c, (c = 2 * i + 1 ∨ c = 2 * i + 2) → c < n → keyAt cmp xs m ≤ keyAt cmp xs c) :
    HeapBut cmp lo n m (swapAt xs i m) := by
  obtain ⟨h1, h2⟩ := h
  have hk := keyAt_swapAt (cmp := cmp) (xs := xs) (a := i) (b := m) (by omega) (by omega)
  have hmp : (m - 1) / 2 = i := by omega
  constructor
  · intro c hc hcn hlo hpm
    rw [hk, hk]
    by_cases hpi : (c - 1) / 2 = i
    · rw [if_pos hpi, if_neg (show c ≠ i by omega)]
      by_cases hcm : c = m
      · rw [if_pos hcm]; exact hmi
      · rw [if_neg hcm]; exact hleast c (by omega) hcn
    · rw [if_neg hpi, if_neg hpm]
      by_cases hci : c = i
      · subst hci
        rw [if_pos rfl]
        exact h2 m (by omega) hmn hmp hc hlo
      · rw [if_neg hci, if_neg (show c ≠ m by rintro rfl; exact hpi hmp)]
        exact h1 c hc hcn hlo hpi
  · intro c hc hcn hcm _ hlo
    rw [hmp, hk, hk, if_pos rfl, if_neg (show c ≠ i by omega), if_neg (show c ≠ m by omega), ← hcm]
    exact h1 c hc hcn (by omega) (by omega)

/-- `sift_down` restores the heap (R142). -/
theorem heapFrom_siftDown {lo i : Nat} {rounds : Nat} (hn : n ≤ xs.length) (hr : n ≤ i + rounds)
    (h : HeapBut cmp lo n i xs) : HeapFrom cmp lo n (siftDown cmp n rounds i xs) := by
  induction rounds generalizing i xs with
  | zero => exact fun c hc hcn hlo => h.1 c hc hcn hlo (by omega)
  | succ k ih =>
    by_cases hi : i < n
    · obtain ⟨hm, hmn, hmi, hleast⟩ := siftChoice_spec cmp hn hi
      rw [siftDown]
      by_cases he : siftChoice cmp n i xs = i
      · simp only [if_pos he]
        intro c hc hcn hlo
        by_cases hp : (c - 1) / 2 = i
        · rw [he] at hleast
          rw [hp]
          exact hleast c (by omega) hcn
        · exact h.1 c hc hcn hlo hp
      · simp only [if_neg he]
        have hm := hm.resolve_left he
        exact ih (by rw [(rearrangedBelow_swapAt hn hi hmn).perm.length_eq]; exact hn) (by omega)
          (heapBut_swapAt hn hi h hm hmn hmi hleast)
    · rw [siftDown, if_pos (siftChoice_of_le (by omega))]
      exact fun c hc hcn hlo => h.1 c hc hcn hlo (by omega)

/-! ### `heap_build` and `heap_extract_min` -/

theorem rearrangedBelow_buildFrom (cmp : Cmp) (hn : n ≤ xs.length) (k : Nat) :
    RearrangedBelow n xs (buildFrom cmp n k xs) := by
  induction k generalizing xs with
  | zero => exact .refl n xs
  | succ k ih =>
    have hs := rearrangedBelow_siftDown cmp hn n k
    exact hs.trans (ih (by rw [hs.perm.length_eq]; exact hn))

theorem heapFrom_buildFrom {k : Nat} (hn : n ≤ xs.length) (h : HeapFrom cmp k n xs) :
    HeapFrom cmp 0 n (buildFrom cmp n k xs) := by
  induction k generalizing xs with
  | zero => exact h
  | succ k ih =>
    have hbut : HeapBut cmp k n k xs :=
      ⟨fun c hc hcn hlo hne => h c hc hcn (by omega), fun c _ _ _ hk hlo => by omega⟩
    exact ih (by rw [(rearrangedBelow_siftDown cmp hn n k).perm.length_eq]; exact hn)
      (heapFrom_siftDown hn (by omega) hbut)

/-- `heap_build` makes a heap of the whole (R143). -/
theorem heapFrom_heapBuild (cmp : Cmp) (hn : n ≤ xs.length) : HeapFrom cmp 0 n (heapBuild cmp n xs) :=
  heapFrom_buildFrom hn fun c hc hcn hlo => by omega

/-- The root of a heap has the least key. -/
theorem keyAt_root_le (h : HeapFrom cmp 0 n xs) {i : Nat} (hi : i < n) : keyAt cmp xs 0 ≤ keyAt cmp xs i := by
  induction i using Nat.strongRecOn with
  | _ i ih =>
    by_cases h0 : i = 0
    · exact Nat.le_of_eq (by rw [h0])
    · exact Nat.le_trans (ih ((i - 1) / 2) (by omega) (by omega)) (h i (by omega) hi (Nat.zero_le _))

/-- A heap on `0 .. h-1`, and beyond it the records extracted, the last the least, none above a record before it. -/
structure Extracting (cmp : Cmp) (h : Nat) (xs : List SymRec) : Prop where
  bound : h ≤ xs.length
  heap : HeapFrom cmp 0 h xs
  order : ∀ i j, i < j → h ≤ j → j < xs.length → keyAt cmp xs j ≤ keyAt cmp xs i

theorem rearrangedBelow_extractMin (cmp : Cmp) {h : Nat} (hb : h + 1 ≤ xs.length) :
    RearrangedBelow (h + 1) xs (extractMin cmp h xs) := by
  have hs := rearrangedBelow_swapAt hb (Nat.succ_pos h) (Nat.lt_succ_self h)
  have hd := rearrangedBelow_siftDown cmp (n := h) (xs := swapAt xs 0 h) (by rw [hs.perm.length_eq]; omega) h 0
  refine hs.trans ⟨hd.perm, fun j hj => hd.above j (by omega), fun j hj => ?_⟩
  by_cases hjh : j = h
  · exact ⟨h, by omega, by rw [hjh]; exact hd.above h (Nat.le_refl h)⟩
  · obtain ⟨k, hk, e⟩ := hd.below j (by omega)
    exact ⟨k, by omega, e⟩

/-- `heap_extract_min` moves the least record behind the heap (R144). -/
theorem Extracting.extractMin {h : Nat} (he : Extracting cmp (h + 1) xs) : Extracting cmp h (extractMin cmp h xs) := by
  obtain ⟨hb, hheap, horder⟩ := he
  have hswap := keyAt_swapAt (cmp := cmp) (xs := xs) (a := 0) (b := h) (by omega) (by omega)
  have hlen : (swapAt xs 0 h).length = xs.length :=
    (rearrangedBelow_swapAt hb (Nat.succ_pos h) (Nat.lt_succ_self h)).perm.length_eq
  have hall := rearrangedBelow_extractMin cmp hb
  have hd := rearrangedBelow_siftDown cmp (n := h) (xs := swapAt xs 0 h) (by omega) h 0
  have habove : ∀ j, h < j → keyAt cmp (Machine.extractMin cmp h xs) j = keyAt cmp xs j :=
    fun j hj => keyAt_congr (hall.above j hj)
  have hlast : keyAt cmp (Machine.extractMin cmp h xs) h = keyAt cmp xs 0 := by
    rw [Machine.extractMin, keyAt_congr (hd.above h (Nat.le_refl h)), hswap]
    split
    · rename_i h0; rw [h0]
    · rw [if_pos rfl]
  have hbelow : ∀ i, i ≤ h → ∃ k, k ≤ h ∧ keyAt cmp (Machine.extractMin cmp h xs) i = keyAt cmp xs k := fun i hi => by
    obtain ⟨k, hk, e⟩ := hall.below i (by omega)
    exact ⟨k, by omega, keyAt_congr e⟩
  refine ⟨by rw [hall.perm.length_eq]; omega, ?_, ?_⟩
  · refine heapFrom_siftDown (by omega) (by omega) ⟨fun c hc hcn _ hp => ?_, fun c _ _ _ h0 => by omega⟩
    rw [hswap, hswap, if_neg hp, if_neg (by omega), if_neg (by omega), if_neg (by omega)]
    exact hheap c hc (by omega) (Nat.zero_le _)
  · intro i j hij hj hjl
    rw [hall.perm.length_eq] at hjl
    by_cases hjh : j = h
    · subst hjh
      obtain ⟨k, hk, e⟩ := hbelow i (by omega)
      rw [hlast, e]
      exact keyAt_root_le hheap (by omega)
    · rw [habove j (by omega)]
      by_cases hi : i ≤ h
      · obtain ⟨k, hk, e⟩ := hbelow i hi
        rw [e]
        exact horder k j (by omega) (by omega) hjl
      · rw [habove i (by omega)]
        exact horder i j hij (by omega) hjl

theorem perm_extractAll (cmp : Cmp) {h : Nat} (hb : h ≤ xs.length) : (extractAll cmp h xs).Perm xs := by
  induction h generalizing xs with
  | zero => exact .refl xs
  | succ h ih =>
    rw [extractAll]
    split
    · exact .refl xs
    · have hp := (rearrangedBelow_extractMin cmp hb).perm
      exact (ih (by rw [hp.length_eq]; omega)).trans hp

/-- When the heap is empty the records stand in non-increasing order. -/
theorem extractAll_order {h : Nat} (he : Extracting cmp h xs) {i j : Nat} (hij : i < j)
    (hj : j < (extractAll cmp h xs).length) :
    keyAt cmp (extractAll cmp h xs) j ≤ keyAt cmp (extractAll cmp h xs) i := by
  induction h generalizing xs with
  | zero => exact he.order i j hij (Nat.zero_le j) hj
  | succ h ih =>
    rw [extractAll] at hj ⊢
    split
    · rename_i h0
      rw [if_pos h0] at hj
      exact he.order i j hij (by omega) hj
    · rename_i h0
      rw [if_neg h0] at hj
      exact ih he.extractMin hj

/-! ### The reversal, and the sort -/

theorem perm_reverseFrom {c i : Nat} (hc : 2 * (i + c) ≤ xs.length) : (reverseFrom xs.length c i xs).Perm xs := by
  induction c generalizing i xs with
  | zero => exact .refl xs
  | succ c ih =>
    have hs := (rearrangedBelow_swapAt (xs := xs) (Nat.le_refl _) (a := i) (b := xs.length - 1 - i) (by omega)
      (by omega)).perm
    have hr := ih (xs := swapAt xs i (xs.length - 1 - i)) (i := i + 1) (by rw [hs.length_eq]; omega)
    rw [hs.length_eq] at hr
    exact hr.trans hs

/-- The rounds from `i` on have exchanged each place they reached with its mirror. -/
theorem keyAt_reverseFrom {c i : Nat} (hc : 2 * (i + c) ≤ xs.length) {j : Nat} (hj : j < xs.length) :
    keyAt cmp (reverseFrom xs.length c i xs) j =
      if i ≤ min j (xs.length - 1 - j) ∧ min j (xs.length - 1 - j) < i + c then keyAt cmp xs (xs.length - 1 - j)
      else keyAt cmp xs j := by
  induction c generalizing i xs with
  | zero => rw [if_neg (by omega)]; rfl
  | succ c ih =>
    have hs := (rearrangedBelow_swapAt (xs := xs) (Nat.le_refl _) (a := i) (b := xs.length - 1 - i) (by omega)
      (by omega)).perm
    have hk := keyAt_swapAt (cmp := cmp) (xs := xs) (a := i) (b := xs.length - 1 - i) (by omega) (by omega)
    have := ih (xs := swapAt xs i (xs.length - 1 - i)) (i := i + 1) (by rw [hs.length_eq]; omega)
      (by rw [hs.length_eq]; exact hj)
    rw [hs.length_eq, hk, hk] at this
    rw [reverseFrom, this]
    by_cases h1 : j = i
    · subst h1
      rw [if_neg (by omega), if_pos rfl, if_pos (by omega)]
    · by_cases h2 : j = xs.length - 1 - i
      · rw [if_neg (by omega), if_neg h1, if_pos h2, if_pos (by omega)]
        congr 1
        omega
      · rw [if_neg h1, if_neg h2, if_neg (show ¬ xs.length - 1 - j = i by omega),
          if_neg (show ¬ xs.length - 1 - j = xs.length - 1 - i by omega)]
        by_cases h3 : i + 1 ≤ min j (xs.length - 1 - j) ∧ min j (xs.length - 1 - j) < i + 1 + c
        · rw [if_pos h3, if_pos (by omega)]
        · rw [if_neg h3, if_neg (by omega)]

theorem perm_heapBuild (cmp : Cmp) (xs : List SymRec) : (heapBuild cmp xs.length xs).Perm xs :=
  (rearrangedBelow_buildFrom cmp (Nat.le_refl _) _).perm

/-- `heap_sort` permutes the records (R145). -/
theorem perm_heapSort (cmp : Cmp) (xs : List SymRec) : (heapSort cmp xs).Perm xs := by
  have hb := perm_heapBuild cmp xs
  have he := perm_extractAll cmp (h := xs.length) (Nat.le_of_eq hb.length_eq.symm)
  have hr := perm_reverseFrom (xs := extractAll cmp xs.length (heapBuild cmp xs.length xs)) (c := xs.length / 2) (i := 0)
    (by rw [he.length_eq, hb.length_eq]; omega)
  rw [he.length_eq, hb.length_eq] at hr
  exact hr.trans (he.trans hb)

/-- `heap_sort` leaves the records in non-decreasing order (R145, R146). -/
theorem pairwise_heapSort (cmp : Cmp) (xs : List SymRec) :
    (heapSort cmp xs).Pairwise fun a b => key cmp a ≤ key cmp b := by
  have hb := perm_heapBuild cmp xs
  have hlen := (perm_extractAll cmp (h := xs.length) (Nat.le_of_eq hb.length_eq.symm)).length_eq.trans hb.length_eq
  have hstart : Extracting cmp xs.length (heapBuild cmp xs.length xs) :=
    ⟨Nat.le_of_eq hb.length_eq.symm, heapFrom_heapBuild cmp (Nat.le_refl _), fun i j _ hj hl => by
      rw [hb.length_eq] at hl; omega⟩
  have hrev : ∀ j, j < xs.length → keyAt cmp (heapSort cmp xs) j =
      keyAt cmp (extractAll cmp xs.length (heapBuild cmp xs.length xs)) (xs.length - 1 - j) := fun j hj => by
    have := keyAt_reverseFrom (cmp := cmp) (xs := extractAll cmp xs.length (heapBuild cmp xs.length xs))
      (c := xs.length / 2) (i := 0) (by rw [hlen]; omega) (j := j) (by rw [hlen]; exact hj)
    rw [hlen] at this
    rw [heapSort, this]
    split
    · rfl
    · congr 1; omega
  rw [List.pairwise_iff_getElem]
  intro i j hi hj hij
  rw [(perm_heapSort cmp xs).length_eq] at hi hj
  rw [← keyAt_eq, ← keyAt_eq, hrev i hi, hrev j hj]
  exact extractAll_order hstart (by omega) (by rw [hlen]; omega)

end Sys2Proof.Machine
end

section
/-!
SUPPORT. The phase table (`10_state.md` R39), the commands on the symbol table: `CLR`, `SCAN`, `PACK`, `HSORT`. Claims about
the records of the table are moved to the table as a list.
-/
namespace Sys2Proof.Machine

/-! ### What every command is shown to do -/

/-- The state is as the phase table says, and IN is `m`. -/
def TabledOn (m : Memory) (s : State) : Prop := PhaseTable s ∧ s.input = m

/-- The host did not supply a byte of IN that was read (log 4). -/
def MissingIn (m : Memory) (f : Fault) : Prop := ∃ a, f = .inputNotSupplied a ∧ Store.read m a = none

/-- An error was raised. -/
def InError (s : State) : Prop := s.phase = .error

/-- The ends a command may have from a state of the phase table: a state of the table in phase `p`, an error, or a missing
byte of IN. -/
abbrev EndsTabled (m : Memory) (p : Phase) (r : Res Unit) : Prop :=
  r.Ends (fun _ t => TabledOn m t ∧ t.phase = p) InError (MissingIn m)

theorem inError_raise (kind : ErrKind) (sub : BitVec 8) (info : Nat) (s : State) : InError (raise kind sub info s) := rfl

/-- A command that reads IN below `LEN` stops only at a byte the host did not supply. -/
theorem reader_missingIn {m : Memory} {n : BitVec 32} {P : State → Prop} (hpop : ∀ s, P s → P (popAnswer s))
    (hin : ∀ s, P s → s.input = m) (hlen : ∀ s, P s → s.len = n) : Reader n.toNat P InError (MissingIn m) where
  pop := hpop
  raised _ _ _ _ _ _ := rfl
  missing s a h hb := ⟨a, rfl, by rw [← hin s h]; exact hb⟩
  range s a h ha hl := by rw [hlen s h] at hl; omega

/-! ### The table as a list -/

variable {s t : State} {rs ys : List SymRec}

theorem Table.read (h : Table rs s) {i : Nat} (hi : i < s.nsym.toNat) : Store.read s.sym i = rs[i]? :=
  h.2 i (by rw [← h.1]; exact hi)

/-- Records that are held form a list. -/
theorem exists_table (h : ∀ i, i < s.nsym.toNat → ∃ r, Store.read s.sym i = some r) : ∃ rs, Table rs s := by
  rcases readSyms_cases s.nsym.toNat 0 s with ⟨rs, hl, hrs, -⟩ | ⟨k, -, hk, hn, -⟩
  · exact ⟨rs, hl.symm, fun k hk => by simpa using hrs k (by omega)⟩
  · obtain ⟨r, hr⟩ := h k (by omega)
    rw [hr] at hn
    cases hn

theorem Table.mem_iff (h : Table rs s) {r : SymRec} :
    r ∈ rs ↔ ∃ i, i < s.nsym.toNat ∧ Store.read s.sym i = some r := by
  rw [List.mem_iff_getElem?]
  refine exists_congr fun i => ⟨fun hr => ?_, fun ⟨hi, hr⟩ => by rwa [h.read hi] at hr⟩
  have hi : i < s.nsym.toNat := by rw [h.1]; exact (List.getElem?_eq_some_iff.1 hr).1
  exact ⟨hi, by rw [h.read hi]; exact hr⟩

theorem Table.exists_iff (h : Table rs s) {p : SymRec → Prop} :
    (∀ i, i < s.nsym.toNat → ∃ r, Store.read s.sym i = some r ∧ p r) ↔ ∀ r ∈ rs, p r := by
  constructor
  · intro hp r hr
    obtain ⟨i, hi, hri⟩ := h.mem_iff.1 hr
    obtain ⟨q, hq, hpq⟩ := hp i hi
    rw [hri] at hq
    cases hq
    exact hpq
  · intro hp i hi
    have hl : i < rs.length := by rw [← h.1]; exact hi
    exact ⟨rs[i], by rw [h.read hi, List.getElem?_eq_getElem hl], hp _ (List.getElem_mem hl)⟩

theorem Table.forall_iff (h : Table rs s) {p : SymRec → Prop} :
    (∀ i r, i < s.nsym.toNat → Store.read s.sym i = some r → p r) ↔ ∀ r ∈ rs, p r := by
  refine ⟨fun hp r hr => ?_, fun hp i r hi hr => hp r (h.mem_iff.2 ⟨i, hi, hr⟩)⟩
  obtain ⟨i, hi, hr⟩ := h.mem_iff.1 hr
  exact hp i r hi hr

theorem Table.pairwise_iff (h : Table rs s) {R : SymRec → SymRec → Prop} :
    (∀ i j r q, i < j → j < s.nsym.toNat → Store.read s.sym i = some r → Store.read s.sym j = some q → R r q) ↔
      rs.Pairwise R := by
  rw [List.pairwise_iff_getElem]
  constructor
  · intro hp i j hi hj hij
    exact hp i j _ _ hij (by rw [h.1]; exact hj) (by rw [h.read (by rw [h.1]; exact hi), List.getElem?_eq_getElem hi])
      (by rw [h.read (by rw [h.1]; exact hj), List.getElem?_eq_getElem hj])
  · intro hp i j r q hij hj hr hq
    rw [h.read (by omega)] at hr hq
    obtain ⟨hi, rfl⟩ := List.getElem?_eq_some_iff.1 hr
    obtain ⟨hj, rfl⟩ := List.getElem?_eq_some_iff.1 hq
    exact hp i j hi hj hij

/-- A record of `PACKED` to `DONE_C` (R39): observed, its code inside its length. -/
def RecordFits (r : SymRec) : Prop :=
  r.frequency ≠ 0 ∧ r.codeLength.toNat ≤ 64 ∧ r.code.toNat < 2 ^ r.codeLength.toNat

theorem packedForm_iff (h : Table rs s) :
    PackedForm s ↔ rs.length ≤ 256 ∧ s.hsize = s.nsym ∧ s.origLen = s.len ∧ (∀ r ∈ rs, RecordFits r) ∧
      rs.Pairwise fun r q => r.symbol ≠ q.symbol := by
  rw [PackedForm, h.pairwise_iff, h.1]
  refine and_congr_right fun _ => and_congr_right fun _ => and_congr_right fun _ => and_congr_left fun _ => ?_
  rw [← h.1]
  exact h.exists_iff

theorem PackedForm.record (h : PackedForm s) {i : Nat} (hi : i < s.nsym.toNat) :
    ∃ r, Store.read s.sym i = some r ∧ RecordFits r := by
  obtain ⟨-, -, -, hfit, -⟩ := h
  exact hfit i hi

theorem PackedForm.origLen_eq (h : PackedForm s) : s.origLen = s.len := by
  obtain ⟨-, -, ho, -⟩ := h
  exact ho

/-! ### `CLR` and `SCAN` -/

theorem read_freshTable {i : Nat} (hi : i < 256) : Store.read freshTable i = some (freshRecord i) := by
  simp [freshTable, Config.alphabet, hi]

/-- `CLR` leaves the records in index order (R120). -/
theorem clr_tabled (s : State) : EndsTabled s.input .cleared (clrBody s) :=
  ⟨⟨⟨rfl, rfl, rfl, rfl, fun _ hi => ⟨0, read_freshTable hi⟩⟩, rfl⟩, rfl⟩

/-- Counting changes a frequency and no more (R122). -/
theorem freshForm_count {i : Nat} {r : SymRec} (f : BitVec 32) (h : FreshForm s) (hr : Store.read s.sym i = some r) :
    FreshForm (writeSym i { r with frequency := f } s) := by
  obtain ⟨h1, h2, h3, h4, h⟩ := h
  refine ⟨h1, h2, h3, h4, fun k hk => ?_⟩
  show ∃ f', Store.read (Store.write s.sym i { r with frequency := f }) k = _
  rw [Store.read_write]
  split
  · rename_i hki
    obtain ⟨g, hg⟩ := h k hk
    rw [hki, hr] at hg
    cases hg
    exact ⟨f, by rw [hki]⟩
  · exact h k hk

theorem scan_tabled (h : FreshForm s) : EndsTabled s.input .counted (scanBody s) := by
  have hr : Reader s.len.toNat (fun t => FreshForm t ∧ t.input = s.input ∧ t.len = s.len) InError (MissingIn s.input) :=
    reader_missingIn (fun _ h => h) (fun _ h => h.2.1) fun _ h => h.2.2
  refine (hr.scanBody (fun t i r f ht hi => ⟨freshForm_count f ht.1 hi, ht.2⟩) (fun t i ht hi hn => ?_)
    ⟨h, rfl, rfl⟩).imp fun _ t ht => ?_
  · obtain ⟨⟨-, -, -, -, hfresh⟩, -⟩ := ht
    obtain ⟨f, hf⟩ := hfresh i hi
    rw [hf] at hn
    cases hn
  · obtain ⟨u, hu, rfl⟩ := ht
    exact ⟨⟨⟨hu.1, rfl⟩, hu.2.1⟩, rfl⟩

/-! ### `PACK` -/

/-- The records with a frequency, in order (R124). -/
def observed (rs : List SymRec) : List SymRec := rs.filter fun r => r.frequency ≠ 0

/-- `PACK`'s loop over records that are held moves those with a frequency down (R124). -/
theorem packFrom_holds {i j : Nat} (h : ∀ k, k < rs.length → Store.read s.sym (i + k) = rs[k]?) (hj : j ≤ i) :
    packFrom rs.length i j s =
      .ok (j + (observed rs).length)
        { s with sym := Store.writeList s.sym j (observed rs) } := by
  induction rs generalizing i j s with
  | nil => rfl
  | cons r rs ih =>
    have h0 : Store.read s.sym i = some r := by simpa using h 0 (by simp)
    have hrest : ∀ k, k < rs.length → Store.read s.sym (i + 1 + k) = rs[k]? := fun k hk => by
      simpa [Nat.add_assoc, Nat.add_comm 1 k] using h (k + 1) (by simpa using hk)
    rw [List.length_cons, packFrom, readSym_of_held h0, Res.bind_ok]
    by_cases hf : r.frequency = 0
    · rw [if_neg (not_not_intro hf), ih hrest (by omega), observed, observed, List.filter_cons_of_neg (by simp [hf])]
    · have hobs : observed (r :: rs) = r :: observed rs := List.filter_cons_of_pos (decide_eq_true hf)
      rw [if_pos hf, ih (s := writeSym j r s) (fun k hk => ?_) (by omega), hobs, List.length_cons, ← Nat.add_assoc,
        Nat.add_right_comm]
      · rfl
      · exact (Store.read_write_other _ _ (by omega)).trans (hrest k hk)

/-- `PACK` over a table that is held (R124). -/
theorem packBody_holds (hl : rs.length = 256) (h : Store.Holds s.sym rs) :
    packBody s = .ok () (setPhase .packed
      { s with sym := Store.writeList s.sym 0 (observed rs)
               nsym := BitVec.ofNat 9 (observed rs).length
               hsize := BitVec.ofNat 9 (observed rs).length
               empty := emptyFlag (observed rs).length }) := by
  have hp := packFrom_holds (s := s) (i := 0) (j := 0) (rs := rs) (fun k hk => by simpa using h k hk) (Nat.le_refl 0)
  rw [packBody, Config.alphabet, ← hl, hp, Nat.zero_add]
  rfl

/-- A list written over the table, `NSYM` its length, is the table. -/
theorem table_writeList (hn : t.nsym.toNat = ys.length) {m : Store SymRec} (hs : t.sym = Store.writeList m 0 ys) :
    Table ys t :=
  ⟨hn, by rw [hs]; exact Store.holds_writeList m ys⟩

theorem freshForm_table (h : FreshForm s) : ∃ rs, Table rs s ∧ rs.length = 256 ∧ (∀ r ∈ rs, r.code = 0 ∧ r.codeLength = 0) ∧
    rs.Pairwise fun r q => r.symbol < q.symbol := by
  obtain ⟨hn, -, -, -, h⟩ := h
  have hn : s.nsym.toNat = 256 := by rw [hn]; rfl
  obtain ⟨rs, ht⟩ := exists_table (s := s) fun i hi => by
    obtain ⟨f, hf⟩ := h i (by omega)
    exact ⟨_, hf⟩
  refine ⟨rs, ht, by rw [← ht.1, hn], ht.forall_iff.1 fun i r hi hr => ?_, ht.pairwise_iff.1 fun i j r q hij hj hr hq => ?_⟩
  · obtain ⟨f, hf⟩ := h i (by omega)
    rw [hr] at hf
    cases hf
    exact ⟨rfl, rfl⟩
  · obtain ⟨f, hf⟩ := h i (by omega)
    obtain ⟨g, hg⟩ := h j (by omega)
    rw [hr] at hf
    rw [hq] at hg
    cases hf
    cases hg
    rw [BitVec.lt_def, BitVec.toNat_ofNat, BitVec.toNat_ofNat]
    omega

/-- `PACK` keeps the observed records, in the order of their symbols (R124, R39). -/
theorem pack_tabled (h : FreshForm s) (ho : s.origLen = s.len) : EndsTabled s.input .packed (packBody s) := by
  obtain ⟨rs, ht, hl, hcodes, hsyms⟩ := freshForm_table h
  rw [packBody_holds hl ht.2]
  obtain ⟨-, -, hnn, hroot, -⟩ := h
  have hk : (observed rs).length ≤ 256 := by rw [← hl]; exact List.length_filter_le _ _
  have hsyms' : (observed rs).Pairwise fun r q => r.symbol < q.symbol := hsyms.filter _
  have ht' := table_writeList (ys := observed rs) (t := setPhase .packed
    { s with sym := Store.writeList s.sym 0 (observed rs)
             nsym := BitVec.ofNat 9 (observed rs).length
             hsize := BitVec.ofNat 9 (observed rs).length
             empty := emptyFlag (observed rs).length })
    (by rw [setPhase_nsym, BitVec.toNat_ofNat]; omega) rfl
  refine ⟨⟨⟨(packedForm_iff ht').2 ⟨hk, rfl, ho, fun r hr => ?_, hsyms'.imp fun hlt => BitVec.ne_of_lt hlt⟩,
    ht'.forall_iff.2 fun r hr => hcodes r (List.mem_filter.1 hr).1, ht'.pairwise_iff.2 hsyms', hnn, hroot⟩, rfl⟩, rfl⟩
  obtain ⟨hr, hf⟩ := List.mem_filter.1 hr
  obtain ⟨hc, hlen⟩ := hcodes r hr
  refine ⟨by simpa using hf, by rw [hlen]; decide, by rw [hc, hlen]; decide⟩

/-! ### `HSORT` -/

/-- `HSORT` over a packed table: the sorted list is the table, and nothing else but `HSIZE` changes (R146). -/
theorem hsortBody_packed (cmp : Cmp) (h : PackedForm s) :
    ∃ rs t, Table rs s ∧ Table (heapSort cmp rs) t ∧ hsortBody cmp s = .ok () t ∧
      t = { s with sym := t.sym, hsize := s.nsym, phase := sortedPhase cmp } := by
  rcases hsortBody_cases cmp s with ⟨rs, ht, e⟩ | ⟨k, hk, hn, -⟩
  · exact ⟨rs, _, ht, table_writeList (by rw [(perm_heapSort cmp rs).length_eq]; exact ht.1) rfl, e, rfl⟩
  · obtain ⟨r, hr, -⟩ := h.record hk
    rw [hr] at hn
    cases hn

/-- The same records in another order are as well packed. -/
theorem packedForm_of_perm (h : PackedForm s) (hs : Table rs s) (ht : Table ys t) (hp : ys.Perm rs)
    (hsize : t.hsize = t.nsym) (ho : t.origLen = t.len) : PackedForm t := by
  obtain ⟨hl, -, -, hfit, hne⟩ := (packedForm_iff hs).1 h
  exact (packedForm_iff ht).2 ⟨by rw [hp.length_eq]; exact hl, hsize, ho, fun r hr => hfit r (hp.mem_iff.1 hr),
    (hp.pairwise_iff fun hxy => hxy.symm).2 hne⟩

theorem hsortF_tabled (h : PackedForm s) (hc : NoCodes s) (hn : s.nnode = 0) (hr : s.root = none) :
    EndsTabled s.input .fsorted (hsortBody .freq s) := by
  obtain ⟨rs, t, hs, ht, e, hframe⟩ := hsortBody_packed .freq h
  rw [e]
  have hp := perm_heapSort .freq rs
  have hpacked : PackedForm t := packedForm_of_perm h hs ht hp (by rw [hframe]) (by rw [hframe]; exact h.origLen_eq)
  have hcodes : NoCodes t := ht.forall_iff.2 fun r hr => hs.forall_iff.1 hc r (hp.mem_iff.1 hr)
  have horder : FrequencyOrder t := ht.pairwise_iff.2 ((pairwise_heapSort .freq rs).imp fun hle => BitVec.le_def.2 hle)
  have hphase : t.phase = .fsorted := by rw [hframe]; rfl
  refine ⟨⟨?_, by rw [hframe]⟩, hphase⟩
  rw [PhaseTable, hphase]
  exact ⟨hpacked, hcodes, horder, by rw [hframe]; exact hn, by rw [hframe]; exact hr⟩

/-- A tree stays a tree over the table while the table keeps its symbols. -/
theorem BuiltTree.of_symbols (h : BuiltTree s) (hn : t.nsym = s.nsym) (hnode : t.node = s.node) (hnn : t.nnode = s.nnode)
    (hroot : t.root = s.root) (hsym : ∀ i q, i < s.nsym.toNat → Store.read s.sym i = some q →
      ∃ k p, k < t.nsym.toNat ∧ Store.read t.sym k = some p ∧ p.symbol = q.symbol) : BuiltTree t := by
  obtain ⟨h1, h2, h⟩ := h
  refine ⟨by rw [hnn, hn]; exact h1, by rw [hroot, hn]; exact h2, fun j hj => ?_⟩
  rw [hnn] at hj
  rw [hnode]
  obtain ⟨r, hr, ⟨hl, hleft, hright, i, q, hi, hq, he⟩ | hinner⟩ := h j hj
  · obtain ⟨k, p, hk, hp, hpq⟩ := hsym i q hi hq
    exact ⟨r, hr, .inl ⟨hl, hleft, hright, k, p, hk, hp, hpq.trans he⟩⟩
  · exact ⟨r, hr, .inr hinner⟩

theorem hsortS_tabled (h : PackedForm s) (hb : BuiltTree s) : EndsTabled s.input .ssorted (hsortBody .sym s) := by
  obtain ⟨rs, t, hs, ht, e, hframe⟩ := hsortBody_packed .sym h
  rw [e]
  have hp := perm_heapSort .sym rs
  have hpacked : PackedForm t := packedForm_of_perm h hs ht hp (by rw [hframe]) (by rw [hframe]; exact h.origLen_eq)
  obtain ⟨-, -, -, -, hne⟩ := (packedForm_iff ht).1 hpacked
  have horder : SymbolOrder t := ht.pairwise_iff.2 ((pairwise_heapSort .sym rs).imp₂ (fun r q hle hne =>
    BitVec.lt_def.2 (Nat.lt_of_le_of_ne hle fun e => hne (BitVec.eq_of_toNat_eq e))) hne)
  have htree : BuiltTree t := by
    refine hb.of_symbols (by rw [hframe]) (by rw [hframe]) (by rw [hframe]) (by rw [hframe]) fun i q hi hq => ?_
    obtain ⟨k, hk, hr⟩ := ht.mem_iff.1 (hp.mem_iff.2 (hs.mem_iff.2 ⟨i, hi, hq⟩))
    exact ⟨k, q, hk, hr, rfl⟩
  have hphase : t.phase = .ssorted := by rw [hframe]; rfl
  refine ⟨⟨?_, by rw [hframe]⟩, hphase⟩
  rw [PhaseTable, hphase]
  exact ⟨hpacked, horder, htree⟩

end Sys2Proof.Machine
end

section
/-!
SUPPORT. The phase table, the tree and the codes: `TREE` always has two nodes to merge (`42_tree_builder.md` R161, R162), and
`CODES` meets only nodes of the tree and symbols of the table (`43_code_table.md` R182).
-/
namespace Sys2Proof.Machine

variable {s t : State} {n m : Nat} {h : Heads}

/-! ### `TREE` -/

/-- The nodes in use are leaves of symbols of the table, or internal nodes with two children of smaller index. -/
def NodesBuilt (s : State) : Prop :=
  ∀ j, j < s.nnode.toNat → ∃ r, Store.read s.node j = some r ∧
    ((r.leaf = true ∧ r.left = none ∧ r.right = none ∧
        ∃ i q, i < s.nsym.toNat ∧ Store.read s.sym i = some q ∧ q.symbol = r.symbol) ∨
      (r.leaf = false ∧ ∃ a b, a < j ∧ b < j ∧ r.left = some a ∧ r.right = some b))

theorem NodesBuilt.held (hb : NodesBuilt s) {j : Nat} (hj : j < s.nnode.toNat) : ∃ r, Store.read s.node j = some r :=
  let ⟨r, hr, _⟩ := hb j hj
  ⟨r, hr⟩

theorem toNat_nnode_succ (hn : s.nnode.toNat + 1 < 2 ^ 15) : (s.nnode + 1).toNat = s.nnode.toNat + 1 := by
  rw [BitVec.toNat_add]
  exact Nat.mod_eq_of_lt hn

theorem NodesBuilt.allocInner (hb : NodesBuilt s) (hn : s.nnode.toNat + 1 < 2 ^ 15) {a b : Nat} (ha : a < s.nnode.toNat)
    (hb' : b < s.nnode.toNat) (f : BitVec 32) : NodesBuilt (allocNode (innerNode f (some a) (some b)) s) := by
  intro j hj
  have hj : j < s.nnode.toNat + 1 := by rwa [← toNat_nnode_succ hn]
  by_cases hnew : j = s.nnode.toNat
  · subst hnew
    exact ⟨_, Store.read_write_same _ _ _, .inr ⟨rfl, a, b, ha, hb', rfl, rfl⟩⟩
  · obtain ⟨r, hr, hcases⟩ := hb j (by omega)
    exact ⟨r, (Store.read_write_other _ _ hnew).trans hr, hcases⟩

/-- `m` merges of `n` leaves are done: the queues lie inside the nodes in use, and each merge took two records. -/
structure Merging (n m : Nat) (h : Heads) (s : State) : Prop where
  nodes : NodesBuilt s
  count : s.nnode.toNat = n + m
  leaves : h.lq ≤ n
  first : n ≤ h.iq
  inner : h.iq ≤ n + m
  taken : h.lq + h.iq = n + 2 * m

/-- `pick` takes a record where one is left (R161). -/
theorem pick_takes (hb : NodesBuilt s) (hcount : s.nnode.toNat = n + m) (hl : h.lq ≤ n) (hf : n ≤ h.iq)
    (hi : h.iq ≤ n + m) (hleft : h.lq + h.iq < n + (n + m)) :
    ∃ a h', pick n h s = .ok (a, h') s ∧ a < s.nnode.toNat ∧ h'.lq ≤ n ∧ n ≤ h'.iq ∧ h'.iq ≤ n + m ∧
      h'.lq + h'.iq = h.lq + h.iq + 1 := by
  unfold pick
  by_cases hlq : h.lq < n
  · have leaf : ∃ a h', takeLeaf h s = .ok (a, h') s ∧ a < s.nnode.toNat ∧ h'.lq ≤ n ∧ n ≤ h'.iq ∧ h'.iq ≤ n + m ∧
        h'.lq + h'.iq = h.lq + h.iq + 1 :=
      ⟨_, _, rfl, by omega, hlq, hf, hi, Nat.add_right_comm _ _ _⟩
    rw [if_pos hlq]
    by_cases hiq : h.iq < s.nnode.toNat
    · obtain ⟨l, hl'⟩ := hb.held (j := h.lq) (by omega)
      obtain ⟨r, hr'⟩ := hb.held hiq
      rw [if_pos hiq, readNode_of_held hl', Res.bind_ok, readNode_of_held hr', Res.bind_ok]
      split
      · exact leaf
      · exact ⟨_, _, rfl, hiq, hl, by show n ≤ h.iq + 1; omega, by show h.iq + 1 ≤ n + m; omega, rfl⟩
    · rw [if_neg hiq]
      exact leaf
  · rw [if_neg hlq]
    exact ⟨_, _, rfl, by omega, hl, by show n ≤ h.iq + 1; omega, by show h.iq + 1 ≤ n + m; omega, rfl⟩

/-- A merge goes on while two records are left (R162). -/
theorem Merging.merge (hm : Merging n m h s) (hn : n ≤ 256) (hmn : m + 1 < n) :
    ∃ h' t, merge n h s = .ok h' t ∧ Merging n (m + 1) h' t ∧ ∃ x k, t = { s with node := x, nnode := k } := by
  obtain ⟨hb, hcount, hl, hf, hi, htaken⟩ := hm
  obtain ⟨a, h1, e1, ha, hl1, hf1, hi1, ht1⟩ := pick_takes hb hcount hl hf hi (by omega)
  obtain ⟨b, h2, e2, hb2, hl2, hf2, hi2, ht2⟩ := pick_takes hb hcount hl1 hf1 hi1 (by omega)
  obtain ⟨ra, hra⟩ := hb.held ha
  obtain ⟨rb, hrb⟩ := hb.held hb2
  refine ⟨h2, allocNode (innerNode (ra.frequency + rb.frequency) (some a) (some b)) s, ?_, ?_, _, _, rfl⟩
  · simp only [Machine.merge, e1, e2, Res.bind_ok, readNode_of_held hra, readNode_of_held hrb]
  · exact ⟨hb.allocInner (by omega) ha hb2 _, (toNat_nnode_succ (by omega)).trans (by omega), hl2, hf2, by omega, by omega⟩

theorem Merging.mergeTimes (hm : Merging n m h s) (hn : n ≤ 256) {k : Nat} (hk : m + k < n) :
    ∃ h' t, mergeTimes n k h s = .ok () t ∧ Merging n (m + k) h' t ∧ ∃ x j, t = { s with node := x, nnode := j } := by
  induction k generalizing m h s with
  | zero => exact ⟨h, s, rfl, hm, _, _, rfl⟩
  | succ k ih =>
    obtain ⟨h1, t, e, hm1, x, j, rfl⟩ := hm.merge hn (by omega)
    obtain ⟨h2, u, e2, hm2, y, l, rfl⟩ := ih hm1 (by omega)
    exact ⟨h2, _, by rw [Machine.mergeTimes, e, Res.bind_ok, e2], by rwa [Nat.add_assoc, Nat.add_comm 1] at hm2, y, l, rfl⟩

/-- The leaf copy of `TREE` (R162). -/
theorem copyLeaves_runs (hsym : ∀ i, i < s.nsym.toNat → ∃ r, Store.read s.sym i = some r) :
    ∃ x, forUp copyLeaf s.nsym.toNat 0 s = .ok () { s with node := x } ∧
      ∀ k, k < s.nsym.toNat → ∃ r, Store.read s.sym k = some r ∧
        Store.read x k = some (leafNode r.symbol r.frequency) := by
  obtain ⟨t, e, x, rfl, hx⟩ := forUp_runs (body := copyLeaf) (n := s.nsym.toNat) (i := 0) (s := s)
    (I := fun i t => ∃ x, t = { s with node := x } ∧ ∀ k, k < i → ∃ r, Store.read s.sym k = some r ∧
      Store.read x k = some (leafNode r.symbol r.frequency)) ⟨s.node, rfl, fun k hk => absurd hk (Nat.not_lt_zero k)⟩
    (by
      rintro i t - hi ⟨x, rfl, hx⟩
      obtain ⟨r, hr⟩ := hsym i (by omega)
      have hr' : readSym i { s with node := x } = .ok r { s with node := x } := readSym_of_held hr
      refine ⟨writeNode i (leafNode r.symbol r.frequency) { s with node := x },
        by rw [copyLeaf, hr', Res.bind_ok], _, rfl, fun k hk => ?_⟩
      by_cases hki : k = i
      · subst hki
        exact ⟨r, hr, Store.read_write_same _ _ _⟩
      · obtain ⟨q, hq, hqx⟩ := hx k (by omega)
        exact ⟨q, hq, (Store.read_write_other _ _ hki).trans hqx⟩)
  exact ⟨x, e, fun k hk => hx k (by omega)⟩

/-- The nodes are a tree over the table as soon as their number and the root are right. -/
theorem builtTree_of_nodesBuilt (hb : NodesBuilt s) (hn : s.nnode.toNat = 2 * s.nsym.toNat - 1)
    (hr : s.root = if s.nsym.toNat = 0 then none else some (2 * s.nsym.toNat - 2)) : BuiltTree s := ⟨hn, hr, hb⟩

/-- From the leaves on, `TREE` ends with a tree (R162). -/
theorem growTree_builds (hn : s.nsym.toNat ≤ 256) (hcount : s.nnode.toNat = s.nsym.toNat) (hb : NodesBuilt s) :
    ∃ t, growTree s.nsym.toNat s = .ok () t ∧ BuiltTree t ∧ ∃ x k r, t = { s with node := x, nnode := k, root := r } := by
  unfold growTree
  by_cases h0 : s.nsym.toNat = 0
  · rw [if_pos h0]
    exact ⟨_, rfl, builtTree_of_nodesBuilt hb (by show s.nnode.toNat = 2 * s.nsym.toNat - 1; omega) (if_pos h0).symm,
      _, _, _, rfl⟩
  · rw [if_neg h0]
    by_cases h1 : s.nsym.toNat = 1
    · rw [if_pos h1]
      refine ⟨_, rfl, builtTree_of_nodesBuilt hb (by show s.nnode.toNat = 2 * s.nsym.toNat - 1; omega) ?_, _, _, _, rfl⟩
      show some 0 = if s.nsym.toNat = 0 then none else some (2 * s.nsym.toNat - 2)
      rw [if_neg h0, h1]
    · rw [if_neg h1]
      have hstart : Merging s.nsym.toNat 0 { lq := 0, iq := s.nsym.toNat } s :=
        ⟨hb, hcount, Nat.zero_le _, Nat.le_refl _, Nat.le_refl _, Nat.zero_add _⟩
      obtain ⟨h', t, e, hm, x, k, rfl⟩ := hstart.mergeTimes hn (k := s.nsym.toNat - 1) (by omega)
      have hcount' : k.toNat = s.nsym.toNat + (0 + (s.nsym.toNat - 1)) := hm.count
      refine ⟨{ s with node := x, nnode := k, root := some (k.toNat - 1) }, by rw [e, Res.bind_ok],
        builtTree_of_nodesBuilt hm.nodes ?_ ?_, _, _, _, rfl⟩
      · show k.toNat = 2 * s.nsym.toNat - 1
        omega
      · show some (k.toNat - 1) = if s.nsym.toNat = 0 then none else some (2 * s.nsym.toNat - 2)
        rw [if_neg h0]
        congr 1
        omega

theorem tree_tabled (hp : PackedForm s) (hc : NoCodes s) (hf : FrequencyOrder s) :
    EndsTabled s.input .treed (treeBody s) := by
  obtain ⟨x, e, hx⟩ := copyLeaves_runs (s := s) fun i hi => let ⟨r, hr, _⟩ := hp.record hi; ⟨r, hr⟩
  have hn : (BitVec.ofNat 15 s.nsym.toNat).toNat = s.nsym.toNat := by
    rw [BitVec.toNat_ofNat]
    exact Nat.mod_eq_of_lt (by have := s.nsym.isLt; omega)
  have hleaves : NodesBuilt { s with node := x, nnode := BitVec.ofNat 15 s.nsym.toNat } := by
    intro j hj
    have hj : j < s.nsym.toNat := by rw [← hn]; exact hj
    obtain ⟨r, hr, hrx⟩ := hx j hj
    exact ⟨_, hrx, .inl ⟨rfl, rfl, rfl, j, r, hj, hr, rfl⟩⟩
  obtain ⟨t, e', hb, y, k, r, rfl⟩ := growTree_builds (s := { s with node := x, nnode := BitVec.ofNat 15 s.nsym.toNat })
    hp.1 hn hleaves
  have run : treeBody s = .ok () (setPhase .treed { s with node := y, nnode := k, root := r }) := by
    rw [treeBody, e, Res.bind_ok]
    show (growTree s.nsym.toNat { s with node := x, nnode := BitVec.ofNat 15 s.nsym.toNat }).bind _ = _
    rw [e']
    rfl
  rw [run]
  exact ⟨⟨⟨hp, hc, hf, hb⟩, rfl⟩, rfl⟩

/-! ### `CODES` -/

/-- What `CODES` keeps: the table but for the codes, and the tree, with `n` nodes in use. -/
structure Coding (input : Memory) (nnode : BitVec 15) (s : State) : Prop where
  packed : PackedForm s
  order : FrequencyOrder s
  tree : BuiltTree s
  nodes : s.nnode = nnode
  held : s.input = input

/-- An assignment changes the code and the length of one record, no symbol and no frequency. -/
theorem read_assign (s : State) (i : Nat) (r : SymRec) (c : CodeWord) (l : BitVec 7) (k : Nat) :
    Store.read (writeSym i { r with code := c, codeLength := l } s).sym k =
      if k = i then some { r with code := c, codeLength := l } else Store.read s.sym k :=
  Store.read_write _ _ _ _

/-- The record an assignment leaves at a place has the symbol and the frequency of the one before. -/
theorem same_symbol_of_assign {i k : Nat} {r q : SymRec} (hr : Store.read s.sym i = some r) {c : CodeWord} {l : BitVec 7}
    (hq : Store.read (writeSym i { r with code := c, codeLength := l } s).sym k = some q) :
    ∃ p, Store.read s.sym k = some p ∧ q.symbol = p.symbol ∧ q.frequency = p.frequency := by
  rw [read_assign] at hq
  split at hq
  · rename_i hk
    cases hq
    exact ⟨r, by rw [hk]; exact hr, rfl, rfl⟩
  · exact ⟨q, hq, rfl, rfl⟩

theorem Coding.assign {x : Memory} {k : BitVec 15} (hc : Coding x k s) {i : Nat} {r : SymRec} {code : CodeWord} {len : Nat}
    (hi : i < s.nsym.toNat) (hr : Store.read s.sym i = some r) (hlen : len ≤ 64) (hcode : code.toNat < 2 ^ len) :
    Coding x k (writeSym i { r with code := code, codeLength := BitVec.ofNat 7 len } s) := by
  obtain ⟨⟨hn, hsize, ho, hfit, hne⟩, hord, htree, hnodes, hheld⟩ := hc
  have hl : (BitVec.ofNat 7 len).toNat = len := by
    rw [BitVec.toNat_ofNat]; exact Nat.mod_eq_of_lt (by omega)
  refine ⟨⟨hn, hsize, ho, fun j hj => ?_, fun a b p q hab hb hp hq => ?_⟩, fun a b p q hab hb hp hq => ?_, ?_, hnodes,
    hheld⟩
  · rw [read_assign]
    split
    · obtain ⟨q, hq, hf, -⟩ := hfit i hi
      rw [hr] at hq
      cases hq
      exact ⟨_, rfl, hf, by rw [hl]; exact hlen, by rw [hl]; exact hcode⟩
    · exact hfit j hj
  · obtain ⟨p', hp', hps, -⟩ := same_symbol_of_assign hr hp
    obtain ⟨q', hq', hqs, -⟩ := same_symbol_of_assign hr hq
    rw [hps, hqs]
    exact hne a b p' q' hab hb hp' hq'
  · obtain ⟨p', hp', -, hpf⟩ := same_symbol_of_assign hr hp
    obtain ⟨q', hq', -, hqf⟩ := same_symbol_of_assign hr hq
    rw [hpf, hqf]
    exact hord a b p' q' hab hb hp' hq'
  · refine htree.of_symbols rfl rfl rfl rfl fun j q hj hq => ?_
    by_cases hji : j = i
    · subst hji
      rw [hr] at hq
      cases hq
      exact ⟨j, { r with code := code, codeLength := BitVec.ofNat 7 len }, hj, by rw [read_assign, if_pos rfl], rfl⟩
    · exact ⟨j, q, hj, by rw [read_assign, if_neg hji]; exact hq, rfl⟩

theorem codeWalk_coding (x : Memory) (k : BitVec 15) :
    CodeWalk (Coding x k) InError (MissingIn x) fun j => j < k.toNat where
  assign _ _ _ _ _ h hi hr hlen hcode := h.assign hi hr hlen hcode
  raised _ _ _ _ _ _ := rfl
  record s i h hi hn := by
    obtain ⟨r, hr, -⟩ := h.packed.record hi
    rw [hr] at hn
    cases hn
  node s j h hj hn := by
    obtain ⟨r, hr, -⟩ := h.tree.2.2 j (by rw [h.nodes]; exact hj)
    rw [hr] at hn
    cases hn
  leaf s j r h hj hr hl hnone := by
    obtain ⟨q, hq, ⟨-, -, -, i, p, hi, hp, hs⟩ | ⟨hinner, -⟩⟩ := h.tree.2.2 j (by rw [h.nodes]; exact hj)
    · obtain ⟨p', hp', hne⟩ := hnone i hi
      rw [hr] at hq
      cases hq
      rw [hp] at hp'
      cases hp'
      exact absurd hs hne
    · rw [hr] at hq
      cases hq
      rw [hl] at hinner
      cases hinner
  child s j r c h hj hr hl hc := by
    obtain ⟨q, hq, ⟨hleaf, -⟩ | ⟨-, a, b, ha, hb, hleft, hright⟩⟩ := h.tree.2.2 j (by rw [h.nodes]; exact hj)
    · rw [hr] at hq
      cases hq
      rw [hl] at hleaf
      cases hleaf
    · rw [hr] at hq
      cases hq
      rw [hleft, hright] at hc
      rcases hc with rfl | rfl
      · exact ⟨fun _ e => by cases e; omega, nofun⟩
      · exact ⟨fun _ e => by cases e; omega, nofun⟩

theorem codes_tabled (hp : PackedForm s) (hf : FrequencyOrder s) (hb : BuiltTree s) :
    EndsTabled s.input .coded (codesBody s) := by
  refine ((codeWalk_coding s.input s.nnode).codesBody (fun j hj => ?_) ⟨hp, hf, hb, rfl, rfl⟩).imp fun _ t ht => ?_
  · obtain ⟨hn, hroot, -⟩ := hb
    rw [hroot] at hj
    split at hj
    · cases hj
    · cases hj
      omega
  · obtain ⟨u, hu, rfl⟩ := ht
    exact ⟨⟨⟨hu.packed, hu.order, hu.tree⟩, hu.held⟩, rfl⟩

end Sys2Proof.Machine
end

section
/-!
SUPPORT. The phase table, the streams: `WHDR`, `ENC`, `FLUSH` keep the table and the tree, `DEC` keeps the tree `RHDR` left
and walks inside it (`45_bitstream.md` R232, R236).
-/
namespace Sys2Proof.Machine

variable {s t : State}

/-- The table in symbol order with its tree: `SSORTED` to `DONE_C` (R39). -/
def SortedTable (s : State) : Prop := PackedForm s ∧ SymbolOrder s ∧ BuiltTree s

theorem SortedTable.held (h : SortedTable s) {i : Nat} (hi : i < s.nsym.toNat) : Store.read s.sym i ≠ none := by
  obtain ⟨r, hr, -⟩ := h.1.record hi
  rw [hr]
  exact Option.some_ne_none r

/-- What a writer keeps. -/
def WritingTable (m : Memory) (n : BitVec 9) (len : BitVec 32) (s : State) : Prop :=
  SortedTable s ∧ s.input = m ∧ s.nsym = n ∧ s.len = len

variable {m : Memory} {n : BitVec 9} {len : BitVec 32}

theorem writer_writingTable : Writer (fun _ => WritingTable m n len) InError where
  pop _ _ h := h
  emit _ _ _ h := h
  raised _ _ _ _ _ _ _ := rfl

theorem writingTable_clearAcc (h : WritingTable m n len s) : WritingTable m n len (clearAcc s) := h

theorem encoder_writingTable :
    Encoder len.toNat (fun _ => WritingTable m n len) InError (MissingIn m) where
  reader _ := reader_missingIn (fun _ h => h) (fun _ h => h.2.1) fun _ ⟨_, _, _, hl⟩ => hl
  bits :=
    { bit := fun _ _ _ h _ => h
      byte := fun _ _ s h _ =>
        writingTable_clearAcc (writer_writingTable.emit 0 _ _ (writer_writingTable.pop 0 s h))
      raised := fun _ _ _ _ _ _ => rfl }
  mono _ _ h := h
  record _ _ _ h hi hn := absurd hn (h.1.held hi)

theorem whdr_tabled (h : SortedTable s) : EndsTabled s.input .hdrw (whdrBody s) := by
  refine ((writer_writingTable (n := s.nsym) (len := s.len)).whdrBody (fun _ t i ht hi hn => ?_)
    (fun _ _ ⟨_, _, hnsym, _⟩ => hnsym) ⟨h, rfl, rfl, rfl⟩).imp fun _ t ht => ?_
  · obtain ⟨hsorted, -, hnsym, -⟩ := ht
    exact absurd hn (hsorted.held (by rw [hnsym]; exact hi))
  · obtain ⟨u, hu, rfl⟩ := ht
    exact ⟨⟨hu.1, hu.2.1⟩, rfl⟩

theorem enc_tabled (h : SortedTable s) : EndsTabled s.input .encoded (encBody s) := by
  have hlen : s.len = s.origLen := h.1.origLen_eq.symm
  refine ((encoder_writingTable (n := s.nsym) (len := s.origLen)).encBody ⟨h, rfl, rfl, hlen⟩).imp fun _ t ht => ?_
  obtain ⟨u, hu, rfl⟩ := ht
  exact ⟨⟨hu.1, hu.2.1⟩, rfl⟩

theorem flush_tabled (h : SortedTable s) : EndsTabled s.input .doneC (flushBody s) := by
  have hw : WritingTable s.input s.nsym s.len s := ⟨h, rfl, rfl, rfl⟩
  refine (writer_writingTable.flushBody hw fun _ => hw).imp fun _ t ht => ?_
  obtain ⟨u, hu, rfl | ⟨-, rfl⟩⟩ := ht
  · exact ⟨⟨hu.1, hu.2.1⟩, rfl⟩
  · exact ⟨⟨hu.1, hu.2.1⟩, rfl⟩

/-- What `DEC` keeps: the tree, with `k` nodes in use. -/
def Decoding (m : Memory) (k : BitVec 15) (s : State) : Prop := RebuiltTree s ∧ s.input = m ∧ s.nnode = k

theorem decoder_decoding (m : Memory) (k : BitVec 15) :
    Decoder (fun _ => Decoding m k) InError (MissingIn m) fun j => j < k.toNat where
  writer := { pop := fun _ _ h => h, emit := fun _ _ _ h => h, raised := fun _ _ _ _ _ _ _ => rfl }
  take _ _ h _ := h
  load _ _ _ h _ := h
  missing _ s a h hb := ⟨a, rfl, by rw [← h.2.1]; exact hb⟩
  node _ s j h hj hn := by
    obtain ⟨⟨-, -, -, htree⟩, -, rfl⟩ := h
    obtain ⟨r, hr, -⟩ := htree j hj
    rw [hr] at hn
    cases hn
  child _ s j r c h hj hr _ hc := by
    obtain ⟨⟨-, -, -, htree⟩, -, rfl⟩ := h
    obtain ⟨q, hq, -, hleft, hright⟩ := htree j hj
    rw [hr] at hq
    cases hq
    exact hc.elim (fun e => (hleft c e).2) fun e => (hright c e).2
  root _ s j h hj := by
    obtain ⟨⟨-, hroot, -⟩, -, rfl⟩ := h
    rw [hroot] at hj
    split at hj
    · cases hj
    · cases hj
      omega

theorem dec_tabled (h : RebuiltTree s) : EndsTabled s.input .doneD (decBody s) := by
  refine ((decoder_decoding s.input s.nnode).decBody ⟨h, rfl, rfl⟩).imp fun _ t ht => ?_
  obtain ⟨u, hu, rfl⟩ := ht
  exact ⟨⟨hu.1, hu.2.1⟩, rfl⟩

end Sys2Proof.Machine
end

section
/-!
SUPPORT. The phase table, the rebuilt tree: while `RHDR` walks a path the node at its end is the only one that may be an
internal node without a child (`44_container.md` R207), and 256 entries of at most 64 bits fit the node memory (R209).
-/
namespace Sys2Proof.Machine

variable {s₀ s t : State} {m n i : Nat} {q r : NodeRec} {slot : Slot}

/-! ### Nodes -/

/-- The children of node `j` have larger indices, below `n`. -/
def Linked (n j : Nat) (r : NodeRec) : Prop :=
  (∀ c, r.left = some c → j < c ∧ c < n) ∧ ∀ c, r.right = some c → j < c ∧ c < n

theorem Linked.mono {j : Nat} (h : Linked n j r) (hm : n ≤ m) : Linked m j r :=
  ⟨fun c hc => (h.1 c hc).imp_right fun hn => Nat.lt_of_lt_of_le hn hm,
    fun c hc => (h.2 c hc).imp_right fun hn => Nat.lt_of_lt_of_le hn hm⟩

theorem linked_of_no_child {j : Nat} (hl : r.left = none) (hr : r.right = none) : Linked n j r := by
  refine ⟨fun c hc => ?_, fun c hc => ?_⟩
  · rw [hl] at hc; cases hc
  · rw [hr] at hc; cases hc

/-- A leaf is what has no child (R31). -/
def LeafHasNoChild (r : NodeRec) : Prop := r.leaf = true ↔ (r.left = none ∧ r.right = none)

/-- The nodes in use form a tree that is being built; node `x`, if any, may lack its children. Nothing else of the run has
changed since `s₀`. -/
structure Growing (s₀ : State) (x : Option Nat) (s : State) : Prop where
  root : s.root = if s.nnode.toNat = 0 then none else some 0
  nodes : ∀ j, j < s.nnode.toNat → ∃ r, Store.read s.node j = some r ∧ (x ≠ some j → LeafHasNoChild r) ∧
    Linked s.nnode.toNat j r
  input : s.input = s₀.input
  len : s.len = s₀.len
  origLen : s.origLen = s₀.origLen

theorem Growing.popAnswer {x : Option Nat} (h : Growing s₀ x s) : Growing s₀ x (popAnswer s) :=
  ⟨h.root, h.nodes, h.input, h.len, h.origLen⟩

theorem Growing.read {x : Option Nat} (h : Growing s₀ x s) {j : Nat} (hj : j < s.nnode.toNat) :
    ∃ r, Store.read s.node j = some r :=
  let ⟨r, hr, _⟩ := h.nodes j hj
  ⟨r, hr⟩

/-- The one node in question has a child, or is a leaf, after all. -/
theorem Growing.settle (h : Growing s₀ (some n) s) (hr : Store.read s.node n = some r) (hl : LeafHasNoChild r) :
    Growing s₀ none s := by
  refine ⟨h.root, fun j hj => ?_, h.input, h.len, h.origLen⟩
  obtain ⟨q, hq, hleaf, hlink⟩ := h.nodes j hj
  refine ⟨q, hq, fun _ => ?_, hlink⟩
  by_cases hj : n = j
  · rw [← hj, hr] at hq
    cases hq
    exact hl
  · exact hleaf fun e => hj (Option.some.inj e)

theorem Growing.weaken (h : Growing s₀ none s) (x : Option Nat) : Growing s₀ x s :=
  ⟨h.root, fun j hj => let ⟨r, hr, hleaf, hlink⟩ := h.nodes j hj; ⟨r, hr, fun _ => hleaf nofun, hlink⟩, h.input, h.len,
    h.origLen⟩

theorem Growing.root_eq {x : Option Nat} (h : Growing s₀ x s) (hn : s.nnode.toNat ≠ 0) : s.root = some 0 := by
  rw [h.root, if_neg hn]

theorem Growing.nnode_eq_zero {x : Option Nat} (h : Growing s₀ x s) (hr : s.root = none) : s.nnode.toNat = 0 :=
  Classical.byContradiction fun hn => by rw [h.root_eq hn] at hr; cases hr

/-! ### Slots -/

/-- The node a slot belongs to. -/
def slotOwner : Slot → Option Nat
  | .root => none
  | .left n => some n
  | .right n => some n

/-- The slot is the root's, or the field of an internal node in use. -/
def SlotUsable (slot : Slot) (s : State) : Prop :=
  ∀ n, slotOwner slot = some n → n < s.nnode.toNat ∧ ∃ r, Store.read s.node n = some r ∧ r.leaf = false

/-- A new node below an internal node (R207): `q` is the internal node's record with the new child in it. -/
theorem Growing.link (h : Growing s₀ (some n) s) (hn : n < s.nnode.toNat) (hroom : s.nnode.toNat + 1 < 2 ^ 15)
    (hl : r.left = none) (hr : r.right = none) (hq : LeafHasNoChild q) (hlink : Linked (s.nnode.toNat + 1) n q) :
    Growing s₀ (some s.nnode.toNat) (writeNode n q (allocNode r s)) ∧
      Store.read (writeNode n q (allocNode r s)).node s.nnode.toNat = some r := by
  have hcount : (writeNode n q (allocNode r s)).nnode.toNat = s.nnode.toNat + 1 := toNat_nnode_succ hroom
  have hnew : Store.read (writeNode n q (allocNode r s)).node s.nnode.toNat = some r :=
    (Store.read_write_other _ _ (by omega)).trans (Store.read_write_same _ _ _)
  refine ⟨⟨?_, fun j hj => ?_, h.input, h.len, h.origLen⟩, hnew⟩
  · rw [hcount, if_neg (Nat.succ_ne_zero _)]
    exact h.root_eq (by omega)
  · rw [hcount] at hj ⊢
    by_cases hjn : j = n
    · subst hjn
      exact ⟨q, Store.read_write_same _ _ _, fun _ => hq, hlink⟩
    · by_cases hjnew : j = s.nnode.toNat
      · subst hjnew
        exact ⟨r, hnew, fun hne => absurd rfl hne, linked_of_no_child hl hr⟩
      · obtain ⟨p, hp, hleaf, hlinkp⟩ := h.nodes j (by omega)
        refine ⟨p, ?_, fun _ => hleaf fun e => hjn (Option.some.inj e).symm, hlinkp.mono (Nat.le_succ _)⟩
        exact (Store.read_write_other _ _ hjn).trans ((Store.read_write_other _ _ hjnew).trans hp)

/-- A new node at the root of an empty tree (R207). -/
theorem Growing.plant (h : Growing s₀ none s) (hz : s.nnode.toNat = 0) (hl : r.left = none) (hr : r.right = none) :
    Growing s₀ (some s.nnode.toNat) { allocNode r s with root := some s.nnode.toNat } ∧
      Store.read ({ allocNode r s with root := some s.nnode.toNat } : State).node s.nnode.toNat = some r := by
  have hcount : ({ allocNode r s with root := some s.nnode.toNat } : State).nnode.toNat = s.nnode.toNat + 1 :=
    toNat_nnode_succ (by omega)
  have hnew : Store.read (allocNode r s).node s.nnode.toNat = some r := Store.read_write_same _ _ _
  refine ⟨⟨?_, fun j hj => ?_, h.input, h.len, h.origLen⟩, hnew⟩
  · rw [hcount, if_neg (Nat.succ_ne_zero _)]
    exact congrArg some hz
  · rw [hcount] at hj
    obtain rfl : j = s.nnode.toNat := by omega
    exact ⟨r, hnew, fun hne => absurd rfl hne, linked_of_no_child hl hr⟩

/-- What a slot holds is found, and is a node in use. -/
theorem readSlot_runs (h : Growing s₀ (slotOwner slot) s) (hs : SlotUsable slot s) :
    ∃ held, readSlot slot s = .ok held s ∧ ∀ c, held = some c → c < s.nnode.toNat ∧ Growing s₀ none s := by
  have child : ∀ n q, slotOwner slot = some n → Store.read s.node n = some q → ∀ c, q.left = some c ∨ q.right = some c →
      c < s.nnode.toNat ∧ Growing s₀ none s := by
    intro n q ho hq c hc
    obtain ⟨hn, q', hq', hinner⟩ := hs n ho
    obtain ⟨p, hp, -, hlink⟩ := h.nodes n hn
    rw [hq] at hp hq'
    cases hp
    cases hq'
    rw [ho] at h
    have hleaf : LeafHasNoChild q := by
      rw [LeafHasNoChild, hinner]
      rcases hc with hc | hc <;> simp [hc]
    exact ⟨hc.elim (fun e => (hlink.1 c e).2) fun e => (hlink.2 c e).2, h.settle hq hleaf⟩
  cases slot with
  | root =>
    refine ⟨s.root, rfl, fun c hc => ⟨?_, h⟩⟩
    rw [h.root] at hc
    split at hc
    · cases hc
    · cases hc
      omega
  | left n =>
    obtain ⟨-, q, hq, -⟩ := hs n rfl
    exact ⟨q.left, by rw [readSlot, readNode_of_held hq, Res.bind_ok], fun c hc => child n q rfl hq c (.inl hc)⟩
  | right n =>
    obtain ⟨-, q, hq, -⟩ := hs n rfl
    exact ⟨q.right, by rw [readSlot, readNode_of_held hq, Res.bind_ok], fun c hc => child n q rfl hq c (.inr hc)⟩

/-- The internal node a slot belongs to is found, also after a node has been allocated. -/
theorem SlotUsable.owner (hs : SlotUsable slot s) (h : Growing s₀ (some n) s) (ho : slotOwner slot = some n)
    (r : NodeRec) : n < s.nnode.toNat ∧ ∃ q, Store.read s.node n = some q ∧ q.leaf = false ∧
      Linked (s.nnode.toNat + 1) n q ∧ readNode n (allocNode r s) = .ok q (allocNode r s) := by
  obtain ⟨hn, q, hq, hinner⟩ := hs n ho
  obtain ⟨p, hp, -, hlink⟩ := h.nodes n hn
  rw [hq] at hp
  cases hp
  exact ⟨hn, q, hq, hinner, hlink.mono (Nat.le_succ _),
    readNode_of_held ((Store.read_write_other _ _ (by omega)).trans hq)⟩

/-- A node attached at an empty slot (R207). -/
theorem attach_runs (h : Growing s₀ (slotOwner slot) s) (hs : SlotUsable slot s) (hheld : readSlot slot s = .ok none s)
    (hroom : s.nnode.toNat + 1 < 2 ^ 15) (hl : r.left = none) (hr : r.right = none) :
    ∃ t, attach slot r s = .ok s.nnode.toNat t ∧ t.nnode.toNat = s.nnode.toNat + 1 ∧
      Growing s₀ (some s.nnode.toNat) t ∧ Store.read t.node s.nnode.toNat = some r := by
  cases slot with
  | root =>
    have hz : s.root = none := by simpa [readSlot] using hheld
    exact ⟨_, rfl, toNat_nnode_succ hroom, h.plant (h.nnode_eq_zero hz) hl hr⟩
  | left n =>
    obtain ⟨hn, q, -, hinner, hlink, e⟩ := hs.owner h rfl r
    refine ⟨_, by rw [attach, writeSlot, e]; rfl, toNat_nnode_succ hroom, h.link hn hroom hl hr ?_ ?_⟩
    · simp [LeafHasNoChild, hinner]
    · exact ⟨fun c hc => by cases hc; omega, hlink.2⟩
  | right n =>
    obtain ⟨hn, q, -, hinner, hlink, e⟩ := hs.owner h rfl r
    refine ⟨_, by rw [attach, writeSlot, e]; rfl, toNat_nnode_succ hroom, h.link hn hroom hl hr ?_ ?_⟩
    · simp [LeafHasNoChild, hinner]
    · exact ⟨hlink.1, fun c hc => by cases hc; omega⟩

/-! ### Paths -/

/-- The nodes in use, and the one a slot may need, are at most `n`. -/
def RoomBelow (n : Nat) (slot : Slot) (s : State) : Prop :=
  s.nnode.toNat ≤ n ∧ (slotOwner slot ≠ none → s.nnode.toNat + 1 ≤ n)

/-- On the way down a path: the tree is whole but for the slot's node, and `n` bounds the nodes. -/
structure OnPath (s₀ : State) (n : Nat) (slot : Slot) (s : State) : Prop where
  growing : Growing s₀ (slotOwner slot) s
  usable : SlotUsable slot s
  room : RoomBelow n slot s

/-- An empty slot has room for a node. -/
theorem OnPath.room_of_empty (h : OnPath s₀ n slot s) (hn : 1 ≤ n) (hheld : readSlot slot s = .ok none s) :
    s.nnode.toNat + 1 ≤ n := by
  cases slot with
  | root =>
    have hz : s.root = none := by simpa [readSlot] using hheld
    rw [h.growing.nnode_eq_zero hz]
    exact hn
  | left k => exact h.room.2 (Option.some_ne_none k)
  | right k => exact h.room.2 (Option.some_ne_none k)

/-- The node at a slot, found or created (R207). -/
theorem OnPath.nodeAt (h : OnPath s₀ n slot s) (h1 : 1 ≤ n) (hn : n ≤ Config.nodeCap) :
    ∃ j t, nodeAt slot s = .ok j t ∧ j < t.nnode.toNat ∧ t.nnode.toNat ≤ n ∧ Growing s₀ (some j) t := by
  obtain ⟨held, e, hheld⟩ := readSlot_runs h.growing h.usable
  rw [Machine.nodeAt, e]
  cases held with
  | some c =>
    obtain ⟨hc, hg⟩ := hheld c rfl
    exact ⟨c, s, rfl, hc, h.room.1, hg.weaken _⟩
  | none =>
    have hroom := h.room_of_empty h1 e
    obtain ⟨t, e', hcount, hg, -⟩ := attach_runs (r := innerNode 0 none none) h.growing h.usable e
      (by simp only [Config.nodeCap] at hn; omega) rfl rfl
    exact ⟨_, t, e', by omega, by omega, hg⟩

/-- The child field of an internal node is the next slot of the path. -/
theorem onPath_child (h : Growing s₀ (some i) t) (hi : i < t.nnode.toNat) (hn : t.nnode.toNat ≤ n)
    (hr : Store.read t.node i = some r) (hl : r.leaf = false) (hs : slotOwner slot = some i) :
    OnPath s₀ (n + 1) slot t := by
  refine ⟨by rwa [hs], fun k hk => ?_, by omega, fun _ => by omega⟩
  rw [hs] at hk
  cases hk
  exact ⟨hi, r, hr, hl⟩

variable {F : Fault → Prop}

theorem OnPath.walkSlots (h : OnPath s₀ n slot s) (c : CodeWord) (entry : Nat) {rounds k : Nat} (h1 : 1 ≤ n)
    (hn : n + rounds ≤ Config.nodeCap) :
    (walkSlots c entry rounds k slot s).Ends (fun slot' t => OnPath s₀ (n + rounds) slot' t) InError F := by
  induction rounds generalizing k n slot s with
  | zero => exact h
  | succ rounds ih =>
    obtain ⟨j, t, e, hj, hjn, hg⟩ := h.nodeAt h1 (by omega)
    obtain ⟨r, hr⟩ := hg.read hj
    rw [Machine.walkSlots, e, Res.bind_ok, readNode_of_held hr, Res.bind_ok]
    cases hl : r.leaf with
    | true => exact inError_raise _ _ _ t
    | false =>
      have hnext : OnPath s₀ (n + 1) (if c.getLsbD k = true then .right j else .left j) t :=
        onPath_child hg hj hjn hr hl (by split <;> rfl)
      have := ih hnext (k := k + 1) (by omega) (by omega)
      rwa [Nat.add_assoc, Nat.add_comm 1] at this

/-- The tree is whole and has at most `n` nodes. -/
def Grown (s₀ : State) (n : Nat) (s : State) : Prop := Growing s₀ none s ∧ s.nnode.toNat ≤ n

theorem Grown.onPath (h : Grown s₀ n s) : OnPath s₀ n .root s :=
  ⟨h.1, nofun, h.2, fun hne => absurd rfl hne⟩

/-- `insert` adds at most as many nodes as the path has bits, but for the root (R207, R209). -/
theorem Grown.insertLeaf (h : Grown s₀ n s) (symbol : Byte) (c : CodeWord) {len : Nat} (entry : Nat) (h1 : 1 ≤ n)
    (hn : n + len ≤ Config.nodeCap) :
    (insertLeaf symbol c len entry s).Ends (fun _ t => Grown s₀ (n + len) t ∧ t.nnode.toNat ≠ 0) InError F := by
  refine (h.onPath.walkSlots c entry h1 hn).bind fun slot t ht => ?_
  obtain ⟨held, e, -⟩ := readSlot_runs ht.growing ht.usable
  rw [e, Res.bind_ok]
  cases held with
  | some _ => exact inError_raise _ _ _ t
  | none =>
    have hroom := ht.room_of_empty (by omega) e
    obtain ⟨u, e', hcount, hg, hu⟩ := attach_runs (r := leafNode symbol 0) ht.growing ht.usable e
      (by simp only [Config.nodeCap] at hn; omega) rfl rfl
    simp only [e', Res.bind_ok]
    exact ⟨⟨hg.settle hu ⟨fun _ => ⟨rfl, rfl⟩, fun _ => rfl⟩, by omega⟩, by omega⟩

/-! ### The header -/

theorem reader_grown (s₀ : State) (n : Nat) : Reader s₀.len.toNat (Grown s₀ n) InError (MissingIn s₀.input) :=
  reader_missingIn (fun _ h => ⟨h.1.popAnswer, h.2⟩) (fun _ h => h.1.input) fun _ h => h.1.len

/-- An entry adds at most 64 nodes (R206, R209). -/
theorem Grown.readEntry (h : Grown s₀ (64 * i + 1) s) (hi : i < Config.nsymMax)
    (hlen : Config.hdrFixedBytes + Config.hdrEntryBytes * (i + 1) ≤ s₀.len.toNat) :
    (readEntry i s).Ends (fun _ t => Grown s₀ (64 * (i + 1) + 1) t ∧ t.nnode.toNat ≠ 0) InError (MissingIn s₀.input) := by
  have hr := reader_grown s₀ (64 * i + 1)
  simp only [Config.hdrEntryBytes] at hlen
  refine (hr.inByte (by simp only [Config.hdrEntryBytes]; omega) h).bind fun symbol t ht => ?_
  refine (hr.inByte (by simp only [Config.hdrEntryBytes]; omega) ht).bind fun len u hu => ?_
  refine (hr.inLE (by simp only [Config.hdrEntryBytes, Config.hdrCodeBytes]; omega) hu).bind fun c v hv => ?_
  split
  · exact inError_raise _ _ _ v
  · rename_i hcode
    simp only [Config.codeW] at hcode
    simp only [Config.nsymMax] at hi
    exact (hv.insertLeaf symbol _ i (by omega) (by simp only [Config.nodeCap]; omega)).imp fun _ _ ⟨⟨hg, hcount⟩, hne⟩ =>
      ⟨⟨hg, Nat.le_trans hcount (by omega)⟩, hne⟩

/-- Nothing of the tree is built yet. -/
def Unplanted (s₀ s : State) : Prop := s.nnode = 0 ∧ s.root = none ∧ s.input = s₀.input ∧ s.len = s₀.inLen

theorem grown_of_unplanted (h : Unplanted s₀ s) (k : Nat) (n : BitVec 9) (o : BitVec 32) (b : Bool) :
    Grown { s with nsym := n, origLen := o, empty := b } k { s with nsym := n, origLen := o, empty := b } := by
  obtain ⟨hn, hr, -, -⟩ := h
  have hz : s.nnode.toNat = 0 := by rw [hn]; rfl
  refine ⟨⟨?_, fun j hj => ?_, rfl, rfl, rfl⟩, ?_⟩
  · show s.root = if s.nnode.toNat = 0 then none else some 0
    rw [if_pos hz, hr]
  · have : j < s.nnode.toNat := hj
    omega
  · show s.nnode.toNat ≤ k
    omega

/-- What `RHDR` ends with is a tree of the phase table (R39). -/
theorem Grown.rebuiltTree (h : Grown s₀ Config.nodeCap s) (he : s.nnode.toNat = 0 → s₀.origLen = 0) : RebuiltTree s := by
  obtain ⟨hg, hn⟩ := h
  refine ⟨hn, hg.root, fun hr => ?_, fun j hj => ?_⟩
  · rw [hg.origLen]
    exact he (hg.nnode_eq_zero hr)
  · obtain ⟨r, hr, hleaf, hlink⟩ := hg.nodes j hj
    exact ⟨r, hr, hleaf nofun, hlink.1, hlink.2⟩

theorem readEntries_tabled (h : Unplanted s₀ s) (cnt olen : Nat) :
    EndsTabled s₀.input .hdrr (readEntries cnt olen s) := by
  unfold readEntries
  split
  · exact inError_raise _ _ _ s
  · split
    · exact inError_raise _ _ _ s
    · split
      · exact inError_raise _ _ _ s
      · rename_i hcnt hlen hempty
        have hstart := grown_of_unplanted h (64 * 0 + 1) (BitVec.ofNat 9 cnt) (BitVec.ofNat 32 olen) (emptyFlag cnt)
        obtain ⟨-, -, hinput, -⟩ := h
        rw [← hinput]
        refine Res.Ends.bind (forUp_ends (I := fun i t => Grown { s with
            nsym := BitVec.ofNat 9 cnt, origLen := BitVec.ofNat 32 olen, empty := emptyFlag cnt } (64 * i + 1) t ∧
            (i ≠ 0 → t.nnode.toNat ≠ 0)) ⟨hstart, fun h0 => absurd rfl h0⟩ fun i t _ hi ht => ?_) fun _ t ht => ?_
        · refine (ht.1.readEntry (by omega) ?_).imp fun _ u hu => ⟨hu.1, fun _ => hu.2⟩
          exact Nat.le_trans (Nat.add_le_add_left (Nat.mul_le_mul_left _ (by omega)) _) (Nat.le_of_not_lt hlen)
        · obtain ⟨⟨hg, hn⟩, hne⟩ := ht
          have htree : RebuiltTree t := by
            refine Grown.rebuiltTree ⟨hg, ?_⟩ fun hz => ?_
            · simp only [Config.nsymMax] at hcnt
              simp only [Config.nodeCap]
              omega
            · have h0 : cnt = 0 := Classical.byContradiction fun h0 => hne (by omega) hz
              have ho : olen = 0 := Classical.byContradiction fun ho => hempty ⟨h0, ho⟩
              rw [ho]
              rfl
          exact ⟨⟨htree, hg.input⟩, rfl⟩

theorem rhdr_tabled (s : State) : EndsTabled s.input .hdrr (rhdrBody s) := by
  have hr : Reader s.inLen.toNat (Unplanted s) InError (MissingIn s.input) :=
    reader_missingIn (fun _ h => h) (fun _ ⟨_, _, hin, _⟩ => hin) fun _ ⟨_, _, _, hl⟩ => hl
  unfold rhdrBody readHeader
  split
  · exact inError_raise _ _ _ _
  · rename_i hlen
    have hlen : Config.hdrCountBytes + Config.hdrLenBytes ≤ s.inLen.toNat := Nat.le_of_not_lt hlen
    have hstart : Unplanted s { runInit s with nsym := 0, origLen := 0 } := ⟨rfl, rfl, rfl, rfl⟩
    refine (hr.inLE (by omega) hstart).bind fun cnt t ht => ?_
    exact (hr.inLE hlen ht).bind fun olen u hu => readEntries_tabled hu cnt olen

end Sys2Proof.Machine
end

section
/-!
SUPPORT. The phase table is kept by every step, and in a state of it nothing stops a step but a byte of IN that the host did
not supply (`10_state.md` R39, R44, `20_memory.md` R62).
-/
namespace Sys2Proof.Machine

theorem keptOutside_phaseTable : KeptOutside PhaseTable where
  host _ _ _ _ _ h := h
  rst _ := ⟨rfl, rfl⟩
  hardReset _ := ⟨rfl, rfl⟩
  raised _ _ _ _ _ _ := trivial

theorem phaseTable_of_inError {s : State} (h : InError s) : PhaseTable s := by
  rw [PhaseTable, show s.phase = .error from h]
  trivial

/-- The row of the phase table for the phase that is held. -/
theorem PhaseTable.row {s : State} {p : Phase} (h : PhaseTable s) (hp : s.phase = p) : PhaseTable (setPhase p s) := by
  subst hp
  exact h

/-- Every command, from a state of the phase table: a state of the table, an error, or a missing byte of IN. -/
theorem rowsEnd_tabledOn (m : Memory) : RowsEnd (TabledOn m) InError (MissingIn m) := by
  rintro i s hi ⟨hT, rfl⟩ hl
  have row : ∀ {p}, legalIn i s.phase = (s.phase == p) → PhaseTable (setPhase p s) := fun hp =>
    hT.row (phase_eq_of_legalIn hp hl)
  cases i with
  | rst | compress | decompress => cases hi
  | clr => exact clr_tabled s
  | rhdr => exact rhdr_tabled s
  | scan => exact scan_tabled (row (p := .cleared) rfl)
  | pack =>
    obtain ⟨hfresh, ho⟩ := row (p := .counted) rfl
    exact pack_tabled hfresh ho
  | hsortF =>
    obtain ⟨hp, hc, -, hn, hr⟩ := row (p := .packed) rfl
    exact hsortF_tabled hp hc hn hr
  | tree =>
    obtain ⟨hp, hc, hf, -⟩ := row (p := .fsorted) rfl
    exact tree_tabled hp hc hf
  | codes =>
    obtain ⟨hp, -, hf, hb⟩ := row (p := .treed) rfl
    exact codes_tabled hp hf hb
  | hsortS =>
    obtain ⟨hp, -, hb⟩ := row (p := .coded) rfl
    exact hsortS_tabled hp hb
  | whdr => exact whdr_tabled (row (p := .ssorted) rfl)
  | enc => exact enc_tabled (row (p := .hdrw) rfl)
  | flush => exact flush_tabled (row (p := .encoded) rfl)
  | dec => exact dec_tabled (row (p := .hdrr) rfl)

theorem rowsEnd_phaseTable : RowsEnd PhaseTable PhaseTable fun _ => True := fun i s hi hT hl =>
  (rowsEnd_tabledOn s.input i s hi ⟨hT, rfl⟩ hl).mono (fun _ _ ht => ⟨ht.1.1, ht.2⟩) (fun _ => phaseTable_of_inError)
    fun _ _ => trivial

/-- Settles O55: each command takes the row of its phase to the row of the phase it leaves. -/
theorem stepKeepsPhaseTable : Obligations.StepKeepsPhaseTable := fun _ _ hT h =>
  keptOutside_phaseTable.step rowsEnd_phaseTable hT h

/-- Settles O56: every record a command reads is held, every address is below `LEN`, no walk leaves its tree. -/
theorem onlyMissingInputFaults : Obligations.OnlyMissingInputFaults := fun s _ hT h =>
  (rowsEnd_tabledOn s.input).step_fault (fun _ => ⟨hT, rfl⟩) h

end Sys2Proof.Machine
end

section
/-!
SUPPORT. One rule per command for predicates that may depend on the oracle's answers (`20_memory.md` R63, R66, R70): where
`Reader` and `Writer` ask that every answer used up keeps `P`, these rules ask for the whole of what an access does.
-/
namespace Sys2Proof.Machine

variable {α : Type} {P Q : State → Prop} {s : State}

/-- Where the pseudocode goes on `P` holds, where it raised `Q`. -/
abbrev Res.Keeps (P Q : State → Prop) (m : Res α) : Prop := m.Ends (fun _ => P) Q fun _ => True

theorem readSym_keeps (i : Nat) (h : P s) : (readSym i s).Keeps P Q := by
  rcases readSym_cases i s with ⟨r, -, e⟩ | ⟨-, e⟩ <;> rw [e]
  · exact h
  · trivial

theorem find_keeps (c : Byte) (h : P s) : (find c s).Keeps P Q := by
  unfold find
  rcases findFrom_cases c s.nsym.toNat 0 s with ⟨k, r, -, -, -, -, e⟩ | ⟨-, e⟩ | ⟨k, -, -, -, e⟩ <;> rw [e]
  · exact h
  · exact h
  · trivial

theorem forUp_keeps {body : Nat → State → Res Unit} (hb : ∀ k t, P t → (body k t).Keeps P Q) (n i : Nat) (h : P s) :
    (forUp body n i s).Keeps P Q :=
  forUp_ends (I := fun _ => P) h fun k t _ _ => hb k t

/-! ### The streams -/

/-- The accesses keep `P` or raise into `Q`, `P` survives the updates of the accumulator, of the reader and of `PHASE`, and
an error that is no failed access leads from `P` to `Q`. -/
structure StreamKept (P Q : State → Prop) : Prop where
  inByte : ∀ a s, P s → (Machine.inByte a s).Keeps P Q
  outByte : ∀ v s, P s → (Machine.outByte v s).Keeps P Q
  raised : ∀ kind sub info s, kind ≠ .ioFailure → P s → Q (raise kind sub info s)
  stream : ∀ s c cn b bn p, P s → P { s with acc := c, accn := cn, rbuf := b, rbn := bn, rpos := p }
  phase : ∀ p s, P s → P (setPhase p s)

theorem StreamKept.finish (hk : StreamKept P Q) (p : Phase) (h : P s) :
    (finish p s).Ends (fun _ t => P t ∧ t.phase = p) Q fun _ => True :=
  ⟨hk.phase p s h, rfl⟩

theorem StreamKept.outLE (hk : StreamKept P Q) (v n : Nat) (h : P s) : (outLE v n s).Keeps P Q :=
  forUp_keeps (fun _ t => hk.outByte _ t) n 0 h

theorem StreamKept.inLEFrom (hk : StreamKept P Q) (a n k v : Nat) (h : P s) : (inLEFrom a n k v s).Keeps P Q := by
  induction n generalizing k v s with
  | zero => exact h
  | succ n ih => exact (hk.inByte _ s h).bind fun _ _ ht => ih _ _ ht

theorem StreamKept.inLE (hk : StreamKept P Q) (a n : Nat) (h : P s) : (inLE a n s).Keeps P Q :=
  hk.inLEFrom a n 0 0 h

/-- `SCAN` (R122); its updates of the table and of `ORIGLEN` are the caller's to allow. -/
theorem StreamKept.scanBody (hk : StreamKept P Q)
    (count : ∀ t i r f, P t → Store.read t.sym i = some r → P (writeSym i { r with frequency := f } t))
    (origLen : ∀ t, P t → P { t with origLen := t.len }) (h : P s) :
    (scanBody s).Ends (fun _ t => P t ∧ t.phase = .counted) Q fun _ => True := by
  have round : ∀ a t, P t → (scanByte a t).Keeps P Q := fun a t ht => by
    refine (hk.inByte a t ht).bind fun b u hu => ?_
    unfold countByte
    rcases readSym_cases b.toNat u with ⟨r, hr, e⟩ | ⟨-, e⟩ <;> rw [e]
    · exact count u _ r _ hu hr
    · trivial
  exact (forUp_keeps round _ _ h).bind fun _ u hu => hk.finish _ (origLen u hu)

/-- `WHDR` (R201). -/
theorem StreamKept.whdrBody (hk : StreamKept P Q) (h : P s) :
    (whdrBody s).Ends (fun _ t => P t ∧ t.phase = .hdrw) Q fun _ => True := by
  have entry : ∀ i t, P t → (writeEntry i t).Keeps P Q := fun i t ht =>
    (readSym_keeps i ht).bind fun _ u hu => (hk.outByte _ u hu).bind fun _ v hv => (hk.outByte _ v hv).bind
      fun _ _ hw => hk.outLE _ _ hw
  exact (hk.outLE _ _ h).bind fun _ t ht => (hk.outLE _ _ ht).bind fun _ u hu => (forUp_keeps entry _ _ hu).bind
    fun _ _ hv => hk.finish _ hv

theorem StreamKept.putBits (hk : StreamKept P Q) (v : CodeWord) (n : Nat) (h : P s) : (putBits v n s).Keeps P Q := by
  refine forUp_keeps (fun k t ht => ?_) n 0 h
  have hplace : P (placeBit (v.getLsbD k) t) := hk.stream t _ _ t.rbuf t.rbn t.rpos ht
  unfold putBit
  split
  · exact (hk.outByte _ _ hplace).bind fun _ u hu => hk.stream u 0 0 u.rbuf u.rbn u.rpos hu
  · exact hplace

/-- `ENC` (R232). -/
theorem StreamKept.encBody (hk : StreamKept P Q) (h : P s) :
    (encBody s).Ends (fun _ t => P t ∧ t.phase = .encoded) Q fun _ => True := by
  have round : ∀ a t, P t → (encStep a t).Keeps P Q := fun a t ht =>
    (hk.inByte a t ht).bind fun b u hu => (find_keeps b hu).bind fun found v hv => by
      cases found with
      | none => exact hk.raised _ _ _ v (by decide) hv
      | some i => exact (readSym_keeps i hv).bind fun _ _ hw => hk.putBits _ _ hw
  exact (forUp_keeps round _ _ h).bind fun _ _ hu => hk.finish _ hu

/-- `FLUSH` (R233). -/
theorem StreamKept.flushBody (hk : StreamKept P Q) (h : P s) :
    (flushBody s).Ends (fun _ t => P t ∧ t.phase = .doneC) Q fun _ => True := by
  unfold Machine.flushBody
  split
  · exact (hk.outByte _ s h).bind fun _ u hu => hk.finish _ (hk.stream u 0 0 u.rbuf u.rbn u.rpos hu)
  · exact hk.finish _ h

theorem StreamKept.getBit (hk : StreamKept P Q) (h : P s) : (getBit s).Keeps P Q := by
  have filled : (refill s).Keeps P Q := by
    unfold refill
    split
    · split
      · exact hk.raised _ _ _ s (by decide) h
      · exact (hk.inByte _ s h).bind fun b u hu => hk.stream u u.acc u.accn b 8 _ hu
    · exact h
  exact filled.bind fun _ u hu => hk.stream u u.acc u.accn _ _ u.rpos hu

theorem StreamKept.walkDown (hk : StreamKept P Q) (decoded rounds n : Nat) (h : P s) :
    (walkDown decoded rounds n s).Keeps P Q := by
  induction rounds generalizing n s with
  | zero => trivial
  | succ rounds ih =>
    refine (readNode_ends n h).bind fun r t ht => ?_
    cases r.leaf with
    | true => exact ht
    | false =>
      refine (hk.getBit ht).bind fun bit u hu => ?_
      cases (if bit = true then r.right else r.left) with
      | none => exact hk.raised _ _ _ u (by decide) hu
      | some c => exact ih c hu

/-- `DEC` (R236). -/
theorem StreamKept.decBody (hk : StreamKept P Q) (h : P s) :
    (decBody s).Ends (fun _ t => P t ∧ t.phase = .doneD) Q fun _ => True := by
  have symbol : ∀ k t, P t → (decodeSymbol k t).Keeps P Q := fun k t ht => by
    unfold decodeSymbol
    cases t.root with
    | none => exact hk.raised _ _ _ t (by decide) ht
    | some n => exact (hk.walkDown k _ n ht).bind fun r u hu => hk.outByte _ u hu
  exact (forUp_keeps symbol _ _ h).bind fun _ _ hu => hk.finish _ hu

/-! ### Every command -/

/-- `StreamKept`, and `P` survives every update of the table, of the tree, and of the registers a run starts with. -/
structure AccessKept (P Q : State → Prop) : Prop extends StreamKept P Q where
  table : ∀ s m n h o e, P s → P { s with sym := m, nsym := n, hsize := h, origLen := o, empty := e }
  tree : ∀ s m k r, P s → P { s with node := m, nnode := k, root := r }
  start : ∀ s, P s → P (runInit s)

theorem AccessKept.assignCode (hk : AccessKept P Q) (symbol : Byte) (code : CodeWord) (len : Nat) (h : P s) :
    (assignCode symbol code len s).Keeps P Q :=
  (find_keeps symbol h).bind fun found t ht => by
    cases found with
    | none => trivial
    | some i => exact (readSym_keeps i ht).bind fun _ u hu => hk.table u _ u.nsym u.hsize u.origLen u.empty hu

theorem childOf_keeps (n : Nat) (child : Option Nat) (h : P s) : (childOf n child s).Keeps P Q := by
  cases child with
  | some c => exact h
  | none => trivial

/-- The walk of `CODES` (R182): its one error is no failed access. -/
theorem AccessKept.visit (hk : AccessKept P Q) (room n : Nat) (code : CodeWord) (h : P s) :
    (visit room n code s).Keeps P Q := by
  induction room generalizing n code s with
  | zero =>
    refine (readNode_ends n h).bind fun r t ht => ?_
    split
    · exact hk.assignCode _ _ _ ht
    · exact hk.raised _ _ _ t (by decide) ht
  | succ room ih =>
    refine (readNode_ends n h).bind fun r t ht => ?_
    split
    · exact hk.assignCode _ _ _ ht
    · exact (childOf_keeps n r.left ht).bind fun l u hu => (ih l code hu).bind fun _ v hv =>
        (childOf_keeps n r.right hv).bind fun c w hw => ih c _ hw

theorem AccessKept.codesBody (hk : AccessKept P Q) (h : P s) :
    (codesBody s).Ends (fun _ t => P t ∧ t.phase = .coded) Q fun _ => True := by
  unfold Machine.codesBody
  cases s.root with
  | none => exact hk.finish _ h
  | some n => exact (hk.visit _ n 0 h).bind fun _ _ hu => hk.finish _ hu

theorem AccessKept.packBody (hk : AccessKept P Q) (h : P s) :
    (packBody s).Ends (fun _ t => P t ∧ t.phase = .packed) Q fun _ => True := by
  have moved : (packFrom Config.alphabet 0 0 s).Keeps P Q :=
    (packFrom_frame Config.alphabet 0 0 s).mono
      (fun _ t ⟨m, ht⟩ => by rw [ht]; exact hk.table s m s.nsym s.hsize s.origLen s.empty h) (fun _ => False.elim)
      fun _ => id
  exact moved.bind fun _ t ht => hk.finish _ (hk.table t t.sym _ _ t.origLen _ ht)

theorem AccessKept.hsortBody (hk : AccessKept P Q) (cmp : Cmp) (h : P s) :
    (hsortBody cmp s).Ends (fun _ t => P t ∧ t.phase = sortedPhase cmp) Q fun _ => True := by
  rcases hsortBody_cases cmp s with ⟨rs, -, e⟩ | ⟨k, -, -, e⟩ <;> rw [e]
  · exact hk.finish _ (hk.table s _ s.nsym s.nsym s.origLen s.empty h)
  · trivial

theorem AccessKept.treeBody (hk : AccessKept P Q) (h : P s) :
    (treeBody s).Ends (fun _ t => P t ∧ t.phase = .treed) Q fun _ => True :=
  (treeBody_frame s).mono (fun _ t ⟨m, k, r, ht⟩ => by rw [ht]; exact hk.finish _ (hk.tree s m k r h))
    (fun _ => False.elim) fun _ => id

/-! ### The header read -/

theorem AccessKept.attach (hk : AccessKept P Q) (slot : Slot) (r : NodeRec) (h : P s) : (attach slot r s).Keeps P Q := by
  have ha : P (allocNode r s) := hk.tree s _ _ s.root h
  have written : (writeSlot slot s.nnode.toNat (allocNode r s)).Keeps P Q := by
    cases slot with
    | root => exact hk.tree _ _ _ _ ha
    | left n => exact (readNode_ends n ha).bind fun _ t ht => hk.tree t _ t.nnode t.root ht
    | right n => exact (readNode_ends n ha).bind fun _ t ht => hk.tree t _ t.nnode t.root ht
  exact written.bind fun _ _ ht => ht

theorem AccessKept.nodeAt (hk : AccessKept P Q) (slot : Slot) (h : P s) : (nodeAt slot s).Keeps P Q :=
  (readSlot_ends slot h).bind fun held t ht => by
    cases held with
    | some n => exact ht
    | none => exact hk.attach slot _ ht

theorem AccessKept.walkSlots (hk : AccessKept P Q) (c : CodeWord) (entry rounds k : Nat) (slot : Slot) (h : P s) :
    (walkSlots c entry rounds k slot s).Keeps P Q := by
  induction rounds generalizing k slot s with
  | zero => exact h
  | succ rounds ih =>
    refine (hk.nodeAt slot h).bind fun n t ht => (readNode_ends n ht).bind fun r u hu => ?_
    split
    · exact hk.raised _ _ _ u (by decide) hu
    · exact ih _ _ hu

theorem AccessKept.insertLeaf (hk : AccessKept P Q) (symbol : Byte) (c : CodeWord) (len entry : Nat) (h : P s) :
    (insertLeaf symbol c len entry s).Keeps P Q :=
  (hk.walkSlots c entry len 0 .root h).bind fun slot _ ht => (readSlot_ends slot ht).bind fun held u hu => by
    cases held with
    | some _ => exact hk.raised _ _ _ u (by decide) hu
    | none => exact (hk.attach slot _ hu).bind fun _ _ hv => hv

theorem AccessKept.readEntry (hk : AccessKept P Q) (i : Nat) (h : P s) : (readEntry i s).Keeps P Q := by
  refine (hk.inByte _ s h).bind fun _ t ht => (hk.inByte _ t ht).bind fun _ u hu => ?_
  refine (hk.inLE _ _ hu).bind fun _ v hv => ?_
  split
  · exact hk.raised _ _ _ v (by decide) hv
  · exact hk.insertLeaf _ _ _ _ hv

theorem AccessKept.readEntries (hk : AccessKept P Q) (cnt olen : Nat) (h : P s) :
    (readEntries cnt olen s).Ends (fun _ t => P t ∧ t.phase = .hdrr) Q fun _ => True := by
  have error : ∀ sub info, (throwErr .malformedHeader sub info s : Res Unit).Ends
      (fun _ t => P t ∧ t.phase = .hdrr) Q fun _ => True := fun sub info => hk.raised _ sub info s (by decide) h
  unfold Machine.readEntries
  split
  · exact error 2 cnt
  · split
    · exact error 3 cnt
    · split
      · exact error 4 olen
      · exact (forUp_keeps (fun i _ => hk.readEntry i) cnt 0 (hk.table s s.sym _ s.hsize _ _ h)).bind fun _ u hu =>
          hk.finish _ (hk.stream u u.acc u.accn u.rbuf u.rbn _ hu)

/-- `RHDR` (R206). -/
theorem AccessKept.rhdrBody (hk : AccessKept P Q) (h : P s) :
    (rhdrBody s).Ends (fun _ t => P t ∧ t.phase = .hdrr) Q fun _ => True := by
  have started : P { runInit s with nsym := 0, origLen := 0 } :=
    hk.table _ (runInit s).sym 0 (runInit s).hsize 0 (runInit s).empty (hk.start s h)
  unfold Machine.rhdrBody readHeader
  split
  · exact hk.raised _ _ _ _ (by decide) started
  · exact (hk.inLE _ _ started).bind fun _ _ ht => (hk.inLE _ _ ht).bind fun _ _ hu => hk.readEntries _ _ hu

/-- Every single command keeps `P` where it goes on, and leads to `Q` where it raised. -/
theorem AccessKept.rowsEnd (hk : AccessKept P Q) : RowsEnd P Q fun _ => True := by
  intro i s hi h _
  cases i with
  | rst | compress | decompress => cases hi
  | clr => exact hk.finish _ (hk.table _ freshTable 256 256 0 false (hk.start s h))
  | scan =>
    exact hk.scanBody (fun t _ _ _ ht _ => hk.table t _ t.nsym t.hsize t.origLen t.empty ht)
      (fun t ht => hk.table t t.sym t.nsym t.hsize t.len t.empty ht) h
  | pack => exact hk.packBody h
  | hsortF => exact hk.hsortBody .freq h
  | hsortS => exact hk.hsortBody .sym h
  | tree => exact hk.treeBody h
  | codes => exact hk.codesBody h
  | whdr => exact hk.whdrBody h
  | rhdr => exact hk.rhdrBody h
  | enc => exact hk.encBody h
  | flush => exact hk.flushBody h
  | dec => exact hk.decBody h

/-- What holds after a command: `RST` is to be looked at apart. -/
theorem AccessKept.exec (hk : AccessKept P Q) (hPQ : ∀ t, P t → Q t) {i : Instr} {t : State}
    (hrst : Q (resetByCommand s)) (h : P s) (he : exec i s = .next t) : Q t := by
  by_cases hi : i = .rst
  · subst hi; cases he; exact hrst
  · rw [exec_eq_command hi] at he
    refine command_ends he (fun _ => hPQ s h) (fun _ _ => hk.raised _ _ _ s (by decide) h) fun _ hl => ?_
    exact (hk.rowsEnd.body hi h hl).mono (fun _ t ht => hPQ t ht.1) (fun _ => id) fun _ => id

end Sys2Proof.Machine
end

section
/-!
SUPPORT. What no command touches: IN and the host's side; the oracle's answers are used from the front (`20_memory.md` R61,
`10_state.md` R26, R36).
-/
namespace Sys2Proof.Machine

/-- IN and the host's side of `t` are those of `s`, and `t` has some of the last answers of `s` left. -/
def HostSide (s t : State) : Prop :=
  t.input = s.input ∧ t.inLen = s.inLen ∧ t.script = s.script ∧ t.readData = s.readData ∧ t.oracle <:+ s.oracle

theorem HostSide.refl (s : State) : HostSide s s := ⟨rfl, rfl, rfl, rfl, List.suffix_rfl⟩

theorem HostSide.popAnswer {s t : State} (h : HostSide s t) : HostSide s (popAnswer t) := by
  obtain ⟨hin, hlen, hscript, hdata, horacle⟩ := h
  exact ⟨hin, hlen, hscript, hdata, (List.tail_suffix t.oracle).trans horacle⟩

theorem accessKept_hostSide (s : State) : AccessKept (HostSide s) (HostSide s) where
  inByte _ _ h := inByte_within (R := fun _ => HostSide s) h.popAnswer h.popAnswer
  outByte _ _ h := outByte_within (R := fun _ => HostSide s) h.popAnswer h.popAnswer
  raised _ _ _ _ _ h := h
  stream _ _ _ _ _ _ h := h
  phase _ _ h := h
  table _ _ _ _ _ _ h := h
  tree _ _ _ _ h := h
  start _ h := h

theorem exec_hostSide {i : Instr} {s t : State} (h : exec i s = .next t) : HostSide s t :=
  (accessKept_hostSide s).exec (fun _ => id) (HostSide.refl s) (HostSide.refl s) h

/-- Settles O58: an access uses up the oracle's next answer, and no other update is on the host's side. -/
theorem commandsLeaveHostSide : Obligations.CommandsLeaveHostSide := fun _ _ _ h => exec_hostSide h

end Sys2Proof.Machine
end

section
/-!
SUPPORT. The first failing access (`20_memory.md` R63, R66, R70): as long as a command goes on no answer it used was a
failure, and a failure raises `IOFailure` at once.
-/
namespace Sys2Proof.Machine

/-- No error yet, and no answer used up since `s` was a failure. -/
def NoFailureSince (s t : State) : Prop := t.err = .none ∧ ∃ used, s.oracle = used ++ t.oracle ∧ IoAnswer.fail ∉ used

/-- The address or position an `IOFailure` reports (R63, R66, R281). -/
def ReportsAccess (t : State) : Prop :=
  (t.errsub = 1 ∧ t.errinfo.toNat < t.len.toNat) ∨ (t.errsub = 2 ∧ t.errinfo = t.opos.extractLsb' 0 32)

/-- What a command may leave of the oracle: no failure used, or one, the last, that raised. -/
def FailureRaised (s t : State) : Prop :=
  ∃ used, s.oracle = used ++ t.oracle ∧ (t.err ≠ .ioFailure → IoAnswer.fail ∉ used) ∧
    (t.err = .ioFailure → t.phase = .error ∧ (∃ before, used = before ++ [.fail] ∧ IoAnswer.fail ∉ before) ∧
      ReportsAccess t)

variable {s t : State}

theorem NoFailureSince.failureRaised (h : NoFailureSince s t) : FailureRaised s t := by
  obtain ⟨herr, used, hused, hfail⟩ := h
  exact ⟨used, hused, fun _ => hfail, fun he => by rw [herr] at he; cases he⟩

/-- An error that is no failed access. -/
theorem NoFailureSince.raise (h : NoFailureSince s t) {kind : ErrKind} (hkind : kind ≠ .ioFailure) (sub : BitVec 8)
    (info : Nat) : FailureRaised s (raise kind sub info t) := by
  obtain ⟨-, used, hused, hfail⟩ := h
  exact ⟨used, hused, fun _ => hfail, fun he => absurd he hkind⟩

theorem NoFailureSince.popAnswer (h : NoFailureSince s t) (ha : nextAnswer t = .ok) :
    NoFailureSince s (popAnswer t) := by
  obtain ⟨herr, used, hused, hfail⟩ := h
  refine ⟨herr, ?_⟩
  show ∃ used, s.oracle = used ++ t.oracle.tail ∧ IoAnswer.fail ∉ used
  cases ho : t.oracle with
  | nil => exact ⟨used, by rw [hused, ho]; rfl, hfail⟩
  | cons a rest =>
    have ha : a = .ok := by rwa [nextAnswer, ho] at ha
    exact ⟨used ++ [a], by rw [hused, ho, List.append_assoc]; rfl, by simp [hfail, ha]⟩

/-- The failing access is the last one. -/
theorem NoFailureSince.fail (h : NoFailureSince s t) (ha : nextAnswer t = .fail) {sub : BitVec 8} {info : Nat}
    (hr : ReportsAccess (Machine.raise .ioFailure sub info (Machine.popAnswer t))) :
    FailureRaised s (Machine.raise .ioFailure sub info (Machine.popAnswer t)) := by
  obtain ⟨-, used, hused, hfail⟩ := h
  have ho : t.oracle = .fail :: t.oracle.tail := by
    unfold nextAnswer at ha
    split at ha
    · cases ha
    · rename_i a rest ho
      rw [ho, ha, List.tail_cons]
  refine ⟨used ++ [.fail], ?_, fun hne => absurd rfl hne, fun _ => ⟨rfl, ⟨used, rfl, hfail⟩, hr⟩⟩
  show s.oracle = used ++ [.fail] ++ t.oracle.tail
  rw [hused, List.append_assoc]
  exact congrArg _ ho

theorem inByte_failureRaised (a : Nat) (h : NoFailureSince s t) :
    (inByte a t).Keeps (NoFailureSince s) (FailureRaised s) := by
  rcases inByte_cases a t with ⟨-, e⟩ | ⟨ha, hn, e⟩ | ⟨-, hn, b, -, e⟩ | ⟨-, -, -, e⟩ <;> rw [e]
  · trivial
  · refine h.fail hn (.inl ⟨rfl, ?_⟩)
    show (BitVec.ofNat 32 a).toNat < t.len.toNat
    rw [BitVec.toNat_ofNat]
    exact Nat.lt_of_le_of_lt (Nat.mod_le _ _) ha
  · exact h.popAnswer hn
  · trivial

theorem outByte_failureRaised (v : Byte) (h : NoFailureSince s t) :
    (outByte v t).Keeps (NoFailureSince s) (FailureRaised s) := by
  rcases outByte_cases v t with ⟨hn, e⟩ | ⟨hn, e⟩ <;> rw [e]
  · refine h.fail hn (.inr ⟨rfl, ?_⟩)
    show BitVec.ofNat 32 (t.opos.toNat % 2 ^ 32) = t.opos.extractLsb' 0 32
    exact BitVec.eq_of_toNat_eq (by simp)
  · exact h.popAnswer hn

theorem accessKept_noFailureSince (s : State) : AccessKept (NoFailureSince s) (FailureRaised s) where
  inByte a _ h := inByte_failureRaised a h
  outByte v _ h := outByte_failureRaised v h
  raised _ sub info _ hkind h := h.raise hkind sub info
  stream _ _ _ _ _ _ h := h
  phase _ _ h := h
  table _ _ _ _ _ _ h := h
  tree _ _ _ _ h := h
  start _ h := h

/-- Settles O19: an access whose answer is a failure raises `IOFailure`, and after a raise nothing is executed. -/
theorem failedAccessRaisesAtOnce : Obligations.FailedAccessRaisesAtOnce := fun _ s _ herr h =>
  (accessKept_noFailureSince s).exec (fun _ => NoFailureSince.failureRaised)
    (NoFailureSince.failureRaised ⟨rfl, [], rfl, nofun⟩) ⟨herr, [], rfl, nofun⟩ h

end Sys2Proof.Machine
end

section
/-!
SUPPORT. The records of `SYM` and `NODE` stay inside their address spaces (`10_state.md` R28, R31, `44_container.md` R209),
from every state in canonical form: a record is written where one is held, at a symbol's index, or at an index that a count
bounds.
-/
namespace Sys2Proof.Machine

variable {s₀ s t : State} {n : Nat} {slot : Slot} {P Q Q' : State → Prop}

/-- `SYM` and `NODE` are in canonical form and inside their address spaces. -/
def RecordsForm (s : State) : Prop :=
  Store.Rising s.sym ∧ Store.Below Config.alphabet s.sym ∧ Store.Rising s.node ∧ Store.Below Config.nodeCap s.node

theorem memoryForm_iff : MemoryForm s ↔ Memory.wf s.input ∧ RecordsForm s := Iff.rfl

/-- Two things shown of one piece of pseudocode. -/
theorem Res.Ends.and {α : Type} {P P' : α → State → Prop} {F F' : Fault → Prop} {m : Res α} (h : m.Ends P Q F)
    (h' : m.Ends P' Q' F') : m.Ends (fun a t => P a t ∧ P' a t) (fun t => Q t ∧ Q' t) fun f => F f ∧ F' f := by
  cases m with
  | ok a t => exact ⟨h, h'⟩
  | raised t => exact ⟨h, h'⟩
  | stop f => exact ⟨h, h'⟩

/-! ### Reads and writes -/

theorem RecordsForm.lt_of_readSym (h : RecordsForm s) {i : Nat} {r : SymRec} (hr : Store.read s.sym i = some r) :
    i < Config.alphabet := by
  obtain ⟨-, hb, -⟩ := h
  exact hb _ (Store.mem_of_read hr)

theorem RecordsForm.lt_of_readNode (h : RecordsForm s) {j : Nat} {r : NodeRec} (hr : Store.read s.node j = some r) :
    j < Config.nodeCap := by
  obtain ⟨-, -, -, hb⟩ := h
  exact hb _ (Store.mem_of_read hr)

theorem RecordsForm.writeSym (h : RecordsForm s) {i : Nat} (hi : i < Config.alphabet) (r : SymRec) :
    RecordsForm (writeSym i r s) := by
  obtain ⟨hr, hb, hnode⟩ := h
  exact ⟨Store.rising_write hr i r, Store.below_write hb hi r, hnode⟩

theorem RecordsForm.writeNode (h : RecordsForm s) {j : Nat} (hj : j < Config.nodeCap) (r : NodeRec) :
    RecordsForm (writeNode j r s) := by
  obtain ⟨hsr, hsb, hr, hb⟩ := h
  exact ⟨hsr, hsb, Store.rising_write hr j r, Store.below_write hb hj r⟩

theorem RecordsForm.allocNode (h : RecordsForm s) (hn : s.nnode.toNat < Config.nodeCap) (r : NodeRec) :
    RecordsForm (allocNode r s) :=
  h.writeNode hn r

/-! ### The table -/

theorem streamKept_recordsForm : StreamKept RecordsForm RecordsForm where
  inByte _ _ h := inByte_within (R := fun _ => RecordsForm) h h
  outByte _ _ h := outByte_within (R := fun _ => RecordsForm) h h
  raised _ _ _ _ _ h := h
  stream _ _ _ _ _ _ h := h
  phase _ _ h := h

theorem clr_keeps_recordsForm (h : RecordsForm s) :
    (clrBody s).Ends (fun _ t => RecordsForm t ∧ t.phase = .cleared) RecordsForm fun _ => True := by
  obtain ⟨-, -, hnode⟩ := h
  refine ⟨⟨Store.rising_ofListFrom _ _, fun c hc => ?_, hnode⟩, rfl⟩
  have hlt := (Store.lt_of_mem_ofListFrom hc).2
  rwa [List.length_map, List.length_range, Nat.zero_add] at hlt

/-- `PACK` writes below the record it has just read (R124). -/
theorem packFrom_keeps_recordsForm (n : Nat) {i j : Nat} (hj : j ≤ i) (h : RecordsForm s) :
    (packFrom n i j s).Keeps RecordsForm RecordsForm := by
  induction n generalizing i j s with
  | zero => exact h
  | succ n ih =>
    rw [packFrom]
    rcases readSym_cases i s with ⟨r, hr, e⟩ | ⟨-, e⟩ <;> rw [e]
    · rw [Res.bind_ok]
      split
      · exact ih (by omega) (h.writeSym (Nat.lt_of_le_of_lt hj (h.lt_of_readSym hr)) r)
      · exact ih (by omega) h
    · trivial

/-- A table that is held is no longer than the alphabet. -/
theorem RecordsForm.length_table_le (h : RecordsForm s) {rs : List SymRec} (ht : Table rs s) :
    rs.length ≤ Config.alphabet := by
  cases hl : rs.length with
  | zero => exact Nat.zero_le _
  | succ k =>
    have hk : k < rs.length := by omega
    exact h.lt_of_readSym ((ht.2 k hk).trans (List.getElem?_eq_getElem hk))

theorem hsort_keeps_recordsForm (cmp : Cmp) (h : RecordsForm s) :
    (hsortBody cmp s).Ends (fun _ t => RecordsForm t ∧ t.phase = sortedPhase cmp) RecordsForm fun _ => True := by
  rcases hsortBody_cases cmp s with ⟨rs, ht, e⟩ | ⟨k, -, -, e⟩ <;> rw [e]
  · have hl : 0 + (heapSort cmp rs).length ≤ Config.alphabet := by
      rw [Nat.zero_add, (perm_heapSort cmp rs).length_eq]
      exact h.length_table_le ht
    obtain ⟨hr, hb, hnode⟩ := h
    exact ⟨⟨Store.rising_writeList hr 0 _, Store.below_writeList hb hl, hnode⟩, rfl⟩
  · trivial

/-! ### `TREE` and `CODES` -/

/-- A merge allocates one node (R162). -/
theorem merge_keeps_recordsForm (m : Nat) (hd : Heads) (h : RecordsForm s) (hn : s.nnode.toNat < Config.nodeCap) :
    (merge m hd s).Ends (fun _ t => RecordsForm t ∧ t.nnode.toNat ≤ s.nnode.toNat + 1) RecordsForm fun _ => True := by
  have picked : ∀ hd, (pick m hd s).Ends (fun _ t => t = s) RecordsForm fun _ => True := fun hd =>
    (pick_frame m hd s).mono (fun _ _ => id) (fun _ => False.elim) fun _ => id
  refine (picked hd).bind fun a t ht => ?_
  subst ht
  refine (picked a.2).bind fun b u hu => ?_
  subst hu
  refine (readNode_ends (P := fun t => t = u) a.1 rfl).bind fun ra v hv => ?_
  subst hv
  refine (readNode_ends (P := fun t => t = v) b.1 rfl).bind fun rb w hw => ?_
  subst hw
  refine ⟨h.allocNode hn _, ?_⟩
  show (w.nnode + 1).toNat ≤ w.nnode.toNat + 1
  rw [BitVec.toNat_add]
  exact Nat.mod_le _ _

theorem mergeTimes_keeps_recordsForm (m k : Nat) (hd : Heads) (h : RecordsForm s)
    (hn : s.nnode.toNat + k ≤ Config.nodeCap) : (mergeTimes m k hd s).Keeps RecordsForm RecordsForm := by
  induction k generalizing hd s with
  | zero => exact h
  | succ k ih => exact (merge_keeps_recordsForm m hd h (by omega)).bind fun hd t ht => ih hd ht.1 (by omega)

theorem growTree_keeps_recordsForm (h : RecordsForm s) (hn : s.nnode.toNat + (n - 1) ≤ Config.nodeCap) :
    (growTree n s).Keeps RecordsForm RecordsForm := by
  unfold growTree
  split
  · exact h
  · split
    · exact h
    · exact (mergeTimes_keeps_recordsForm n (n - 1) _ h hn).bind fun _ _ ht => ht

/-- `TREE` uses fewer than two nodes for each record of a 9-bit count (R162). -/
theorem tree_keeps_recordsForm (h : RecordsForm s) :
    (treeBody s).Ends (fun _ t => RecordsForm t ∧ t.phase = .treed) RecordsForm fun _ => True := by
  have hn := s.nsym.isLt
  have copied : (forUp copyLeaf s.nsym.toNat 0 s).Keeps RecordsForm RecordsForm :=
    forUp_ends (I := fun _ => RecordsForm) h fun i t _ hi ht => by
      unfold copyLeaf
      rcases readSym_cases i t with ⟨r, -, e⟩ | ⟨-, e⟩ <;> rw [e]
      · exact ht.writeNode (by simp only [Config.nodeCap]; omega) _
      · trivial
  refine copied.bind fun _ t ht => ?_
  have hcount : (BitVec.ofNat 15 t.nsym.toNat).toNat + (t.nsym.toNat - 1) ≤ Config.nodeCap := by
    have := t.nsym.isLt
    rw [BitVec.toNat_ofNat]
    simp only [Config.nodeCap]
    omega
  exact (growTree_keeps_recordsForm (s := { t with nnode := BitVec.ofNat 15 t.nsym.toNat }) ht hcount).bind fun _ _ hu =>
    streamKept_recordsForm.finish _ hu

theorem codeWalk_recordsForm : CodeWalk RecordsForm RecordsForm (fun _ => True) fun _ => True where
  assign _ _ _ _ _ h _ hr _ _ := h.writeSym (h.lt_of_readSym hr) _
  raised _ _ _ _ _ h := h
  record _ _ _ _ _ := trivial
  node _ _ _ _ _ := trivial
  leaf _ _ _ _ _ _ _ _ := trivial
  child _ _ _ _ _ _ _ _ _ := ⟨fun _ _ => trivial, fun _ => trivial⟩

/-! ### `RHDR` -/

/-- A node is attached at `NNODE`, and its parent is a node that is held (R207). -/
theorem attach_keeps_recordsForm (slot : Slot) (r : NodeRec) (h : RecordsForm s) (hn : s.nnode.toNat < Config.nodeCap) :
    (attach slot r s).Keeps RecordsForm RecordsForm := by
  have ha : RecordsForm (allocNode r s) := h.allocNode hn r
  have linked : ∀ k (f : NodeRec → NodeRec), ((readNode k (allocNode r s)).bind fun q t =>
      .ok () (writeNode k (f q) t)).Keeps RecordsForm RecordsForm := fun k f => by
    rcases readNode_cases k (allocNode r s) with ⟨q, hq, e⟩ | ⟨-, e⟩ <;> rw [e]
    · exact ha.writeNode (ha.lt_of_readNode hq) (f q)
    · trivial
  have written : (writeSlot slot s.nnode.toNat (allocNode r s)).Keeps RecordsForm RecordsForm := by
    cases slot with
    | root => exact ha
    | left k => exact linked k _
    | right k => exact linked k _
  exact written.bind fun _ _ ht => ht

theorem nodeAt_keeps_recordsForm (hp : OnPath s₀ n slot s) (h : RecordsForm s) (h1 : 1 ≤ n)
    (hn : n ≤ Config.nodeCap) : (nodeAt slot s).Keeps RecordsForm RecordsForm := by
  obtain ⟨held, e, -⟩ := readSlot_runs hp.growing hp.usable
  rw [Machine.nodeAt, e]
  cases held with
  | some c => exact h
  | none => exact attach_keeps_recordsForm slot _ h (Nat.lt_of_lt_of_le (hp.room_of_empty h1 e) hn)

theorem walkSlots_keeps_recordsForm (hp : OnPath s₀ n slot s) (h : RecordsForm s) (c : CodeWord) (entry : Nat)
    {rounds k : Nat} (h1 : 1 ≤ n) (hn : n + rounds ≤ Config.nodeCap) :
    (walkSlots c entry rounds k slot s).Ends (fun slot' t => OnPath s₀ (n + rounds) slot' t ∧ RecordsForm t) RecordsForm
      fun _ => True := by
  induction rounds generalizing k n slot s with
  | zero => exact ⟨hp, h⟩
  | succ rounds ih =>
    obtain ⟨j, t, e, hj, hjn, hg⟩ := hp.nodeAt h1 (by omega)
    have ht : RecordsForm t := (nodeAt_keeps_recordsForm hp h h1 (by omega)).of_ok e
    obtain ⟨r, hr⟩ := hg.read hj
    rw [Machine.walkSlots, e, Res.bind_ok, readNode_of_held hr, Res.bind_ok]
    cases hl : r.leaf with
    | true => exact ht
    | false =>
      have hnext : OnPath s₀ (n + 1) (if c.getLsbD k = true then .right j else .left j) t :=
        onPath_child hg hj hjn hr hl (by split <;> rfl)
      have := ih hnext ht (k := k + 1) (by omega) (by omega)
      rwa [Nat.add_assoc, Nat.add_comm 1] at this

theorem insertLeaf_keeps_recordsForm (hg : Grown s₀ n s) (h : RecordsForm s) (symbol : Byte) (c : CodeWord)
    {len : Nat} (entry : Nat) (h1 : 1 ≤ n) (hn : n + len ≤ Config.nodeCap) :
    (insertLeaf symbol c len entry s).Keeps RecordsForm RecordsForm := by
  refine (walkSlots_keeps_recordsForm hg.onPath h c entry h1 hn).bind fun slot t ⟨hp, ht⟩ => ?_
  obtain ⟨held, e, -⟩ := readSlot_runs hp.growing hp.usable
  rw [e, Res.bind_ok]
  cases held with
  | some _ => exact ht
  | none =>
    have hroom := hp.room_of_empty (by omega) e
    exact (attach_keeps_recordsForm slot _ ht (Nat.lt_of_lt_of_le hroom hn)).bind fun _ _ hu => hu

/-- Reading IN writes no record, and keeps what does not speak of the oracle. -/
theorem reader_recordsForm (hpop : ∀ s, P s → P (popAnswer s)) (limit : Nat) :
    Reader limit (fun t => P t ∧ RecordsForm t) RecordsForm fun _ => True where
  pop s h := ⟨hpop s h.1, h.2⟩
  raised _ _ _ _ _ h := h.2
  missing _ _ _ _ := trivial
  range _ _ _ _ _ := trivial

theorem reader_grown_recordsForm (s₀ : State) (n limit : Nat) :
    Reader limit (fun t => Grown s₀ n t ∧ RecordsForm t) RecordsForm fun _ => True :=
  reader_recordsForm (fun _ h => ⟨h.1.popAnswer, h.2⟩) limit

/-- An entry adds at most 64 nodes (R206, R209), each inside the node memory. -/
theorem readEntry_keeps_recordsForm {i : Nat} (hg : Grown s₀ (64 * i + 1) s) (h : RecordsForm s)
    (hi : i < Config.nsymMax) :
    (readEntry i s).Ends (fun _ t => Grown s₀ (64 * (i + 1) + 1) t ∧ RecordsForm t) RecordsForm fun _ => True := by
  have hr := reader_grown_recordsForm s₀ (64 * i + 1)
  refine ((hr _).inByte (Nat.lt_succ_self _) ⟨hg, h⟩).bind fun symbol t ht => ?_
  refine ((hr _).inByte (Nat.lt_succ_self _) ht).bind fun len u hu => ?_
  refine ((hr _).inLE (Nat.le_refl _) hu).bind fun c v ⟨hgv, hv⟩ => ?_
  split
  · exact hv
  · rename_i hcode
    simp only [Config.codeW] at hcode
    simp only [Config.nsymMax] at hi
    have hroom : 64 * i + 1 + len.toNat ≤ Config.nodeCap := by simp only [Config.nodeCap]; omega
    have grown := hgv.insertLeaf (F := fun _ => True) symbol (BitVec.ofNat 64 c) i (by omega) hroom
    exact (grown.and (insertLeaf_keeps_recordsForm hgv hv symbol _ i (by omega) hroom)).mono
      (fun _ t ⟨⟨⟨hgt, hcount⟩, _⟩, ht⟩ => ⟨⟨hgt, Nat.le_trans hcount (by omega)⟩, ht⟩) (fun _ ht => ht.2)
      fun _ _ => trivial

theorem readEntries_keeps_recordsForm (hs : Unplanted s₀ s) (h : RecordsForm s) (cnt olen : Nat) :
    (readEntries cnt olen s).Ends (fun _ t => RecordsForm t ∧ t.phase = .hdrr) RecordsForm fun _ => True := by
  unfold readEntries
  split
  · exact h
  · rename_i hcnt
    split
    · exact h
    · split
      · exact h
      · have hstart := grown_of_unplanted hs (64 * 0 + 1) (BitVec.ofNat 9 cnt) (BitVec.ofNat 32 olen) (emptyFlag cnt)
        exact (forUp_ends (I := fun i t => Grown _ (64 * i + 1) t ∧ RecordsForm t) ⟨hstart, h⟩ fun i t _ hi ht =>
          readEntry_keeps_recordsForm ht.1 ht.2 (by omega)).bind fun _ t ht => ⟨ht.2, rfl⟩

/-- `RHDR` starts with no node (R206), so that 256 entries fit. -/
theorem rhdr_keeps_recordsForm (h : RecordsForm s) :
    (rhdrBody s).Ends (fun _ t => RecordsForm t ∧ t.phase = .hdrr) RecordsForm fun _ => True := by
  have hr := reader_recordsForm (P := Unplanted s) fun _ h => h
  have hstart : Unplanted s { runInit s with nsym := 0, origLen := 0 } := ⟨rfl, rfl, rfl, rfl⟩
  unfold rhdrBody readHeader
  split
  · exact h
  · refine ((hr _).inLE (Nat.le_refl _) ⟨hstart, h⟩).bind fun cnt t ht => ?_
    exact ((hr _).inLE (Nat.le_refl _) ht).bind fun olen u hu => readEntries_keeps_recordsForm hu.1 hu.2 cnt olen

/-! ### Every step -/

theorem rowsEnd_recordsForm : RowsEnd RecordsForm RecordsForm fun _ => True := by
  intro i s hi h _
  cases i with
  | rst | compress | decompress => cases hi
  | clr => exact clr_keeps_recordsForm h
  | scan =>
    exact streamKept_recordsForm.scanBody (fun _ _ _ _ ht hr => ht.writeSym (ht.lt_of_readSym hr) _)
      (fun _ ht => ht) h
  | pack =>
    exact (packFrom_keeps_recordsForm _ (Nat.le_refl 0) h).bind fun _ _ ht => streamKept_recordsForm.finish _ ht
  | hsortF => exact hsort_keeps_recordsForm .freq h
  | hsortS => exact hsort_keeps_recordsForm .sym h
  | tree => exact tree_keeps_recordsForm h
  | codes =>
    exact (codeWalk_recordsForm.codesBody (fun _ _ => trivial) h).imp fun _ _ ⟨_, hu, ht⟩ => by
      rw [ht]; exact ⟨hu, rfl⟩
  | whdr => exact streamKept_recordsForm.whdrBody h
  | rhdr => exact rhdr_keeps_recordsForm h
  | enc => exact streamKept_recordsForm.encBody h
  | flush => exact streamKept_recordsForm.flushBody h
  | dec => exact streamKept_recordsForm.decBody h

theorem recordsForm_reset : RecordsForm State.reset := (memoryForm_iff.1 memoryForm_reset).2

theorem keptOutside_recordsForm : KeptOutside RecordsForm where
  host _ _ _ _ _ h := h
  rst _ := recordsForm_reset
  hardReset _ := recordsForm_reset
  raised _ _ _ _ _ h := h

theorem illegalWord_input (w : Word) (s : State) : (illegalWord w s).input = s.input := by
  unfold illegalWord
  split <;> rfl

theorem storeReg_input (off v : Word) (s : State) : (storeReg off v s).input = s.input := by
  unfold storeReg
  split <;> rfl

/-- IN changes only where the host supplies or sets bytes, at 32-bit addresses (R60). -/
theorem step_keeps_wf_input (h : Memory.wf s.input) (hs : step s = .next t) : Memory.wf t.input := by
  rcases step_cases s with ⟨-, e⟩ | ⟨a, rest, -, e⟩ <;> rw [e] at hs
  · cases hs; exact h
  · rcases hostAct_next hs with ⟨w, i, -, -, hx⟩ | ⟨w, -, -, rfl⟩ | ⟨off, v, -, -, rfl⟩ | ⟨off, -, rfl⟩ |
      ⟨bytes, -, hl, rfl⟩ | ⟨addr, v, -, rfl⟩ | ⟨-, rfl⟩
    · rw [(exec_hostSide hx).1]; exact h
    · rw [illegalWord_input]; exact h
    · rw [storeReg_input]; exact h
    · exact h
    · exact Memory.wf_ofList hl
    · exact Memory.wf_write h addr v
    · exact h

/-- Settles O50: IN is written by the host alone, and every record a command writes has an index inside its memory. -/
theorem stepKeepsMemoryForm : Obligations.StepKeepsMemoryForm := fun _ _ hJ h =>
  have ⟨hin, hrec⟩ := memoryForm_iff.1 hJ
  memoryForm_iff.2 ⟨step_keeps_wf_input hin h, keptOutside_recordsForm.step rowsEnd_recordsForm hrec h⟩

end Sys2Proof.Machine
end

section
/-!
SUPPORT. Decoding and encoding of command words, and the dispatch of a word that is no command
(`30_encoding.md` R90 to R94, `46_top_level.md` R261).
-/
namespace Sys2Proof

/-! ### The table of words -/

/-- A word is `Illegal` exactly when it is the word of no row (R93). -/
theorem lookupCommand_eq_illegal {w : Word} {rows : List (Word × Instr)} :
    lookupCommand w rows = .illegal ↔ w ∉ rows.map Prod.fst := by
  induction rows with
  | nil => simp [lookupCommand]
  | cons row rows ih =>
    by_cases hw : w = row.1
    · simp [lookupCommand, hw]
    · simp [lookupCommand, hw, ih]

/-- A word decodes to a command only where a row says so (R93). -/
theorem mem_of_lookupCommand {w : Word} {i : Instr} {rows : List (Word × Instr)}
    (h : lookupCommand w rows = .command i) : (w, i) ∈ rows := by
  induction rows with
  | nil => cases h
  | cons row rows ih =>
    obtain ⟨v, j⟩ := row
    rw [lookupCommand] at h
    split at h
    · next hw => cases h; exact hw ▸ List.mem_cons_self
    · exact List.mem_cons_of_mem _ (ih h)

/-- Settles O1: the words of the table are the 15 of R92, and a word of no row is `Illegal`. -/
theorem mapWordsDecode : Obligations.MapWordsDecode :=
  ⟨rfl, rfl, rfl, rfl, rfl, rfl, rfl, rfl, rfl, rfl, rfl, rfl, rfl, rfl, rfl,
    fun _ => (lookupCommand_eq_illegal (rows := commandTable)).2⟩

/-! ### Decoding and encoding -/

theorem decode_encode (i : Instr) : decode (encode i) = .command i := by
  cases i with
  | rst => exact Laws.RoundTrip.rst
  | clr => exact Laws.RoundTrip.clr
  | scan => exact Laws.RoundTrip.scan
  | pack => exact Laws.RoundTrip.pack
  | hsortF => exact Laws.RoundTrip.hsortF
  | hsortS => exact Laws.RoundTrip.hsortS
  | tree => exact Laws.RoundTrip.tree
  | codes => exact Laws.RoundTrip.codes
  | whdr => exact Laws.RoundTrip.whdr
  | rhdr => exact Laws.RoundTrip.rhdr
  | enc => exact Laws.RoundTrip.enc
  | flush => exact Laws.RoundTrip.flush
  | dec => exact Laws.RoundTrip.dec
  | compress => exact Laws.RoundTrip.compress
  | decompress => exact Laws.RoundTrip.decompress

/-- The two forms of the opcode map agree: the word of each row is its command's fields joined (R90, R92). -/
theorem commandTable_encodes : ∀ row ∈ commandTable, row.1 = encode row.2 := by decide

theorem decode_eq_command_iff (w : Word) (i : Instr) : decode w = .command i ↔ w = encode i := by
  constructor
  · exact fun h => commandTable_encodes _ (mem_of_lookupCommand h)
  · rintro rfl
    exact decode_encode i

/-- Settles O2: each row's word is the word of its command's fields, and each command has a row. -/
theorem decodeEncodeAgree : Obligations.DecodeEncodeAgree := decode_eq_command_iff

/-! ### The fields of a word -/

/-- The value of a word from its fields: `cmp` at bit 8, `zero` at bit 9 (R90). -/
theorem toNat_toWord (f : CmdFields) :
    f.toWord.toNat = f.zero.toNat * 2 ^ 9 + f.cmp.toNat * 2 ^ 8 + f.opcode.toNat := by
  simp only [CmdFields.toWord, Machine.toNat_append_eq_add]
  omega

theorem toWord_ofWord (w : Word) : (CmdFields.ofWord w).toWord = w := by
  apply BitVec.eq_of_toNat_eq
  simp only [toNat_toWord, CmdFields.ofWord, BitVec.extractLsb'_toNat, Nat.shiftRight_eq_div_pow]
  omega

theorem ofWord_toWord (f : CmdFields) : CmdFields.ofWord f.toWord = f := by
  obtain ⟨zero, cmp, opcode⟩ := f
  have hcmp := cmp.isLt
  have hopcode := opcode.isLt
  have hzero := zero.isLt
  simp only [CmdFields.ofWord, CmdFields.mk.injEq]
  refine ⟨BitVec.eq_of_toNat_eq ?_, BitVec.eq_of_toNat_eq ?_, BitVec.eq_of_toNat_eq ?_⟩ <;>
    · rw [BitVec.extractLsb'_toNat, Nat.shiftRight_eq_div_pow, toNat_toWord]
      simp only
      omega

/-- A word and its fields determine each other. -/
theorem eq_toWord_iff (w : Word) (f : CmdFields) : w = f.toWord ↔ CmdFields.ofWord w = f := by
  constructor
  · rintro rfl
    exact ofWord_toWord f
  · rintro rfl
    exact (toWord_ofWord w).symm

/-- Every opcode of the map is in a row with `cmp` 0, that of `HSORT` in one with `cmp` 1 too (R92). -/
theorem exists_row_of_listed : ∀ opcode ∈ listedOpcodes, ∀ cmp : BitVec 1, cmp = 0 ∨ opcode = hsortOpcode →
    ∃ row ∈ commandTable, row.2.cmpBit = cmp ∧ row.2.opcode = opcode := by decide

/-- The fields that pass the checks are those of the 15 commands (R90, R92, R94). -/
theorem wf_iff_exists_fields (f : CmdFields) : f.wf = true ↔ ∃ i : Instr, f = i.fields := by
  constructor
  · intro h
    obtain ⟨zero, cmp, opcode⟩ := f
    simp only [CmdFields.wf, CmdFields.opcodeListed, CmdFields.cmpAllowed, CmdFields.zeroClear, Bool.and_eq_true,
      Bool.or_eq_true, beq_iff_eq, List.contains_iff_mem] at h
    obtain ⟨⟨hlisted, hcmp⟩, rfl⟩ := h
    obtain ⟨row, -, rfl, rfl⟩ := exists_row_of_listed opcode hlisted cmp hcmp
    exact ⟨row.2, rfl⟩
  · rintro ⟨i, rfl⟩
    cases i <;> rfl

theorem decode_ne_illegal_iff (w : Word) : decode w ≠ .illegal ↔ ∃ i, decode w = .command i := by
  cases decode w <;> simp

/-- Settles O3: a legal word is the word of a command's fields, and a word and its fields determine each other. -/
theorem legalWordsAreWellFormedFields : Obligations.LegalWordsAreWellFormedFields := by
  intro w
  calc decode w ≠ .illegal
    _ ↔ ∃ i, decode w = .command i := decode_ne_illegal_iff w
    _ ↔ ∃ i : Instr, CmdFields.ofWord w = i.fields := exists_congr fun i =>
      (decode_eq_command_iff w i).trans (eq_toWord_iff w i.fields)
    _ ↔ (CmdFields.ofWord w).wf = true := (wf_iff_exists_fields _).symm

namespace Machine

/-! ### A word that is no command -/

/-- A write to `CMD` issues the word (R21). -/
theorem step_cmdWrite {s : State} {w : Word} {rest : List HostAction} (h : s.script = .regWrite 0 w :: rest) :
    step s = issueWord w { s with script := rest } := step_cons h

theorem issueWord_of_illegal {w : Word} (h : decode w = .illegal) (s : State) :
    issueWord w s = .next (illegalWord w s) := by
  rw [issueWord, h]

/-- Outside `ERROR` the error registers say `IllegalCommand(1, w)` (R94). -/
theorem illegalWord_of_ne_error (w : Word) {s : State} (he : s.phase ≠ .error) :
    illegalWord w s = { s with phase := .error, err := .illegalCommand, errsub := 1, errinfo := w } := by
  rw [illegalWord, if_neg he, raise, BitVec.ofNat_toNat, BitVec.setWidth_eq]

theorem illegalWord_of_error (w : Word) {s : State} (he : s.phase = .error) : illegalWord w s = s := if_pos he

/-- Settles O5: the step issues the word, which is no command. -/
theorem illegalWordRaises : Obligations.IllegalWordRaises := by
  intro s w rest hscript hw
  rw [step_cmdWrite hscript, issueWord_of_illegal hw]
  exact ⟨fun he => congrArg Host.Outcome.next (illegalWord_of_ne_error w he),
    fun he => congrArg Host.Outcome.next (illegalWord_of_error w he)⟩

end Machine
end Sys2Proof
end

section
/-!
SUPPORT. A script of single commands as one piece of pseudocode, and the two whole flows as their scripts
(`30_encoding.md` R96, `46_top_level.md` R265, R266).
-/
namespace Sys2Proof.Machine

/-! ### Runs of commands -/

/-- In `ERROR` a command other than `RST` is ignored (R261). -/
theorem exec_of_phase_error {i : Instr} {s : State} (hi : i ≠ .rst) (he : s.phase = .error) : exec i s = .next s := by
  rw [exec_eq_command hi, command, if_pos he]

/-- In a phase of its row of R262 a command other than `RST` is its pseudocode. -/
theorem exec_of_legalIn {i : Instr} {s : State} (hi : i ≠ .rst) (hl : legalIn i s.phase = true) :
    exec i s = (bodyOf i s).toOutcome := by
  rw [exec_eq_command hi, command_legal (phase_ne_error_of_legalIn hi hl) hl]

theorem ne_rst_of_isSingle {i : Instr} (h : isSingle i = true) : i ≠ .rst := by
  rintro rfl
  cases h

theorem execAll_cons_of_next {i : Instr} {s t : State} (h : exec i s = .next t) (is : List Instr) :
    execAll (i :: is) s = execAll is t := by
  rw [execAll, h]

theorem execAll_cons_of_fault {i : Instr} {s : State} {f : Fault} (h : exec i s = .fault f) (is : List Instr) :
    execAll (i :: is) s = .fault f := by
  rw [execAll, h]

theorem execAll_singleton (i : Instr) (s : State) : execAll [i] s = exec i s := by
  rw [execAll]
  cases exec i s <;> rfl

/-- After an error the rest of a script is ignored (R261). -/
theorem execAll_of_phase_error {is : List Instr} {s : State} (h : ∀ i ∈ is, isSingle i = true)
    (he : s.phase = .error) : execAll is s = .next s := by
  induction is with
  | nil => rfl
  | cons i is ih =>
    rw [execAll_cons_of_next (exec_of_phase_error (ne_rst_of_isSingle (h i List.mem_cons_self)) he)]
    exact ih fun j hj => h j (List.mem_cons_of_mem i hj)

/-! ### A script as one command -/

/-- Any state survives every update, and a raise leads to `ERROR` (R285). -/
theorem kept_anyState : Kept (fun _ => True) InError where
  pop _ _ := trivial
  raised _ _ _ _ _ _ := inError_raise _ _ _ _
  table _ _ _ _ _ _ _ := trivial
  tree _ _ _ _ _ := trivial
  rest _ _ _ _ := trivial
  phase _ _ _ := trivial
  start _ _ := trivial
  emit _ _ _ := trivial
  bit _ _ _ _ := trivial
  placedRaise _ _ _ _ := inError_raise _ _ _ _
  clear _ _ := trivial
  take _ _ _ := trivial
  load _ _ _ _ := trivial

/-- From any state a single command leaves the phase of its row of R262, or raised into `ERROR`. -/
theorem rowsEnd_anyState : RowsEnd (fun _ => True) InError fun _ => True :=
  fun _ _ hi hs _ => kept_anyState.rows hi hs

/-- The pseudocode of the commands `i :: is` run as one command, which ends at the first raise (R265, R266). -/
def flowOf (i : Instr) : List Instr → State → Res Unit
  | [] => bodyOf i
  | j :: is => andThen (bodyOf i) (flowOf j is)

theorem compressBody_eq_flowOf :
    compressBody = flowOf .clr [.scan, .pack, .hsortF, .tree, .codes, .hsortS, .whdr, .enc, .flush] := rfl

theorem decompressBody_eq_flowOf : decompressBody = flowOf .rhdr [.dec] := rfl

/-- Each command of `i :: is` but the first is legal in the phase the one before leaves (R262). -/
def legalInTurn (i : Instr) : List Instr → Bool
  | [] => true
  | j :: is => legalIn j (phaseAfter i) && legalInTurn j is

/-- Commands of which each is legal after the one before do the same one by one as in one flow: where one goes on the next
is legal, where one raised the others are ignored, where one stops the run stops. -/
theorem execAll_eq_flowOf {i : Instr} {is : List Instr} {s : State} (hsingle : ∀ j ∈ i :: is, isSingle j = true)
    (hturn : legalInTurn i is = true) (hl : legalIn i s.phase = true) :
    execAll (i :: is) s = (flowOf i is s).toOutcome := by
  induction is generalizing i s with
  | nil =>
    rw [execAll_singleton, exec_of_legalIn (ne_rst_of_isSingle (hsingle i List.mem_cons_self)) hl, flowOf]
  | cons j is ih =>
    have hi : isSingle i = true := hsingle i List.mem_cons_self
    have hrest : ∀ k ∈ j :: is, isSingle k = true := fun k hk => hsingle k (List.mem_cons_of_mem i hk)
    rw [legalInTurn, Bool.and_eq_true] at hturn
    obtain ⟨hij, htail⟩ := hturn
    have hexec := exec_of_legalIn (ne_rst_of_isSingle hi) hl
    have hends := rowsEnd_anyState i s hi trivial hl
    rw [flowOf, andThen]
    cases hb : bodyOf i s with
    | ok _ t =>
      rw [hb] at hexec hends
      obtain ⟨-, ht⟩ := hends
      rw [execAll_cons_of_next hexec, Res.bind_ok]
      exact ih hrest htail (by rw [ht]; exact hij)
    | raised t =>
      rw [hb] at hexec hends
      rw [execAll_cons_of_next hexec, Res.bind_raised, Res.toOutcome_raised]
      exact execAll_of_phase_error hrest hends
    | stop f =>
      rw [hb] at hexec
      rw [execAll_cons_of_fault hexec, Res.bind_stop, Res.toOutcome_stop]

/-- A run may start in each of the phases in which the whole flows are legal (R262). -/
theorem startsRun_of_mem {p : Phase} (h : p ∈ [Phase.idle, .doneC, .doneD]) : startsRun p = true :=
  (by decide : ∀ q ∈ [Phase.idle, .doneC, .doneD], startsRun q = true) p h

/-- Settles O45: each command of the two scripts is legal in the phase the one before leaves. -/
theorem wholeFlowsEqualTheirScripts : Obligations.WholeFlowsEqualTheirScripts := by
  intro s hs
  have hl : startsRun s.phase = true := startsRun_of_mem hs
  constructor
  · rw [exec_of_legalIn (i := .compress) (by decide) hl, bodyOf, compressBody_eq_flowOf]
    exact (execAll_eq_flowOf (i := .clr) (by decide) rfl hl).symm
  · rw [exec_of_legalIn (i := .decompress) (by decide) hl, bodyOf, decompressBody_eq_flowOf]
    exact (execAll_eq_flowOf (i := .rhdr) (by decide) rfl hl).symm

end Sys2Proof.Machine
end

section
/-!
SUPPORT. The symbol table as `CLR`, `SCAN` and `PACK` leave it, record by record (`40_symbol_table.md` R120, R122,
R124).
-/
namespace Sys2Proof.Machine

variable {s : State} {rs : List SymRec} {bytes : List Byte} {m m₀ : Store SymRec}

/-! ### `CLR` -/

theorem read_freshTable_eq_ite (i : Nat) :
    Store.read freshTable i = if i < 256 then some (freshRecord i) else none := by
  split
  · exact read_freshTable ‹_›
  · simp [freshTable, Config.alphabet, Nat.not_lt.1 ‹_›]

/-- Settles O20: where a run may start `CLR` is its pseudocode, which ends with the fresh table. -/
theorem clrStartsRun : Obligations.ClrStartsRun := fun s hs =>
  ⟨setPhase .cleared { runInit s with sym := freshTable, nsym := 256, hsize := 256, origLen := 0 },
    exec_of_legalIn (i := .clr) (by decide) (startsRun_of_mem hs), rfl, read_freshTable_eq_ite⟩

/-! ### The next answer of the oracle -/

theorem nextAnswer_ok_of_head? (h : s.oracle.head? ≠ some .fail) : nextAnswer s = .ok := by
  unfold nextAnswer
  cases ho : s.oracle with
  | nil => rfl
  | cons a rest =>
    rw [ho] at h
    cases a with
    | ok => rfl
    | fail => exact absurd rfl h

/-- `InByte` where the next access does not fail and the host supplied the byte (R63). -/
theorem inByte_of_answer_ok {a : Nat} {b : Byte} (hl : a < s.len.toNat) (ha : nextAnswer s = .ok)
    (hb : Store.read s.input a = some b) : inByte a s = .ok b (popAnswer s) := by
  rw [inByte, if_neg (Nat.not_le.2 hl), ha, hb]

/-- `InByte` where the next access fails (R63). -/
theorem inByte_of_answer_fail {a : Nat} (hl : a < s.len.toNat) (ha : nextAnswer s = .fail) :
    inByte a s = .raised (raise .ioFailure 1 a (popAnswer s)) := by
  rw [inByte, if_neg (Nat.not_le.2 hl), ha, throwErr]

/-! ### `SCAN` -/

/-- `m` is `m₀` with the frequency of record `i` that of `rs[i]` and the count of byte `i` (R122). -/
def TableCounts (rs : List SymRec) (bytes : List Byte) (m₀ m : Store SymRec) : Prop :=
  ∀ i, Store.read m i = if i < 256 then countedRecord rs bytes i else Store.read m₀ i

/-- The state of `SCAN` after `k` successful reads, `m` its table. -/
def afterReads (s : State) (m : Store SymRec) (k : Nat) : State := { s with sym := m, oracle := s.oracle.drop k }

theorem tableCounts_nil (hl : rs.length = 256) (h : Store.Holds m rs) : TableCounts rs [] m m := fun i => by
  split
  · rw [h i (by omega)]
    simp [countedRecord]
  · rfl

/-- One more byte raises the frequency of the record of its value by 1, and no other. -/
theorem countedRecord_append (rs : List SymRec) (bytes : List Byte) (b : Byte) {i : Nat} (hi : i < 256) :
    countedRecord rs (bytes ++ [b]) i =
      if i = b.toNat then (countedRecord rs bytes i).map fun r => { r with frequency := r.frequency + 1 }
      else countedRecord rs bytes i := by
  have hb : b = BitVec.ofNat 8 i ↔ i = b.toNat := by
    rw [← BitVec.toNat_inj, BitVec.toNat_ofNat, Nat.mod_eq_of_lt hi, eq_comm]
  rw [countedRecord, List.count_append, List.count_singleton]
  by_cases h : i = b.toNat
  · simp [countedRecord, hb.2 h, Nat.mod_eq_of_lt hi, BitVec.ofNat_add, BitVec.add_assoc, Function.comp_def]
  · simp [countedRecord, mt hb.1 h, h]

theorem TableCounts.write (h : TableCounts rs bytes m₀ m) {b : Byte} {r : SymRec}
    (hr : Store.read m b.toNat = some r) :
    TableCounts rs (bytes ++ [b]) m₀ (Store.write m b.toNat { r with frequency := r.frequency + 1 }) := fun i => by
  rw [Store.read_write]
  by_cases hi : i < 256
  · rw [if_pos hi, countedRecord_append rs bytes b hi]
    split
    · subst_vars
      rw [← (h b.toNat).trans (if_pos hi), hr, Option.map_some]
    · rw [h i, if_pos hi]
  · have hb := b.isLt
    rw [if_neg (by omega), h i, if_neg hi, if_neg hi]

theorem TableCounts.exists_record (h : TableCounts rs bytes m₀ m) (hl : rs.length = 256) (b : Byte) :
    ∃ r, Store.read m b.toNat = some r := by
  rw [h b.toNat, if_pos b.isLt, countedRecord, List.getElem?_eq_getElem (hl ▸ b.isLt)]
  exact ⟨_, rfl⟩

/-- A round of `SCAN` whose read succeeds counts the byte it reads (R122). -/
theorem scanByte_counts (hm : TableCounts rs bytes m₀ m) (hl : rs.length = 256) {k : Nat} {b : Byte}
    (hk : k < s.len.toNat) (hb : Store.read s.input k = some b) (ha : s.oracle[k]? ≠ some .fail) :
    ∃ m', TableCounts rs (bytes ++ [b]) m₀ m' ∧ scanByte k (afterReads s m k) = .ok () (afterReads s m' (k + 1)) := by
  obtain ⟨r, hr⟩ := hm.exists_record hl b
  have hn : nextAnswer (afterReads s m k) = .ok :=
    nextAnswer_ok_of_head? (by rw [afterReads, List.head?_drop]; exact ha)
  have hread : readSym b.toNat (popAnswer (afterReads s m k)) = .ok r _ := readSym_of_held hr
  refine ⟨_, hm.write hr, ?_⟩
  rw [scanByte, inByte_of_answer_ok (s := afterReads s m k) hk hn hb, Res.bind_ok, countByte, hread, Res.bind_ok]
  simp [afterReads, popAnswer, writeSym]

/-- As long as the reads succeed `SCAN` counts the bytes it reads (R122). -/
theorem forUp_scanByte_counts (hlen : bytes.length ≤ s.len.toNat) (hin : Store.Holds s.input bytes)
    (ha : ∀ k, k < bytes.length → s.oracle[k]? ≠ some .fail) (hl : rs.length = 256) (hsym : Store.Holds s.sym rs) :
    ∃ m, TableCounts rs bytes s.sym m ∧
      forUp scanByte bytes.length 0 s = .ok () (afterReads s m bytes.length) := by
  have loop := forUp_runs (body := scanByte) (n := bytes.length) (i := 0) (s := s)
    (I := fun k t => ∃ m, TableCounts rs (bytes.take k) s.sym m ∧ t = afterReads s m k)
    ⟨s.sym, tableCounts_nil hl hsym, rfl⟩ ?round
  case round =>
    rintro k _ - hk ⟨m, hm, rfl⟩
    rw [Nat.zero_add] at hk
    obtain ⟨m', hm', e⟩ := scanByte_counts hm hl (by omega)
      ((hin k hk).trans (List.getElem?_eq_getElem hk)) (ha k hk)
    rw [List.take_append_getElem] at hm'
    exact ⟨_, e, m', hm', rfl⟩
  obtain ⟨_, e, m, hm, rfl⟩ := loop
  rw [Nat.zero_add] at hm e
  rw [List.take_length] at hm
  exact ⟨m, hm, e⟩

/-- Settles O21: where no access fails every round counts its byte. -/
theorem scanCountsEveryByte : Obligations.ScanCountsEveryByte := by
  intro s bytes rs hp hnf hlen hin hl hsym
  obtain ⟨m, hm, e⟩ := forUp_scanByte_counts (Nat.le_of_eq hlen.symm) hin
    (fun k _ hk => hnf (List.mem_of_getElem? hk)) hl hsym
  rw [exec_of_legalIn (i := .scan) (by decide) (by rw [hp]; rfl), bodyOf, scanBody, hlen, e]
  exact ⟨_, rfl, rfl, hm⟩

/-- Settles O22: the rounds before the failing read have counted their bytes, and the raise ends the loop. -/
theorem scanReadFailureRaises : Obligations.ScanReadFailureRaises := by
  intro s bytes rs rest hp ho hlt hin hl hsym
  obtain ⟨m, hm, e⟩ := forUp_scanByte_counts (Nat.le_of_lt hlt) hin
    (fun k hk => by rw [ho, List.getElem?_append_left (by simpa using hk)]; simp [hk]) hl hsym
  have hdrop : (afterReads s m bytes.length).oracle = .fail :: rest := by
    rw [afterReads, ho]
    exact List.drop_left' List.length_replicate
  have hfail := inByte_of_answer_fail (s := afterReads s m bytes.length) hlt (by rw [nextAnswer, hdrop])
  obtain ⟨d, hd⟩ : ∃ d, s.len.toNat = bytes.length + (d + 1) := ⟨s.len.toNat - bytes.length - 1, by omega⟩
  rw [exec_of_legalIn (i := .scan) (by decide) (by rw [hp]; rfl), bodyOf, scanBody, hd, forUp_add, e, Res.bind_ok,
    forUp_succ, Nat.zero_add, scanByte, hfail]
  have hpop : (popAnswer (afterReads s m bytes.length)).oracle = rest := by rw [popAnswer_oracle, hdrop, List.tail_cons]
  exact ⟨_, rfl, by rw [← hpop]; rfl, hm⟩

/-! ### `PACK` -/

/-- Settles O23: `PACK` writes the observed records over the front of the table. -/
theorem packKeepsObservedRecords : Obligations.PackKeepsObservedRecords := by
  intro s rs hp hl hsym
  have hk : (observed rs).length ≤ 256 := hl ▸ List.length_filter_le _ _
  have hn : (BitVec.ofNat 9 (observed rs).length).toNat = (observed rs).length := by
    rw [BitVec.toNat_ofNat]; omega
  rw [exec_of_legalIn (i := .pack) (by decide) (by rw [hp]; rfl), bodyOf, packBody_holds hl hsym]
  refine ⟨_, rfl, rfl, table_writeList hn rfl, ?_, fun i hi => ?_⟩
  · show emptyFlag _ = true ↔ BitVec.ofNat 9 (observed rs).length = 0
    rw [← BitVec.toNat_inj, hn]
    exact beq_iff_eq
  · have hi : (observed rs).length ≤ i := hn ▸ hi
    exact (Store.read_writeList _ _ _ _).trans (if_neg (by omega))

end Sys2Proof.Machine
end

section
/-!
SUPPORT. What the commands on the table leave alone, raised or not (`40_symbol_table.md` R122, R124, `41_heap.md` R146,
`43_code_table.md` R182).
-/
namespace Sys2Proof.Machine

variable {s t : State}

/-- What holds before a command and survives an error holds after it where its pseudocode keeps it. -/
theorem exec_keeps {R : State → Prop} {i : Instr} (hi : i ≠ .rst) (hR : R s)
    (raised : ∀ kind sub info u, R u → R (raise kind sub info u)) (body : (bodyOf i s).Keeps R R)
    (h : exec i s = .next t) : R t := by
  rw [exec_eq_command hi] at h
  exact command_ends h (fun _ => hR) (fun _ _ => raised _ _ _ s hR) fun _ _ => body

/-- A record written over one that agrees with it in `g` changes `g` of no record. -/
theorem map_read_writeSym {β : Type} {i : Nat} {r q : SymRec} {g : SymRec → β} (hr : Store.read s.sym i = some r)
    (hg : g q = g r) (k : Nat) : (Store.read (writeSym i q s).sym k).map g = (Store.read s.sym k).map g := by
  rw [writeSym_sym, Store.read_write]
  split
  · subst_vars
    rw [hr, Option.map_some, Option.map_some, hg]
  · rfl

/-! ### `SCAN` -/

/-- `t` is `s` but for frequencies, `ORIGLEN`, the oracle, `PHASE` and the error registers. -/
def ScanFrame (s t : State) : Prop :=
  t = { s with sym := t.sym, origLen := t.origLen, oracle := t.oracle, phase := t.phase, err := t.err,
               errsub := t.errsub, errinfo := t.errinfo } ∧
    ∀ i, (Store.read t.sym i).map (fun r => (r.symbol, r.code, r.codeLength)) =
      (Store.read s.sym i).map fun r => (r.symbol, r.code, r.codeLength)

theorem ScanFrame.raise (kind : ErrKind) (sub : BitVec 8) (info : Nat) (h : ScanFrame s t) :
    ScanFrame s (raise kind sub info t) :=
  ⟨congrArg (Machine.raise kind sub info) h.1, h.2⟩

theorem ScanFrame.count (h : ScanFrame s t) {i : Nat} {r : SymRec} (f : BitVec 32)
    (hr : Store.read t.sym i = some r) : ScanFrame s (writeSym i { r with frequency := f } t) :=
  ⟨congrArg (writeSym i { r with frequency := f }) h.1,
    fun k => (map_read_writeSym hr (by rfl) k).trans (h.2 k)⟩

theorem ScanFrame.reader (s : State) (limit : Nat) : Reader limit (ScanFrame s) (ScanFrame s) fun _ => True where
  pop _ h := ⟨congrArg popAnswer h.1, h.2⟩
  raised kind sub info _ _ h := h.raise kind sub info
  missing _ _ _ _ := trivial
  range _ _ _ _ _ := trivial

theorem exec_scan_frame (h : exec .scan s = .next t) : ScanFrame s t := by
  refine exec_keeps (i := .scan) (by decide) ⟨rfl, fun _ => rfl⟩ (fun kind sub info _ => ScanFrame.raise kind sub info)
    ?_ h
  refine ((ScanFrame.reader s _).scanBody (fun _ _ _ f ht hr => ht.count f hr) (fun _ _ _ _ _ => trivial)
    ⟨rfl, fun _ => rfl⟩).imp fun _ t ⟨u, hu, ht⟩ => ?_
  subst ht
  exact ⟨congrArg (fun v => setPhase .counted { v with origLen := u.len }) hu.1, hu.2⟩

/-! ### `PACK` -/

/-- `t` is `s` but for records below `NSYM`, `NSYM`, `HSIZE`, `EMPTY`, `PHASE` and the error registers. -/
def PackFrame (s t : State) : Prop :=
  t = { s with sym := t.sym, nsym := t.nsym, hsize := t.hsize, empty := t.empty, phase := t.phase, err := t.err,
               errsub := t.errsub, errinfo := t.errinfo } ∧
    ∀ i, t.nsym.toNat ≤ i → Store.read t.sym i = Store.read s.sym i

/-- The loop of `PACK` writes below the number of records it has kept, at most one a round (R124). -/
theorem packFrom_writes_below (n i j : Nat) (s : State) :
    (packFrom n i j s).Ends
      (fun v t => j ≤ v ∧ v ≤ j + n ∧ ∀ k, v ≤ k → Store.read t.sym k = Store.read s.sym k) (fun _ => False)
      fun _ => True := by
  induction n generalizing i j s with
  | zero => exact ⟨Nat.le_refl j, Nat.le_refl j, fun _ _ => rfl⟩
  | succ n ih =>
    rw [packFrom]
    rcases readSym_cases i s with ⟨r, -, e⟩ | ⟨-, e⟩ <;> rw [e]
    · rw [Res.bind_ok]
      split
      · refine (ih (i + 1) (j + 1) (writeSym j r s)).imp fun v t ⟨hj, hv, ht⟩ => ⟨by omega, by omega, fun k hk => ?_⟩
        exact (ht k hk).trans (Store.read_write_other _ _ (by omega))
      · exact (ih (i + 1) j s).imp fun v t ⟨hj, hv, ht⟩ => ⟨hj, by omega, ht⟩
    · trivial

theorem packBody_frame (s : State) : (packBody s).Keeps (PackFrame s) (PackFrame s) := by
  have loop := ((packFrom_frame Config.alphabet 0 0 s).and (packFrom_writes_below Config.alphabet 0 0 s)).mono
    (Q' := PackFrame s) (F' := fun _ => True) (fun _ _ => id) (fun _ h => h.1.elim) fun _ _ => trivial
  refine loop.bind fun j t ⟨⟨m, ht⟩, _, hj, hkept⟩ => ?_
  subst ht
  have hj : (BitVec.ofNat 9 j).toNat = j := by
    rw [BitVec.toNat_ofNat]
    simp only [Config.alphabet] at hj
    omega
  exact ⟨rfl, fun k hk => hkept k (hj ▸ hk)⟩

theorem exec_pack_frame (h : exec .pack s = .next t) : PackFrame s t :=
  exec_keeps (i := .pack) (by decide) ⟨rfl, fun _ _ => rfl⟩
    (fun kind sub info _ hu => ⟨congrArg (raise kind sub info) hu.1, hu.2⟩) (packBody_frame s) h

/-! ### `HSORT` -/

/-- `t` is `s` but for records below `NSYM`, `HSIZE`, `PHASE` and the error registers. -/
def HsortFrame (s t : State) : Prop :=
  t = { s with sym := t.sym, hsize := t.hsize, phase := t.phase, err := t.err, errsub := t.errsub,
               errinfo := t.errinfo } ∧
    ∀ k, s.nsym.toNat ≤ k → Store.read t.sym k = Store.read s.sym k

/-- The sorted table is as long as the table (R146). -/
theorem hsortBody_frame (cmp : Cmp) (s : State) : (hsortBody cmp s).Keeps (HsortFrame s) (HsortFrame s) := by
  rcases hsortBody_cases cmp s with ⟨rs, ⟨hn, -⟩, e⟩ | ⟨k, -, -, e⟩ <;> rw [e]
  · refine ⟨rfl, fun k hk => (Store.read_writeList _ _ _ _).trans (if_neg ?_)⟩
    rw [(perm_heapSort cmp rs).length_eq]
    omega
  · trivial

theorem exec_hsort_frame {i : Instr} (hi : i ∈ [Instr.hsortF, .hsortS]) (h : exec i s = .next t) : HsortFrame s t := by
  obtain ⟨hne, body⟩ : i ≠ .rst ∧ (bodyOf i s).Keeps (HsortFrame s) (HsortFrame s) := by
    rw [List.mem_cons, List.mem_singleton] at hi
    rcases hi with rfl | rfl
    · exact ⟨by decide, hsortBody_frame .freq s⟩
    · exact ⟨by decide, hsortBody_frame .sym s⟩
  exact exec_keeps hne ⟨rfl, fun _ _ => rfl⟩
    (fun kind sub info _ hu => ⟨congrArg (raise kind sub info) hu.1, hu.2⟩) body h

/-! ### `CODES` -/

/-- `t` is `s` but for the codes and lengths of records below `NSYM`, `PHASE` and the error registers. -/
def CodesFrame (s t : State) : Prop :=
  t = { s with sym := t.sym, phase := t.phase, err := t.err, errsub := t.errsub, errinfo := t.errinfo } ∧
    (∀ i, (Store.read t.sym i).map (fun r => (r.symbol, r.frequency)) =
      (Store.read s.sym i).map fun r => (r.symbol, r.frequency)) ∧
    ∀ k, s.nsym.toNat ≤ k → Store.read t.sym k = Store.read s.sym k

theorem CodesFrame.nsym_eq (h : CodesFrame s t) : t.nsym = s.nsym := (congrArg State.nsym h.1 :)

theorem CodesFrame.assign (h : CodesFrame s t) {i : Nat} {r : SymRec} (hi : i < t.nsym.toNat)
    (hr : Store.read t.sym i = some r) (c : CodeWord) (l : BitVec 7) :
    CodesFrame s (writeSym i { r with code := c, codeLength := l } t) := by
  rw [h.nsym_eq] at hi
  obtain ⟨hfields, hrecords, habove⟩ := h
  exact ⟨congrArg (writeSym i { r with code := c, codeLength := l }) hfields,
    fun k => (map_read_writeSym hr (by rfl) k).trans (hrecords k),
    fun k hk => (Store.read_write_other _ _ (by omega)).trans (habove k hk)⟩

theorem CodesFrame.raise (kind : ErrKind) (sub : BitVec 8) (info : Nat) (h : CodesFrame s t) :
    CodesFrame s (raise kind sub info t) :=
  ⟨congrArg (Machine.raise kind sub info) h.1, h.2⟩

theorem CodesFrame.codeWalk (s : State) : CodeWalk (CodesFrame s) (CodesFrame s) (fun _ => True) fun _ => True where
  assign _ _ _ _ _ h hi hr _ _ := h.assign hi hr _ _
  raised kind sub info _ _ h := h.raise kind sub info
  record _ _ _ _ _ := trivial
  node _ _ _ _ _ := trivial
  leaf _ _ _ _ _ _ _ _ := trivial
  child _ _ _ _ _ _ _ _ _ := ⟨fun _ _ => trivial, fun _ => trivial⟩

theorem exec_codes_frame (h : exec .codes s = .next t) : CodesFrame s t := by
  refine exec_keeps (i := .codes) (by decide) ⟨rfl, fun _ => rfl, fun _ _ => rfl⟩
    (fun kind sub info _ => CodesFrame.raise kind sub info) ?_ h
  refine ((CodesFrame.codeWalk s).codesBody (fun _ _ => trivial) ⟨rfl, fun _ => rfl, fun _ _ => rfl⟩).imp
    fun _ t ⟨u, hu, ht⟩ => ?_
  subst ht
  exact ⟨congrArg (setPhase .coded) hu.1, hu.2⟩

/-- Settles O59: every update of each command is inside its frame. -/
theorem tableCommandFrames : Obligations.TableCommandFrames := fun _ _ =>
  ⟨exec_scan_frame, exec_pack_frame, fun _ hi => exec_hsort_frame hi, exec_codes_frame⟩

end Sys2Proof.Machine
end

section
/-!
SUPPORT. The heap as lists: a heap is R141 on its records, `heap_extract_min` (R144) by its parts, and the sort as the
order of extraction (`41_heap.md` R145).
-/
namespace Sys2Proof.Machine

variable {cmp : Cmp} {xs : List SymRec} {n h : Nat}

/-! ### `MinHeap` by keys -/

theorem before_eq_false_iff (cmp : Cmp) (a b : SymRec) : before cmp a b = false ↔ key cmp b ≤ key cmp a := by
  rw [← Bool.not_eq_true, before_iff, Nat.not_lt]

/-- The records of R141 by their places. -/
theorem minHeap_iff : MinHeap cmp xs ↔ HeapFrom cmp 0 xs.length xs := by
  constructor
  · intro hm c hc hcn _
    rw [keyAt_eq (by omega), keyAt_eq hcn, ← before_eq_false_iff]
    exact hm c _ _ hc (List.getElem?_eq_getElem hcn) (List.getElem?_eq_getElem _)
  · intro hh c x p hc hx hp
    obtain ⟨hcn, rfl⟩ := List.getElem?_eq_some_iff.1 hx
    obtain ⟨hpn, rfl⟩ := List.getElem?_eq_some_iff.1 hp
    rw [before_eq_false_iff, ← keyAt_eq, ← keyAt_eq]
    exact hh c hc hcn (Nat.zero_le _)

theorem keyAt_take {i : Nat} (hi : i < n) : keyAt cmp (xs.take n) i = keyAt cmp xs i :=
  keyAt_congr (List.getElem?_take_of_lt hi)

/-- The first `n` records are a heap where the heap of size `n` is one. -/
theorem minHeap_take_iff (hn : n ≤ xs.length) : MinHeap cmp (xs.take n) ↔ HeapFrom cmp 0 n xs := by
  rw [minHeap_iff, List.length_take_of_le hn]
  refine forall₄_congr fun c _ hcn _ => ?_
  rw [keyAt_take (by omega), keyAt_take hcn]

/-! ### `heap_extract_min` by its parts -/

/-- `heap_extract_min` leaves a heap (R144): of the places of the smaller heap the swap changes the root alone. -/
theorem heapFrom_extractMin (hb : h < xs.length) (hh : HeapFrom cmp 0 (h + 1) xs) :
    HeapFrom cmp 0 h (extractMin cmp h xs) := by
  have hswap := keyAt_swapAt (cmp := cmp) (xs := xs) (a := 0) (b := h) (by omega) hb
  have hlen := (rearrangedBelow_swapAt hb (Nat.succ_pos h) (Nat.lt_succ_self h)).perm.length_eq
  refine heapFrom_siftDown (by omega) (by omega) ⟨fun c hc hcn _ hp => ?_, fun c _ _ _ h0 => by omega⟩
  rw [hswap, hswap, if_neg hp, if_neg (by omega), if_neg (by omega), if_neg (by omega)]
  exact hh c hc (by omega) (Nat.zero_le _)

theorem getElem?_extractMin_self (cmp : Cmp) (hb : h < xs.length) : (extractMin cmp h xs)[h]? = xs[0]? := by
  have hlen := (rearrangedBelow_swapAt hb (Nat.succ_pos h) (Nat.lt_succ_self h)).perm.length_eq
  rw [extractMin, (rearrangedBelow_siftDown cmp (by omega) h 0).above h (Nat.le_refl h),
    getElem?_swapAt (by omega) hb]
  split
  · next h0 => rw [h0]
  · rw [if_pos rfl]

theorem drop_succ_extractMin (cmp : Cmp) (hb : h < xs.length) :
    (extractMin cmp h xs).drop (h + 1) = xs.drop (h + 1) :=
  List.ext_getElem? fun i => by
    rw [List.getElem?_drop, List.getElem?_drop, (rearrangedBelow_extractMin cmp hb).above _ (Nat.le_add_right _ i)]

theorem drop_extractMin (cmp : Cmp) (hb : h < xs.length) :
    (extractMin cmp h xs).drop h = xs.take 1 ++ xs.drop (h + 1) := by
  rw [List.drop_eq_getElem?_toList_append, getElem?_extractMin_self cmp hb, drop_succ_extractMin cmp hb,
    List.take_one, List.head?_eq_getElem?]

/-- The records before the extracted one are those of the heap but for its root. -/
theorem perm_take_extractMin (cmp : Cmp) (hb : h < xs.length) :
    ((extractMin cmp h xs).take h).Perm ((xs.take (h + 1)).drop 1) := by
  have hsplit : xs = xs.take 1 ++ ((xs.take (h + 1)).drop 1 ++ xs.drop (h + 1)) := by
    cases xs with
    | nil => rfl
    | cons x xs => simp
  refine (List.perm_append_right_iff (xs.take 1 ++ xs.drop (h + 1))).1 ?_
  calc (extractMin cmp h xs).take h ++ (xs.take 1 ++ xs.drop (h + 1))
      = extractMin cmp h xs := by rw [← drop_extractMin cmp hb, List.take_append_drop]
    List.Perm _ xs := (rearrangedBelow_extractMin cmp hb).perm
    _ = xs.take 1 ++ ((xs.take (h + 1)).drop 1 ++ xs.drop (h + 1)) := hsplit
    List.Perm _ ((xs.take (h + 1)).drop 1 ++ (xs.take 1 ++ xs.drop (h + 1))) := List.perm_append_comm_assoc ..

/-- Settles O24: sifting the new root down restores the heap, and the swap has put the old root behind it. -/
theorem heapStepsKeepMinHeap : Obligations.HeapStepsKeepMinHeap := by
  refine ⟨fun cmp xs => ⟨?_, perm_heapBuild cmp xs⟩, fun cmp h xs hb hm => ⟨?_, getElem?_extractMin_self cmp hb,
    perm_take_extractMin cmp hb, drop_succ_extractMin cmp hb⟩⟩
  · rw [minHeap_iff, (perm_heapBuild cmp xs).length_eq]
    exact heapFrom_heapBuild cmp (Nat.le_refl _)
  · rw [minHeap_take_iff (by rw [(rearrangedBelow_extractMin cmp hb).perm.length_eq]; omega)]
    exact heapFrom_extractMin hb ((minHeap_take_iff hb).1 hm)

/-! ### The order of extraction -/

theorem swapAt_self (xs : List SymRec) (a : Nat) : swapAt xs a a = xs := by
  unfold swapAt
  split
  · next x y hx hy =>
    obtain ⟨_, rfl⟩ := List.getElem?_eq_some_iff.1 hx
    obtain ⟨_, rfl⟩ := List.getElem?_eq_some_iff.1 hy
    rw [List.set_getElem_self, List.set_getElem_self]
  · rfl

theorem extractMin_zero (cmp : Cmp) (xs : List SymRec) : extractMin cmp 0 xs = xs := by
  rw [extractMin, siftDown, swapAt_self]

/-- The extracted records stand behind the heap, the last one extracted first (R145). -/
theorem extractAll_eq (cmp : Cmp) (hb : h ≤ xs.length) :
    extractAll cmp h xs = (extractionOrder cmp h xs).reverse ++ xs.drop h := by
  induction h generalizing xs with
  | zero => rfl
  | succ h ih =>
    have hlen := (rearrangedBelow_extractMin cmp hb).perm.length_eq
    have step : extractAll cmp (h + 1) xs = extractAll cmp h (extractMin cmp h xs) := by
      rw [extractAll]
      split
      · next h0 => rw [h0, extractMin_zero, extractAll]
      · rfl
    have hroot : (xs.take 1).reverse = xs.take 1 := by cases xs <;> rfl
    rw [step, ih (by omega), drop_extractMin cmp hb, extractionOrder, List.reverse_append, hroot, List.append_assoc]

theorem swapAt_append (p l q : List SymRec) (a b : SymRec) :
    swapAt (p ++ a :: (l ++ b :: q)) p.length (p.length + (l.length + 1)) = p ++ b :: (l ++ a :: q) := by
  simp [swapAt]

theorem exists_eq_cons_concat {l : List SymRec} (hl : 2 ≤ l.length) : ∃ a m b, l = a :: (m ++ [b]) := by
  cases l with
  | nil => exact absurd hl (by decide)
  | cons a l =>
    have hne : l ≠ [] := by
      rintro rfl
      exact absurd hl (Nat.not_succ_le_self 1)
    exact ⟨a, l.dropLast, l.getLast hne, by rw [List.dropLast_concat_getLast]⟩

theorem reverse_eq_self_of_length_lt {l : List SymRec} (hl : l.length < 2) : l.reverse = l := by
  match l, hl with
  | [], _ => rfl
  | [_], _ => rfl

/-- The rounds of R145 that are left reverse the middle. -/
theorem reverseFrom_append {c i : Nat} (p l q : List SymRec) (hc : l.length / 2 = c) (hp : p.length = i)
    (hq : q.length = i) (hn : n = i + l.length + i) : reverseFrom n c i (p ++ l ++ q) = p ++ l.reverse ++ q := by
  induction c generalizing i p l q with
  | zero => rw [reverseFrom, reverse_eq_self_of_length_lt (by omega)]
  | succ c ih =>
    obtain ⟨a, m, b, rfl⟩ := exists_eq_cons_concat (l := l) (by omega)
    have hlen : (a :: (m ++ [b])).length = m.length + 2 := by
      rw [List.length_cons, List.length_append, List.length_singleton]
    have hmirror : n - 1 - i = p.length + (m.length + 1) := by omega
    have hround : swapAt (p ++ (a :: (m ++ [b])) ++ q) i (n - 1 - i) = (p ++ [b]) ++ m ++ (a :: q) := by
      rw [hmirror, ← hp]
      simpa only [List.append_assoc, List.cons_append, List.nil_append] using swapAt_append p m q a b
    rw [reverseFrom, hround, ih (p ++ [b]) m (a :: q) (by omega) (by rw [List.length_append, hp, List.length_singleton])
      (by rw [List.length_cons, hq]) (by omega)]
    simp only [List.reverse_cons, List.reverse_append, List.reverse_nil, List.append_assoc, List.cons_append,
      List.nil_append]

theorem reverseFrom_eq_reverse (xs : List SymRec) : reverseFrom xs.length (xs.length / 2) 0 xs = xs.reverse := by
  have := reverseFrom_append (n := xs.length) [] xs [] rfl rfl rfl (Nat.zero_add _).symm
  rwa [List.nil_append, List.nil_append, List.append_nil, List.append_nil] at this

/-- Settles O25: the extracted records stand last first, and the reversal turns them round. -/
theorem heapSortIsExtractionOrder : Obligations.HeapSortIsExtractionOrder := by
  intro cmp xs
  have hlen := (perm_heapBuild cmp xs).length_eq
  have hex : extractAll cmp xs.length (heapBuild cmp xs.length xs) =
      (extractionOrder cmp xs.length (heapBuild cmp xs.length xs)).reverse := by
    rw [extractAll_eq cmp (Nat.le_of_eq hlen.symm), List.drop_of_length_le (Nat.le_of_eq hlen), List.append_nil]
  have hl := (perm_extractAll cmp (h := xs.length) (Nat.le_of_eq hlen.symm)).length_eq.trans hlen
  have hr := reverseFrom_eq_reverse (extractAll cmp xs.length (heapBuild cmp xs.length xs))
  rw [hl] at hr
  rw [heapSort, hr, hex, List.reverse_reverse]

/-! ### `HSORT` -/

variable {rs : List SymRec} {s : State}

/-- `HSORT` over a table writes the sorted list over it (R146). -/
theorem hsortBody_holds (cmp : Cmp) (ht : Table rs s) : ∃ t, hsortBody cmp s = .ok () t ∧
    t = { s with sym := t.sym, hsize := s.nsym, phase := sortedPhase cmp } ∧ Table (heapSort cmp rs) t ∧
    ∀ i, s.nsym.toNat ≤ i → Store.read t.sym i = Store.read s.sym i := by
  have hread : readSyms s.nsym.toNat 0 s = .ok rs s := by
    rw [ht.1]
    exact readSyms_holds fun k hk => by rw [Nat.zero_add]; exact ht.2 k hk
  have hlen := (perm_heapSort cmp rs).length_eq
  rw [hsortBody, hread]
  refine ⟨_, rfl, rfl, table_writeList (by rw [hlen]; exact ht.1) rfl, fun i hi => ?_⟩
  exact (Store.read_writeList _ _ _ _).trans (if_neg (by omega))

/-- Settles O26: the sorted list has the frequencies in order. -/
theorem hsortFSortsByFrequency : Obligations.HsortFSortsByFrequency := by
  intro s rs hp ht
  obtain ⟨t, e, hframe, ht', habove⟩ := hsortBody_holds .freq ht
  rw [exec_of_legalIn (i := .hsortF) (by decide) (by rw [hp]; rfl), bodyOf, e]
  exact ⟨t, _, rfl, hframe, ht', perm_heapSort .freq rs,
    (pairwise_heapSort .freq rs).imp fun hle => BitVec.le_def.2 hle, habove⟩

/-- Settles O27: the sorted list has the symbols in order, and distinct symbols make the order strict. -/
theorem hsortSSortsBySymbol : Obligations.HsortSSortsBySymbol := by
  intro s rs hp ht
  obtain ⟨t, e, hframe, ht', habove⟩ := hsortBody_holds .sym ht
  rw [exec_of_legalIn (i := .hsortS) (by decide) (by rw [hp]; rfl), bodyOf, e]
  have hperm := perm_heapSort .sym rs
  refine ⟨t, _, rfl, hframe, ht', hperm, fun hnodup => ?_, habove⟩
  have hne : (heapSort .sym rs).Pairwise fun a b => a.symbol ≠ b.symbol :=
    List.pairwise_map.1 ((hperm.map _).nodup_iff.2 hnodup)
  exact (pairwise_heapSort .sym rs).imp₂
    (fun a b hle hne => BitVec.lt_def.2 (Nat.lt_of_le_of_ne hle (BitVec.toNat_ne.1 hne))) hne

/-- Settles O28: each trace is the sort run on its table. -/
theorem tiesFallAsTraced : Obligations.TiesFallAsTraced := ⟨by decide, by decide, by decide, by decide⟩

end Sys2Proof.Machine
end

section
/-!
SUPPORT. The two queues of `TREE` (`42_tree_builder.md` R161): what `pick` takes from them.
-/
namespace Sys2Proof.Machine

variable {s : State} {n k : Nat} {h : Heads}

/-! ### `pick` case by case -/

theorem pick_leaf_of_le {l r : NodeRec} (hlq : h.lq < n) (hiq : h.iq < s.nnode.toNat)
    (hl : Store.read s.node h.lq = some l) (hr : Store.read s.node h.iq = some r) (hf : l.frequency ≤ r.frequency) :
    pick n h s = .ok (h.lq, { lq := h.lq + 1, iq := h.iq }) s := by
  simp [pick, hlq, hiq, readNode_of_held hl, readNode_of_held hr, hf, takeLeaf]

theorem pick_inner_of_lt {l r : NodeRec} (hlq : h.lq < n) (hiq : h.iq < s.nnode.toNat)
    (hl : Store.read s.node h.lq = some l) (hr : Store.read s.node h.iq = some r) (hf : r.frequency < l.frequency) :
    pick n h s = .ok (h.iq, { lq := h.lq, iq := h.iq + 1 }) s := by
  simp [pick, hlq, hiq, readNode_of_held hl, readNode_of_held hr, BitVec.not_le.2 hf, takeInner]

theorem pick_leaf_of_no_inner (hlq : h.lq < n) (hiq : s.nnode.toNat ≤ h.iq) :
    pick n h s = .ok (h.lq, { lq := h.lq + 1, iq := h.iq }) s := by
  simp [pick, hlq, Nat.not_lt.2 hiq, takeLeaf]

theorem pick_inner_of_no_leaf (hlq : n ≤ h.lq) : pick n h s = .ok (h.iq, { lq := h.lq, iq := h.iq + 1 }) s := by
  simp [pick, Nat.not_lt.2 hlq, takeInner]

/-- Settles O29: the four ways `pick` can choose. -/
theorem pickPrefersLeafOnTie : Obligations.PickPrefersLeafOnTie := fun _ _ _ =>
  ⟨fun _ _ => pick_leaf_of_le, fun _ _ => pick_inner_of_lt, pick_leaf_of_no_inner, fun hlq _ => pick_inner_of_no_leaf hlq⟩

/-! ### The records left in the queues -/

/-- The records not taken yet, `k` nodes in use: the leaves from `lq` on, the internal nodes from `iq` on. -/
def Heads.pending (n k : Nat) (h : Heads) : List Nat := List.range' h.lq (n - h.lq) ++ List.range' h.iq (k - h.iq)

theorem Heads.pending_leaf (hlq : h.lq < n) :
    h.pending n k = h.lq :: Heads.pending n k { lq := h.lq + 1, iq := h.iq } := by
  rw [pending, show n - h.lq = n - (h.lq + 1) + 1 by omega, List.range'_succ]
  rfl

theorem Heads.pending_inner (hiq : h.iq < k) :
    (h.pending n k).Perm (h.iq :: Heads.pending n k { lq := h.lq, iq := h.iq + 1 }) := by
  rw [pending, show k - h.iq = k - (h.iq + 1) + 1 by omega, List.range'_succ]
  exact List.perm_middle

/-- A node allocated is one more in the internal queue. -/
theorem Heads.pending_succ (hiq : h.iq ≤ k) : (h.pending n (k + 1)).Perm (k :: h.pending n k) := by
  rw [pending, show k + 1 - h.iq = k - h.iq + 1 by omega, List.range'_concat, ← List.append_assoc,
    show h.iq + 1 * (k - h.iq) = k by omega]
  exact List.perm_append_singleton _ _

theorem Heads.nodup_pending (hiq : n ≤ h.iq) : (h.pending n k).Nodup := by
  refine List.nodup_append.2 ⟨List.nodup_range', List.nodup_range', fun a ha b hb => ?_⟩
  rw [List.mem_range'_1] at ha hb
  omega

theorem Heads.lt_of_mem_pending (hn : n ≤ k) {j : Nat} (hj : j ∈ h.pending n k) : j < k := by
  rw [pending, List.mem_append, List.mem_range'_1, List.mem_range'_1] at hj
  omega

/-- Where a record is left, `pick` takes the leaf head or the internal head, and there is one (R161). -/
theorem pick_cases (hheld : ∀ j, j < s.nnode.toNat → ∃ r, Store.read s.node j = some r) (hn : n ≤ s.nnode.toNat)
    (hleft : h.pending n s.nnode.toNat ≠ []) :
    (h.lq < n ∧ pick n h s = .ok (h.lq, { lq := h.lq + 1, iq := h.iq }) s) ∨
      (h.iq < s.nnode.toNat ∧ pick n h s = .ok (h.iq, { lq := h.lq, iq := h.iq + 1 }) s) := by
  by_cases hl : h.lq < n
  · by_cases hi : h.iq < s.nnode.toNat
    · obtain ⟨l, hrl⟩ := hheld h.lq (by omega)
      obtain ⟨r, hrr⟩ := hheld h.iq hi
      by_cases hf : l.frequency ≤ r.frequency
      · exact .inl ⟨hl, pick_leaf_of_le hl hi hrl hrr hf⟩
      · exact .inr ⟨hi, pick_inner_of_lt hl hi hrl hrr (BitVec.not_le.1 hf)⟩
    · exact .inl ⟨hl, pick_leaf_of_no_inner hl (by omega)⟩
  · refine .inr ⟨Nat.lt_of_not_le fun hi => hleft ?_, pick_inner_of_no_leaf (by omega)⟩
    rw [Heads.pending, show n - h.lq = 0 by omega, show s.nnode.toNat - h.iq = 0 by omega]
    rfl

/-- `pick` takes a record out of the queues where one is left (R161). -/
theorem pick_takes_pending (hheld : ∀ j, j < s.nnode.toNat → ∃ r, Store.read s.node j = some r)
    (hn : n ≤ s.nnode.toNat) (hiq : h.iq ≤ s.nnode.toNat) (hleft : h.pending n s.nnode.toNat ≠ []) :
    ∃ a h', pick n h s = .ok (a, h') s ∧ (h.pending n s.nnode.toNat).Perm (a :: h'.pending n s.nnode.toNat) ∧
      h.iq ≤ h'.iq ∧ h'.iq ≤ s.nnode.toNat := by
  rcases pick_cases hheld hn hleft with ⟨hl, e⟩ | ⟨hi, e⟩
  · exact ⟨_, _, e, .of_eq (Heads.pending_leaf hl), Nat.le_refl _, hiq⟩
  · exact ⟨_, _, e, Heads.pending_inner hi, Nat.le_succ _, hi⟩

end Sys2Proof.Machine
end
section
/-!
SUPPORT. The node memory while `TREE` runs (`42_tree_builder.md` R162, R163): the nodes in use, and the trees below the
records left in the queues.
-/
namespace Sys2Proof.Machine

variable {rs : List SymRec} {k a b : Nat} {x y : Store NodeRec} {q : List Nat} {f : Nat → HTree} {ra rb : NodeRec}

/-! ### The nodes in use -/

/-- The leaf of a table record (R162). -/
def SymRec.leaf (r : SymRec) : NodeRec := leafNode r.symbol r.frequency

/-- Of the first `k` nodes the first are the leaves of the table in order, each further one merges two nodes before it. -/
structure BuiltOver (rs : List SymRec) (k : Nat) (x : Store NodeRec) : Prop where
  leaf : ∀ i, i < rs.length → Store.read x i = (rs[i]?).map SymRec.leaf
  inner : ∀ j, rs.length ≤ j → j < k → ∃ a b ra rb, a < j ∧ b < j ∧ a ≠ b ∧ Store.read x a = some ra ∧
    Store.read x b = some rb ∧ Store.read x j = some (innerNode (ra.frequency + rb.frequency) (some a) (some b))

theorem BuiltOver.read_leaf (hb : BuiltOver rs k x) {i : Nat} (hi : i < rs.length) :
    Store.read x i = some rs[i].leaf := by
  rw [hb.leaf i hi, List.getElem?_eq_getElem hi, Option.map_some]

theorem BuiltOver.held (hb : BuiltOver rs k x) {j : Nat} (hj : j < k) : ∃ r, Store.read x j = some r := by
  by_cases hl : j < rs.length
  · exact ⟨_, hb.read_leaf hl⟩
  · obtain ⟨a, b, ra, rb, -, -, -, -, -, hr⟩ := hb.inner j (by omega) hj
    exact ⟨_, hr⟩

/-- The children of a node in use stand before it. -/
theorem BuiltOver.child_lt (hb : BuiltOver rs k x) {j c : Nat} {r : NodeRec} (hj : j < k) (hr : Store.read x j = some r)
    (hc : r.left = some c ∨ r.right = some c) : c < j := by
  by_cases hl : j < rs.length
  · rw [hb.read_leaf hl] at hr
    cases hr
    rcases hc with hc | hc <;> cases hc
  · obtain ⟨a, b, ra, rb, ha, hb, -, -, -, hj⟩ := hb.inner j (by omega) hj
    rw [hj] at hr
    cases hr
    rcases hc with hc | hc <;> cases hc
    · exact ha
    · exact hb

/-- A merge of two nodes in use is the next node (R162). -/
theorem BuiltOver.alloc (hb : BuiltOver rs k x) (hn : rs.length ≤ k) (ha : a < k) (hbk : b < k) (hab : a ≠ b)
    (hra : Store.read x a = some ra) (hrb : Store.read x b = some rb) :
    BuiltOver rs (k + 1) (Store.write x k (innerNode (ra.frequency + rb.frequency) (some a) (some b))) where
  leaf i hi := (Store.read_write_other x _ (by omega)).trans (hb.leaf i hi)
  inner j hl hj := by
    by_cases hnew : j = k
    · subst hnew
      exact ⟨a, b, ra, rb, ha, hbk, hab, (Store.read_write_other x _ (by omega)).trans hra,
        (Store.read_write_other x _ (by omega)).trans hrb, Store.read_write_same x j _⟩
    · obtain ⟨c, d, rc, rd, hc, hd, hcd, hrc, hrd, hr⟩ := hb.inner j hl (by omega)
      exact ⟨c, d, rc, rd, hc, hd, hcd, (Store.read_write_other x _ (by omega)).trans hrc,
        (Store.read_write_other x _ (by omega)).trans hrd, (Store.read_write_other x _ hnew).trans hr⟩

/-- The tree below a node in use does not depend on the nodes not in use. -/
theorem Represents.of_agree {j : Nat} {t : HTree} (h : Represents x j t) (hb : BuiltOver rs k x) (hj : j < k)
    (hxy : ∀ i, i < k → Store.read y i = Store.read x i) : Represents y j t := by
  induction h with
  | leaf hr hl => exact .leaf ((hxy _ hj).trans hr) hl
  | node hr hl hleft hright _ _ ihl ihr =>
    have hlt := hb.child_lt hj hr (.inl hleft)
    have hrt := hb.child_lt hj hr (.inr hright)
    exact .node ((hxy _ hj).trans hr) hl hleft hright (ihl (by omega)) (ihr (by omega))

/-! ### The trees of the records left -/

@[simp] theorem HTree.symbols_leaf (c : Byte) : (HTree.leaf c).symbols = [c] := rfl

@[simp] theorem HTree.symbols_node (l r : HTree) : (HTree.node l r).symbols = l.symbols ++ r.symbols := by
  simp [symbols, paths, Function.comp_def]

/-- The frequency of a node, 0 where it holds no value. -/
def freqAt (x : Store NodeRec) (j : Nat) : BitVec 32 := ((Store.read x j).map NodeRec.frequency).getD 0

theorem freqAt_of_read {j : Nat} {r : NodeRec} (h : Store.read x j = some r) : freqAt x j = r.frequency := by
  rw [freqAt, h]
  rfl

/-- Below each node of `q` stands a tree, given by `f`; together they hold the symbols of the table, each once, and their
frequencies add up to those of the table (mod 2^32). -/
structure Forest (rs : List SymRec) (x : Store NodeRec) (f : Nat → HTree) (q : List Nat) : Prop where
  tree : ∀ j ∈ q, Represents x j (f j)
  symbols : (q.flatMap fun j => (f j).symbols).Perm (rs.map SymRec.symbol)
  frequency : (q.map (freqAt x)).sum = (rs.map SymRec.frequency).sum

/-- The order does not matter to a sum of words. -/
theorem sum_perm {w : Nat} {fs gs : List (BitVec w)} (h : fs.Perm gs) : fs.sum = gs.sum := by
  induction h with
  | nil => rfl
  | cons f _ ih => rw [List.sum_cons, List.sum_cons, ih]
  | swap f g fs => simp only [List.sum_cons, ← BitVec.add_assoc, BitVec.add_comm f g]
  | trans _ _ ih1 ih2 => exact ih1.trans ih2

theorem Forest.perm {p : List Nat} (h : Forest rs x f q) (hp : q.Perm p) : Forest rs x f p where
  tree j hj := h.tree j (hp.mem_iff.2 hj)
  symbols := (hp.flatMap_right _).symm.trans h.symbols
  frequency := (sum_perm (hp.map _)).symm.trans h.frequency

/-- The trees `f` with the tree `t` at node `k`. -/
def plantAt (f : Nat → HTree) (k : Nat) (t : HTree) (j : Nat) : HTree := if j = k then t else f j

theorem plantAt_same (f : Nat → HTree) (k : Nat) (t : HTree) : plantAt f k t k = t := if_pos rfl

theorem plantAt_other (f : Nat → HTree) (t : HTree) {j : Nat} (hj : j ≠ k) : plantAt f k t j = f j := if_neg hj

/-- A merge puts two trees below one node (R162). -/
theorem Forest.merge (h : Forest rs x f (a :: b :: q)) (hb : BuiltOver rs k x) (hq : ∀ j ∈ a :: b :: q, j < k)
    (hra : Store.read x a = some ra) (hrb : Store.read x b = some rb) :
    Forest rs (Store.write x k (innerNode (ra.frequency + rb.frequency) (some a) (some b)))
      (plantAt f k (.node (f a) (f b))) (k :: q) := by
  have old : ∀ j, j < k → Store.read (Store.write x k (innerNode (ra.frequency + rb.frequency) (some a) (some b))) j =
      Store.read x j := fun j hj => Store.read_write_other x _ (by omega)
  have tree : ∀ j ∈ a :: b :: q, Represents (Store.write x k _) j (f j) := fun j hj =>
    (h.tree j hj).of_agree hb (hq j hj) old
  have hne : ∀ j ∈ q, j ≠ k := fun j hj => Nat.ne_of_lt (hq j (by simp [hj]))
  refine ⟨fun j hj => ?_, ?_, ?_⟩
  · rcases List.mem_cons.1 hj with rfl | hj
    · rw [plantAt_same]
      exact .node (Store.read_write_same x _ _) rfl rfl rfl (tree a (by simp)) (tree b (by simp))
    · rw [plantAt_other _ _ (hne j hj)]
      exact tree j (by simp [hj])
  · have hsame : (q.flatMap fun j => (plantAt f k (.node (f a) (f b)) j).symbols) =
        q.flatMap fun j => (f j).symbols :=
      congrArg List.flatten (List.map_congr_left fun j hj => by rw [plantAt_other _ _ (hne j hj)])
    have hsym := h.symbols
    rw [List.flatMap_cons, List.flatMap_cons, ← List.append_assoc] at hsym
    rwa [List.flatMap_cons, hsame, plantAt_same, HTree.symbols_node]
  · have hsame : q.map (freqAt (Store.write x k _)) = q.map (freqAt x) :=
      List.map_congr_left fun j hj => by rw [freqAt, old j (hq j (by simp [hj])), freqAt]
    have hfreq := h.frequency
    rw [List.map_cons, List.map_cons, List.sum_cons, List.sum_cons, ← BitVec.add_assoc, freqAt_of_read hra,
      freqAt_of_read hrb] at hfreq
    rw [List.map_cons, List.sum_cons, hsame, freqAt_of_read (Store.read_write_same x k _)]
    exact hfreq

/-- A list by its indices. -/
theorem map_range_getD {α β : Type} (g : α → β) (d : β) (xs : List α) :
    ((List.range xs.length).map fun i => ((xs[i]?).map g).getD d) = xs.map g :=
  List.ext_getElem (by simp) fun i h _ => by
    have hi : i < xs.length := by simpa using h
    simp [List.getElem?_eq_getElem hi]

/-- The tree of a leaf of the table. -/
def leafTree (rs : List SymRec) (i : Nat) : HTree := .leaf (((rs[i]?).map SymRec.symbol).getD 0)

/-- Before the first merge every leaf is a tree of its own (R162). -/
theorem BuiltOver.forest (hb : BuiltOver rs k x) : Forest rs x (leafTree rs) (List.range rs.length) where
  tree i hi := by
    have hi := List.mem_range.1 hi
    have ht : leafTree rs i = .leaf rs[i].leaf.symbol := by
      rw [leafTree, List.getElem?_eq_getElem hi]
      rfl
    rw [ht]
    exact .leaf (hb.read_leaf hi) rfl
  symbols := by
    rw [← map_range_getD SymRec.symbol 0 rs, List.map_eq_flatMap]
    exact .rfl
  frequency := by
    rw [← map_range_getD SymRec.frequency 0 rs]
    congr 1
    refine List.map_congr_left fun i hi => ?_
    rw [freqAt, hb.leaf i (List.mem_range.1 hi), Option.map_map]
    rfl

end Sys2Proof.Machine
end
section
/-!
SUPPORT. `TREE` on a held table (`42_tree_builder.md` R162, R163): the leaf copy, the merges, and what they leave.
-/
namespace Sys2Proof.Machine

variable {s : State} {rs : List SymRec} {h : Heads} {x : Store NodeRec}

/-! ### The leaf copy -/

theorem copyLeaf_of_held {i : Nat} {r : SymRec} (hr : Store.read s.sym i = some r) :
    copyLeaf i s = .ok () (writeNode i r.leaf s) := by
  rw [copyLeaf, readSym_of_held hr]
  rfl

/-- The loop of the leaf copy writes the leaves of the table one after the other (R162). -/
theorem copyLeaves_writes {i : Nat} (hr : ∀ j, j < rs.length → Store.read s.sym (i + j) = rs[j]?) :
    forUp copyLeaf rs.length i s = .ok () { s with node := Store.writeList s.node i (rs.map SymRec.leaf) } := by
  induction rs generalizing i s with
  | nil => rfl
  | cons r rs ih =>
    have hrest : ∀ j, j < rs.length → Store.read (writeNode i r.leaf s).sym (i + 1 + j) = rs[j]? := fun j hj => by
      rw [Nat.add_assoc, Nat.add_comm 1 j]
      simpa using hr (j + 1) (by simpa using hj)
    rw [List.length_cons, forUp_succ, copyLeaf_of_held (by simpa using hr 0 (by simp)), Res.bind_ok, ih hrest]
    rfl

theorem builtOver_leaves (rs : List SymRec) (x : Store NodeRec) :
    BuiltOver rs rs.length (Store.writeList x 0 (rs.map SymRec.leaf)) where
  leaf i hi := by rw [Store.holds_writeList x _ i (by simpa using hi), List.getElem?_map]
  inner j hl hj := absurd hj (by omega)

/-! ### The merges -/

/-- While `TREE` merges, `k` nodes in use: the queues hold the roots of a forest over the table, the last node among them,
and each merge has taken one record more than it gave. -/
structure Forested (rs : List SymRec) (h : Heads) (k : Nat) (x : Store NodeRec) : Prop where
  built : BuiltOver rs k x
  forest : ∃ f, Forest rs x f (h.pending rs.length k)
  first : rs.length ≤ h.iq
  inner : h.iq ≤ k
  last : k - 1 ∈ h.pending rs.length k
  count : (h.pending rs.length k).length + k = 2 * rs.length

theorem forested_leaves (hne : rs ≠ []) (hb : BuiltOver rs rs.length x) :
    Forested rs { lq := 0, iq := rs.length } rs.length x := by
  have hlen := List.length_pos_iff.2 hne
  have hp : Heads.pending rs.length rs.length { lq := 0, iq := rs.length } = List.range rs.length := by
    simp [Heads.pending, List.range_eq_range']
  refine ⟨hb, ⟨leafTree rs, hp ▸ hb.forest⟩, Nat.le_refl _, Nat.le_refl _, ?_, ?_⟩
  · rw [hp, List.mem_range]
    omega
  · rw [hp, List.length_range]
    omega

/-- A merge takes two records and puts their sum at the end of the internal queue (R162). -/
theorem Forested.merge (hg : Forested rs h s.nnode.toNat s.node) (hk : s.nnode.toNat + 2 ≤ 2 * rs.length) :
    ∃ h' r, merge rs.length h s = .ok h' (allocNode r s) ∧
      Forested rs h' (s.nnode.toNat + 1) (Store.write s.node s.nnode.toNat r) := by
  obtain ⟨hb, ⟨f, hf⟩, hfirst, hinner, -, hcount⟩ := hg
  have hn : rs.length ≤ s.nnode.toNat := Nat.le_trans hfirst hinner
  have held : ∀ j, j < s.nnode.toNat → ∃ r, Store.read s.node j = some r := fun _ => hb.held
  obtain ⟨a, h1, e1, hp1, hle1, hi1⟩ := pick_takes_pending held hn hinner (List.length_pos_iff.1 (by omega))
  obtain ⟨b, h2, e2, hp2, hle2, hi2⟩ := pick_takes_pending (h := h1) held hn hi1
    (List.length_pos_iff.1 (by have := hp1.length_eq; rw [List.length_cons] at this; omega))
  have hp : (h.pending rs.length s.nnode.toNat).Perm (a :: b :: h2.pending rs.length s.nnode.toNat) :=
    hp1.trans (hp2.cons a)
  have hlt : ∀ j ∈ a :: b :: h2.pending rs.length s.nnode.toNat, j < s.nnode.toNat := fun j hj =>
    Heads.lt_of_mem_pending hn (hp.mem_iff.2 hj)
  have ha : a < s.nnode.toNat := hlt a (by simp)
  have hbk : b < s.nnode.toNat := hlt b (by simp)
  have hab : a ≠ b := fun e => by
    have := hp.nodup_iff.1 (Heads.nodup_pending hfirst)
    simp [e] at this
  obtain ⟨ra, hra⟩ := hb.held ha
  obtain ⟨rb, hrb⟩ := hb.held hbk
  have hnew := Heads.pending_succ (n := rs.length) hi2
  refine ⟨h2, innerNode (ra.frequency + rb.frequency) (some a) (some b), ?_, hb.alloc hn ha hbk hab hra hrb,
    ⟨_, ((hf.perm hp).merge hb hlt hra hrb).perm hnew.symm⟩, by omega, by omega, hnew.mem_iff.2 (by simp), ?_⟩
  · simp only [Machine.merge, e1, e2, Res.bind_ok, readNode_of_held hra, readNode_of_held hrb]
  · have hl := hp.length_eq
    rw [List.length_cons, List.length_cons] at hl
    rw [hnew.length_eq, List.length_cons]
    omega

/-- `m` merges allocate `m` nodes and write no other (R162). -/
theorem Forested.mergeTimes {m : Nat} (hg : Forested rs h s.nnode.toNat s.node)
    (hm : s.nnode.toNat + m < 2 * rs.length) (hroom : s.nnode.toNat + m < 2 ^ 15) :
    ∃ h' x, mergeTimes rs.length m h s = .ok () { s with node := x, nnode := BitVec.ofNat 15 (s.nnode.toNat + m) } ∧
      Forested rs h' (s.nnode.toNat + m) x ∧ ∀ j, s.nnode.toNat + m ≤ j → Store.read x j = Store.read s.node j := by
  induction m generalizing h s with
  | zero => exact ⟨h, s.node, by simp [Machine.mergeTimes], hg, fun _ _ => rfl⟩
  | succ m ih =>
    obtain ⟨h1, r, e, hg1⟩ := hg.merge (by omega)
    have hsucc : (allocNode r s).nnode.toNat = s.nnode.toNat + 1 := toNat_nnode_succ (by omega)
    rw [← hsucc] at hg1
    obtain ⟨h2, x, e2, hg2, hrest⟩ := ih hg1 (by omega) (by omega)
    rw [hsucc, show s.nnode.toNat + 1 + m = s.nnode.toNat + (m + 1) by omega] at e2 hg2 hrest
    refine ⟨h2, x, ?_, hg2, fun j hj => (hrest j hj).trans (Store.read_write_other _ _ (by omega))⟩
    rw [Machine.mergeTimes, e, Res.bind_ok, e2]
    rfl

/-- Where one record is left it is the last node, the root. -/
theorem Forested.root (hg : Forested rs h (2 * rs.length - 1) x) (hne : rs ≠ []) :
    ∃ f, Forest rs x f [2 * rs.length - 2] := by
  obtain ⟨-, ⟨f, hf⟩, -, -, hlast, hcount⟩ := hg
  have hlen := List.length_pos_iff.2 hne
  obtain ⟨j, hj⟩ := List.length_eq_one_iff.1 (show (h.pending rs.length (2 * rs.length - 1)).length = 1 by omega)
  rw [hj, List.mem_singleton] at hlast
  rw [hj, ← hlast, show 2 * rs.length - 1 - 1 = 2 * rs.length - 2 by omega] at hf
  exact ⟨f, hf⟩

/-! ### The command -/

/-- What `TREE` makes of the node memory `y` of a state with the table `rs` (R162). -/
structure TreeOver (rs : List SymRec) (y x : Store NodeRec) : Prop where
  built : BuiltOver rs (2 * rs.length - 1) x
  forest : rs ≠ [] → ∃ f, Forest rs x f [2 * rs.length - 2]
  rest : ∀ j, 2 * rs.length - 1 ≤ j → Store.read x j = Store.read y j

/-- The tree `TREE` leaves, `x` the node memory, before it writes `PHASE`. -/
def afterTree (rs : List SymRec) (x : Store NodeRec) (s : State) : State :=
  { s with node := x, nnode := BitVec.ofNat 15 (2 * rs.length - 1),
           root := if rs.length = 0 then none else some (2 * rs.length - 2) }

/-- One leaf is the root as the last node is after no merge (R162). -/
theorem growTree_of_ne_zero {n : Nat} (hn : n ≠ 0) (hs : s.nnode.toNat = n) :
    growTree n s = (mergeTimes n (n - 1) { lq := 0, iq := n } s).bind
      fun _ t => .ok () { t with root := some (t.nnode.toNat - 1) } := by
  unfold growTree
  rw [if_neg hn]
  by_cases h1 : n = 1
  · subst h1
    simp [hs, mergeTimes]
  · rw [if_neg h1]

/-- `TREE` after the leaf copy (R162). -/
theorem growTree_on_leaves (hs : s.nnode = BitVec.ofNat 15 rs.length) (hlt : rs.length < 512)
    (hb : BuiltOver rs rs.length s.node) :
    ∃ x, growTree rs.length s = .ok () (afterTree rs x s) ∧ TreeOver rs s.node x := by
  by_cases hne : rs = []
  · subst hne
    refine ⟨s.node, ?_, hb, absurd rfl, fun _ _ => rfl⟩
    rw [List.length_nil] at hs
    simp [growTree, afterTree, ← hs]
  · have hlen := List.length_pos_iff.2 hne
    have hcount : s.nnode.toNat = rs.length := by
      rw [hs, BitVec.toNat_ofNat]
      exact Nat.mod_eq_of_lt (by omega)
    have hstart := forested_leaves hne hb
    rw [← hcount] at hstart
    obtain ⟨h', x, e, hg, hrest⟩ := hstart.mergeTimes (m := rs.length - 1) (by omega) (by omega)
    rw [hcount, show rs.length + (rs.length - 1) = 2 * rs.length - 1 by omega] at e hg hrest
    refine ⟨x, ?_, hg.built, fun _ => hg.root hne, hrest⟩
    rw [growTree_of_ne_zero (by omega) hcount, e, Res.bind_ok, afterTree, if_neg (by omega), BitVec.toNat_ofNat,
      Nat.mod_eq_of_lt (by omega), show 2 * rs.length - 1 - 1 = 2 * rs.length - 2 by omega]

/-- `TREE` on a held table (R162). -/
theorem treeBody_builds (ht : Table rs s) :
    ∃ x, treeBody s = .ok () (setPhase .treed (afterTree rs x s)) ∧ TreeOver rs s.node x := by
  obtain ⟨hn, hsym⟩ := ht
  obtain ⟨x, e, hb, hf, hrest⟩ := growTree_on_leaves (rs := rs)
    (s := { s with node := Store.writeList s.node 0 (rs.map SymRec.leaf), nnode := BitVec.ofNat 15 rs.length }) rfl
    (hn ▸ s.nsym.isLt) (builtOver_leaves rs s.node)
  refine ⟨x, ?_, hb, hf, fun j hj => (hrest j hj).trans ((Store.read_writeList _ _ _ _).trans (if_neg ?_))⟩
  · rw [treeBody, hn, copyLeaves_writes (by simpa using hsym), Res.bind_ok]
    show (growTree s.nsym.toNat { s with node := _, nnode := BitVec.ofNat 15 s.nsym.toNat }).bind _ = _
    rw [hn, e]
    rfl
  · rw [List.length_map]
    omega

theorem exec_tree_builds (hp : s.phase = .fsorted) (ht : Table rs s) :
    ∃ x, exec .tree s = .next (setPhase .treed (afterTree rs x s)) ∧ TreeOver rs s.node x := by
  obtain ⟨x, e, hx⟩ := treeBody_builds ht
  refine ⟨x, ?_, hx⟩
  rw [exec_of_legalIn (by decide) (by rw [hp]; rfl), bodyOf, e]
  rfl

/-- Settles O30: the nodes in use are built over the table, no other is written. -/
theorem treeBuildsNodes : Obligations.TreeBuildsNodes := by
  intro s rs hp ht
  obtain ⟨x, e, hx⟩ := exec_tree_builds hp ht
  exact ⟨_, e, rfl, hx.built.leaf, hx.built.inner, hx.rest⟩

/-- A sum of words that stays below 2^w does not wrap. -/
theorem toNat_sum_of_lt {w : Nat} {fs : List (BitVec w)} (h : (fs.map BitVec.toNat).sum < 2 ^ w) :
    fs.sum.toNat = (fs.map BitVec.toNat).sum := by
  induction fs with
  | nil => simp
  | cons f fs ih =>
    rw [List.map_cons, List.sum_cons] at h ⊢
    rw [List.sum_cons, BitVec.toNat_add, ih (by omega), Nat.mod_eq_of_lt h]

/-- Settles O31: where one record is left in the queues, the forest over the table is one tree. -/
theorem treeIsOneTreeOverTheTable : Obligations.TreeIsOneTreeOverTheTable := by
  intro s t rs hp ht hne h
  obtain ⟨x, e, hx⟩ := exec_tree_builds hp ht
  cases e.symm.trans h
  obtain ⟨f, hf⟩ := hx.forest hne
  have hlen := List.length_pos_iff.2 hne
  obtain ⟨r, hr⟩ := hx.built.held (j := 2 * rs.length - 2) (by omega)
  have hsum : r.frequency = (rs.map SymRec.frequency).sum := by
    have := hf.frequency
    rwa [List.map_singleton, List.sum_singleton, freqAt_of_read hr] at this
  refine ⟨2 * rs.length - 2, f _, r, if_neg (by omega), hf.tree _ (by simp), ?_, hr, fun hlt => ?_⟩
  · simpa using hf.symbols
  · have hmap : (rs.map fun q => q.frequency.toNat) = (rs.map SymRec.frequency).map BitVec.toNat := by
      rw [List.map_map]
      rfl
    rw [hmap] at hlt ⊢
    rw [hsum, toNat_sum_of_lt hlt]

end Sys2Proof.Machine
end
section
/-!
SUPPORT. What `TREE` and the commands on the streams leave alone, raised or not (`42_tree_builder.md` R162,
`44_container.md` R201, R206, `45_bitstream.md` R232, R233, R236).
-/
namespace Sys2Proof.Machine

variable {s t : State}

/-! ### `TREE` -/

/-- `t` is `s` but for nodes below 2 × `NSYM` - 1, `NNODE`, `ROOT`, `PHASE` and the error registers. -/
def TreeFrame (s t : State) : Prop :=
  t = { s with node := t.node, nnode := t.nnode, root := t.root, phase := t.phase, err := t.err, errsub := t.errsub,
               errinfo := t.errinfo } ∧
    ∀ j, 2 * s.nsym.toNat - 1 ≤ j → Store.read t.node j = Store.read s.node j

/-- The leaf copy ends only where the table is held. -/
theorem copyLeaves_held (s : State) : (forUp copyLeaf s.nsym.toNat 0 s).Ends
    (fun _ _ => ∀ i, i < s.nsym.toNat → ∃ r, Store.read s.sym i = some r) (fun _ => False) fun _ => True := by
  refine (forUp_ends (I := fun k t => t.sym = s.sym ∧ ∀ i, i < k → ∃ r, Store.read s.sym i = some r)
    ⟨rfl, fun i hi => absurd hi (Nat.not_lt_zero i)⟩ fun k t _ _ ⟨hsym, hheld⟩ => ?_).imp
    fun _ _ ⟨_, hheld⟩ i hi => hheld i (by omega)
  unfold copyLeaf
  rcases readSym_cases k t with ⟨r, hr, e⟩ | ⟨-, e⟩ <;> rw [e]
  · refine ⟨hsym, fun i hi => ?_⟩
    rcases Nat.lt_succ_iff_lt_or_eq.1 hi with hi | rfl
    · exact hheld i hi
    · exact ⟨r, hsym ▸ hr⟩
  · trivial

theorem treeBody_writes_below (s : State) : (treeBody s).Keeps (TreeFrame s) (TreeFrame s) := by
  by_cases hheld : ∀ i, i < s.nsym.toNat → ∃ r, Store.read s.sym i = some r
  · obtain ⟨rs, ht⟩ := exists_table hheld
    obtain ⟨x, e, hx⟩ := treeBody_builds ht
    rw [e]
    exact ⟨rfl, fun j hj => hx.rest j (ht.1 ▸ hj)⟩
  · have stops := (copyLeaves_held s).mono (Q' := TreeFrame s) (F' := fun _ => True) (fun _ _ => id)
      (fun _ => False.elim) fun _ => id
    exact stops.bind fun _ _ h => absurd h hheld

theorem exec_tree_frame (h : exec .tree s = .next t) : TreeFrame s t :=
  exec_keeps (i := .tree) (by decide) ⟨rfl, fun _ _ => rfl⟩
    (fun kind sub info _ hu => ⟨congrArg (raise kind sub info) hu.1, hu.2⟩) (treeBody_writes_below s) h

/-! ### The writers -/

/-- `t` is `s` but for bytes after those in OUT, `OPOS`, the oracle, `PHASE` and the error registers. -/
def WriteFrame (s t : State) : Prop :=
  t = { s with out := t.out, opos := t.opos, oracle := t.oracle, phase := t.phase, err := t.err, errsub := t.errsub,
               errinfo := t.errinfo } ∧ s.out <+: t.out

theorem WriteFrame.refl (s : State) : WriteFrame s s := ⟨rfl, List.prefix_rfl⟩

theorem WriteFrame.popAnswer (h : WriteFrame s t) : WriteFrame s (popAnswer t) := ⟨congrArg Machine.popAnswer h.1, h.2⟩

theorem WriteFrame.emit (v : Byte) (h : WriteFrame s t) : WriteFrame s (emit v t) :=
  ⟨congrArg (Machine.emit v) h.1, h.2.trans (List.prefix_append _ _)⟩

theorem WriteFrame.raise (kind : ErrKind) (sub : BitVec 8) (info : Nat) (h : WriteFrame s t) :
    WriteFrame s (raise kind sub info t) :=
  ⟨congrArg (Machine.raise kind sub info) h.1, h.2⟩

theorem WriteFrame.setPhase (p : Phase) (h : WriteFrame s t) : WriteFrame s (setPhase p t) :=
  ⟨congrArg (Machine.setPhase p) h.1, h.2⟩

theorem WriteFrame.nsym_eq (h : WriteFrame s t) : t.nsym = s.nsym := (congrArg State.nsym h.1 :)

/-- The accumulator may be written in both states. -/
theorem WriteFrame.withAcc (c : BitVec 8) (n : BitVec 4) (h : WriteFrame s t) :
    WriteFrame { s with acc := c, accn := n } { t with acc := c, accn := n } :=
  ⟨congrArg (fun u : State => { u with acc := c, accn := n }) h.1, h.2⟩

/-- The reader may be written in both states. -/
theorem WriteFrame.withReader (b : BitVec 8) (n : BitVec 4) (p : BitVec 32) (h : WriteFrame s t) :
    WriteFrame { s with rbuf := b, rbn := n, rpos := p } { t with rbuf := b, rbn := n, rpos := p } :=
  ⟨congrArg (fun u : State => { u with rbuf := b, rbn := n, rpos := p }) h.1, h.2⟩

/-- `t` is `s` but for what `WriteFrame` names and the accumulator. -/
def AccFrame (s t : State) : Prop := WriteFrame { s with acc := t.acc, accn := t.accn } t

/-- `t` is `s` but for what `WriteFrame` names and the reader. -/
def ReaderFrame (s t : State) : Prop := WriteFrame { s with rbuf := t.rbuf, rbn := t.rbn, rpos := t.rpos } t

theorem WriteFrame.writer (s : State) : Writer (fun _ => WriteFrame s) (WriteFrame s) where
  pop _ _ h := h.popAnswer
  emit _ v _ h := h.emit v
  raised kind sub info _ _ _ h := h.raise kind sub info

theorem AccFrame.writer (s : State) : Writer (fun _ => AccFrame s) (AccFrame s) where
  pop _ _ h := h.popAnswer
  emit _ v _ h := h.emit v
  raised kind sub info _ _ _ h := h.raise kind sub info

theorem AccFrame.placeBit (b : Bool) (h : AccFrame s t) : AccFrame s (placeBit b t) := h.withAcc _ _

theorem AccFrame.clearAcc (h : AccFrame s t) : AccFrame s (clearAcc t) := h.withAcc _ _

theorem AccFrame.encoder (s : State) (limit : Nat) : Encoder limit (fun _ => AccFrame s) (AccFrame s) fun _ => True where
  reader _ :=
    { pop := fun _ h => h.popAnswer
      raised := fun kind sub info _ _ h => h.raise kind sub info
      missing := fun _ _ _ _ => trivial
      range := fun _ _ _ _ _ => trivial }
  bits :=
    { bit := fun _ b _ h _ => h.placeBit b
      byte := fun _ b _ h _ => ((h.placeBit b).popAnswer.emit _).withAcc 0 0
      raised := fun _ _ b _ h _ => (h.placeBit b).popAnswer.raise _ _ _ }
  mono _ _ := id
  record _ _ _ _ _ _ := trivial

theorem ReaderFrame.decoder (s : State) :
    Decoder (fun _ => ReaderFrame s) (ReaderFrame s) (fun _ => True) fun _ => True where
  writer :=
    { pop := fun _ _ h => h.popAnswer
      emit := fun _ v _ h => h.emit v
      raised := fun kind sub info _ _ _ h => h.raise kind sub info }
  take _ _ h _ := h.withReader _ _ _
  load _ _ _ h _ := h.withReader _ _ _
  missing _ _ _ _ _ := trivial
  node _ _ _ _ _ _ := trivial
  child _ _ _ _ _ _ _ _ _ _ := trivial
  root _ _ _ _ _ := trivial

theorem exec_whdr_frame (h : exec .whdr s = .next t) : WriteFrame s t := by
  refine exec_keeps (i := .whdr) (by decide) (.refl s) (fun kind sub info _ => WriteFrame.raise kind sub info) ?_ h
  refine ((WriteFrame.writer s).whdrBody (fun _ _ _ _ _ _ => trivial) (fun _ _ hu => hu.nsym_eq) (.refl s)).imp
    fun _ t ⟨u, hu, ht⟩ => ?_
  subst ht
  exact hu.setPhase .hdrw

theorem encBody_frame (s : State) : (encBody s).Keeps (AccFrame s) (AccFrame s) :=
  ((AccFrame.encoder s _).encBody (.refl s)).imp fun _ _ ⟨_, hu, ht⟩ => by
    subst ht
    exact hu.setPhase .encoded

theorem flushBody_frame (s : State) : (flushBody s).Keeps (AccFrame s) (AccFrame s) :=
  ((AccFrame.writer s).flushBody (.refl s) fun _ => .refl s).imp fun _ _ ⟨_, hu, ht⟩ => by
    rcases ht with rfl | ⟨-, rfl⟩
    · exact hu.clearAcc.setPhase .doneC
    · exact hu.setPhase .doneC

theorem exec_enc_flush_frame {i : Instr} (hi : i ∈ [Instr.enc, .flush]) (h : exec i s = .next t) : AccFrame s t := by
  obtain ⟨hne, body⟩ : i ≠ .rst ∧ (bodyOf i s).Keeps (AccFrame s) (AccFrame s) := by
    rw [List.mem_cons, List.mem_singleton] at hi
    rcases hi with rfl | rfl
    · exact ⟨by decide, encBody_frame s⟩
    · exact ⟨by decide, flushBody_frame s⟩
  exact exec_keeps hne (.refl s) (fun kind sub info _ hu => WriteFrame.raise kind sub info hu) body h

theorem exec_dec_frame (h : exec .dec s = .next t) : ReaderFrame s t := by
  refine exec_keeps (i := .dec) (by decide) (.refl s) (fun kind sub info _ hu => WriteFrame.raise kind sub info hu) ?_ h
  refine ((ReaderFrame.decoder s).decBody (.refl s)).imp fun _ t ⟨u, hu, ht⟩ => ?_
  subst ht
  exact hu.setPhase .doneD

/-! ### `RHDR` and `DECOMPRESS` -/

/-- The table, `HSIZE`, IN and the host's side of `t` are those of `s`. -/
def RunFrame (s t : State) : Prop :=
  t.sym = s.sym ∧ t.hsize = s.hsize ∧ t.inLen = s.inLen ∧ t.input = s.input ∧ t.script = s.script ∧
    t.readData = s.readData

theorem RunFrame.refl (s : State) : RunFrame s s := ⟨rfl, rfl, rfl, rfl, rfl, rfl⟩

/-- All other fields are those `RHDR` and `DECOMPRESS` may change. -/
theorem RunFrame.eq (h : RunFrame s t) :
    t = { s with len := t.len, empty := t.empty, acc := t.acc, accn := t.accn, rbuf := t.rbuf, rbn := t.rbn,
                 rpos := t.rpos, opos := t.opos, out := t.out, node := t.node, nnode := t.nnode, root := t.root,
                 nsym := t.nsym, origLen := t.origLen, oracle := t.oracle, phase := t.phase, err := t.err,
                 errsub := t.errsub, errinfo := t.errinfo } := by
  obtain ⟨hsym, hhsize, hinLen, hinput, hscript, hdata⟩ := h
  rw [← hsym, ← hhsize, ← hinLen, ← hinput, ← hscript, ← hdata]

theorem RunFrame.streamKept (s : State) : StreamKept (RunFrame s) (RunFrame s) where
  inByte _ _ h := inByte_within (R := fun _ => RunFrame s) h h
  outByte _ _ h := outByte_within (R := fun _ => RunFrame s) h h
  raised _ _ _ _ _ h := h
  stream _ _ _ _ _ _ h := h
  phase _ _ h := h

theorem RunFrame.headerReader (s : State) (n : BitVec 32) :
    HeaderReader (fun t => RunFrame s t ∧ t.len = n) (RunFrame s) where
  reader _ :=
    { pop := fun _ h => h
      raised := fun _ _ _ _ _ h => h.1
      missing := fun _ _ _ _ => trivial
      range := fun _ _ _ _ _ => trivial }
  grow _ _ _ _ h := h
  counts _ _ _ _ h := h
  rest _ _ h _ := h

theorem rhdrBody_frame (s : State) : (rhdrBody s).Keeps (RunFrame s) (RunFrame s) :=
  ((RunFrame.headerReader s s.inLen).rhdrBody (fun _ ht => ht.2) ⟨.refl s, rfl⟩).imp fun _ _ ⟨_, hu, ht⟩ => by
    subst ht
    exact hu.1

theorem decompressBody_frame (s : State) : (decompressBody s).Keeps (RunFrame s) (RunFrame s) :=
  (rhdrBody_frame s).bind fun _ _ hu => ((RunFrame.streamKept s).decBody hu).imp fun _ _ hv => hv.1

theorem exec_rhdr_decompress_frame {i : Instr} (hi : i ∈ [Instr.rhdr, .decompress]) (h : exec i s = .next t) :
    RunFrame s t := by
  obtain ⟨hne, body⟩ : i ≠ .rst ∧ (bodyOf i s).Keeps (RunFrame s) (RunFrame s) := by
    rw [List.mem_cons, List.mem_singleton] at hi
    rcases hi with rfl | rfl
    · exact ⟨by decide, rhdrBody_frame s⟩
    · exact ⟨by decide, decompressBody_frame s⟩
  exact exec_keeps hne (.refl s) (fun _ _ _ _ hu => hu) body h

/-- Settles O60: every update of each command is inside its frame. -/
theorem treeAndStreamCommandFrames : Obligations.TreeAndStreamCommandFrames := fun _ _ =>
  ⟨exec_tree_frame, exec_whdr_frame, fun _ hi => exec_enc_flush_frame hi, exec_dec_frame,
    fun _ hi h => (exec_rhdr_decompress_frame hi h).eq⟩

end Sys2Proof.Machine
end
section
/-!
SUPPORT. The header `WHDR` writes (`44_container.md` R201): its bytes as one list, written one after the other
(`20_memory.md` R66, R69).
-/
namespace Sys2Proof.Machine

variable {α β : Type} {s t : State} {rs : List SymRec}

/-! ### Writing a list of bytes -/

/-- `OutByte` for each of these bytes in order. -/
def outBytes : List Byte → State → Res Unit
  | [], s => .ok () s
  | b :: bs, s => (outByte b s).bind fun _ s => outBytes bs s

theorem outBytes_append (bs cs : List Byte) (s : State) :
    outBytes (bs ++ cs) s = (outBytes bs s).bind fun _ t => outBytes cs t := by
  induction bs generalizing s with
  | nil => rfl
  | cons b bs ih => rw [List.cons_append, outBytes, outBytes, Res.bind_assoc]; simp only [ih]

theorem forUp_outByte_eq_outBytes (f : Nat → Byte) (n i : Nat) (s : State) :
    forUp (fun k => outByte (f k)) n i s = outBytes ((List.range' i n).map f) s := by
  induction n generalizing i s with
  | zero => rfl
  | succ n ih => simp only [forUp_succ, ih, List.range'_succ, List.map_cons, outBytes]

/-- `OutLE` writes the bytes of the number (R69). -/
theorem outLE_eq_outBytes (v n : Nat) (s : State) : outLE v n s = outBytes (leBytes v n) s := by
  rw [outLE, forUp_outByte_eq_outBytes, leBytes, List.range_eq_range']
  exact congrArg (outBytes · s) (List.map_congr_left fun k _ => byteOf_eq v k)

theorem outBytes_frame (bs : List Byte) (h : WriteFrame s t) :
    (outBytes bs t).Ends (fun _ => WriteFrame s) (WriteFrame s) fun _ => True := by
  induction bs generalizing t with
  | nil => exact h
  | cons b bs ih => exact ((WriteFrame.writer s).outByte (k := 0) b h).bind fun _ _ hu => ih hu

/-- The state after these bytes have been written. -/
def afterWrites (s : State) (bs : List Byte) : State :=
  { s with out := s.out ++ bs, opos := s.opos + BitVec.ofNat 40 bs.length, oracle := s.oracle.drop bs.length }

/-- As long as the writes succeed the bytes stand in OUT (R66). -/
theorem outBytes_writes {bs : List Byte} (ha : ∀ k, k < bs.length → s.oracle[k]? ≠ some .fail) :
    outBytes bs s = .ok () (afterWrites s bs) := by
  induction bs generalizing s with
  | nil => simp [outBytes, afterWrites]
  | cons b bs ih =>
    have hn : nextAnswer s = .ok := nextAnswer_ok_of_head? (by simpa [List.head?_eq_getElem?] using ha 0 (by simp))
    have hb : outByte b s = .ok () (emit b (popAnswer s)) := by rw [outByte, hn]
    have rest : ∀ k, k < bs.length → (emit b (popAnswer s)).oracle[k]? ≠ some .fail := fun k hk => by
      simpa using ha (k + 1) (by simpa using hk)
    rw [outBytes, hb, Res.bind_ok, ih rest]
    exact congrArg _ ((emit_list _ bs).symm.trans (emit_list s (b :: bs)))

/-- The state after a write that failed, `rest` the answers still to come (R66, R285). -/
def afterFailedWrite (s : State) (rest : List IoAnswer) : State :=
  raise .ioFailure 2 (s.opos.toNat % 2 ^ 32) { s with oracle := rest }

theorem outByte_fails {rest : List IoAnswer} (ho : s.oracle = .fail :: rest) (b : Byte) :
    outByte b s = .raised (afterFailedWrite s rest) := by
  rw [outByte, nextAnswer, popAnswer, ho]
  rfl

/-- The first write that fails raises; the bytes before it stay in OUT (R66). -/
theorem outBytes_fails {bs : List Byte} {k : Nat} {rest : List IoAnswer} (hk : k < bs.length)
    (ho : s.oracle = List.replicate k .ok ++ .fail :: rest) :
    outBytes bs s = .raised (afterFailedWrite (afterWrites s (bs.take k)) rest) := by
  have hlen : (bs.take k).length = k := List.length_take_of_le (Nat.le_of_lt hk)
  have written : outBytes (bs.take k) s = .ok () (afterWrites s (bs.take k)) := outBytes_writes fun i hi => by
    rw [hlen] at hi
    rw [ho, List.getElem?_append_left (by simpa using hi)]
    simp [hi]
  have hdrop : (afterWrites s (bs.take k)).oracle = .fail :: rest := by
    rw [afterWrites, hlen, ho]
    exact List.drop_left' List.length_replicate
  have hsplit : bs.take k ++ bs[k] :: bs.drop (k + 1) = bs := by
    rw [← List.drop_eq_getElem_cons hk, List.take_append_drop]
  have hrun := outBytes_append (bs.take k) (bs[k] :: bs.drop (k + 1)) s
  rwa [hsplit, written, Res.bind_ok, outBytes, outByte_fails hdrop, Res.bind_raised] at hrun

/-! ### The header -/

/-- Two ways to go on that agree on every state a piece of pseudocode can leave. -/
theorem Res.Ends.bind_congr {P : α → State → Prop} {Q : State → Prop} {F : Fault → Prop} {m : Res α}
    {k k' : α → State → Res β} (h : m.Ends P Q F) (hk : ∀ a t, P a t → k a t = k' a t) :
    m.bind k = m.bind k' := by
  cases m with
  | ok a t => exact hk a t h
  | raised t => rfl
  | stop f => rfl

/-- An entry is its ten bytes (R201). -/
theorem writeEntry_eq_outBytes {i : Nat} {r : SymRec} (h : Store.read s.sym i = some r) :
    writeEntry i s = outBytes r.entry.bytes s := by
  rw [writeEntry, readSym_of_held h, Res.bind_ok, SymRec.entry, Entry.bytes, outBytes]
  simp only [outBytes, outLE_eq_outBytes, Config.hdrCodeBytes]

theorem forUp_writeEntry_eq_outBytes {i : Nat} (h : ∀ j, j < rs.length → Store.read s.sym (i + j) = rs[j]?) :
    forUp writeEntry rs.length i s = outBytes ((rs.map SymRec.entry).flatMap Entry.bytes) s := by
  induction rs generalizing i s with
  | nil => rfl
  | cons r rs ih =>
    have h0 : Store.read s.sym i = some r := by simpa using h 0 (by simp)
    rw [List.length_cons, forUp_succ, writeEntry_eq_outBytes h0, List.map_cons, List.flatMap_cons, outBytes_append]
    refine (outBytes_frame _ (.refl s)).bind_congr fun _ t ht => ih fun j hj => ?_
    have hsym : t.sym = s.sym := (congrArg State.sym ht.1 :)
    rw [hsym, Nat.add_assoc, Nat.add_comm 1, h (j + 1) (by simpa using hj), List.getElem?_cons_succ]

/-- `WHDR` writes the header of the table (R201, R100). -/
theorem whdrBody_eq_outBytes (h : Table rs s) :
    whdrBody s =
      (outBytes (headerOf (rs.map SymRec.entry) s.origLen.toNat) s).bind fun _ t => finish .hdrw t := by
  obtain ⟨hn, hsym⟩ := h
  rw [whdrBody, headerOf, List.length_map, ← hn, outLE_eq_outBytes, outBytes_append, outBytes_append, Res.bind_assoc,
    Res.bind_assoc]
  refine (outBytes_frame _ (.refl s)).bind_congr fun _ t ht => ?_
  have horig : t.origLen = s.origLen := (congrArg State.origLen ht.1 :)
  rw [outLE_eq_outBytes, horig]
  refine (outBytes_frame _ ht).bind_congr fun _ u hu => ?_
  have husym : u.sym = s.sym := (congrArg State.sym hu.1 :)
  rw [hu.nsym_eq, hn, forUp_writeEntry_eq_outBytes fun j hj => by rw [husym, Nat.zero_add, hsym j hj]]

@[simp] theorem Entry.length_bytes (e : Entry) : e.bytes.length = 10 := by simp [Entry.bytes]

@[simp] theorem length_flatMap_bytes (es : List Entry) : (es.flatMap Entry.bytes).length = 10 * es.length := by
  induction es with
  | nil => rfl
  | cons e es ih => rw [List.flatMap_cons, List.length_append, ih, Entry.length_bytes, List.length_cons]; omega

@[simp] theorem length_headerOf (es : List Entry) (olen : Nat) : (headerOf es olen).length = 6 + 10 * es.length := by
  rw [headerOf, List.length_append, List.length_append, length_leBytes, length_leBytes, length_flatMap_bytes]

/-- Settles O35: the header's bytes are written one after the other, and no write fails. -/
theorem whdrWritesHeader : Obligations.WhdrWritesHeader := by
  intro s rs hp hnf ht
  rw [exec_of_legalIn (i := .whdr) (by decide) (by rw [hp]; rfl), bodyOf, whdrBody_eq_outBytes ht,
    outBytes_writes fun k _ hk => hnf (List.mem_of_getElem? hk), afterWrites, length_headerOf, List.length_map]
  rfl

/-- Settles O36: the first `k` bytes of the header are written, and the raise ends the command. -/
theorem whdrWriteFailureRaises : Obligations.WhdrWriteFailureRaises := by
  intro s rs k rest hp ht hk ho
  have hlen : k < (headerOf (rs.map SymRec.entry) s.origLen.toNat).length := by simpa using hk
  have hinfo : ∀ p : BitVec 40, BitVec.ofNat 32 (p.toNat % 2 ^ 32) = p.extractLsb' 0 32 := fun p =>
    BitVec.eq_of_toNat_eq (by simp)
  rw [exec_of_legalIn (i := .whdr) (by decide) (by rw [hp]; rfl), bodyOf, whdrBody_eq_outBytes ht,
    outBytes_fails hlen ho, Res.bind_raised, Res.toOutcome_raised, afterFailedWrite, raise, hinfo,
    afterWrites, List.length_take_of_le (Nat.le_of_lt hlen)]

end Sys2Proof.Machine
end
section
/-!
SUPPORT. The tree `RHDR` rebuilds, by its paths (`44_container.md` R207): what stands at the end of each path after a
node has been attached, and after a path has been walked.
-/
namespace Sys2Proof.Machine

variable {s₀ s t u : State} {m n i j : Nat} {r : NodeRec} {slot : Slot} {p q : List Bool} {b : Bool} {x : Option Nat}

/-! ### Children by a bit -/

/-- The child of a node on the side of a bit (R181). -/
def branch (b : Bool) (r : NodeRec) : Option Nat := if b then r.right else r.left

/-- The node with that child set. -/
def setBranch (b : Bool) (c : Nat) (r : NodeRec) : NodeRec :=
  if b then { r with right := some c } else { r with left := some c }

/-- The place of that child (R207). -/
def childSlot (b : Bool) (n : Nat) : Slot := if b then .right n else .left n

@[simp] theorem slotOwner_childSlot (b : Bool) (n : Nat) : slotOwner (childSlot b n) = some n := by cases b <;> rfl

@[simp] theorem leaf_setBranch (b : Bool) (c : Nat) (r : NodeRec) : (setBranch b c r).leaf = r.leaf := by
  cases b <;> rfl

theorem branch_setBranch (b d : Bool) (c : Nat) (r : NodeRec) :
    branch d (setBranch b c r) = if d = b then some c else branch d r := by cases b <;> cases d <;> rfl

theorem readSlot_childSlot (h : Store.read s.node n = some r) : readSlot (childSlot b n) s = .ok (branch b r) s := by
  cases b <;> exact congrArg (Res.bind · _) (readNode_of_held h)

theorem writeSlot_childSlot (h : Store.read s.node n = some r) (j : Nat) :
    writeSlot (childSlot b n) j s = .ok () (writeNode n (setBranch b j r) s) := by
  cases b <;> exact congrArg (Res.bind · _) (readNode_of_held h)

/-! ### Ends of paths -/

/-- Induction on a path from its end. -/
theorem path_induction {motive : List Bool → Prop} (nil : motive [])
    (concat : ∀ p b, motive p → motive (p ++ [b])) (p : List Bool) : motive p := by
  rw [← p.reverse_reverse]
  induction p.reverse with
  | nil => exact nil
  | cons b p ih =>
    rw [List.reverse_cons]
    exact concat _ b ih

/-- The node one bit below a node: none below a leaf. -/
def endBelow (s : State) (j : Nat) (b : Bool) : Option Nat :=
  (Store.read s.node j).bind fun r => if r.leaf then none else branch b r

theorem endFrom_cons (s : State) (j : Nat) (b : Bool) (p : List Bool) :
    endFrom s.node j (b :: p) = (endBelow s j b).bind fun c => endFrom s.node c p := by
  rw [endFrom, endBelow]
  cases Store.read s.node j with
  | none => rfl
  | some r =>
    cases hl : r.leaf with
    | true => simp [hl]
    | false =>
      simp only [hl, branch, Option.bind_some, Bool.false_eq_true, if_false]
      cases (if b = true then r.right else r.left) <;> rfl

theorem endFrom_append (s : State) (j : Nat) (p q : List Bool) :
    endFrom s.node j (p ++ q) = (endFrom s.node j p).bind fun c => endFrom s.node c q := by
  induction p generalizing j with
  | nil => rfl
  | cons b p ih => rw [List.cons_append, endFrom_cons, endFrom_cons, Option.bind_assoc]; simp only [ih]

@[simp] theorem endOf_nil (s : State) : endOf s [] = s.root := by
  rw [endOf]
  cases s.root <;> rfl

theorem endOf_append (s : State) (p q : List Bool) :
    endOf s (p ++ q) = (endOf s p).bind fun c => endFrom s.node c q := by
  rw [endOf, endOf]
  cases s.root with
  | none => rfl
  | some j => exact endFrom_append s j p q

/-- A path one bit longer. -/
theorem endOf_concat (s : State) (p : List Bool) (b : Bool) :
    endOf s (p ++ [b]) = (endOf s p).bind fun j => endBelow s j b := by
  rw [endOf_append]
  refine congrArg _ (funext fun j => ?_)
  rw [endFrom_cons]
  exact Option.bind_fun_some _

theorem follow_eq_some : follow s p = some r ↔ ∃ j, endOf s p = some j ∧ Store.read s.node j = some r := by
  rw [follow]
  cases endOf s p <;> simp

/-- A path that leads somewhere runs over internal nodes only. -/
theorem inner_of_prefix (h : endOf s q ≠ none) (hp : p <+: q) (hne : p ≠ q) :
    ∃ j r, endOf s p = some j ∧ Store.read s.node j = some r ∧ r.leaf = false := by
  obtain ⟨_ | ⟨b, v⟩, rfl⟩ := hp
  · exact absurd (List.append_nil p).symm hne
  · rw [endOf_append] at h
    cases hj : endOf s p with
    | none => rw [hj] at h; exact absurd rfl h
    | some j =>
      rw [hj, Option.bind_some, endFrom_cons, endBelow] at h
      cases hr : Store.read s.node j with
      | none => rw [hr] at h; exact absurd rfl h
      | some r =>
        cases hl : r.leaf with
        | true => simp [hr, hl] at h
        | false => exact ⟨j, r, rfl, hr, hl⟩

theorem endOf_ne_none_of_prefix (h : endOf s q ≠ none) (hp : p <+: q) : endOf s p ≠ none := by
  by_cases hne : p = q
  · rwa [hne]
  · obtain ⟨j, r, hj, -, -⟩ := inner_of_prefix h hp hne
    rw [hj]
    exact Option.some_ne_none j

/-- No path leads on from a leaf. -/
theorem eq_of_prefix_of_leaf (h : endOf s q ≠ none) (hp : p <+: q) (hr : follow s p = some r) (hl : r.leaf = true) :
    p = q := by
  refine Classical.byContradiction fun hne => ?_
  obtain ⟨j, r', hj, hr', hl'⟩ := inner_of_prefix h hp hne
  obtain ⟨j', hj', hr⟩ := follow_eq_some.1 hr
  rw [hj] at hj'
  cases hj'
  rw [hr'] at hr
  cases hr
  rw [hl'] at hl
  cases hl

/-- The nodes of a growing tree are in use. -/
theorem Growing.endOf_lt (h : Growing s₀ x s) (hp : endOf s p = some j) : j < s.nnode.toNat := by
  induction p using path_induction generalizing j with
  | nil =>
    rw [endOf_nil, h.root] at hp
    split at hp
    · cases hp
    · cases hp
      omega
  | concat p b ih =>
    rw [endOf_concat] at hp
    obtain ⟨i, hi, hj⟩ := Option.bind_eq_some_iff.1 hp
    obtain ⟨r, hr, -, hleft, hright⟩ := h.nodes i (ih hi)
    rw [endBelow, hr, Option.bind_some] at hj
    cases hl : r.leaf with
    | true => simp [hl] at hj
    | false =>
      simp only [hl, Bool.false_eq_true, if_false] at hj
      cases b with
      | true => exact (hright j hj).2
      | false => exact (hleft j hj).2

/-! ### Attaching a node -/

/-- Different paths lead to different nodes. -/
def Distinct (s : State) : Prop := ∀ p q j, endOf s p = some j → endOf s q = some j → p = q

/-- The slot is where a path leads: the root's for the empty path, else the field of the internal node before it. -/
inductive SlotAt (s : State) : Slot → List Bool → Prop where
  | root : SlotAt s .root []
  | child {n : Nat} {r : NodeRec} {p : List Bool} (b : Bool) : endOf s p = some n → Store.read s.node n = some r →
      r.leaf = false → SlotAt s (childSlot b n) (p ++ [b])

/-- A slot holds the node its path leads to. -/
theorem SlotAt.readSlot (h : SlotAt s slot q) : readSlot slot s = .ok (endOf s q) s := by
  cases h with
  | root => rw [endOf_nil]; rfl
  | child b hp hr hl => simp [readSlot_childSlot hr, endOf_concat, hp, endBelow, hr, hl]

/-- Only the tree has changed. -/
def TreeOnly (s t : State) : Prop := t = { s with node := t.node, nnode := t.nnode, root := t.root }

theorem TreeOnly.refl (s : State) : TreeOnly s s := rfl

theorem TreeOnly.trans (h : TreeOnly s t) (h' : TreeOnly t u) : TreeOnly s u := by
  rw [TreeOnly, h', h]

/-- `t` is `s` with the node `r` as node `NNODE` at the end of path `q`. -/
structure Attached (s : State) (q : List Bool) (r : NodeRec) (t : State) : Prop where
  frame : TreeOnly s t
  ends : ∀ p, endOf t p = if p = q then some s.nnode.toNat else endOf s p
  new : Store.read t.node s.nnode.toNat = some r
  old : ∀ j r', j < s.nnode.toNat → Store.read s.node j = some r' →
    ∃ r'', Store.read t.node j = some r'' ∧ r''.leaf = r'.leaf ∧ (r'.leaf = true → r'' = r')

/-- The end of every path, from the root and the children of the nodes: in `t` node `n` is new, without children, at the
end of `q`. -/
theorem ends_of_children (hq : endOf s q = none) (hroot : t.root = if q = [] then some n else s.root)
    (hparent : ∀ p b, q = p ++ [b] → endOf s p ≠ none) (hnew : ∀ b, endBelow t n b = none)
    (hold : ∀ p j b, endOf s p = some j → endBelow t j b = if p ++ [b] = q then some n else endBelow s j b)
    (p : List Bool) : endOf t p = if p = q then some n else endOf s p := by
  induction p using path_induction with
  | nil => rw [endOf_nil, endOf_nil, hroot]; simp only [eq_comm]
  | concat p b ih =>
    rw [endOf_concat, ih]
    by_cases hpq : p = q
    · subst hpq
      simp [hnew, endOf_concat, hq]
    · rw [if_neg hpq, endOf_concat]
      cases hp : endOf s p with
      | none => exact (if_neg fun e => hparent p b e.symm hp).symm
      | some j => exact hold p j b hp

theorem endBelow_of_no_child (hr : Store.read s.node j = some r) (hleft : r.left = none) (hright : r.right = none)
    (b : Bool) : endBelow s j b = none := by
  cases b <;> simp [endBelow, hr, branch, hleft, hright]

theorem endBelow_congr (h : Store.read t.node j = Store.read s.node j) (b : Bool) :
    endBelow t j b = endBelow s j b := by
  rw [endBelow, endBelow, h]

/-- A node attached at the root of an empty tree (R207). -/
theorem attach_root_attached (hroot : s.root = none) (hleft : r.left = none) (hright : r.right = none) :
    Attached s [] r { allocNode r s with root := some s.nnode.toNat } := by
  have none_ends : ∀ p, endOf s p = none := fun p => by rw [endOf, hroot]
  have hnew : Store.read (allocNode r s).node s.nnode.toNat = some r := Store.read_write_same _ _ _
  refine ⟨rfl, ends_of_children (none_ends []) rfl (fun p b e => ?_) (endBelow_of_no_child hnew hleft hright) ?_,
    hnew, fun j r' hj hr' => ⟨r', (Store.read_write_other _ _ (Nat.ne_of_lt hj)).trans hr', rfl, fun _ => rfl⟩⟩
  · simp at e
  · intro p j b hp
    rw [none_ends] at hp
    cases hp

/-- A node attached below an internal node (R207). -/
theorem attach_child_attached (hg : Growing s₀ x s) (hd : Distinct s) {q' : NodeRec} (hp : endOf s p = some n)
    (hn : Store.read s.node n = some q') (hl : q'.leaf = false) (hempty : endOf s (p ++ [b]) = none)
    (hleft : r.left = none) (hright : r.right = none) :
    Attached s (p ++ [b]) r (writeNode n (setBranch b s.nnode.toNat q') (allocNode r s)) := by
  have hlt := hg.endOf_lt hp
  have hnew : Store.read (writeNode n (setBranch b s.nnode.toNat q') (allocNode r s)).node s.nnode.toNat = some r :=
    (Store.read_write_other _ _ (by omega)).trans (Store.read_write_same _ _ _)
  have hparent : Store.read (writeNode n (setBranch b s.nnode.toNat q') (allocNode r s)).node n =
      some (setBranch b s.nnode.toNat q') := Store.read_write_same _ _ _
  have hother : ∀ j, j < s.nnode.toNat → j ≠ n →
      Store.read (writeNode n (setBranch b s.nnode.toNat q') (allocNode r s)).node j = Store.read s.node j :=
    fun j hj hjn => (Store.read_write_other _ _ hjn).trans (Store.read_write_other _ _ (by omega))
  refine ⟨rfl, ends_of_children hempty (by simp) (fun p' d e => ?_) (endBelow_of_no_child hnew hleft hright)
    (fun p' j d hj => ?_), hnew, fun j r' hj hr' => ?_⟩
  · obtain ⟨rfl, -⟩ := List.append_inj' e rfl
    rw [hp]
    exact Option.some_ne_none n
  · by_cases hjn : j = n
    · subst hjn
      obtain rfl := hd p' p j hj hp
      simp [endBelow, hn, hl, branch_setBranch]
    · have hne : p' ++ [d] ≠ p ++ [b] := fun e => by
        obtain ⟨rfl, -⟩ := List.append_inj' e rfl
        rw [hp] at hj
        exact hjn (Option.some.inj hj).symm
      rw [if_neg hne, endBelow_congr (hother j (hg.endOf_lt hj) hjn)]
  · by_cases hjn : j = n
    · subst hjn
      rw [hn] at hr'
      cases hr'
      exact ⟨_, hparent, leaf_setBranch _ _ _, fun h => by rw [hl] at h; cases h⟩
    · exact ⟨r', (hother j hj hjn).trans hr', rfl, fun _ => rfl⟩

/-- `attach` puts a node where an empty slot's path leads (R207). -/
theorem SlotAt.attach (h : SlotAt s slot q) (hg : Growing s₀ x s) (hd : Distinct s) (hempty : endOf s q = none)
    (hleft : r.left = none) (hright : r.right = none) :
    ∃ t, attach slot r s = .ok s.nnode.toNat t ∧ Attached s q r t := by
  cases h with
  | root => exact ⟨_, rfl, attach_root_attached (by rwa [endOf_nil] at hempty) hleft hright⟩
  | @child n q' p b hp hn hl =>
    have hheld : Store.read (allocNode r s).node n = some q' :=
      (Store.read_write_other _ _ (Nat.ne_of_lt (hg.endOf_lt hp))).trans hn
    exact ⟨_, by rw [Machine.attach, writeSlot_childSlot hheld]; rfl,
      attach_child_attached hg hd hp hn hl hempty hleft hright⟩

theorem Attached.endOf_new (h : Attached s q r t) : endOf t q = some s.nnode.toNat := (h.ends q).trans (if_pos rfl)

theorem Attached.follow_new (h : Attached s q r t) : follow t q = some r :=
  follow_eq_some.2 ⟨_, h.endOf_new, h.new⟩

theorem Attached.distinct (h : Attached s q r t) (hg : Growing s₀ x s) (hd : Distinct s) : Distinct t := by
  intro p p' j hp hp'
  rw [h.ends] at hp hp'
  split at hp <;> split at hp'
  · subst_vars
    rfl
  · cases hp
    exact absurd (hg.endOf_lt hp') (Nat.lt_irrefl _)
  · cases hp'
    exact absurd (hg.endOf_lt hp) (Nat.lt_irrefl _)
  · exact hd p p' j hp hp'

/-- The leaves elsewhere stay as they are. -/
theorem Attached.follow_leaf_iff (h : Attached s q r t) (hg : Growing s₀ x s) (hpq : p ≠ q) {r' : NodeRec}
    (hl : r'.leaf = true) : follow t p = some r' ↔ follow s p = some r' := by
  rw [follow_eq_some, follow_eq_some, h.ends, if_neg hpq]
  refine exists_congr fun j => and_congr_right fun hj => ?_
  obtain ⟨q', hq'⟩ := hg.read (hg.endOf_lt hj)
  obtain ⟨q'', hq'', hleaf, hsame⟩ := h.old j q' (hg.endOf_lt hj) hq'
  rw [hq', hq'']
  constructor
  · intro e
    cases e
    rw [hsame (hleaf ▸ hl)]
  · intro e
    cases e
    rw [hsame hl]

/-! ### Walking a path -/

/-- `t` is `s` but for internal nodes that are new before the end of path `q`. -/
structure Walked (q : List Bool) (s t : State) : Prop where
  frame : TreeOnly s t
  ends : ∀ p, endOf t p ≠ none → endOf s p ≠ none ∨ (p <+: q ∧ p ≠ q)
  leaves : ∀ p r, r.leaf = true → (follow t p = some r ↔ follow s p = some r)

theorem Walked.refl (q : List Bool) (s : State) : Walked q s s := ⟨.refl s, fun _ => .inl, fun _ _ _ => Iff.rfl⟩

theorem Walked.trans (h : Walked q s t) (h' : Walked q t u) : Walked q s u :=
  ⟨h.frame.trans h'.frame, fun p hp => (h'.ends p hp).elim (h.ends p) .inr,
    fun p r hl => (h'.leaves p r hl).trans (h.leaves p r hl)⟩

/-- An internal node on the way. -/
theorem Attached.walked (h : Attached s p r t) (hg : Growing s₀ x s) (hl : r.leaf = false) (hempty : endOf s p = none)
    (hpq : p <+: q) (hne : p ≠ q) : Walked q s t := by
  refine ⟨h.frame, fun p' hp' => ?_, fun p' r' hl' => ?_⟩
  · rw [h.ends] at hp'
    by_cases e : p' = p
    · exact .inr (e ▸ ⟨hpq, hne⟩)
    · exact .inl (by rwa [if_neg e] at hp')
  · by_cases e : p' = p
    · subst e
      refine iff_of_false (fun hf => ?_) fun hf => ?_
      · rw [h.follow_new] at hf
        cases hf
        rw [hl] at hl'
        cases hl'
      · obtain ⟨j, hj, -⟩ := follow_eq_some.1 hf
        rw [hempty] at hj
        cases hj
    · exact h.follow_leaf_iff hg e hl'

/-- The node at the slot, found or created (R207). -/
theorem SlotAt.nodeAt (h : SlotAt s slot p) (hg : Growing s₀ x s) (hd : Distinct s) (hpq : p <+: q) (hne : p ≠ q) :
    ∃ j t, nodeAt slot s = .ok j t ∧ endOf t p = some j ∧ Walked q s t ∧ Distinct t := by
  rw [Machine.nodeAt, h.readSlot, Res.bind_ok]
  cases hp : endOf s p with
  | some j => exact ⟨j, s, rfl, hp, .refl q s, hd⟩
  | none =>
    obtain ⟨t, e, ht⟩ := h.attach (r := innerNode 0 none none) hg hd hp rfl rfl
    exact ⟨_, t, e, ht.endOf_new, ht.walked hg rfl hp hpq hne, ht.distinct hg hd⟩

/-- No leaf stands before the end of the path. -/
def Clear (q : List Bool) (s : State) : Prop := ∀ p r, p <+: q → p ≠ q → follow s p = some r → r.leaf = false

theorem Walked.clear (h : Walked q s t) (hc : Clear q s) : Clear q t := fun p r hp hne hr => by
  cases hl : r.leaf with
  | false => rfl
  | true =>
    have := hc p r hp hne ((h.leaves p r hl).1 hr)
    rw [hl] at this
    cases this

/-- The bits of a code from bit `k` on, bit `k` first (R71). -/
def bitsFrom (c : CodeWord) (k rounds : Nat) : List Bool := (List.range' k rounds).map c.getLsbD

/-- Down a path without a leaf the walk ends at the slot the path leads to (R207). -/
theorem OnPath.walkSlots_runs (h : OnPath s₀ n slot s) (hs : SlotAt s slot p) (hd : Distinct s) {c : CodeWord}
    {entry rounds k : Nat} (hq : q = p ++ bitsFrom c k rounds) (hc : Clear q s) (h1 : 1 ≤ n)
    (hn : n + rounds ≤ Config.nodeCap) :
    ∃ slot' t, Machine.walkSlots c entry rounds k slot s = .ok slot' t ∧ OnPath s₀ (n + rounds) slot' t ∧
      SlotAt t slot' q ∧ Distinct t ∧ Walked q s t := by
  induction rounds generalizing k n slot s p with
  | zero =>
    obtain rfl : q = p := by simpa [bitsFrom] using hq
    exact ⟨slot, s, rfl, h, hs, hd, .refl q s⟩
  | succ rounds ih =>
    have hq' : q = (p ++ [c.getLsbD k]) ++ bitsFrom c (k + 1) rounds := by
      rw [hq, bitsFrom, List.range'_succ, List.map_cons, List.append_assoc]
      rfl
    have hpq : p <+: q := ⟨_, hq.symm⟩
    have hne : p ≠ q := fun e => by simpa [hq'] using congrArg List.length e
    obtain ⟨j, t, e, hj, hw, hdt⟩ := hs.nodeAt h.growing hd hpq hne
    obtain ⟨j', t', e', hjt, hjn, hg⟩ := h.nodeAt h1 (by omega)
    rw [e] at e'
    cases e'
    obtain ⟨r, hr⟩ := hg.read hjt
    have hl : r.leaf = false := hw.clear hc p r hpq hne (follow_eq_some.2 ⟨j, hj, hr⟩)
    have hnext : OnPath s₀ (n + 1) (childSlot (c.getLsbD k) j) t :=
      onPath_child hg hjt hjn hr hl (slotOwner_childSlot _ _)
    obtain ⟨slot', u, eu, hu, hsu, hdu, hwu⟩ :=
      ih hnext (.child (c.getLsbD k) hj hr hl) hdt hq' (hw.clear hc) (k := k + 1) (by omega) (by omega)
    refine ⟨slot', u, ?_, by rwa [Nat.add_assoc, Nat.add_comm 1] at hu, hsu, hdu, hw.trans hwu⟩
    rw [Machine.walkSlots, e, Res.bind_ok, readNode_of_held hr, Res.bind_ok, hl]
    exact eu

/-- A walk is its first `m` bits and then the rest. -/
theorem walkSlots_add (c : CodeWord) (entry m n k : Nat) (slot : Slot) (s : State) :
    walkSlots c entry (m + n) k slot s =
      (walkSlots c entry m k slot s).bind fun slot' t => walkSlots c entry n (k + m) slot' t := by
  induction m generalizing k slot s with
  | zero => simp [walkSlots]
  | succ m ih =>
    rw [show m + 1 + n = (m + n) + 1 by omega, walkSlots, walkSlots, Res.bind_assoc]
    refine congrArg _ (funext fun j => funext fun t => ?_)
    rw [Res.bind_assoc]
    refine congrArg _ (funext fun r => funext fun u => ?_)
    cases r.leaf with
    | true => rfl
    | false =>
      simp only [Bool.false_eq_true, if_false]
      rw [ih, show k + 1 + m = k + (m + 1) by omega]

/-- A walk on from a leaf raises sub-cause 6 (R207). -/
theorem SlotAt.walkSlots_raises (h : SlotAt s slot p) (hr : follow s p = some r) (hl : r.leaf = true) (c : CodeWord)
    (entry rounds k : Nat) :
    walkSlots c entry (rounds + 1) k slot s = .raised (raise .malformedHeader 6 entry s) := by
  obtain ⟨j, hj, hr⟩ := follow_eq_some.1 hr
  have hnode : Machine.nodeAt slot s = .ok j s := by rw [Machine.nodeAt, h.readSlot, Res.bind_ok, hj]
  rw [walkSlots, hnode, Res.bind_ok, readNode_of_held hr, Res.bind_ok, hl]
  rfl

end Sys2Proof.Machine
end
section
/-!
SUPPORT. `insert` on the tree of the entries before (`44_container.md` R207): an entry that fits is one more leaf, and
one that does not raises.
-/
namespace Sys2Proof.Machine

variable {s₀ s : State} {es : List Entry} {d e : Entry} {n : Nat} {r : NodeRec} {p q : List Bool}

/-! ### The tree of the entries -/

/-- The tree holds a leaf at the end of each entry's path, and nothing but the ways there. -/
structure Rebuilt (es : List Entry) (s : State) : Prop where
  leaf : ∀ e ∈ es, follow s e.bits = some (leafNode e.symbol 0)
  ends : ∀ p, endOf s p ≠ none → ∃ e ∈ es, p <+: e.bits
  distinct : Distinct s

theorem rebuilt_nil (h : s.root = none) : Rebuilt [] s := by
  have none_ends : ∀ p, endOf s p = none := fun p => by rw [endOf, h]
  refine ⟨nofun, fun p hp => absurd (none_ends p) hp, fun p q j hp => ?_⟩
  rw [none_ends] at hp
  cases hp

theorem Rebuilt.endOf_bits (h : Rebuilt es s) (he : e ∈ es) : endOf s e.bits ≠ none := by
  obtain ⟨j, hj, -⟩ := follow_eq_some.1 (h.leaf e he)
  rw [hj]
  exact Option.some_ne_none j

/-- A leaf is the end of an entry's path. -/
theorem Rebuilt.bits_of_leaf (h : Rebuilt es s) (hr : follow s p = some r) (hl : r.leaf = true) :
    ∃ e ∈ es, e.bits = p := by
  obtain ⟨j, hj, -⟩ := follow_eq_some.1 hr
  obtain ⟨e, he, hp⟩ := h.ends p (by rw [hj]; exact Option.some_ne_none j)
  exact ⟨e, he, (eq_of_prefix_of_leaf (h.endOf_bits he) hp hr hl).symm⟩

/-- Before the end of an entry's path there is no leaf. -/
theorem Rebuilt.clear_of_prefix (h : Rebuilt es s) (hd : d ∈ es) (hq : q <+: d.bits) : Clear q s := by
  intro p r hp hne hr
  cases hl : r.leaf with
  | false => rfl
  | true => exact absurd (eq_of_prefix_of_leaf (endOf_ne_none_of_prefix (h.endOf_bits hd) hq) hp hr hl) hne

/-- On a path that begins with no entry's path there is no leaf. -/
theorem Rebuilt.clear_of_apart (h : Rebuilt es s) (ha : ∀ d ∈ es, Apart d.bits q) : Clear q s := by
  intro p r hp _ hr
  cases hl : r.leaf with
  | false => rfl
  | true =>
    obtain ⟨d, hd, rfl⟩ := h.bits_of_leaf hr hl
    exact absurd hp (ha d hd).1

theorem Rebuilt.endOf_of_apart (h : Rebuilt es s) (ha : ∀ d ∈ es, Apart d.bits q) : endOf s q = none := by
  refine Classical.byContradiction fun hq => ?_
  obtain ⟨d, hd, hp⟩ := h.ends q hq
  exact (ha d hd).2 hp

/-! ### `insert` -/

theorem Entry.bits_eq_bitsFrom (e : Entry) : e.bits = bitsFrom e.code 0 e.length.toNat := by
  rw [bits, bitsFrom, List.range_eq_range']

@[simp] theorem Entry.length_bits (e : Entry) : e.bits.length = e.length.toNat := by simp [bits]

/-- The walk of an entry, or of its first bits, down a path without a leaf. -/
theorem Grown.walkSlots_runs (h : Grown s₀ n s) (hd : Distinct s) {rounds : Nat} (hq : q = bitsFrom e.code 0 rounds)
    (hc : Clear q s) (h1 : 1 ≤ n) (hn : n + rounds ≤ Config.nodeCap) (i : Nat) :
    ∃ slot t, walkSlots e.code i rounds 0 .root s = .ok slot t ∧ OnPath s₀ (n + rounds) slot t ∧
      SlotAt t slot q ∧ Distinct t ∧ Walked q s t :=
  h.onPath.walkSlots_runs .root hd hq hc h1 hn

/-- An entry whose path collides with no other is inserted (R207). -/
theorem Rebuilt.insertLeaf (h : Rebuilt es s) (hg : Grown s₀ n s) (ha : ∀ d ∈ es, Apart d.bits e.bits)
    (h1 : 1 ≤ n) (hn : n + e.length.toNat ≤ Config.nodeCap) (i : Nat) :
    ∃ t, Machine.insertLeaf e.symbol e.code e.length.toNat i s = .ok () t ∧ TreeOnly s t ∧
      Rebuilt (es ++ [e]) t := by
  obtain ⟨slot, t, ew, hon, hs, hdt, hw⟩ :=
    hg.walkSlots_runs h.distinct e.bits_eq_bitsFrom (h.clear_of_apart ha) h1 hn i
  have hempty : endOf t e.bits = none := by
    refine Classical.byContradiction fun hne => ?_
    rcases hw.ends _ hne with hs | ⟨-, hs⟩
    · exact hs (h.endOf_of_apart ha)
    · exact hs rfl
  obtain ⟨u, eu, hu⟩ := hs.attach (r := leafNode e.symbol 0) hon.growing hdt hempty rfl rfl
  refine ⟨u, ?_, hw.frame.trans hu.frame, fun d hd => ?_, fun p hp => ?_, hu.distinct hon.growing hdt⟩
  · rw [Machine.insertLeaf, ew, Res.bind_ok, hs.readSlot, Res.bind_ok, hempty]
    simp only [eu, Res.bind_ok]
  · rcases List.mem_append.1 hd with hd | hd
    · have hne : d.bits ≠ e.bits := fun heq => (ha d hd).1 (heq ▸ List.prefix_rfl)
      exact (hu.follow_leaf_iff hon.growing hne rfl).2 ((hw.leaves _ _ rfl).2 (h.leaf d hd))
    · rw [List.mem_singleton.1 hd]
      exact hu.follow_new
  · by_cases hpe : p = e.bits
    · exact ⟨e, by simp, hpe ▸ List.prefix_rfl⟩
    · rw [hu.ends, if_neg hpe] at hp
      rcases hw.ends p hp with hp | ⟨hp, -⟩
      · obtain ⟨d, hd, hpd⟩ := h.ends p hp
        exact ⟨d, List.mem_append_left _ hd, hpd⟩
      · exact ⟨e, by simp, hp⟩

/-- An entry whose path runs through an earlier entry's leaf (R207, sub-cause 6). -/
theorem Rebuilt.insertLeaf_through (h : Rebuilt es s) (hg : Grown s₀ n s) (hd : d ∈ es) (hp : d.bits <+: e.bits)
    (hne : d.bits ≠ e.bits) (h1 : 1 ≤ n) (hn : n + e.length.toNat ≤ Config.nodeCap) (i : Nat) :
    ∃ t, Machine.insertLeaf e.symbol e.code e.length.toNat i s = .raised (raise .malformedHeader 6 i t) ∧
      TreeOnly s t := by
  have hlt : d.bits.length < e.bits.length :=
    Nat.lt_of_le_of_ne hp.length_le fun hl => hne (hp.eq_of_length hl)
  rw [Entry.length_bits e] at hlt
  obtain ⟨k, hk⟩ : ∃ k, e.length.toNat = d.bits.length + (k + 1) :=
    ⟨e.length.toNat - d.bits.length - 1, by omega⟩
  have hq : d.bits = bitsFrom e.code 0 d.bits.length := by
    conv => lhs; rw [List.prefix_iff_eq_take.1 hp, e.bits_eq_bitsFrom, hk]
    simp [bitsFrom, ← List.map_take]
  obtain ⟨slot, t, ew, -, hs, -, hw⟩ :=
    hg.walkSlots_runs h.distinct hq (h.clear_of_prefix hd List.prefix_rfl) h1 (by omega) i
  have hleaf : follow t d.bits = some (leafNode d.symbol 0) := (hw.leaves _ _ rfl).2 (h.leaf d hd)
  refine ⟨t, ?_, hw.frame⟩
  rw [Machine.insertLeaf, hk, walkSlots_add, ew, Res.bind_ok, hs.walkSlots_raises hleaf rfl, Res.bind_raised]

/-- An entry whose path ends where there is a node (R207, sub-cause 7). -/
theorem Rebuilt.insertLeaf_occupied (h : Rebuilt es s) (hg : Grown s₀ n s) (hd : d ∈ es) (hp : e.bits <+: d.bits)
    (h1 : 1 ≤ n) (hn : n + e.length.toNat ≤ Config.nodeCap) (i : Nat) :
    ∃ t, Machine.insertLeaf e.symbol e.code e.length.toNat i s = .raised (raise .malformedHeader 7 i t) ∧
      TreeOnly s t := by
  obtain ⟨slot, t, ew, -, hs, -, hw⟩ :=
    hg.walkSlots_runs h.distinct e.bits_eq_bitsFrom (h.clear_of_prefix hd hp) h1 hn i
  have hleaf : follow t d.bits = some (leafNode d.symbol 0) := (hw.leaves _ _ rfl).2 (h.leaf d hd)
  obtain ⟨c, hc, -⟩ := follow_eq_some.1 hleaf
  obtain ⟨j, hj⟩ := Option.ne_none_iff_exists'.1
    (endOf_ne_none_of_prefix (by rw [hc]; exact Option.some_ne_none c) hp)
  refine ⟨t, ?_, hw.frame⟩
  rw [Machine.insertLeaf, ew, Res.bind_ok, hs.readSlot, Res.bind_ok, hj]
  rfl

end Sys2Proof.Machine
end
section
/-!
SUPPORT. The header `RHDR` reads (`44_container.md` R206, `30_encoding.md` R100): the bytes of a file in IN, the entries
one after the other, the counts before them.
-/
namespace Sys2Proof.Machine

variable {s₀ s t u : State} {es : List Entry} {e : Entry} {n a i cnt olen : Nat} {bs cs file : List Byte} {b : Byte}
  {sub : BitVec 8}

/-! ### Bytes in IN -/

/-- These bytes stand in IN from address `a` on, below `LEN`. -/
def StandsAt (bs : List Byte) (a : Nat) (s : State) : Prop :=
  a + bs.length ≤ s.len.toNat ∧ ∀ j, j < bs.length → Store.read s.input (a + j) = bs[j]?

theorem StandsAt.left (h : StandsAt (bs ++ cs) a s) : StandsAt bs a s := by
  obtain ⟨hl, hr⟩ := h
  rw [List.length_append] at hl
  refine ⟨by omega, fun j hj => ?_⟩
  rw [hr j (by rw [List.length_append]; omega), List.getElem?_append_left hj]

theorem StandsAt.right (h : StandsAt (bs ++ cs) a s) : StandsAt cs (a + bs.length) s := by
  obtain ⟨hl, hr⟩ := h
  rw [List.length_append] at hl
  refine ⟨by omega, fun j hj => ?_⟩
  rw [Nat.add_assoc, hr _ (by rw [List.length_append]; omega), List.getElem?_append_right (Nat.le_add_right _ _),
    Nat.add_sub_cancel_left]

theorem StandsAt.tail (h : StandsAt (b :: bs) a s) : StandsAt bs (a + 1) s := h.right (bs := [b])

theorem StandsAt.inByte (h : StandsAt (b :: bs) a s) (hn : NoFail s) : inByte a s = .ok b (popAnswer s) := by
  obtain ⟨hl, hr⟩ := h
  rw [List.length_cons] at hl
  exact inByte_reads (by omega) hn (by simpa using hr 0 (by simp))

/-- `n` accesses have been answered. -/
def dropAnswers (n : Nat) (s : State) : State := { s with oracle := s.oracle.drop n }

theorem noFail_dropAnswers (hn : NoFail s) (n : Nat) : NoFail (dropAnswers n s) := fun h => hn (List.mem_of_mem_drop h)

theorem dropAnswers_dropAnswers (m n : Nat) (s : State) : dropAnswers n (dropAnswers m s) = dropAnswers (m + n) s := by
  simp [dropAnswers]

theorem popAnswer_eq_dropAnswers (s : State) : popAnswer s = dropAnswers 1 s := by simp [popAnswer, dropAnswers]

/-- `InLE` gives the number whose bytes stand there (R68). -/
theorem StandsAt.inLE {v : Nat} (h : StandsAt (leBytes v n) a s) (hn : NoFail s) (hv : v < 256 ^ n) :
    inLE a n s = .ok v (dropAnswers n s) := by
  obtain ⟨hl, hr⟩ := h
  have := inLE_reads hn hl hr
  rwa [leValue_leBytes, Nat.mod_eq_of_lt hv, length_leBytes] at this

/-- The bytes of an entry among those of the entries. -/
theorem StandsAt.entry (h : StandsAt (es.flatMap Entry.bytes) a s) (hi : i < es.length) :
    StandsAt es[i].bytes (a + 10 * i) s := by
  rw [← List.take_append_drop i es, List.drop_eq_getElem_cons hi, List.flatMap_append, List.flatMap_cons] at h
  have := h.right.left
  rwa [length_flatMap_bytes, List.length_take_of_le (Nat.le_of_lt hi)] at this

/-! ### The entries -/

/-- A round of `RHDR` reads an entry, and inserts it where its length is at most 64 (R206). -/
theorem readEntry_reads (h : StandsAt e.bytes (6 + 10 * i) s) (hn : NoFail s) :
    readEntry i s = if e.length.toNat > 64 then .raised (raise .malformedHeader 5 i (dropAnswers 10 s))
      else insertLeaf e.symbol e.code e.length.toNat i (dropAnswers 10 s) := by
  have hn' := noFail_popAnswer hn
  have hcode : StandsAt (leBytes e.code.toNat 8) (6 + 10 * i + 2) (popAnswer (popAnswer s)) := h.tail.tail
  have hdrop : dropAnswers 8 (popAnswer (popAnswer s)) = dropAnswers 10 s := by
    simp only [popAnswer_eq_dropAnswers, dropAnswers_dropAnswers]
  simp only [readEntry, Config.hdrFixedBytes, Config.hdrCountBytes, Config.hdrLenBytes, Config.hdrEntryBytes,
    Config.hdrCodeBytes, Config.codeW, throwErr]
  rw [h.inByte hn, Res.bind_ok, StandsAt.inByte (s := popAnswer s) h.tail hn', Res.bind_ok,
    hcode.inLE (noFail_popAnswer hn') e.code.isLt, Res.bind_ok, hdrop, BitVec.ofNat_toNat, BitVec.setWidth_eq]
  rfl

theorem Rebuilt.dropAnswers (h : Rebuilt es s) (k : Nat) : Rebuilt es (dropAnswers k s) :=
  ⟨h.leaf, h.ends, h.distinct⟩

theorem Grown.dropAnswers (h : Grown s₀ n s) (k : Nat) : Grown s₀ n (dropAnswers k s) :=
  ⟨⟨h.1.root, h.1.nodes, h.1.input, h.1.len, h.1.origLen⟩, h.2⟩

/-- A round of `RHDR` on an entry that collides with no earlier one (R206, R207). -/
theorem Rebuilt.readEntry (h : Rebuilt es s) (hg : Grown s₀ (64 * i + 1) s) (hi : i < 256)
    (hb : StandsAt e.bytes (6 + 10 * i) s) (hn : NoFail s) (hl : e.length.toNat ≤ 64)
    (ha : ∀ d ∈ es, Apart d.bits e.bits) :
    ∃ t, Machine.readEntry i s = .ok () t ∧ TreeOnly (Machine.dropAnswers 10 s) t ∧ Rebuilt (es ++ [e]) t ∧
      Grown s₀ (64 * (i + 1) + 1) t := by
  have hroom : 64 * i + 1 + e.length.toNat ≤ Config.nodeCap := by simp only [Config.nodeCap]; omega
  obtain ⟨t, et, ht, hr⟩ := (h.dropAnswers 10).insertLeaf (hg.dropAnswers 10) ha (by omega) hroom i
  obtain ⟨⟨hgt, hcount⟩, -⟩ :=
    ((hg.dropAnswers 10).insertLeaf (F := fun _ => True) e.symbol e.code i (by omega) hroom).of_ok et
  exact ⟨t, by rw [readEntry_reads hb hn, if_neg (Nat.not_lt.2 hl), et], ht, hr, hgt, by omega⟩

/-- What is wrong with an entry after these, and the sub-cause of it (R206, R207). -/
def BadEntry (es : List Entry) (e : Entry) (sub : BitVec 8) : Prop :=
  (64 < e.length.toNat ∧ sub = 5) ∨
    (e.length.toNat ≤ 64 ∧ sub = 6 ∧ ∃ d, d ∈ es ∧ d.bits <+: e.bits ∧ d.bits ≠ e.bits) ∨
    (e.length.toNat ≤ 64 ∧ sub = 7 ∧ ∃ d, d ∈ es ∧ e.bits <+: d.bits)

/-- A round of `RHDR` on a bad entry (R206, R207). -/
theorem Rebuilt.readEntry_rejects (h : Rebuilt es s) (hg : Grown s₀ (64 * i + 1) s) (hi : i < 256)
    (hb : StandsAt e.bytes (6 + 10 * i) s) (hn : NoFail s) (hbad : BadEntry es e sub) :
    ∃ t, Machine.readEntry i s = .raised (raise .malformedHeader sub i t) ∧ t.out = s.out := by
  rw [readEntry_reads hb hn]
  rcases hbad with ⟨hl, rfl⟩ | ⟨hl, rfl, d, hd, hp, hne⟩ | ⟨hl, rfl, d, hd, hp⟩
  · exact ⟨_, if_pos hl, rfl⟩
  · rw [if_neg (Nat.not_lt.2 hl)]
    obtain ⟨t, et, ht⟩ := (h.dropAnswers 10).insertLeaf_through (hg.dropAnswers 10) hd hp hne (by omega)
      (by simp only [Config.nodeCap]; omega) i
    exact ⟨t, et, (congrArg State.out ht :)⟩
  · rw [if_neg (Nat.not_lt.2 hl)]
    obtain ⟨t, et, ht⟩ := (h.dropAnswers 10).insertLeaf_occupied (hg.dropAnswers 10) hd hp (by omega)
      (by simp only [Config.nodeCap]; omega) i
    exact ⟨t, et, (congrArg State.out ht :)⟩

theorem apart_of_mem_take (ha : Acceptable es) (hi : i < es.length) : ∀ d ∈ es.take i, Apart d.bits es[i].bits := by
  obtain ⟨-, -, hp⟩ := ha
  have hp := hp.sublist (List.take_sublist (i + 1) es)
  rw [← List.take_append_getElem hi, List.pairwise_append] at hp
  exact fun d hd => hp.2.2 d hd _ (by simp)

theorem TreeOnly.standsAt (h : TreeOnly s t) (hb : StandsAt bs a s) : StandsAt bs a t := by
  have hlen : t.len = s.len := (congrArg State.len h :)
  have hin : t.input = s.input := (congrArg State.input h :)
  rwa [StandsAt, hlen, hin]

theorem TreeOnly.noFail (h : TreeOnly s t) (hn : NoFail s) : NoFail t := by
  have ho : t.oracle = s.oracle := (congrArg State.oracle h :)
  rwa [NoFail, ho]

/-- The loop of `RHDR` over entries it accepts (R206, R207). -/
theorem forUp_readEntry_rebuilds (hr : s.root = none) (hg : Grown s 1 s) (hn : NoFail s)
    (hb : StandsAt (es.flatMap Entry.bytes) 6 s) (ha : Acceptable es) :
    ∃ t, forUp readEntry es.length 0 s = .ok () t ∧ TreeOnly (dropAnswers (10 * es.length) s) t ∧ Rebuilt es t ∧
      Grown s (64 * es.length + 1) t := by
  have loop := forUp_runs (body := readEntry) (n := es.length) (i := 0) (s := s)
    (I := fun i t => TreeOnly (dropAnswers (10 * i) s) t ∧ Rebuilt (es.take i) t ∧ Grown s (64 * i + 1) t)
    ⟨.refl s, rebuilt_nil hr, hg⟩ ?round
  case round =>
    intro i t _ hi ⟨ht, hrt, hgt⟩
    rw [Nat.zero_add] at hi
    obtain ⟨hlen, hl, -⟩ := id ha
    have hbt : StandsAt es[i].bytes (6 + 10 * i) t := ht.standsAt (hb.entry hi)
    obtain ⟨u, eu, hu, hru, hgu⟩ := hrt.readEntry hgt (by omega) hbt (ht.noFail (noFail_dropAnswers hn _))
      (hl _ (List.getElem_mem hi)) (apart_of_mem_take ha hi)
    rw [List.take_append_getElem] at hru
    have hdrop : TreeOnly (dropAnswers (10 * (i + 1)) s) (dropAnswers 10 t) := by
      rw [Nat.mul_succ, ← dropAnswers_dropAnswers]
      exact (congrArg (dropAnswers 10) ht :)
    exact ⟨u, eu, hdrop.trans hu, hru, hgu⟩
  simpa using loop

/-! ### The counts -/

/-- `RHDR` before its first read (R206). -/
def headerStart (s : State) : State := { runInit s with nsym := 0, origLen := 0 }

/-- The counts of the header in the registers (R206). -/
def withCounts (cnt olen : Nat) (s : State) : State :=
  { s with nsym := BitVec.ofNat 9 cnt, origLen := BitVec.ofNat 32 olen, empty := emptyFlag cnt }

/-- `RHDR` before the first entry (R206). -/
def entriesStart (cnt olen : Nat) (s : State) : State := withCounts cnt olen (dropAnswers 6 (headerStart s))

theorem standsAt_of_presents (h : Presents file s) : StandsAt file 0 (headerStart s) :=
  ⟨by rw [Nat.zero_add]; exact Nat.le_of_eq h.1.symm, fun j hj => by rw [Nat.zero_add]; exact h.2 j hj⟩

/-- A file too short for the counts (R206, sub-cause 1). -/
theorem readHeader_of_short (h : s.len.toNat < 6) :
    readHeader s = .raised (raise .malformedHeader 1 s.len.toNat s) :=
  if_pos h

theorem readHeader_of_long (h : 6 ≤ s.len.toNat) :
    readHeader s = (inLE 0 2 s).bind fun cnt t => (inLE 2 4 t).bind fun olen u => readEntries cnt olen u :=
  if_neg (Nat.not_lt.2 h)

/-- `RHDR` reads the counts (R206). -/
theorem rhdrBody_reads_counts {rest : List Byte} (hn : NoFail s)
    (hp : Presents (leBytes cnt 2 ++ leBytes olen 4 ++ rest) s) (hc : cnt < 2 ^ 16) (ho : olen < 2 ^ 32) :
    rhdrBody s = readEntries cnt olen (dropAnswers 6 (headerStart s)) := by
  have hb := (standsAt_of_presents hp).left
  have hcnt : inLE 0 2 (headerStart s) = .ok cnt (dropAnswers 2 (headerStart s)) := hb.left.inLE hn hc
  have hb' : StandsAt (leBytes olen 4) 2 (dropAnswers 2 (headerStart s)) := by
    have := hb.right
    rwa [length_leBytes, Nat.zero_add] at this
  calc rhdrBody s = readHeader (headerStart s) := rfl
    _ = (inLE 2 4 (dropAnswers 2 (headerStart s))).bind fun olen u => readEntries cnt olen u := by
      rw [readHeader_of_long (by simpa using hb.1), hcnt, Res.bind_ok]
    _ = readEntries cnt olen (dropAnswers 6 (headerStart s)) := by
      rw [hb'.inLE (noFail_dropAnswers hn 2) ho, Res.bind_ok, dropAnswers_dropAnswers]

/-- The counts that do not fit, in the order of their checks (R206, sub-causes 2, 3, 4). -/
theorem readEntries_rejects (h : 256 < cnt ∨ s.len.toNat < 6 + 10 * cnt ∨ (cnt = 0 ∧ olen ≠ 0)) :
    readEntries cnt olen s = .raised (raise .malformedHeader
      (if 256 < cnt then 2 else if s.len.toNat < 6 + 10 * cnt then 3 else 4)
      (if 256 < cnt ∨ s.len.toNat < 6 + 10 * cnt then cnt else olen) s) := by
  by_cases hmany : 256 < cnt
  · rw [if_pos hmany, if_pos (.inl hmany)]
    exact if_pos hmany
  · rw [if_neg hmany]
    by_cases hpast : s.len.toNat < 6 + 10 * cnt
    · rw [if_pos hpast, if_pos (.inr hpast)]
      exact (if_neg hmany).trans (if_pos hpast)
    · rw [if_neg hpast, if_neg (not_or.2 ⟨hmany, hpast⟩)]
      exact (if_neg hmany).trans ((if_neg hpast).trans (if_pos ((h.resolve_left hmany).resolve_left hpast)))

/-- Counts that fit are kept, and the entries are read (R206). -/
theorem readEntries_of_fits (hc : cnt ≤ 256) (hl : 6 + 10 * cnt ≤ s.len.toNat) (h0 : cnt = 0 → olen = 0) :
    readEntries cnt olen s = (forUp readEntry cnt 0 (withCounts cnt olen s)).bind fun _ t =>
      finish .hdrr { t with rpos := BitVec.ofNat 32 (6 + 10 * cnt) } :=
  (if_neg (Nat.not_lt.2 hc)).trans ((if_neg (Nat.not_lt.2 hl)).trans (if_neg fun h => h.2 (h0 h.1)))

/-- `RHDR` on a file that starts with these entries is the loop over them (R206, R100). -/
theorem rhdrBody_eq_forUp {tail : List Byte} (hn : NoFail s) (hp : Presents (headerOf es olen ++ tail) s)
    (hc : es.length ≤ 256) (ho : olen < 2 ^ 32) (h0 : es = [] → olen = 0) :
    StandsAt (es.flatMap Entry.bytes) 6 (dropAnswers 6 (headerStart s)) ∧
      rhdrBody s = (forUp readEntry es.length 0 (entriesStart es.length olen s)).bind fun _ t =>
        finish .hdrr { t with rpos := BitVec.ofNat 32 (6 + 10 * es.length) } := by
  have hb : StandsAt (headerOf es olen) 0 (headerStart s) := (standsAt_of_presents hp).left
  have hl : 6 + 10 * es.length ≤ (headerStart s).len.toNat := by simpa using hb.1
  rw [headerOf, List.append_assoc] at hp
  refine ⟨hb.right, ?_⟩
  rw [rhdrBody_reads_counts hn hp (by omega) ho]
  exact readEntries_of_fits hc hl fun h => h0 (List.length_eq_zero_iff.1 h)

/-! ### The obligations -/

theorem grown_entriesStart (s : State) (cnt olen : Nat) :
    Grown (entriesStart cnt olen s) 1 (entriesStart cnt olen s) :=
  grown_of_unplanted (s₀ := s) (s := dropAnswers 6 (headerStart s)) ⟨rfl, rfl, rfl, rfl⟩ 1 _ _ _

/-- The root is node 0 where there is an entry (R209). -/
theorem Rebuilt.root_eq (h : Rebuilt es s) (hg : Grown s₀ n s) : s.root = if es.isEmpty then none else some 0 := by
  obtain ⟨hg, -⟩ := hg
  cases es with
  | nil =>
    refine Classical.byContradiction fun hr => ?_
    obtain ⟨e, he, -⟩ := h.ends [] (by rwa [endOf_nil])
    cases he
  | cons e es =>
    refine hg.root_eq fun hz => ?_
    have hr := endOf_ne_none_of_prefix (h.endOf_bits (e := e) (by simp)) (List.nil_prefix)
    rw [endOf_nil, hg.root, if_pos hz] at hr
    exact hr rfl

theorem exec_rhdr (hp : s.phase ∈ [Phase.idle, .doneC, .doneD]) : exec .rhdr s = (rhdrBody s).toOutcome :=
  exec_of_legalIn (i := .rhdr) (by decide) (startsRun_of_mem hp)

/-- Settles O37: every entry is inserted into the tree of the entries before it. -/
theorem rhdrRebuildsTree : Obligations.RhdrRebuildsTree := by
  intro s es olen tail hp hn hin ha ho h0
  obtain ⟨hb, e⟩ := rhdrBody_eq_forUp hn hin ha.1 ho h0
  obtain ⟨t, et, ht, hr, hg⟩ := forUp_readEntry_rebuilds (s := entriesStart es.length olen s) rfl
    (grown_entriesStart s _ _) (noFail_dropAnswers hn 6) hb ha
  have hstart : dropAnswers (10 * es.length) (entriesStart es.length olen s) =
      withCounts es.length olen (dropAnswers (6 + 10 * es.length) (headerStart s)) :=
    congrArg (withCounts es.length olen) (dropAnswers_dropAnswers 6 _ _)
  have hempty : emptyFlag es.length = es.isEmpty := by cases es <;> rfl
  rw [hstart, TreeOnly, hr.root_eq hg, withCounts, hempty] at ht
  refine ⟨setPhase .hdrr { t with rpos := BitVec.ofNat 32 (6 + 10 * es.length) }, ?_, ?_, ?_, hr.leaf,
    fun p r => hr.bits_of_leaf⟩
  · rw [exec_rhdr hp, e, et]
    rfl
  · exact (congrArg (fun u : State => setPhase .hdrr { u with rpos := BitVec.ofNat 32 (6 + 10 * es.length) }) ht :)
  · have hcount : t.nnode.toNat ≤ 64 * es.length + 1 := hg.2
    have hlen := ha.1
    show t.nnode.toNat ≤ 16385
    omega

theorem toNat_ofNat_errinfo {n : Nat} (h : n < 2 ^ 32) : (BitVec.ofNat 32 n).toNat = n := by
  rw [BitVec.toNat_ofNat, Nat.mod_eq_of_lt h]

/-- Settles O38: the checks are made in their order, before the first entry is read. -/
theorem rhdrChecksCounts : Obligations.RhdrChecksCounts := by
  intro s file hp hn hin
  have hfile : file.length < 2 ^ 32 := hin.1 ▸ s.inLen.isLt
  rw [exec_rhdr hp]
  refine ⟨fun hshort => ?_, fun cnt olen rest hc ho hf hbad => ?_⟩
  · have hlen : (headerStart s).len.toNat = file.length := hin.1
    have e : rhdrBody s = .raised (raise .malformedHeader 1 file.length (headerStart s)) := by
      rw [← hlen] at hshort ⊢
      exact readHeader_of_short hshort
    rw [e]
    exact ⟨_, rfl, rfl, rfl, rfl, toNat_ofNat_errinfo hfile, rfl, rfl⟩
  · have hlen : (dropAnswers 6 (headerStart s)).len.toNat = file.length := hin.1
    have e := rhdrBody_reads_counts (rest := rest) hn (hf ▸ hin) hc ho
    rw [← hlen] at hbad ⊢
    rw [e, readEntries_rejects hbad]
    exact ⟨_, rfl, rfl, rfl, rfl, rfl, toNat_ofNat_errinfo (by split <;> omega)⟩

theorem forUp_raises {body : Nat → State → Res Unit} {m i : Nat} (n : Nat) (h : forUp body m i s = .ok () t)
    (hr : body (i + m) t = .raised u) : forUp body (m + (n + 1)) i s = .raised u := by
  rw [forUp_add, h, Res.bind_ok, forUp_succ, hr, Res.bind_raised]

/-- Settles O39: the entries before the bad one are inserted, and the raise ends the command. -/
theorem rhdrRejectsBadEntry : Obligations.RhdrRejectsBadEntry := by
  intro s es more e olen tail hp hn ho ha hc hin sub hbad
  obtain ⟨hb, eq⟩ := rhdrBody_eq_forUp hn hin hc ho (by simp)
  have hcount : (es ++ e :: more).length = es.length + (more.length + 1) := List.length_append
  have hlen : es.length < 256 := by omega
  rw [List.flatMap_append, List.flatMap_cons] at hb
  obtain ⟨t, et, ht, hr, hg⟩ := forUp_readEntry_rebuilds (s := entriesStart _ olen s) rfl
    (grown_entriesStart s (es ++ e :: more).length _) (noFail_dropAnswers hn 6) hb.left ha
  have hbe : StandsAt e.bytes (6 + 10 * es.length) t := by
    have := hb.right.left
    rw [length_flatMap_bytes] at this
    exact ht.standsAt this
  have hnt : NoFail t := ht.noFail (noFail_dropAnswers (noFail_dropAnswers hn 6) _)
  obtain ⟨u, eu, hu⟩ := hr.readEntry_rejects hg hlen hbe hnt hbad
  have hout : t.out = [] := (congrArg State.out ht :)
  have loop := forUp_raises more.length et (by rwa [Nat.zero_add])
  rw [← hcount] at loop
  rw [exec_rhdr hp, eq, loop]
  exact ⟨_, rfl, rfl, rfl, rfl, toNat_ofNat_errinfo (by omega), hu.trans hout⟩

end Sys2Proof.Machine
end

section
/-!
SUPPORT. The bits of a word, oldest first, and the bit-stream writer: `put_bits`, `ENC`, `FLUSH` (`45_bitstream.md`
R230, R232, R233).
-/
namespace Sys2Proof.Machine

variable {s t : State} {bytes : List Byte} {rs : List SymRec} {bits : List Bool} {k : Nat} {b : Byte} {r : SymRec}

/-! ### The low bits of a word -/

/-- The low `n` bits of a word, bit 0 first (`20_memory.md` R71). -/
def lowBits {w : Nat} (x : BitVec w) (n : Nat) : List Bool := (List.range n).map fun k => x.getLsbD k

theorem byteBits_eq_lowBits (b : Byte) : byteBits b = lowBits b 8 := rfl

theorem codeBits_eq_lowBits (r : SymRec) : codeBits r = lowBits r.code r.codeLength.toNat := rfl

theorem accBits_eq_lowBits (s : State) : accBits s = lowBits s.acc s.accn.toNat := rfl

/-- Above the bits a word holds there are zeros. -/
theorem lowBits_add {w n : Nat} {x : BitVec w} (hx : x.toNat < 2 ^ n) (k : Nat) :
    lowBits x (n + k) = lowBits x n ++ List.replicate k false := by
  rw [lowBits, List.range_add, List.map_append, List.map_map]
  refine congrArg _ (List.eq_replicate_iff.2 ⟨by simp, ?_⟩)
  simp only [List.mem_map, List.mem_range, Function.comp_apply, forall_exists_index, and_imp]
  rintro _ j - rfl
  exact Nat.testBit_lt_two_pow (Nat.lt_of_lt_of_le hx (Nat.pow_le_pow_right (by decide) (Nat.le_add_right n j)))

/-- A bit placed above the bits a word holds (R230, `43_code_table.md` R181). -/
theorem lowBits_place {w n : Nat} {x : BitVec w} (hx : x.toNat < 2 ^ n) (hn : n < w) (b : Bool) :
    lowBits (x + if b then BitVec.twoPow w n else 0) (n + 1) = lowBits x n ++ [b] := by
  cases b with
  | false => simpa using lowBits_add hx 1
  | true =>
    have hclear : x.getLsbD n = false := Nat.testBit_lt_two_pow hx
    have hor : x + BitVec.twoPow w n = x ||| BitVec.twoPow w n :=
      BitVec.add_eq_or_of_and_eq_zero _ _ (by rw [BitVec.and_twoPow, hclear]; rfl)
    rw [if_pos rfl, hor, lowBits, List.range_succ, List.map_append]
    congr 1
    · refine List.map_congr_left fun k hk => ?_
      have hkn : n ≠ k := Nat.ne_of_gt (List.mem_range.1 hk)
      simp [hkn]
    · simp [hn]

/-! ### `FLUSH` -/

/-- The byte `FLUSH` writes: the bits held, padded with zeros (R233). -/
theorem byteBits_acc (h : AccHeld s) :
    byteBits s.acc = accBits s ++ List.replicate (8 - s.accn.toNat) false := by
  obtain ⟨hn, ha⟩ := h
  rw [byteBits_eq_lowBits, accBits_eq_lowBits, ← lowBits_add ha, Nat.add_sub_of_le (by omega)]

theorem exec_flush (hp : s.phase = .encoded) : exec .flush s = (flushBody s).toOutcome :=
  exec_of_legalIn (i := .flush) (by decide) (by rw [hp]; rfl)

theorem flushBody_of_empty (h : s.accn = 0) : flushBody s = .ok () (setPhase .doneC s) := by
  rw [flushBody, h]
  rfl

theorem flushBody_of_held (h : s.accn ≠ 0) :
    flushBody s = (outByte s.acc s).bind fun _ t => finish .doneC (clearAcc t) :=
  if_pos (Nat.pos_of_ne_zero fun h0 => h (BitVec.eq_of_toNat_eq h0))

/-- Settles O42: the accumulator is empty, or its byte is written, or the write fails. -/
theorem flushWritesPartialByte : Obligations.FlushWritesPartialByte := by
  intro s hp
  rw [exec_flush hp]
  refine ⟨fun h0 => ?_, fun h0 hnf ha => ⟨s.acc, ?_, byteBits_acc (ha (by rw [hp]; decide))⟩, fun rest h0 ho => ?_⟩
  · rw [flushBody_of_empty h0]
    rfl
  · rw [flushBody_of_held h0, outByte_writes hnf, List.drop_one]
    rfl
  · have hinfo : BitVec.ofNat 32 (s.opos.toNat % 2 ^ 32) = s.opos.extractLsb' 0 32 := BitVec.eq_of_toNat_eq (by simp)
    rw [flushBody_of_held h0, outByte_fails ho, Res.bind_raised, Res.toOutcome_raised, afterFailedWrite, raise, hinfo]

/-! ### The bits encoded -/

/-- From `s` the block has read `k` bytes and encoded `bits`: whole bytes are in OUT, the rest is in the accumulator. -/
def Encoded (s : State) (k : Nat) (bits : List Bool) (t : State) : Prop :=
  AccHeld t ∧ ∃ new, new.flatMap byteBits ++ accBits t = accBits s ++ bits ∧
    t = { s with out := s.out ++ new, opos := s.opos + BitVec.ofNat 40 new.length, acc := t.acc, accn := t.accn,
                 oracle := s.oracle.drop (k + new.length) }

theorem Encoded.refl (h : AccHeld s) : Encoded s 0 [] s := by
  refine ⟨h, [], by simp, ?_⟩
  simp

theorem Encoded.noFail (h : Encoded s k bits t) (hn : NoFail s) : NoFail t := by
  obtain ⟨-, new, -, ht⟩ := h
  have ho : t.oracle = s.oracle.drop (k + new.length) := (congrArg State.oracle ht :)
  rw [NoFail, ho]
  exact fun hm => hn (List.mem_of_mem_drop hm)

theorem Encoded.popAnswer (h : Encoded s k bits t) : Encoded s (k + 1) bits (popAnswer t) := by
  obtain ⟨ha, new, hb, ht⟩ := h
  refine ⟨ha, new, hb, ?_⟩
  rw [ht]
  simp [Machine.popAnswer, Nat.add_right_comm]

/-- A bit more is in the accumulator, or completes a byte of OUT (R230). -/
theorem Encoded.putBit (h : Encoded s k bits t) (hn : NoFail s) (bit : Bool) :
    ∃ u, putBit bit t = .ok () u ∧ Encoded s k (bits ++ [bit]) u := by
  have hok : nextAnswer t = .ok := nextAnswer_ok_of_noFail (h.noFail hn)
  obtain ⟨ha, new, hb, ht⟩ := h
  have hplaced : accBits (placeBit bit t) = accBits t ++ [bit] := by
    rw [accBits_eq_lowBits, toNat_placeBit_accn ha]
    exact lowBits_place ha.2 (Nat.lt_succ_of_le ha.1) bit
  rcases putBit_cases bit t with ⟨h8, e⟩ | ⟨h8, -, e⟩ | ⟨-, hfail, -⟩
  · refine ⟨_, e, accHeld_placeBit ha bit h8, new, ?_, ?_⟩
    · rw [hplaced, ← List.append_assoc, hb, List.append_assoc]
    · exact (congrArg (placeBit bit) ht :)
  · have hbyte : byteBits (placeBit bit t).acc = accBits t ++ [bit] := by
      rw [← hplaced, accBits_eq_lowBits, h8]
      rfl
    refine ⟨_, e, accHeld_empty rfl rfl, new ++ [(placeBit bit t).acc], ?_, ?_⟩
    · have hempty : ∀ u, accBits (clearAcc u) = [] := fun _ => rfl
      rw [hempty, List.append_nil, List.flatMap_append, List.flatMap_singleton, hbyte, ← List.append_assoc, hb,
        List.append_assoc]
    · refine (congrArg (fun u => clearAcc (emit (placeBit bit t).acc (Machine.popAnswer u))) ht).trans ?_
      simp [clearAcc, emit, Machine.popAnswer, BitVec.ofNat_add, BitVec.add_assoc, Nat.add_assoc]
  · rw [hok] at hfail
    cases hfail

/-- The bits of a code one after the other (R230). -/
theorem Encoded.putBits (h : Encoded s k bits t) (hn : NoFail s) (v : CodeWord) (n : Nat) :
    ∃ u, putBits v n t = .ok () u ∧ Encoded s k (bits ++ lowBits v n) u := by
  have loop := forUp_runs (body := fun i => Machine.putBit (v.getLsbD i)) (n := n) (i := 0) (s := t)
    (I := fun i u => Encoded s k (bits ++ lowBits v i) u) (by simpa [lowBits] using h) fun i u _ _ hu => by
      obtain ⟨w, e, hw⟩ := hu.putBit hn (v.getLsbD i)
      refine ⟨w, e, ?_⟩
      rwa [List.append_assoc, lowBits, ← List.map_singleton (f := fun k => v.getLsbD k), ← List.map_append,
        ← List.range_succ] at hw
  rwa [Nat.zero_add] at loop

/-! ### The code of a byte -/

/-- `find` over a table that is held gives the first record with the symbol (R125). -/
theorem findFrom_find? {c : Byte} {i : Nat} (h : ∀ j, j < rs.length → Store.read s.sym (i + j) = rs[j]?) :
    (∀ r, (rs.find? fun r => r.symbol == c) = some r →
      ∃ j, Store.read s.sym j = some r ∧ findFrom c rs.length i s = .ok (some j) s) ∧
    ((rs.find? fun r => r.symbol == c) = none → findFrom c rs.length i s = .ok none s) := by
  induction rs generalizing i with
  | nil => exact ⟨nofun, fun _ => rfl⟩
  | cons r rs ih =>
    have h0 : Store.read s.sym i = some r := by simpa using h 0 (by simp)
    have hstep : findFrom c (rs.length + 1) i s =
        if r.symbol = c then .ok (some i) s else findFrom c rs.length (i + 1) s := by
      rw [findFrom, readSym_of_held h0, Res.bind_ok]
    rw [List.length_cons, hstep]
    by_cases hc : r.symbol = c
    · rw [List.find?_cons_of_pos (by simpa using hc), if_pos hc]
      refine ⟨fun q hq => ?_, nofun⟩
      cases hq
      exact ⟨i, h0, rfl⟩
    · rw [List.find?_cons_of_neg (by simpa using hc), if_neg hc]
      refine ih fun j hj => ?_
      rw [Nat.add_right_comm, Nat.add_assoc, h (j + 1) (by simpa using hj), List.getElem?_cons_succ]

/-- A byte with a record gives the bits of its code (R232). -/
theorem encodeByte_of_record (h : Table rs s) (a : Nat) (hr : (rs.find? fun r => r.symbol == b) = some r) :
    encodeByte a b s = putBits r.code r.codeLength.toNat s := by
  obtain ⟨hn, hsym⟩ := h
  obtain ⟨j, hj, e⟩ := (findFrom_find? (c := b) (i := 0) (by simpa using hsym)).1 r hr
  rw [encodeByte, find, hn, e, Res.bind_ok]
  exact congrArg (Res.bind · _) (readSym_of_held hj)

/-- A byte without a record raises (R232). -/
theorem encodeByte_of_no_record (h : Table rs s) (a : Nat) (hr : (rs.find? fun r => r.symbol == b) = none) :
    encodeByte a b s = .raised (raise .inconsistentInput 1 a s) := by
  obtain ⟨hn, hsym⟩ := h
  have e := (findFrom_find? (c := b) (i := 0) (by simpa using hsym)).2 hr
  rw [encodeByte, find, hn, e, Res.bind_ok, throwErr]

theorem find?_of_mem (h : b ∈ rs.map fun r => r.symbol) :
    ∃ r, (rs.find? fun r => r.symbol == b) = some r := by
  obtain ⟨r, hr, hb⟩ := List.mem_map.1 h
  exact Option.isSome_iff_exists.1 (List.find?_isSome.2 ⟨r, hr, by simpa using hb⟩)

theorem find?_of_not_mem (h : b ∉ rs.map fun r => r.symbol) : (rs.find? fun r => r.symbol == b) = none := by
  refine List.find?_eq_none.2 fun r hr hb => h (List.mem_map.2 ⟨r, hr, by simpa using hb⟩)

/-! ### `ENC` -/

theorem Encoded.table (h : Encoded s k bits t) (ht : Table rs s) : Table rs t := by
  obtain ⟨-, new, -, e⟩ := h
  have hn : t.nsym = s.nsym := (congrArg State.nsym e :)
  have hsym : t.sym = s.sym := (congrArg State.sym e :)
  rwa [Table, hn, hsym]

/-- `ENC` reads a byte below `LEN` (R232). -/
theorem Encoded.encStep (h : Encoded s k bits t) (hn : NoFail s) {a : Nat} (hl : a < s.len.toNat)
    (hb : Store.read s.input a = some b) : encStep a t = encodeByte a b (Machine.popAnswer t) := by
  obtain ⟨-, new, -, e⟩ := id h
  have hlen : t.len = s.len := (congrArg State.len e :)
  have hin : t.input = s.input := (congrArg State.input e :)
  rw [Machine.encStep, inByte_reads (by rwa [hlen]) (h.noFail hn) (by rwa [hin]), Res.bind_ok]

/-- The payload of one byte more (`30_encoding.md` R104). -/
theorem payloadBits_append (bs : List Byte) (hr : (rs.find? fun r => r.symbol == b) = some r) :
    payloadBits rs (bs ++ [b]) = payloadBits rs bs ++ codeBits r := by
  rw [payloadBits, payloadBits, List.flatMap_append, List.flatMap_singleton, hr]

/-- The rounds of `ENC` over bytes with records (R232). -/
theorem forUp_encStep_encodes (hn : NoFail s) (hl : bytes.length ≤ s.len.toNat) (hin : Store.Holds s.input bytes)
    (ht : Table rs s) (hmem : ∀ b, b ∈ bytes → b ∈ rs.map fun r => r.symbol) (ha : AccHeld s) :
    ∃ t, forUp encStep bytes.length 0 s = .ok () t ∧ Encoded s bytes.length (payloadBits rs bytes) t := by
  have loop := forUp_runs (body := encStep) (n := bytes.length) (i := 0) (s := s)
    (I := fun i t => Encoded s i (payloadBits rs (bytes.take i)) t) (.refl ha) ?round
  case round =>
    intro i t _ hi hI
    rw [Nat.zero_add] at hi
    obtain ⟨r, hr⟩ := find?_of_mem (hmem _ (List.getElem_mem hi))
    have hread : Store.read s.input i = some bytes[i] := (hin i hi).trans (List.getElem?_eq_getElem hi)
    obtain ⟨u, e, hu⟩ := hI.popAnswer.putBits hn r.code r.codeLength.toNat
    refine ⟨u, ?_, ?_⟩
    · rw [hI.encStep hn (by omega) hread, encodeByte_of_record (hI.popAnswer.table ht) i hr, e]
    · rwa [← codeBits_eq_lowBits, ← payloadBits_append _ hr, List.take_append_getElem] at hu
  simpa using loop

theorem exec_enc (hp : s.phase = .hdrw) : exec .enc s = (encBody s).toOutcome :=
  exec_of_legalIn (i := .enc) (by decide) (by rw [hp]; rfl)

/-- Settles O40: every round appends the code of its byte. -/
theorem encWritesPayload : Obligations.EncWritesPayload := by
  intro s bytes rs hp hn ho hl hin ht hmem hacc
  have ha : AccHeld s := hacc (by rw [hp]; decide)
  obtain ⟨t, e, hat, new, hbits, ht⟩ := forUp_encStep_encodes hn hl hin ht hmem ha
  refine ⟨setPhase .encoded t, new, ?_, (congrArg (setPhase .encoded) ht :), hbits, fun _ => hat⟩
  rw [exec_enc hp, encBody, ho, e]
  rfl

/-- Settles O41: the rounds before the unknown byte have appended their codes, and the raise ends the command. -/
theorem encRejectsUnknownByte : Obligations.EncRejectsUnknownByte := by
  intro s bytes b rs hp hn hlt hl hin ht hmem hb hacc
  have ha : AccHeld s := hacc (by rw [hp]; decide)
  have hread : Store.read s.input bytes.length = some b := by simpa using hin bytes.length (by simp)
  have hin' : Store.Holds s.input bytes := fun k hk => by
    rw [hin k (by rw [List.length_append]; omega), List.getElem?_append_left hk]
  obtain ⟨t, e, ht'⟩ := forUp_encStep_encodes hn (by omega) hin' ht hmem ha
  have hlast : encStep bytes.length t = .raised (raise .inconsistentInput 1 bytes.length (popAnswer t)) := by
    rw [ht'.encStep hn (by omega) hread, encodeByte_of_no_record (ht'.popAnswer.table ht) _ (find?_of_not_mem hb)]
  have loop := forUp_raises (s.origLen.toNat - bytes.length - 1) e (by rwa [Nat.zero_add])
  rw [show bytes.length + (s.origLen.toNat - bytes.length - 1 + 1) = s.origLen.toNat by omega] at loop
  obtain ⟨-, new, hbits, ht'⟩ := ht'.popAnswer
  refine ⟨raise .inconsistentInput 1 bytes.length (popAnswer t), new, ?_,
    (congrArg (raise _ 1 bytes.length) ht' :), hbits⟩
  rw [exec_enc hp, encBody, loop]
  rfl

end Sys2Proof.Machine
end

section
/-!
SUPPORT. The reader and the decoder: `get_bit`, the walk from the root to a leaf, `DEC` (`45_bitstream.md` R234, R236).
-/
namespace Sys2Proof.Machine

variable {s t : State} {file syms : List Byte} {p rest : List Bool} {bit : Bool} {b : Byte} {r : NodeRec} {j c : Nat}
  {x : List Bool × Byte} {xs : List (List Bool × Byte)}

/-! ### The bits to be read -/

theorem readerBits_eq (file : List Byte) (s : State) :
    readerBits file s = lowBits s.rbuf s.rbn.toNat ++ (file.drop s.rpos.toNat).flatMap byteBits := rfl

theorem length_flatMap_byteBits (bs : List Byte) : (bs.flatMap byteBits).length = 8 * bs.length := by
  induction bs with
  | nil => rfl
  | cons b bs ih => rw [List.flatMap_cons, List.length_append, ih, List.length_cons, byteBits]; simp; omega

theorem length_readerBits (hl : s.len.toNat = file.length) : (readerBits file s).length = bitsLeft s := by
  rw [readerBits_eq, List.length_append, length_flatMap_byteBits, List.length_drop, bitsLeft, hl]
  simp [lowBits]

theorem toNat_rbn_takeBit (h : s.rbn ≠ 0) : (takeBit s).rbn.toNat + 1 = s.rbn.toNat := by
  have h0 : s.rbn.toNat ≠ 0 := fun e => h (BitVec.eq_of_toNat_eq e)
  have h1 : (s.rbn - 1).toNat = s.rbn.toNat - 1 := BitVec.toNat_sub_of_le (by
    rw [BitVec.le_def]; show 1 ≤ s.rbn.toNat; omega)
  show (s.rbn - 1).toNat + 1 = s.rbn.toNat
  omega

/-- A bit taken is the first of those to be read (R234). -/
theorem readerBits_takeBit (h : s.rbn ≠ 0) :
    readerBits file s = s.rbuf.getLsbD 0 :: readerBits file (takeBit s) := by
  have hbuf : ∀ m, lowBits s.rbuf (m + 1) = s.rbuf.getLsbD 0 :: lowBits (s.rbuf >>> 1) m := fun m => by
    simp [lowBits, List.range_succ_eq_map, Nat.add_comm]
  rw [readerBits_eq, readerBits_eq, ← toNat_rbn_takeBit h, hbuf]
  rfl

theorem toNat_rpos_succ (h : s.rpos.toNat < s.len.toNat) : (s.rpos + 1).toNat = s.rpos.toNat + 1 := by
  have := s.len.isLt
  rw [BitVec.toNat_add]
  exact Nat.mod_eq_of_lt (by simp; omega)

/-- A byte fetched into the empty buffer is the next of IN (R234). -/
theorem readerBits_loadByte (h0 : s.rbn = 0) (hl : s.rpos.toNat < s.len.toNat) (hb : file[s.rpos.toNat]? = some b) :
    readerBits file (loadByte b s) = readerBits file s := by
  obtain ⟨hlt, rfl⟩ := List.getElem?_eq_some_iff.1 hb
  rw [readerBits_eq, readerBits_eq, h0, List.drop_eq_getElem_cons hlt, List.flatMap_cons]
  show byteBits _ ++ (file.drop (s.rpos + 1).toNat).flatMap byteBits = _
  rw [toNat_rpos_succ hl]
  rfl

/-! ### Runs of the decoder -/

/-- From `s` the decoder has written `syms`: one access for each byte written or fetched, and a byte is fetched only
when a bit of it is taken (R236, `20_memory.md` R61). -/
structure Decoded (s : State) (syms : List Byte) (t : State) : Prop where
  frame : t = { s with out := s.out ++ syms, opos := s.opos + BitVec.ofNat 40 syms.length, rbuf := t.rbuf, rbn := t.rbn,
                       rpos := t.rpos, oracle := s.oracle.drop (syms.length + (t.rpos.toNat - s.rpos.toNat)) }
  rpos_le : s.rpos.toNat ≤ t.rpos.toNat
  rpos_within : t.rpos.toNat ≤ max s.rpos.toNat s.len.toNat
  buffer : t.rpos ≠ s.rpos ∨ s.rbn.toNat < 8 → t.rbn.toNat < 8

theorem Decoded.refl (s : State) : Decoded s [] s where
  frame := by simp
  rpos_le := Nat.le_refl _
  rpos_within := Nat.le_max_left _ _
  buffer h := h.resolve_left fun hne => hne rfl

theorem Decoded.noFail (h : Decoded s syms t) (hn : NoFail s) : NoFail t := by
  have ho : t.oracle = s.oracle.drop (syms.length + (t.rpos.toNat - s.rpos.toNat)) := (congrArg State.oracle h.frame :)
  rw [NoFail, ho]
  exact fun hm => hn (List.mem_of_mem_drop hm)

theorem Decoded.len_eq (h : Decoded s syms t) : t.len = s.len := (congrArg State.len h.frame :)

theorem Decoded.input_eq (h : Decoded s syms t) : t.input = s.input := (congrArg State.input h.frame :)

theorem Decoded.node_eq (h : Decoded s syms t) : t.node = s.node := (congrArg State.node h.frame :)

theorem Decoded.root_eq (h : Decoded s syms t) : t.root = s.root := (congrArg State.root h.frame :)

theorem Decoded.out_eq (h : Decoded s syms t) : t.out = s.out ++ syms := (congrArg State.out h.frame :)

theorem Decoded.takeBit (h : Decoded s syms t) (h0 : t.rbn ≠ 0) : Decoded s syms (takeBit t) where
  frame := (congrArg Machine.takeBit h.frame :)
  rpos_le := h.rpos_le
  rpos_within := h.rpos_within
  buffer hs := by
    have hlt := h.buffer hs
    have hsucc := toNat_rbn_takeBit h0
    omega

/-- A byte is fetched, and its first bit taken (R234). -/
theorem Decoded.fetch (h : Decoded s syms t) (hl : t.rpos.toNat < t.len.toNat) (b : Byte) :
    Decoded s syms (Machine.takeBit (loadByte b (popAnswer t))) where
  frame := by
    have hle := h.rpos_le
    have htail : (s.oracle.drop (syms.length + (t.rpos.toNat - s.rpos.toNat))).tail =
        s.oracle.drop (syms.length + ((t.rpos + 1).toNat - s.rpos.toNat)) := by
      rw [toNat_rpos_succ hl, List.tail_drop]
      congr 1
      omega
    refine (congrArg (fun u => Machine.takeBit (loadByte b (popAnswer u))) h.frame).trans ?_
    simp only [Machine.takeBit, loadByte, popAnswer, htail]
  rpos_le := by
    show s.rpos.toNat ≤ (t.rpos + 1).toNat
    rw [toNat_rpos_succ hl]
    exact Nat.le_succ_of_le h.rpos_le
  rpos_within := by
    show (t.rpos + 1).toNat ≤ _
    rw [toNat_rpos_succ hl, ← h.len_eq]
    exact Nat.le_trans hl (Nat.le_max_right _ _)
  buffer _ := by
    show ((8 : BitVec 4) - 1).toNat < 8
    decide

theorem Decoded.emit (h : Decoded s syms t) (v : Byte) : Decoded s (syms ++ [v]) (emit v (popAnswer t)) where
  frame := by
    refine (congrArg (fun u => Machine.emit v (popAnswer u)) h.frame).trans ?_
    simp [Machine.emit, popAnswer, BitVec.ofNat_add, BitVec.add_assoc, Nat.add_right_comm]
  rpos_le := h.rpos_le
  rpos_within := h.rpos_within
  buffer := h.buffer

/-! ### `get_bit` -/

/-- IN is this file, and no access fails. -/
structure Reads (file : List Byte) (s : State) : Prop where
  noFail : NoFail s
  len : s.len.toNat = file.length
  input : Store.Holds s.input file

theorem Decoded.reads (h : Decoded s syms t) (hr : Reads file s) : Reads file t :=
  ⟨h.noFail hr.noFail, by rw [h.len_eq, hr.len], by rw [h.input_eq]; exact hr.input⟩

/-- `get_bit` gives the next bit (R234). -/
theorem Decoded.getBit (h : Decoded s syms t) (hr : Reads file s) (hb : readerBits file t = bit :: rest) :
    ∃ u, getBit t = .ok bit u ∧ Decoded s syms u ∧ readerBits file u = rest := by
  have hrt := h.reads hr
  rcases getBit_cases t with ⟨h0, e⟩ | ⟨h0, hl, e⟩ | ⟨h0, hl, ⟨hfail, -⟩ | ⟨-, b, hread, e⟩ | ⟨hread, -⟩⟩
  · rw [readerBits_takeBit h0] at hb
    cases hb
    exact ⟨_, e, h.takeBit h0, rfl⟩
  · rw [readerBits_eq, h0, List.drop_of_length_le (hrt.len ▸ hl)] at hb
    cases hb
  · rw [nextAnswer_ok_of_noFail hrt.noFail] at hfail
    cases hfail
  · have hfile : file[t.rpos.toNat]? = some b := (hrt.input _ (hrt.len ▸ hl)).symm.trans hread
    have hload : readerBits file (loadByte b (popAnswer t)) = readerBits file t :=
      readerBits_loadByte (s := popAnswer t) h0 hl hfile
    rw [← hload, readerBits_takeBit (show (8 : BitVec 4) ≠ 0 by decide)] at hb
    cases hb
    exact ⟨_, e, h.fetch hl b, rfl⟩
  · rw [hrt.input _ (hrt.len ▸ hl), List.getElem?_eq_getElem (hrt.len ▸ hl)] at hread
    cases hread

/-- `get_bit` with no bit left raises (R234, sub-cause 9). -/
theorem getBit_of_no_bits (hl : s.len.toNat = file.length) (hb : readerBits file s = []) :
    getBit s = .raised (raise .malformedHeader 9 s.rpos.toNat s) ∧ s.len.toNat ≤ s.rpos.toNat := by
  have h0 : bitsLeft s = 0 := by rw [← length_readerBits hl, hb, List.length_nil]
  rw [bitsLeft] at h0
  rcases getBit_cases s with ⟨hne, -⟩ | ⟨-, hle, e⟩ | ⟨-, hlt, -⟩
  · exact absurd (BitVec.eq_of_toNat_eq (y := 0) (by simp; omega)) hne
  · exact ⟨e, hle⟩
  · omega

/-! ### The walk down a path -/

theorem walkDown_at_leaf (hr : Store.read s.node j = some r) (hl : r.leaf = true) (d n : Nat) :
    walkDown d (n + 1) j s = .ok r s := by
  rw [walkDown, readNode_of_held hr, Res.bind_ok, if_pos hl]

theorem walkDown_goes_on (hr : Store.read s.node j = some r) (hl : r.leaf = false) (e : getBit s = .ok bit t)
    (hc : branch bit r = some c) (d n : Nat) : walkDown d (n + 1) j s = walkDown d n c t := by
  rw [branch] at hc
  rw [walkDown, readNode_of_held hr, Res.bind_ok, if_neg (by simp [hl]), e, Res.bind_ok, hc]

/-- A bit that selects a missing child raises (R236, sub-cause 10). -/
theorem walkDown_missing_child (hr : Store.read s.node j = some r) (hl : r.leaf = false) (e : getBit s = .ok bit t)
    (hc : branch bit r = none) (d n : Nat) :
    walkDown d (n + 1) j s = .raised (raise .malformedHeader 10 d t) := by
  rw [branch] at hc
  rw [walkDown, readNode_of_held hr, Res.bind_ok, if_neg (by simp [hl]), e, Res.bind_ok, hc, throwErr]

theorem walkDown_of_getBit_raised (hr : Store.read s.node j = some r) (hl : r.leaf = false) (e : getBit s = .raised t)
    (d n : Nat) : walkDown d (n + 1) j s = .raised t := by
  rw [walkDown, readNode_of_held hr, Res.bind_ok, if_neg (by simp [hl]), e, Res.bind_raised]

/-- The walk takes the bits of a path and stands at its end (R236). -/
theorem Decoded.walkDown (h : Decoded s syms t) (hr : Reads file s) (hp : endFrom t.node j p = some c)
    (hb : readerBits file t = p ++ rest) (d k : Nat) :
    ∃ u, walkDown d (p.length + k) j t = Machine.walkDown d k c u ∧ Decoded s syms u ∧ readerBits file u = rest := by
  induction p generalizing j t with
  | nil =>
    cases hp
    exact ⟨t, by rw [List.length_nil, Nat.zero_add], h, hb⟩
  | cons bit p ih =>
    rw [endFrom_cons, endBelow, Option.bind_assoc] at hp
    obtain ⟨r, hread, hp⟩ := Option.bind_eq_some_iff.1 hp
    obtain ⟨c', hc', hp⟩ := Option.bind_eq_some_iff.1 hp
    obtain ⟨hl, hc'⟩ : r.leaf = false ∧ branch bit r = some c' := by
      cases hl : r.leaf <;> simp_all
    obtain ⟨u, e, hu, hbu⟩ := h.getBit hr hb
    obtain ⟨v, e', hv, hbv⟩ := ih hu (by rwa [hu.node_eq, ← h.node_eq]) hbu
    refine ⟨v, ?_, hv, hbv⟩
    rw [List.length_cons, Nat.add_right_comm, walkDown_goes_on hread hl e hc', e']

/-- `DEC` starts the walk of a symbol with a bound above the bits left (log 14). -/
theorem decodeSymbol_eq (hroot : s.root = some j) (hl : s.len.toNat = file.length) (hb : readerBits file s = p ++ rest)
    (d : Nat) :
    decodeSymbol d s = (walkDown d (p.length + (rest.length + 1)) j s).bind fun r t => outByte r.symbol t := by
  have hbound : bitsLeft s + 1 = p.length + (rest.length + 1) := by
    rw [← length_readerBits hl, hb, List.length_append, Nat.add_assoc]
  rw [decodeSymbol, hroot]
  simp only [hbound]

theorem endOf_eq_some : endOf s p = some c ↔ ∃ j, s.root = some j ∧ endFrom s.node j p = some c := by
  rw [endOf]
  cases s.root <;> simp

/-- Along a path of the tree a symbol's walk goes on from the end of the path (R236). -/
theorem Decoded.decodeSymbol (h : Decoded s syms t) (hr : Reads file s) (hp : endOf s p = some c)
    (hb : readerBits file t = p ++ rest) (d : Nat) :
    ∃ u, decodeSymbol d t = (Machine.walkDown d (rest.length + 1) c u).bind (fun r t => outByte r.symbol t) ∧
      Decoded s syms u ∧ readerBits file u = rest := by
  obtain ⟨j, hroot, hend⟩ := endOf_eq_some.1 hp
  obtain ⟨u, e, hu, hbu⟩ := h.walkDown hr (by rwa [h.node_eq]) hb d (rest.length + 1)
  exact ⟨u, by rw [decodeSymbol_eq (by rwa [h.root_eq]) (h.reads hr).len hb, e], hu, hbu⟩

/-! ### `DEC` -/

/-- A round of `DEC` over the path of a leaf writes its symbol (R236). -/
theorem Decoded.symbol (h : Decoded s syms t) (hr : Reads file s) (hx : LeafAt s x)
    (hb : readerBits file t = x.1 ++ rest) (d : Nat) :
    ∃ u, Machine.decodeSymbol d t = .ok () u ∧ Decoded s (syms ++ [x.2]) u ∧ readerBits file u = rest := by
  obtain ⟨r, hfollow, hleaf, hsym⟩ := hx
  obtain ⟨c, hp, hread⟩ := follow_eq_some.1 hfollow
  obtain ⟨u, e, hu, hbu⟩ := h.decodeSymbol hr hp hb d
  rw [walkDown_at_leaf (by rwa [hu.node_eq]) hleaf, Res.bind_ok, outByte_writes (hu.noFail hr.noFail), hsym] at e
  exact ⟨_, e, hu.emit x.2, hbu⟩

/-- The rounds of `DEC` over the paths of leaves (R236). -/
theorem forUp_decodeSymbol_decodes (hr : Reads file s) (hx : ∀ x, x ∈ xs → LeafAt s x)
    (hb : readerBits file s = xs.flatMap Prod.fst ++ rest) :
    ∃ t, forUp decodeSymbol xs.length 0 s = .ok () t ∧ Decoded s (xs.map Prod.snd) t ∧ readerBits file t = rest := by
  have loop := forUp_runs (body := Machine.decodeSymbol) (n := xs.length) (i := 0) (s := s)
    (I := fun i t => Decoded s ((xs.take i).map Prod.snd) t ∧
      readerBits file t = (xs.drop i).flatMap Prod.fst ++ rest) ⟨.refl s, hb⟩ ?round
  case round =>
    intro i t _ hi ⟨hd, hbt⟩
    rw [Nat.zero_add] at hi
    rw [List.drop_eq_getElem_cons hi, List.flatMap_cons, List.append_assoc] at hbt
    obtain ⟨u, e, hu, hbu⟩ := hd.symbol hr (hx _ (List.getElem_mem hi)) hbt i
    rw [← List.map_singleton, ← List.map_append, List.take_append_getElem] at hu
    exact ⟨u, e, hu, hbu⟩
  simpa using loop

theorem exec_dec (hp : s.phase = .hdrr) : exec .dec s = (decBody s).toOutcome :=
  exec_of_legalIn (i := .dec) (by decide) (by rw [hp]; rfl)

/-- Settles O43: every round takes the path of a leaf and writes the leaf's symbol. -/
theorem decWritesSymbols : Obligations.DecWritesSymbols := by
  intro s file xs rest hp hn hl hin ho hx hb
  obtain ⟨t, e, ht, hbt⟩ := forUp_decodeSymbol_decodes ⟨hn, hl, hin⟩ hx hb
  obtain ⟨hframe, -, -, hbuf⟩ := ht
  rw [List.length_map] at hframe
  have horacle : t.oracle = s.oracle.drop (xs.length + (t.rpos.toNat - s.rpos.toNat)) :=
    (congrArg State.oracle hframe :)
  rw [← horacle] at hframe
  refine ⟨setPhase .doneD t, ?_, (congrArg (setPhase .doneD) hframe :), hbt, horacle, hbuf⟩
  rw [exec_dec hp, decBody, ho, e]
  rfl

/-- The symbols before the bad one are decoded, and the raise ends the command. -/
theorem exec_dec_raises {u : State} (hp : s.phase = .hdrr) (hlt : xs.length < s.origLen.toNat)
    (e : forUp decodeSymbol xs.length 0 s = .ok () t) (hu : Machine.decodeSymbol xs.length t = .raised u) :
    exec .dec s = .next u := by
  have loop := forUp_raises (s.origLen.toNat - xs.length - 1) e (by rwa [Nat.zero_add])
  rw [show xs.length + (s.origLen.toNat - xs.length - 1 + 1) = s.origLen.toNat by omega] at loop
  rw [exec_dec hp, decBody, loop]
  rfl

/-- Settles O44: the walk of the bad symbol stands at the end of a path, and the next bit is missing or has no child. -/
theorem decRejectsBadPayload : Obligations.DecRejectsBadPayload := by
  intro s file xs p r hp hn hl hin hpos hlt hx hfollow hleaf
  have hr : Reads file s := ⟨hn, hl, hin⟩
  obtain ⟨c, hend, hread⟩ := follow_eq_some.1 hfollow
  refine ⟨fun bit rest hchild hb => ?_, fun hb => ?_⟩
  · rw [List.append_assoc] at hb
    obtain ⟨t, e, ht, hbt⟩ := forUp_decodeSymbol_decodes hr hx hb
    obtain ⟨u, eu, hu, hbu⟩ := ht.decodeSymbol hr hend hbt xs.length
    obtain ⟨v, ev, hv, -⟩ := hu.getBit hr hbu
    rw [walkDown_missing_child (by rwa [hu.node_eq]) hleaf ev hchild, Res.bind_raised] at eu
    exact ⟨_, exec_dec_raises hp hlt e eu, rfl, rfl, rfl, rfl, hv.out_eq⟩
  · rw [← List.append_nil p] at hb
    obtain ⟨t, e, ht, hbt⟩ := forUp_decodeSymbol_decodes hr hx hb
    obtain ⟨u, eu, hu, hbu⟩ := ht.decodeSymbol hr hend hbt xs.length
    obtain ⟨ev, hle⟩ := getBit_of_no_bits (hu.reads hr).len hbu
    have hpos : u.rpos = s.len := BitVec.eq_of_toNat_eq (by
      have := hu.rpos_within
      rw [hu.len_eq] at hle
      omega)
    rw [walkDown_of_getBit_raised (by rwa [hu.node_eq]) hleaf ev, Res.bind_raised] at eu
    refine ⟨_, exec_dec_raises hp hlt e eu, rfl, rfl, rfl, ?_, hpos, hu.out_eq⟩
    rw [raise_errinfo, BitVec.ofNat_toNat, BitVec.setWidth_eq, hpos]

end Sys2Proof.Machine
end

section
/-!
SUPPORT. The codes `CODES` assigns are paths of the tree (`43_code_table.md` R181, R182), so neither of two begins
with the other (R184).
-/
namespace Sys2Proof.Machine

variable {s t : State} {rs qs : List SymRec} {m : Store NodeRec} {done : List (Byte × List Bool)} {p : List Bool}
  {code : CodeWord} {n room k : Nat} {ht : HTree}

/-! ### Paths of a tree -/

/-- The paths to two leaves part at a node (R184). -/
theorem HTree.apart_of_mem_paths {t : HTree} {c d : Byte} {p q : List Bool} (hp : (c, p) ∈ t.paths)
    (hq : (d, q) ∈ t.paths) (hne : c ≠ d) : Apart p q := by
  induction t generalizing p q with
  | leaf e =>
    rw [HTree.paths, List.mem_singleton, Prod.mk.injEq] at hp hq
    exact absurd (hp.1.trans hq.1.symm) hne
  | node l r ihl ihr =>
    simp only [HTree.paths, List.mem_append, List.mem_map, Prod.mk.injEq] at hp hq
    rcases hp with ⟨x, hx, rfl, rfl⟩ | ⟨x, hx, rfl, rfl⟩ <;> rcases hq with ⟨y, hy, rfl, rfl⟩ | ⟨y, hy, rfl, rfl⟩
    · simpa [Apart] using ihl hx hy
    · simp [Apart]
    · simp [Apart]
    · simpa [Apart] using ihr hx hy

/-! ### The walk -/

theorem Table.writeSym (h : Table qs s) (hk : k < qs.length) (r : SymRec) : Table (qs.set k r) (writeSym k r s) := by
  obtain ⟨hn, hsym⟩ := h
  refine ⟨by rw [List.length_set]; exact hn, fun i hi => ?_⟩
  rw [List.length_set] at hi
  rw [writeSym_sym, Store.read_write, hsym i hi, List.getElem?_set]
  by_cases hik : i = k
  · subst hik
    simp [hi]
  · simp [hik, Ne.symm hik]

/-- Two records of a table whose symbols are distinct have two symbols. -/
theorem symbol_ne_of_ne {i : Nat} (hnd : (qs.map fun q => q.symbol).Nodup) (hi : i < qs.length) (hk : k < qs.length)
    (hne : i ≠ k) : qs[i].symbol ≠ qs[k].symbol := by
  have hall := List.pairwise_iff_getElem.1 (List.pairwise_map.1 hnd)
  rcases Nat.lt_or_gt_of_ne hne with hlt | hlt
  · exact hall i k hi hk hlt
  · exact (hall k i hk hi hlt).symm

/-- The table of `t` has the symbols of `rs`, and the codes of those in `done` are the paths there; `NODE` is `m`. -/
structure CodedBy (m : Store NodeRec) (rs : List SymRec) (done : List (Byte × List Bool)) (qs : List SymRec)
    (t : State) : Prop where
  node : t.node = m
  table : Table qs t
  symbols : (qs.map fun q => q.symbol) = rs.map fun r => r.symbol
  path : ∀ q ∈ qs, q.symbol ∈ done.map Prod.fst → (q.symbol, codeBits q) ∈ done ∧ q.codeLength.toNat ≤ 64

theorem codedBy_nil (h : Table rs s) : CodedBy s.node rs [] rs s := ⟨rfl, h, rfl, nofun⟩

/-- A leaf gives its path to the record of its symbol (R182). -/
theorem CodedBy.assignCode (h : CodedBy m rs done qs s) (hnd : (rs.map fun r => r.symbol).Nodup) (hp : p.length ≤ 64)
    (hc : lowBits code p.length = p) (c : Byte) :
    (assignCode c code p.length s).Ends (fun _ t => ∃ qs, CodedBy m rs (done ++ [(c, p)]) qs t) InError
      fun _ => True := by
  obtain ⟨hnode, ht, hsymbols, hpath⟩ := h
  rcases find_table ht c with ⟨k, r, hr, hc', e⟩ | ⟨-, e⟩ <;> rw [Machine.assignCode, e, Res.bind_ok]
  · obtain ⟨hk, rfl⟩ := List.getElem?_eq_some_iff.1 hr
    have hlen : (BitVec.ofNat 7 p.length).toNat = p.length := by rw [BitVec.toNat_ofNat]; omega
    simp only [readSym_of_held ((ht.2 k hk).trans hr), Res.bind_ok, Res.ends_ok]
    refine ⟨_, hnode, ht.writeSym hk _, ?_, fun q hq hmem => ?_⟩
    · have hself := List.set_getElem_self (as := qs.map fun q => q.symbol) (i := k) (by simpa using hk)
      rw [List.getElem_map] at hself
      rw [List.map_set, hself, hsymbols]
    · obtain ⟨i, hi, rfl⟩ := List.getElem_of_mem hq
      rw [List.length_set] at hi
      by_cases hik : k = i
      · subst hik
        simp [codeBits_eq_lowBits, hlen, hc, hc', hp]
      · rw [List.getElem_set_ne hik] at hmem ⊢
        have hne : qs[i].symbol ≠ c := by
          rw [← hc']
          exact symbol_ne_of_ne (hsymbols ▸ hnd) hi hk (Ne.symm hik)
        have := hpath _ (List.getElem_mem hi) (by simpa [hne] using hmem)
        exact ⟨List.mem_append_left _ this.1, this.2⟩
  · trivial

theorem visit_at_leaf {r : NodeRec} (hr : Store.read s.node n = some r) (hl : r.leaf = true) (room : Nat)
    (code : CodeWord) : visit room n code s = assignCode r.symbol code (64 - room) s := by
  cases room <;> rw [visit, readNode_of_held hr, Res.bind_ok, if_pos hl] <;> rfl

theorem visit_at_depth_limit {r : NodeRec} (hr : Store.read s.node n = some r) (hl : r.leaf = false) (code : CodeWord) :
    visit 0 n code s = .raised (raise .capacityExceeded 1 n s) := by
  rw [visit, readNode_of_held hr, Res.bind_ok, if_neg (by simp [hl])]
  rfl

theorem visit_at_inner {r : NodeRec} {a b : Nat} (hr : Store.read s.node n = some r) (hl : r.leaf = false)
    (ha : r.left = some a) (hb : r.right = some b) (room : Nat) (code : CodeWord) :
    visit (room + 1) n code s = (visit room a code s).bind fun _ t =>
      visit room b (code + BitVec.twoPow 64 (64 - (room + 1))) t := by
  rw [visit, readNode_of_held hr, Res.bind_ok, if_neg (by simp [hl]), ha, hb]
  rfl

/-- The walk below a node gives each leaf's record the path to the leaf (R182). -/
theorem CodedBy.visit (h : CodedBy m rs done qs s) (hnd : (rs.map fun r => r.symbol).Nodup) (hrep : Represents m n ht)
    (hroom : p.length + room = 64) (hc : code.toNat < 2 ^ p.length) (hp : lowBits code p.length = p) :
    (visit room n code s).Ends
      (fun _ t => ∃ qs, CodedBy m rs (done ++ ht.paths.map fun x => (x.1, p ++ x.2)) qs t) InError fun _ => True := by
  induction hrep generalizing done qs s room code p with
  | leaf hr hl =>
    rw [visit_at_leaf (by rw [h.node]; exact hr) hl, show 64 - room = p.length by omega]
    simpa [HTree.paths] using h.assignCode hnd (by omega) hp _
  | node hr hl ha hb _ _ ihl ihr =>
    cases room with
    | zero =>
      rw [visit_at_depth_limit (by rw [h.node]; exact hr) hl]
      exact inError_raise _ _ _ _
    | succ room =>
      have hplen : 64 - (room + 1) = p.length := by omega
      have hlt : p.length < 64 := by omega
      have hleft := lowBits_place hc hlt false
      have hright := lowBits_place hc hlt true
      rw [hp] at hleft hright
      rw [visit_at_inner (by rw [h.node]; exact hr) hl ha hb, hplen]
      refine (ihl (p := p ++ [false]) h (by simp; omega) ?_ (by simpa using hleft)).bind fun _ t ⟨_, hl'⟩ => ?_
      · rw [List.length_append, List.length_singleton, Nat.pow_succ]
        omega
      · refine (ihr (p := p ++ [true]) hl' (by simp; omega) ?_ (by simpa using hright)).imp fun _ u ⟨qs, hu⟩ => ⟨qs, ?_⟩
        · simpa using toNat_add_twoPow_lt hlt hc
        · simpa [HTree.paths, Function.comp_def] using hu

/-! ### The codes -/

/-- The codes of a table: at most 64 bits, neither of two begins with the other (R184). -/
structure PrefixFree (rs : List SymRec) : Prop where
  length_le : ∀ r ∈ rs, r.codeLength.toNat ≤ 64
  apart : rs.Pairwise fun a b => Apart (codeBits a) (codeBits b)

theorem PrefixFree.perm (h : PrefixFree rs) (hp : qs.Perm rs) : PrefixFree qs :=
  ⟨fun r hr => h.length_le r (hp.mem_iff.1 hr), (hp.pairwise_iff fun hab => ⟨hab.2, hab.1⟩).2 h.apart⟩

theorem CodedBy.prefixFree (h : CodedBy m rs ht.paths qs s) (hnd : (rs.map fun r => r.symbol).Nodup)
    (hsyms : ht.symbols.Perm (rs.map fun r => r.symbol)) : PrefixFree qs := by
  have hpath : ∀ q ∈ qs, (q.symbol, codeBits q) ∈ ht.paths ∧ q.codeLength.toNat ≤ 64 := fun q hq =>
    h.path q hq (hsyms.mem_iff.2 (h.symbols ▸ List.mem_map_of_mem hq))
  refine ⟨fun q hq => (hpath q hq).2, ?_⟩
  rw [← h.symbols, List.Nodup, List.pairwise_map] at hnd
  exact hnd.imp_of_mem fun ha hb hne => HTree.apart_of_mem_paths (hpath _ ha).1 (hpath _ hb).1 hne

/-- A tree stands over the table, or the table is empty (`42_tree_builder.md` R162). -/
structure TreeStands (rs : List SymRec) (s : State) : Prop where
  empty : s.root = none → rs = []
  tree : ∀ n, s.root = some n → ∃ ht, Represents s.node n ht ∧ ht.symbols.Perm (rs.map fun r => r.symbol)

/-- Where `CODES` over a tree of the table's symbols does not raise, no code begins with another (R184). -/
theorem codesBody_assigns (ht : Table rs s) (hnd : (rs.map fun r => r.symbol).Nodup) (htree : TreeStands rs s) :
    (codesBody s).Ends (fun _ t => t.phase = .coded ∧ ∃ qs, Table qs t ∧
      (qs.map fun q => q.symbol) = (rs.map fun r => r.symbol) ∧ PrefixFree qs) InError fun _ => True := by
  rw [codesBody]
  cases hr : s.root with
  | none =>
    obtain rfl := htree.empty hr
    exact ⟨rfl, [], ht, rfl, nofun, .nil⟩
  | some n =>
    obtain ⟨tree, hrep, hsyms⟩ := htree.tree n hr
    refine ((codedBy_nil ht).visit (p := []) hnd hrep rfl (by decide) rfl).bind fun _ t ⟨qs, hqs⟩ => ?_
    have hpaths : ([] ++ tree.paths.map fun x => (x.1, [] ++ x.2)) = tree.paths := List.map_id tree.paths
    rw [hpaths] at hqs
    exact ⟨rfl, qs, hqs.table, hqs.symbols, hqs.prefixFree hnd hsyms⟩

end Sys2Proof.Machine
end

section
/-!
SUPPORT. The file a `COMPRESS` that does not raise leaves, command by command (`46_top_level.md` R265, `45_bitstream.md`
R238).
-/
namespace Sys2Proof.Machine

variable {s t : State} {bytes : List Byte} {rs qs ys : List SymRec} {p q : Phase}

/-! ### A run of `COMPRESS` before the header -/

/-- The symbols of a table of these bytes: each once, every byte among them (`10_state.md` R29). -/
structure Covers (bytes : List Byte) (cs : List Byte) : Prop where
  length_le : cs.length ≤ 256
  nodup : cs.Nodup
  mem : ∀ b ∈ bytes, b ∈ cs

theorem Covers.perm {cs ds : List Byte} (h : Covers bytes cs) (hp : ds.Perm cs) : Covers bytes ds :=
  ⟨hp.length_eq ▸ h.length_le, hp.nodup_iff.2 h.nodup, fun b hb => hp.mem_iff.2 (h.mem b hb)⟩

/-- The bytes have been scanned and nothing has been written: the block is in phase `p`, the table is `rs`. -/
structure Running (bytes : List Byte) (p : Phase) (rs : List SymRec) (s : State) : Prop where
  phase : s.phase = p
  reads : Reads bytes s
  covers : Covers bytes (rs.map fun r => r.symbol)
  table : Table rs s
  origLen : s.origLen = s.len
  out : s.out = []
  acc : s.acc = 0
  accn : s.accn = 0

/-- No command writes IN, and none puts a failure into the oracle (`20_memory.md` R61, R70). -/
theorem Reads.exec (h : Reads bytes s) {i : Instr} (e : exec i s = .next t) (hl : t.len = s.len) : Reads bytes t := by
  obtain ⟨hin, -, -, -, ho⟩ := exec_hostSide e
  exact ⟨fun hm => h.noFail (ho.subset hm), by rw [hl, h.len], by rw [hin]; exact h.input⟩

/-- What the commands from `PACK` to `HSORT.S` leave alone: the two lengths, OUT and the accumulator. -/
def streamSide (s : State) : Word × Word × List Byte × BitVec 8 × BitVec 4 := (s.len, s.origLen, s.out, s.acc, s.accn)

/-- Such a command leaves the run going, with its own table. -/
theorem Running.next (h : Running bytes p rs s) {i : Instr} (e : exec i s = .next t)
    (hside : streamSide t = streamSide s) (hp : t.phase = q) (hc : Covers bytes (ys.map fun r => r.symbol))
    (ht : Table ys t) : Running bytes q ys t := by
  simp only [streamSide, Prod.mk.injEq] at hside
  obtain ⟨hlen, horig, hout, hacc, haccn⟩ := hside
  exact ⟨hp, h.reads.exec e hlen, hc, ht, by rw [horig, hlen, h.origLen], hout.trans h.out, hacc.trans h.acc,
    haccn.trans h.accn⟩

/-! ### The table of the bytes -/

/-- The 256 records with the counts of these bytes (R122). -/
def countedTable (bytes : List Byte) : List SymRec :=
  (List.range 256).map fun i => symFreq (BitVec.ofNat 8 i) (BitVec.ofNat 32 (bytes.count (BitVec.ofNat 8 i)))

theorem getElem?_countedTable (bytes : List Byte) {i : Nat} (hi : i < 256) :
    (countedTable bytes)[i]? =
      some (symFreq (BitVec.ofNat 8 i) (BitVec.ofNat 32 (bytes.count (BitVec.ofNat 8 i)))) := by
  simp [countedTable, hi]

@[simp] theorem length_countedTable (bytes : List Byte) : (countedTable bytes).length = 256 := by simp [countedTable]

theorem countedRecord_countedTable (bytes : List Byte) {i : Nat} (hi : i < 256) :
    countedRecord (countedTable []) bytes i = (countedTable bytes)[i]? := by
  rw [countedRecord, getElem?_countedTable _ hi, getElem?_countedTable _ hi]
  simp [symFreq]

theorem mem_countedTable (bytes : List Byte) (b : Byte) :
    symFreq b (BitVec.ofNat 32 (bytes.count b)) ∈ countedTable bytes := by
  have hb : BitVec.ofNat 8 b.toNat = b := by simp
  exact List.mem_map.2 ⟨b.toNat, List.mem_range.2 b.isLt, by rw [hb]⟩

theorem covers_countedTable (bytes : List Byte) : Covers bytes ((countedTable bytes).map fun r => r.symbol) where
  length_le := Nat.le_of_eq (by rw [List.length_map, length_countedTable])
  nodup := by
    rw [countedTable, List.map_map]
    refine List.pairwise_map.2 (List.nodup_range.imp_of_mem fun {i j} hi hj hne hij => hne ?_)
    have hi : i < 256 := List.mem_range.1 hi
    have hj : j < 256 := List.mem_range.1 hj
    have hmod : i % 2 ^ 8 = j % 2 ^ 8 := congrArg BitVec.toNat hij
    omega
  mem b _ := List.mem_map.2 ⟨_, mem_countedTable bytes b, rfl⟩

/-- The observed records of the counted table are those of the bytes: no count of theirs wraps to 0 (R124). -/
theorem covers_observed (hl : bytes.length < 2 ^ 32) :
    Covers bytes ((observed (countedTable bytes)).map fun r => r.symbol) where
  length_le := by
    have := List.length_filter_le (fun r : SymRec => r.frequency ≠ 0) (countedTable bytes)
    rwa [length_countedTable, ← List.length_map (f := fun r => r.symbol)] at this
  nodup := (covers_countedTable bytes).nodup.sublist (List.filter_sublist.map _)
  mem b hb := by
    have hpos : 0 < bytes.count b := List.count_pos_iff.2 hb
    have hle : bytes.count b ≤ bytes.length := List.count_le_length
    have hne : BitVec.ofNat 32 (bytes.count b) ≠ 0 := fun h0 => by
      have := congrArg BitVec.toNat h0
      rw [BitVec.toNat_ofNat, Nat.mod_eq_of_lt (by omega)] at this
      exact absurd this (Nat.ne_of_gt hpos)
    exact List.mem_map.2 ⟨_, List.mem_filter.2 ⟨mem_countedTable bytes b, decide_eq_true hne⟩, rfl⟩

/-! ### The commands before the header -/

/-- `CLR` starts the run with the table of no bytes (R120). -/
theorem exec_clr_starts (hp : s.phase ∈ [Phase.idle, .doneC, .doneD]) :
    ∃ t, exec .clr s = .next t ∧ Table (countedTable []) t ∧ t.phase = .cleared ∧ t.len = s.inLen ∧ t.out = [] ∧
      t.acc = 0 ∧ t.accn = 0 := by
  obtain ⟨t, e, f, hsym⟩ := clrStartsRun s hp
  refine ⟨t, e, ⟨?_, fun i hi => ?_⟩, (congrArg State.phase f :), (congrArg State.len f :), (congrArg State.out f :),
    (congrArg State.acc f :), (congrArg State.accn f :)⟩
  · rw [f, length_countedTable]
    rfl
  · rw [length_countedTable] at hi
    rw [hsym, if_pos hi, getElem?_countedTable _ hi]
    rfl

/-- `CLR` and `SCAN` leave the counts of the bytes (R120, R122). -/
theorem exec_clr_scan (hp : s.phase ∈ [Phase.idle, .doneC, .doneD]) (hn : NoFail s) (hin : Presents bytes s) :
    ∃ t u, exec .clr s = .next t ∧ exec .scan t = .next u ∧ Running bytes .counted (countedTable bytes) u := by
  obtain ⟨hlen, hbytes⟩ := hin
  obtain ⟨t, e, ⟨hnsym, hholds⟩, hphase, htlen, hout, hacc, haccn⟩ := exec_clr_starts hp
  obtain ⟨htin, -, -, -, ho⟩ := exec_hostSide e
  have hr : Reads bytes t := ⟨fun hm => hn (ho.subset hm), by rw [htlen, hlen], by rw [htin]; exact hbytes⟩
  obtain ⟨u, e', f, hcounts⟩ := scanCountsEveryByte t bytes (countedTable []) hphase hr.noFail hr.len hr.input
    (length_countedTable []) hholds
  have hulen : u.len = t.len := (congrArg State.len f :)
  have hunsym : u.nsym = t.nsym := (congrArg State.nsym f :)
  refine ⟨t, u, e, e', (congrArg State.phase f :), hr.exec e' hulen, covers_countedTable bytes,
    ⟨?_, fun i hi => ?_⟩, ?_, (congrArg State.out f :).trans hout, (congrArg State.acc f :).trans hacc,
    (congrArg State.accn f :).trans haccn⟩
  · rw [hunsym, hnsym, length_countedTable, length_countedTable]
  · rw [length_countedTable] at hi
    rw [hcounts, if_pos hi, countedRecord_countedTable _ hi]
  · exact (congrArg State.origLen f :).trans hulen.symm

theorem Running.length_lt (h : Running bytes p rs s) : bytes.length < 2 ^ 32 := h.reads.len ▸ s.len.isLt

theorem Running.pack (h : Running bytes .counted (countedTable bytes) s) :
    ∃ t rs, exec .pack s = .next t ∧ Running bytes .packed rs t := by
  obtain ⟨t, e, f, ht, -, -⟩ := packKeepsObservedRecords s _ h.phase (length_countedTable bytes) h.table.2
  exact ⟨t, _, e, h.next e (congrArg streamSide f :) (congrArg State.phase f :) (covers_observed h.length_lt) ht⟩

theorem Running.hsortF (h : Running bytes .packed rs s) :
    ∃ t ys, exec .hsortF s = .next t ∧ Running bytes .fsorted ys t := by
  obtain ⟨t, ys, e, f, ht, hperm, -, -⟩ := hsortFSortsByFrequency s rs h.phase h.table
  exact ⟨t, ys, e, h.next e (congrArg streamSide f :) (congrArg State.phase f :) (h.covers.perm (hperm.map _)) ht⟩

theorem Running.tree (h : Running bytes .fsorted rs s) :
    ∃ t, exec .tree s = .next t ∧ Running bytes .treed rs t ∧ TreeStands rs t := by
  obtain ⟨t, e, f, -, -, -⟩ := treeBuildsNodes s rs h.phase h.table
  have hroot : t.root = if rs.length = 0 then none else some (2 * rs.length - 2) := (congrArg State.root f :)
  have hnsym : t.nsym = s.nsym := (congrArg State.nsym f :)
  have hsym : t.sym = s.sym := (congrArg State.sym f :)
  have ht : Table rs t := by rw [Table, hnsym, hsym]; exact h.table
  refine ⟨t, e, h.next e (congrArg streamSide f :) (congrArg State.phase f :) h.covers ht, fun hnone => ?_,
    fun n hn => ?_⟩
  · refine Classical.byContradiction fun hne => ?_
    rw [hroot, if_neg (mt List.length_eq_zero_iff.1 hne)] at hnone
    cases hnone
  · have hne : rs ≠ [] := by
      rintro rfl
      rw [hroot] at hn
      cases hn
    obtain ⟨root, ht, r, hr, hrep, hperm, -⟩ := treeIsOneTreeOverTheTable s t rs h.phase h.table hne e
    rw [hn] at hr
    cases hr
    exact ⟨ht, hrep, hperm⟩

/-- Where `CODES` does not raise the run goes on, and no code begins with another (R182, R184). -/
theorem Running.codes (h : Running bytes .treed rs s) (ht : TreeStands rs s) (e : exec .codes s = .next t) :
    t.phase = .error ∨ ∃ qs, Running bytes .coded qs t ∧ PrefixFree qs := by
  have hends := codesBody_assigns h.table h.covers.nodup ht
  have hexec : (codesBody s).toOutcome = .next t := by
    rw [← e, exec_of_legalIn (i := .codes) (by decide) (by rw [h.phase]; rfl)]
    rfl
  rcases Res.toOutcome_eq_next.1 hexec with hok | hraised
  · obtain ⟨hphase, qs, hqs, hsymbols, hfree⟩ := hends.of_ok hok
    have f := (exec_codes_frame e).1
    exact .inr ⟨qs, h.next e (congrArg streamSide f :) hphase (hsymbols ▸ h.covers) hqs, hfree⟩
  · exact .inl (hends.of_raised hraised)

theorem Running.hsortS (h : Running bytes .coded rs s) (hf : PrefixFree rs) :
    ∃ t ys, exec .hsortS s = .next t ∧ Running bytes .ssorted ys t ∧ PrefixFree ys := by
  obtain ⟨t, ys, e, f, ht, hperm, -, -⟩ := hsortSSortsBySymbol s rs h.phase h.table
  exact ⟨t, ys, e, h.next e (congrArg streamSide f :) (congrArg State.phase f :) (h.covers.perm (hperm.map _)) ht,
    hf.perm hperm⟩

/-! ### The file -/

/-- A compressed file of these bytes: the header of a table of theirs, no code of which begins with another, then
their codes and padding (`30_encoding.md` R100, R104). -/
def FileOf (bytes out : List Byte) : Prop :=
  ∃ rs pay pad, out = headerOf (rs.map SymRec.entry) bytes.length ++ pay ∧
    Covers bytes (rs.map fun r => r.symbol) ∧ PrefixFree rs ∧ pay.flatMap byteBits = payloadBits rs bytes ++ pad

/-- `FLUSH` adds a last byte for the bits held, or nothing (R233). -/
theorem exec_flush_appends (hp : s.phase = .encoded) (hn : NoFail s) (ha : AccForm s) :
    ∃ t last pad, exec .flush s = .next t ∧ t.out = s.out ++ last ∧ last.flatMap byteBits = accBits s ++ pad := by
  obtain ⟨hempty, hheld, -⟩ := flushWritesPartialByte s hp
  by_cases h0 : s.accn = 0
  · refine ⟨_, [], [], hempty h0, (List.append_nil _).symm, ?_⟩
    rw [accBits_eq_lowBits, h0]
    rfl
  · obtain ⟨b, e, hb⟩ := hheld h0 hn ha
    exact ⟨_, [b], _, e, rfl, by rw [List.flatMap_singleton, hb]⟩

/-- `WHDR`, `ENC` and `FLUSH` write the file (R201, R232, R233). -/
theorem Running.writesFile (h : Running bytes .ssorted rs s) (hf : PrefixFree rs) :
    ∃ t, execAll [.whdr, .enc, .flush] s = .next t ∧ FileOf bytes t.out := by
  obtain ⟨t, e, f⟩ : ∃ t, exec .whdr s = .next t ∧ t = _ :=
    ⟨_, whdrWritesHeader s rs h.phase h.reads.noFail h.table, rfl⟩
  have hlen : t.len = s.len := (congrArg State.len f :)
  have hnsym : t.nsym = s.nsym := (congrArg State.nsym f :)
  have hsym : t.sym = s.sym := (congrArg State.sym f :)
  have horig : t.origLen = t.len := (congrArg State.origLen f :).trans (h.origLen.trans hlen.symm)
  have hacc : t.acc = 0 := (congrArg State.acc f :).trans h.acc
  have haccn : t.accn = 0 := (congrArg State.accn f :).trans h.accn
  have hr : Reads bytes t := h.reads.exec e hlen
  have ht : Table rs t := by rw [Table, hnsym, hsym]; exact h.table
  obtain ⟨u, new, e', f', hbits, ha⟩ := encWritesPayload t bytes rs (congrArg State.phase f :) hr.noFail
    (by rw [horig, hr.len]) (Nat.le_of_eq hr.len.symm) hr.input ht h.covers.mem fun _ => accHeld_empty hacc haccn
  obtain ⟨v, last, pad, e'', hout, hpad⟩ := exec_flush_appends (congrArg State.phase f' :)
    (hr.exec e' (congrArg State.len f' :)).noFail ha
  have hfile : v.out = headerOf (rs.map SymRec.entry) bytes.length ++ (new ++ last) := by
    have hsorig : s.origLen.toNat = bytes.length := by rw [h.origLen, h.reads.len]
    rw [hout, (congrArg State.out f' :), (congrArg State.out f :), h.out, hsorig, List.nil_append, List.append_assoc]
  refine ⟨v, ?_, rs, new ++ last, pad, hfile, h.covers, hf, ?_⟩
  · rw [execAll_cons_of_next e, execAll_cons_of_next e', execAll_singleton, e'']
  · have hempty : accBits t = [] := by rw [accBits_eq_lowBits, haccn]; rfl
    rw [List.flatMap_append, hpad, ← List.append_assoc, hbits, hempty, List.nil_append]

/-- A script that ends in a next state began with a command that did. -/
theorem exists_next_of_execAll_cons {i : Instr} {is : List Instr} (h : execAll (i :: is) s = .next t) :
    ∃ u, exec i s = .next u ∧ execAll is u = .next t := by
  rw [execAll] at h
  cases e : exec i s with
  | next u => rw [e] at h; exact ⟨u, rfl, h⟩
  | fault f => rw [e] at h; cases h
  | refused r => rw [e] at h; cases h

/-- `COMPRESS`, where it does not raise, leaves a compressed file of the bytes in OUT (R265). -/
theorem exec_compress_writesFile (hp : s.phase ∈ [Phase.idle, .doneC, .doneD]) (hn : NoFail s) (hin : Presents bytes s)
    (h : exec .compress s = .next t) (hok : t.phase ≠ .error) : FileOf bytes t.out := by
  rw [(wholeFlowsEqualTheirScripts s hp).1] at h
  obtain ⟨s₁, s₂, e₁, e₂, h₂⟩ := exec_clr_scan hp hn hin
  obtain ⟨s₃, rs, e₃, h₃⟩ := h₂.pack
  obtain ⟨s₄, ys, e₄, h₄⟩ := h₃.hsortF
  obtain ⟨s₅, e₅, h₅, htree⟩ := h₄.tree
  rw [execAll_cons_of_next e₁, execAll_cons_of_next e₂, execAll_cons_of_next e₃, execAll_cons_of_next e₄,
    execAll_cons_of_next e₅] at h
  obtain ⟨s₆, e₆, h⟩ := exists_next_of_execAll_cons h
  rcases h₅.codes htree e₆ with herror | ⟨qs, h₆, hfree⟩
  · rw [execAll_of_phase_error (by decide) herror] at h
    cases h
    exact absurd herror hok
  · obtain ⟨s₇, zs, e₇, h₇, hfree⟩ := h₆.hsortS hfree
    obtain ⟨u, e, hu⟩ := h₇.writesFile hfree
    rw [execAll_cons_of_next e₇, e] at h
    cases h
    exact hu

end Sys2Proof.Machine
end
section
/-!
SUPPORT. `DECOMPRESS` on a compressed file (`46_top_level.md` R266), and the round trip (`45_bitstream.md` R238).
-/
namespace Sys2Proof.Machine

variable {s : State} {bytes : List Byte} {rs : List SymRec}

/-! ### `DECOMPRESS` -/

/-- `DECOMPRESS` on a file with an acceptable header and a payload of whole symbols writes the symbols (R266). -/
theorem exec_decompress_reads {es ds : List Entry} {pay : List Byte} {rest : List Bool}
    (hp : s.phase ∈ [Phase.idle, .doneC, .doneD]) (hn : NoFail s) (ha : Acceptable es) (hds : ∀ d ∈ ds, d ∈ es)
    (hl : ds.length < 2 ^ 32) (hin : Presents (headerOf es ds.length ++ pay) s)
    (hb : pay.flatMap byteBits = ds.flatMap Entry.bits ++ rest) :
    ∃ t, exec .decompress s = .next t ∧ t.phase = .doneD ∧ t.out = ds.map Entry.symbol := by
  have h0 : es = [] → ds.length = 0 := fun hes => by
    rw [hes] at hds
    exact List.length_eq_zero_iff.2 (List.eq_nil_iff_forall_not_mem.2 fun d hd => nomatch hds d hd)
  obtain ⟨t, e, f, -, hleaf, -⟩ := rhdrRebuildsTree s es ds.length pay hp hn hin ha hl h0
  obtain ⟨htin, -, -, -, ho⟩ := exec_hostSide e
  have hlen : t.len = s.inLen := (congrArg State.len f :)
  have hrpos : t.rpos.toNat = (headerOf es ds.length).length := by
    have hle := ha.1
    have hr : t.rpos = BitVec.ofNat 32 (6 + 10 * es.length) := (congrArg State.rpos f :)
    rw [hr, BitVec.toNat_ofNat, length_headerOf, Nat.mod_eq_of_lt (by omega)]
  have horig : t.origLen.toNat = (ds.map fun d => (d.bits, d.symbol)).length := by
    have hr : t.origLen = BitVec.ofNat 32 ds.length := (congrArg State.origLen f :)
    rw [hr, BitVec.toNat_ofNat, Nat.mod_eq_of_lt hl, List.length_map]
  have hrbn : t.rbn = 0 := (congrArg State.rbn f :)
  have hbits : readerBits (headerOf es ds.length ++ pay) t =
      (ds.map fun d => (d.bits, d.symbol)).flatMap Prod.fst ++ rest := by
    rw [readerBits_eq, hrpos, hrbn, List.drop_left, hb, List.flatMap_map]
    rfl
  obtain ⟨u, e', f', -⟩ := decWritesSymbols t (headerOf es ds.length ++ pay) (ds.map fun d => (d.bits, d.symbol)) rest
    (congrArg State.phase f :) (fun hm => hn (ho.subset hm)) (by rw [hlen, hin.1]) (by rw [htin]; exact hin.2) horig
    (by
      simp only [List.mem_map, forall_exists_index, and_imp]
      rintro _ d hd rfl
      exact ⟨_, hleaf d (hds d hd), rfl, rfl⟩) hbits
  refine ⟨u, ?_, (congrArg State.phase f' :), (congrArg State.out f' :).trans ?_⟩
  · rw [(wholeFlowsEqualTheirScripts s hp).2, execAll_cons_of_next e, execAll_singleton, e']
  · rw [(congrArg State.out f :), List.nil_append, List.map_map]
    rfl

/-! ### The round trip -/

theorem toNat_length_entry (r : SymRec) : r.entry.length.toNat = r.codeLength.toNat := by
  have := r.codeLength.isLt
  exact (BitVec.toNat_setWidth _ _).trans (Nat.mod_eq_of_lt (by omega))

theorem bits_entry (r : SymRec) : r.entry.bits = codeBits r := by
  rw [Entry.bits, toNat_length_entry]
  rfl

theorem PrefixFree.acceptable (h : PrefixFree rs) (hl : rs.length ≤ 256) : Acceptable (rs.map SymRec.entry) := by
  refine ⟨by rwa [List.length_map], fun e he => ?_, List.pairwise_map.2 ?_⟩
  · obtain ⟨r, hr, rfl⟩ := List.mem_map.1 he
    rw [toNat_length_entry]
    exact h.length_le r hr
  · simpa only [bits_entry] using h.apart

/-- The payload of bytes with records is the paths of their entries (`30_encoding.md` R104). -/
theorem exists_entries (h : ∀ b ∈ bytes, b ∈ rs.map fun r => r.symbol) :
    ∃ ds : List Entry, (∀ d ∈ ds, d ∈ rs.map SymRec.entry) ∧ ds.map Entry.symbol = bytes ∧
      ds.flatMap Entry.bits = payloadBits rs bytes := by
  induction bytes with
  | nil => exact ⟨[], nofun, rfl, rfl⟩
  | cons b bs ih =>
    obtain ⟨ds, hmem, hsymbols, hbits⟩ := ih fun c hc => h c (List.mem_cons_of_mem b hc)
    obtain ⟨r, hr⟩ := find?_of_mem (h b List.mem_cons_self)
    have hrb : r.symbol = b := by simpa using List.find?_some hr
    refine ⟨r.entry :: ds, ?_, ?_, ?_⟩
    · exact List.forall_mem_cons.2 ⟨List.mem_map_of_mem (List.mem_of_find?_eq_some hr), hmem⟩
    · rw [List.map_cons, hsymbols, ← hrb]
      rfl
    · rw [List.flatMap_cons, hbits, bits_entry, payloadBits, payloadBits, List.flatMap_cons, hr]

/-- Settles O48: what `COMPRESS` leaves is a file of the form `DECOMPRESS` reads. -/
theorem decompressInvertsCompress : Obligations.DecompressInvertsCompress := by
  intro bytes s t u hp hn hin e ht hpu hnu hinu
  obtain ⟨rs, pay, pad, hout, hcovers, hfree, hpay⟩ := exec_compress_writesFile hp hn hin e (by rw [ht]; decide)
  obtain ⟨ds, hds, hsymbols, hbits⟩ := exists_entries hcovers.mem
  have hlen : ds.length = bytes.length := by rw [← hsymbols, List.length_map]
  have hacc := hfree.acceptable (by simpa using hcovers.length_le)
  rw [hout, ← hlen] at hinu
  obtain ⟨v, ev, hphase, hv⟩ := exec_decompress_reads hpu hnu hacc hds (by rw [hlen, ← hin.1]; exact s.inLen.isLt) hinu
    (by rw [hpay, hbits])
  exact ⟨v, ev, hphase, hv.trans hsymbols⟩

end Sys2Proof.Machine
end

section
/-!
SUPPORT. The table of legal phases (`46_top_level.md` R262): what a command does in and outside the phases of its row, what
it makes of the error registers, and `DECOMPRESS` as its two commands (R266).
-/
namespace Sys2Proof.Machine

variable {s t : State} {i : Instr} {legal : List Phase} {after : Phase}

/-! ### The rows of R262 -/

theorem ne_rst_of_mem_rows (h : (i, legal, after) ∈ rowsOfR262) : i ≠ .rst :=
  (by decide : ∀ row ∈ rowsOfR262, row.1 ≠ .rst) _ h

theorem phaseAfter_of_mem_rows (h : (i, legal, after) ∈ rowsOfR262) : phaseAfter i = after :=
  (by decide : ∀ row ∈ rowsOfR262, phaseAfter row.1 = row.2.2) _ h

/-- The dispatch finds a command legal exactly in the phases of its row. -/
theorem legalIn_iff_of_mem_rows (h : (i, legal, after) ∈ rowsOfR262) (p : Phase) : legalIn i p = true ↔ p ∈ legal :=
  (by cases p <;> decide : ∀ row ∈ rowsOfR262, legalIn row.1 p = true ↔ p ∈ row.2.1) _ h

/-! ### The dispatch of a word to its command -/

theorem issueWord_of_command {w : Word} (h : decode w = .command i) (s : State) : issueWord w s = exec i s := by
  rw [issueWord, h]

/-- Settles O4: the step issues the word, which is the command's. -/
theorem stepRunsDecodedCommand : Obligations.StepRunsDecodedCommand := by
  intro s w rest i hscript hw
  rw [step_cmdWrite hscript, issueWord_of_command hw]

/-- Settles O6: the dispatch looks at `ERROR` first. -/
theorem errorIgnoresCommands : Obligations.ErrorIgnoresCommands := fun _ _ => exec_of_phase_error

/-- Settles O12: the state after `RST` is the reset state but for what `RST` leaves. -/
theorem rstResetsAllButInLen : Obligations.RstResetsAllButInLen := fun s => ⟨resetByCommand s, exec_rst s, rfl⟩

/-! ### A command outside its row -/

/-- The error registers say `BadSequence(1, w)`, and nothing else changes (R261). -/
theorem exec_of_not_legalIn (hi : i ≠ .rst) (he : s.phase ≠ .error) (hl : legalIn i s.phase ≠ true) :
    exec i s = .next { s with phase := .error, err := .badSequence, errsub := 1, errinfo := encode i } := by
  rw [exec_eq_command hi, command, if_neg he, if_neg hl, raise, BitVec.ofNat_toNat, BitVec.setWidth_eq]

/-- Settles O7: the phases of the row are those the dispatch finds legal. -/
theorem wrongPhaseRaisesBadSequence : Obligations.WrongPhaseRaisesBadSequence := fun _ _ _ _ hrow he hl =>
  exec_of_not_legalIn (ne_rst_of_mem_rows hrow) he (mt (legalIn_iff_of_mem_rows hrow _).1 hl)

theorem phase_of_exec_not_legalIn (hi : i ≠ .rst) (hl : legalIn i s.phase ≠ true) (h : exec i s = .next t) :
    t.phase = .error := by
  by_cases he : s.phase = .error
  · rw [exec_of_phase_error hi he] at h
    cases h
    exact he
  · rw [exec_of_not_legalIn hi he hl] at h
    cases h
    rfl

/-! ### A command in a phase of its row -/

/-- The error registers of `t` are those of `s` (`10_state.md` R24). -/
def SameErrors (s t : State) : Prop := t.err = s.err ∧ t.errsub = s.errsub ∧ t.errinfo = s.errinfo

/-- The command raised (`60_exceptions.md` R285). -/
def ErrorRecorded (t : State) : Prop := t.phase = .error ∧ t.err ≠ .none

/-- Nothing but a raise writes the error registers. -/
theorem kept_sameErrors (s : State) : Kept (SameErrors s) ErrorRecorded where
  pop _ h := h
  raised _ _ _ _ hkind _ := ⟨rfl, hkind⟩
  table _ _ _ _ _ _ h := h
  tree _ _ _ _ h := h
  rest _ _ h _ := h
  phase _ _ h := h
  start _ h := h
  emit _ _ h := h
  bit _ _ h _ := h
  placedRaise _ _ _ _ := ⟨rfl, ErrKind.noConfusion⟩
  clear _ h := h
  take _ h _ := h
  load _ _ h _ := h

theorem rowsEnd_sameErrors (s : State) : RowsEnd (SameErrors s) ErrorRecorded fun _ => True :=
  fun _ _ hi hs _ => (kept_sameErrors s).rows hi hs

/-- In a phase of its row a command leaves the phase of its row, the error registers untouched, or it raised. -/
theorem exec_legalIn_cases (hi : i ≠ .rst) (hl : legalIn i s.phase = true) (h : exec i s = .next t) :
    (SameErrors s t ∧ t.phase = phaseAfter i) ∨ ErrorRecorded t := by
  have hends := (rowsEnd_sameErrors s).body hi ⟨rfl, rfl, rfl⟩ hl
  rw [exec_of_legalIn hi hl] at h
  rcases Res.toOutcome_eq_next.1 h with e | e
  · exact .inl (hends.of_ok e)
  · exact .inr (hends.of_raised e)

/-- Settles O8: in its row a command ends or raises, outside its row the dispatch leaves `ERROR`. -/
theorem commandLeavesPhaseOfItsRow : Obligations.CommandLeavesPhaseOfItsRow := by
  refine ⟨fun i legal after s t hrow h => ⟨fun hl => ?_, fun hl => ?_⟩, fun s => ⟨resetByCommand s, exec_rst s, rfl⟩⟩
  · have hlegal := (legalIn_iff_of_mem_rows hrow _).2 hl
    rw [← phaseAfter_of_mem_rows hrow]
    exact (exec_legalIn_cases (ne_rst_of_mem_rows hrow) hlegal h).imp_left And.symm
  · exact phase_of_exec_not_legalIn (ne_rst_of_mem_rows hrow) (mt (legalIn_iff_of_mem_rows hrow _).1 hl) h

/-! ### `DECOMPRESS` as `RHDR` and `DEC` -/

theorem exec_decompress_of_rhdr (hp : s.phase ∈ [Phase.idle, .doneC, .doneD]) (h : exec .rhdr s = .next t) :
    exec .decompress s = exec .dec t := by
  rw [(wholeFlowsEqualTheirScripts s hp).2, execAll_cons_of_next h, execAll_singleton]

/-- A `DEC` that does not raise changes OUT, `OPOS`, the reader, the oracle's answers and the phase, and where nothing was
written before it `OPOS` counts what it wrote (R236, `10_state.md` R35). -/
theorem exec_dec_done (hp : s.phase = .hdrr) (hw : NothingWritten s) (h : exec .dec s = .next t)
    (ht : t.phase = .doneD) :
    t = { s with out := t.out, opos := BitVec.ofNat 40 t.out.length, rbuf := t.rbuf, rbn := t.rbn, rpos := t.rpos,
                 oracle := t.oracle, phase := .doneD } := by
  have hopos : t.opos = BitVec.ofNat 40 t.out.length := by
    obtain ⟨hcount, -⟩ := keptOutside_outForm.exec rowsEnd_outForm hw.outForm h
    rw [← hcount, BitVec.ofNat_toNat, BitVec.setWidth_eq]
  have herrors : SameErrors s t := by
    rcases exec_legalIn_cases (by decide) (by rw [hp]; rfl) h with ⟨hsame, -⟩ | ⟨herror, -⟩
    · exact hsame
    · rw [ht] at herror
      cases herror
  obtain ⟨herr, hsub, hinfo⟩ := herrors
  have hframe := (exec_dec_frame h).1
  rwa [hopos, ht, herr, hsub, hinfo] at hframe

/-- Settles O47: `RHDR` sets up the run and writes nothing, and what `DEC` leaves follows from OUT. -/
theorem decompressReadsWholeFile : Obligations.DecompressReadsWholeFile := by
  intro s es ds pay rest hp hn ha hds hl hin hb
  have h0 : es = [] → ds.length = 0 := by
    rintro rfl
    exact List.length_eq_zero_iff.2 (List.eq_nil_iff_forall_not_mem.2 fun d hd => nomatch hds d hd)
  obtain ⟨t, e, f, -⟩ := rhdrRebuildsTree s es ds.length pay hp hn hin ha hl h0
  obtain ⟨u, eu, hphase, hout⟩ := exec_decompress_reads hp hn ha hds hl hin hb
  have hw : NothingWritten t := ⟨(congrArg State.out f :), (congrArg State.opos f :),
    accHeld_empty (congrArg State.acc f :) (congrArg State.accn f :)⟩
  have hdec := eu
  rw [exec_decompress_of_rhdr hp e] at hdec
  have hu := exec_dec_done (congrArg State.phase f :) hw hdec hphase
  rw [hout, List.length_map, f] at hu
  refine ⟨u, eu, ?_⟩
  rw [(congrArg State.node hu :), (congrArg State.nnode hu :), (congrArg State.root hu :)]
  exact hu

end Sys2Proof.Machine
end

section
/-!
SUPPORT. The error machinery (`60_exceptions.md`): what a raise writes (R285), what leaves `ERROR` (R287), and the block with
nothing to do (R295).
-/
namespace Sys2Proof.Machine

/-- Settles O18: the raise is one update of the four registers, and the detail is cut to 32 bits. -/
theorem raiseWritesErrorRegisters : Obligations.RaiseWritesErrorRegisters := by
  rintro kind sub info s t rfl
  exact ⟨raise_err .., raise_errsub .., BitVec.toNat_ofNat info 32, raise_phase .., rfl⟩

/-- Settles O10: the step performs the host's next action, and there is none. -/
theorem nothingToDoHoldsState : Obligations.NothingToDoHoldsState := fun _ => step_nil

/-! ### The ways out of `ERROR` -/

theorem storeReg_phase (off v : Word) (s : State) : (storeReg off v s).phase = s.phase := by
  unfold storeReg
  split <;> rfl

/-- A command that leaves `ERROR` is `RST`, because the dispatch ignores every other one there (R261). -/
theorem eq_rst_of_exec_leaves_error {i : Instr} {s t : State} (he : s.phase = .error) (h : exec i s = .next t)
    (ht : t.phase ≠ .error) : i = .rst := by
  by_contra hi
  rw [exec_of_phase_error hi he] at h
  cases h
  exact ht he

/-- Of the host's actions only the `RST` word written to `CMD` and hardware reset leave `ERROR`. -/
theorem hostAct_leaves_error {a : HostAction} {s t : State} (h : hostAct a s = .next t) (he : s.phase = .error)
    (ht : t.phase ≠ .error) : a = .regWrite 0 0x00000001 ∨ a = .hardReset := by
  rcases hostAct_next h with ⟨w, i, rfl, hw, hexec⟩ | ⟨w, rfl, -, rfl⟩ | ⟨off, v, rfl, -, rfl⟩ | ⟨off, rfl, rfl⟩ |
    ⟨bytes, rfl, -, rfl⟩ | ⟨addr, v, rfl, rfl⟩ | ⟨rfl, -⟩
  · obtain rfl := eq_rst_of_exec_leaves_error he hexec ht
    obtain rfl := (decode_eq_command_iff w .rst).1 hw
    exact .inl rfl
  · rw [illegalWord_of_error w he] at ht
    exact absurd he ht
  · rw [storeReg_phase] at ht
    exact absurd he ht
  · exact absurd he ht
  · exact absurd he ht
  · exact absurd he ht
  · exact .inr rfl

/-- Settles O9: without an action the phase stays, and of the actions only those two leave `ERROR`. -/
theorem onlyResetLeavesError : Obligations.OnlyResetLeavesError := by
  intro s t he h ht
  rcases step_cases s with ⟨-, hstep⟩ | ⟨a, rest, hscript, hstep⟩
  · rw [hstep] at h
    cases h
    exact absurd he ht
  · rw [hstep] at h
    refine ⟨rest, ?_⟩
    rw [hscript]
    exact (hostAct_leaves_error h he ht).imp (congrArg (· :: rest)) (congrArg (· :: rest))

end Sys2Proof.Machine
end

section
/-!
SUPPORT. Hardware reset and what the host may do to IN (`70_reset_and_hazards.md` R320, R322, R327): the step for each action,
and the refusals of what the spec leaves undefined (U12, U14).
-/
namespace Sys2Proof.Machine

variable {s : State} {rest : List HostAction} {bytes : List Byte} {off : Word}

/-! ### Hardware reset -/

theorem step_hardReset (h : s.script = .hardReset :: rest) :
    step s = .next (hardwareReset { s with script := rest }) := step_cons h

/-- Settles O13: the registers are those of the reset state, and the host's side is kept (R44). -/
theorem hardResetResetsAll : Obligations.HardResetResetsAll := fun _ _ h => ⟨_, step_hardReset h, rfl⟩

/-! ### The host supplies or changes IN -/

theorem presentable_iff (n : Nat) : presentable n = true ↔ n < 2 ^ 32 := decide_eq_true_iff

theorem step_supply (h : s.script = .supply bytes :: rest) (hb : bytes.length < 2 ^ 32) :
    step s = .next { s with script := rest, input := Store.ofList bytes } :=
  (step_cons h).trans (if_pos ((presentable_iff _).2 hb))

theorem step_setByte {addr : Word} {v : Byte} (h : s.script = .setByte addr v :: rest) :
    step s = .next { s with script := rest, input := Store.write s.input addr.toNat v } := step_cons h

/-! ### The refusals -/

theorem step_supply_too_long (h : s.script = .supply bytes :: rest) (hb : 2 ^ 32 ≤ bytes.length) :
    step s = .refused (.inputTooLong bytes.length) :=
  (step_cons h).trans (if_neg (mt (presentable_iff _).1 (Nat.not_lt.2 hb)))

theorem alignedOffset_iff (off : Word) : alignedOffset off = true ↔ off.toNat % 4 = 0 := beq_iff_eq

theorem step_regWrite_misaligned {v : Word} (h : s.script = .regWrite off v :: rest) (ha : off.toNat % 4 ≠ 0) :
    step s = .refused (.misalignedAccess off) :=
  (step_cons h).trans (if_neg (mt (alignedOffset_iff off).1 ha))

theorem step_regRead_misaligned (h : s.script = .regRead off :: rest) (ha : off.toNat % 4 ≠ 0) :
    step s = .refused (.misalignedAccess off) :=
  (step_cons h).trans (if_neg (mt (alignedOffset_iff off).1 ha))

/-- Settles O17: IN becomes the list of the bytes supplied, or the old IN with one address written; the two guards of the
host's port refuse the rest. -/
theorem hostInputTakenOrRefused : Obligations.HostInputTakenOrRefused := by
  refine ⟨?_, ?_, ?_, ?_, ?_⟩
  · intro s bytes rest h hb
    exact ⟨_, step_supply h hb, rfl, Store.read_ofList bytes⟩
  · intro s addr v rest h
    exact ⟨_, step_setByte h, rfl, fun k => Store.read_write s.input addr.toNat k v⟩
  · intro s bytes rest h hb
    exact step_supply_too_long h hb
  · intro s off v rest h ha
    exact step_regWrite_misaligned h ha
  · intro s off rest h ha
    exact step_regRead_misaligned h ha

end Sys2Proof.Machine
end
section
/-!
SUPPORT. The walk of `CODES` as the list of the codes it gives to its leaves (`43_code_table.md` R181, R182), the table
those codes leave, and the guard at depth 64 (R183).
-/
namespace Sys2Proof.Machine

variable {s t : State} {rs qs ys : List SymRec} {m : Store NodeRec} {p : List Bool} {n room k : Nat} {ht : HTree}
  {xs : List (Byte × List Bool)} {r : SymRec}

theorem exec_codes (hp : s.phase = .treed) : exec .codes s = (codesBody s).toOutcome :=
  exec_of_legalIn (i := .codes) (by decide) (by rw [hp]; rfl)

/-- The table of a state is one list. -/
theorem Table.unique (h : Table rs s) (h' : Table qs s) : rs = qs := by
  have hl : rs.length = qs.length := h.1.symm.trans h'.1
  refine List.ext_getElem? fun i => ?_
  by_cases hi : i < rs.length
  · rw [← h.2 i hi, h'.2 i (hl ▸ hi)]
  · rw [List.getElem?_eq_none (by omega), List.getElem?_eq_none (by omega)]

/-- Settles O33: the codes of two records are the paths to two leaves. -/
theorem assignedCodesArePrefixFree : Obligations.AssignedCodesArePrefixFree := by
  intro s t rs qs root ht hp htab hroot hrep hsyms hnd e hcoded hqs
  have htree : TreeStands rs s := by
    refine ⟨fun hnone => ?_, fun n hn => ?_⟩
    · rw [hroot] at hnone
      cases hnone
    · rw [hroot] at hn
      cases hn
      exact ⟨ht, hrep, hsyms⟩
  have hends := codesBody_assigns htab hnd htree
  rw [exec_codes hp] at e
  rcases Res.toOutcome_eq_next.1 e with hok | hraised
  · obtain ⟨-, ys, hys, -, hfree⟩ := hends.of_ok hok
    rw [hqs.unique hys]
    exact hfree.apart
  · have herror : t.phase = .error := hends.of_raised hraised
    rw [hcoded] at herror
    cases herror

/-! ### The code of a path -/

/-- The code of a path, bit `k` the branch at depth `k` (R181). -/
def pathCode (p : List Bool) : CodeWord := BitVec.ofNat 64 (bitsValue p)

theorem bitsValue_append_singleton (p : List Bool) (b : Bool) :
    bitsValue (p ++ [b]) = bitsValue p + b.toNat * 2 ^ p.length := by
  induction p with
  | nil => simp [bitsValue]
  | cons c p ih =>
    rw [List.cons_append, bitsValue, ih, bitsValue, List.length_cons, Nat.pow_succ]
    ring

theorem pathCode_left (p : List Bool) : pathCode (p ++ [false]) = pathCode p := by
  simp [pathCode, bitsValue_append_singleton]

theorem pathCode_right (p : List Bool) : pathCode (p ++ [true]) = pathCode p + BitVec.twoPow 64 p.length := by
  rw [pathCode, bitsValue_append_singleton, Bool.toNat_true, Nat.one_mul, BitVec.ofNat_add, pathCode]
  congr 1
  apply BitVec.eq_of_toNat_eq
  simp [BitVec.toNat_twoPow]

/-! ### The leaves below a node -/

/-- The leaves of a tree below the end of the path `p`, with their paths. -/
def pathsFrom (p : List Bool) (ht : HTree) : List (Byte × List Bool) := ht.paths.map fun x => (x.1, p ++ x.2)

@[simp] theorem pathsFrom_root (ht : HTree) : pathsFrom [] ht = ht.paths := List.map_id ht.paths

@[simp] theorem pathsFrom_leaf (p : List Bool) (c : Byte) : pathsFrom p (.leaf c) = [(c, p)] := by
  simp [pathsFrom, HTree.paths]

theorem pathsFrom_node (p : List Bool) (l r : HTree) :
    pathsFrom p (.node l r) = pathsFrom (p ++ [false]) l ++ pathsFrom (p ++ [true]) r := by
  simp [pathsFrom, HTree.paths, Function.comp_def]

theorem map_fst_pathsFrom (p : List Bool) (ht : HTree) : (pathsFrom p ht).map Prod.fst = ht.symbols := by
  simp [pathsFrom, HTree.symbols, Function.comp_def]

/-- Each symbol in turn gets the code and the length of its path (R182). -/
def assignAll : List (Byte × List Bool) → State → Res Unit
  | [], s => .ok () s
  | x :: xs, s => (assignCode x.1 (pathCode x.2) x.2.length s).bind fun _ t => assignAll xs t

theorem assignAll_append (xs ys : List (Byte × List Bool)) (s : State) :
    assignAll (xs ++ ys) s = (assignAll xs s).bind fun _ t => assignAll ys t := by
  induction xs generalizing s with
  | nil => rfl
  | cons x xs ih =>
    rw [List.cons_append, assignAll, assignAll, Res.bind_assoc]
    simp only [ih]

theorem assignAll_singleton (x : Byte × List Bool) (s : State) :
    assignAll [x] s = assignCode x.1 (pathCode x.2) x.2.length s := by
  rw [assignAll]
  cases assignCode x.1 (pathCode x.2) x.2.length s <;> rfl

theorem assignCode_keeps_node (c : Byte) (code : CodeWord) (len : Nat) (s : State) :
    (assignCode c code len s).Ends (fun _ t => t.node = s.node) (fun _ => False) fun _ => True := by
  unfold assignCode find
  rcases findFrom_cases c s.nsym.toNat 0 s with ⟨k, q, -, -, hq, -, e⟩ | ⟨-, e⟩ | ⟨k, -, -, -, e⟩ <;> rw [e]
  · simp only [Res.bind_ok, readSym_of_held hq]
    rfl
  · trivial
  · trivial

theorem assignAll_keeps_node (xs : List (Byte × List Bool)) (s : State) :
    (assignAll xs s).Ends (fun _ t => t.node = s.node) (fun _ => False) fun _ => True := by
  induction xs generalizing s with
  | nil => rfl
  | cons x xs ih => exact (assignCode_keeps_node _ _ _ s).bind fun _ t h => (ih t).imp fun _ u hu => hu.trans h

/-- After assignments the walk goes on over the same nodes. -/
theorem bind_assignAll_congr {f g : State → Res Unit} (hs : s.node = m) (h : ∀ t, t.node = m → f t = g t) :
    ((assignAll xs s).bind fun _ t => f t) = (assignAll xs s).bind fun _ t => g t :=
  (assignAll_keeps_node xs s).bind_congr fun _ t ht => h t (ht.trans hs)

/-! ### The walk -/

/-- The walk over a tree no deeper than the room left gives each leaf its path's code and length (R182). -/
theorem visit_eq_assignAll (hrep : Represents m n ht) (hs : s.node = m) (hp : p.length + room = 64)
    (hd : ht.depth ≤ room) : visit room n (pathCode p) s = assignAll (pathsFrom p ht) s := by
  induction hrep generalizing s room p with
  | leaf hr hl =>
    rw [visit_at_leaf (hs ▸ hr) hl, pathsFrom_leaf, assignAll_singleton, show 64 - room = p.length by omega]
  | node hr hl ha hb _ _ ihl ihr =>
    rw [HTree.depth] at hd
    obtain ⟨room, rfl⟩ : ∃ k, room = k + 1 := ⟨room - 1, by omega⟩
    rw [visit_at_inner (hs ▸ hr) hl ha hb, pathsFrom_node, assignAll_append, show 64 - (room + 1) = p.length by omega,
      ← pathCode_right, ← pathCode_left p, ihl hs (by simp; omega) (by omega)]
    exact bind_assignAll_congr hs fun t ht => ihr ht (by simp; omega) (by omega)

/-- The walk over a tree deeper than the room left assigns codes to some leaves and raises at an internal node for which
no room is left (R182, R183). -/
theorem visit_raises (hrep : Represents m n ht) (hp : p.length + room = 64) (hd : room < ht.depth) :
    ∃ xs q j r, (∀ x ∈ xs, x.1 ∈ ht.symbols) ∧ q.length = room ∧ endFrom m n q = some j ∧ Store.read m j = some r ∧
      r.leaf = false ∧ ∀ s, s.node = m → visit room n (pathCode p) s =
        (assignAll xs s).bind fun _ t => .raised (raise .capacityExceeded 1 j t) := by
  induction hrep generalizing room p with
  | leaf hr hl => exact absurd hd (Nat.not_lt_zero room)
  | @node j a b r l u hr hl ha hb hrepl _ ihl ihr =>
    cases room with
    | zero =>
      exact ⟨[], [], j, r, nofun, rfl, rfl, hr, hl, fun s hs => visit_at_depth_limit (hs ▸ hr) hl _⟩
    | succ room =>
      have hplen : 64 - (room + 1) = p.length := by omega
      rw [HTree.depth] at hd
      by_cases hdl : room < l.depth
      · obtain ⟨xs, q, i, e, hxs, hq, hend, hi, hleaf, hv⟩ := ihl (p := p ++ [false]) (by simp; omega) hdl
        refine ⟨xs, false :: q, i, e, fun x hx => ?_, by simp [hq], ?_, hi, hleaf, fun s hs => ?_⟩
        · simp [hxs x hx]
        · simp [endFrom, hr, hl, ha, hend]
        · rw [visit_at_inner (hs ▸ hr) hl ha hb, ← pathCode_left p, hv s hs, Res.bind_assoc]
          rfl
      · obtain ⟨xs, q, i, e, hxs, hq, hend, hi, hleaf, hv⟩ := ihr (p := p ++ [true]) (room := room) (by simp; omega)
          (by omega)
        refine ⟨pathsFrom (p ++ [false]) l ++ xs, true :: q, i, e, fun x hx => ?_, by simp [hq], ?_, hi, hleaf,
          fun s hs => ?_⟩
        · rw [HTree.symbols_node, List.mem_append]
          refine (List.mem_append.1 hx).imp (fun hx => ?_) (hxs x)
          rw [← map_fst_pathsFrom (p ++ [false])]
          exact List.mem_map_of_mem hx
        · simp [endFrom, hr, hl, hb, hend]
        · rw [visit_at_inner (hs ▸ hr) hl ha hb, hplen, ← pathCode_right, ← pathCode_left p,
            visit_eq_assignAll hrepl hs (by simp; omega) (by omega), assignAll_append, Res.bind_assoc]
          exact bind_assignAll_congr hs hv

/-! ### The table after the assignments -/

/-- A record whose symbol has this path (R182). -/
def SymRec.withPath (r : SymRec) (x : Byte × List Bool) : SymRec :=
  if r.symbol = x.1 then { r with code := pathCode x.2, codeLength := BitVec.ofNat 7 x.2.length } else r

/-- A record after each of these paths has gone to the record of its symbol. -/
def SymRec.withPaths (r : SymRec) (xs : List (Byte × List Bool)) : SymRec := xs.foldl SymRec.withPath r

theorem symbol_withPath (r : SymRec) (x : Byte × List Bool) : (r.withPath x).symbol = r.symbol := by
  unfold SymRec.withPath
  split <;> rfl

theorem frequency_withPath (r : SymRec) (x : Byte × List Bool) : (r.withPath x).frequency = r.frequency := by
  unfold SymRec.withPath
  split <;> rfl

@[simp] theorem symbol_withPaths (r : SymRec) (xs : List (Byte × List Bool)) : (r.withPaths xs).symbol = r.symbol := by
  induction xs generalizing r with
  | nil => rfl
  | cons x xs ih => exact (ih _).trans (symbol_withPath r x)

@[simp] theorem frequency_withPaths (r : SymRec) (xs : List (Byte × List Bool)) :
    (r.withPaths xs).frequency = r.frequency := by
  induction xs generalizing r with
  | nil => rfl
  | cons x xs ih => exact (ih _).trans (frequency_withPath r x)

theorem withPaths_of_not_mem (h : r.symbol ∉ xs.map Prod.fst) : r.withPaths xs = r := by
  induction xs with
  | nil => rfl
  | cons x xs ih =>
    rw [List.map_cons, List.mem_cons, not_or] at h
    obtain ⟨hx, hxs⟩ := h
    rw [SymRec.withPaths, List.foldl_cons, SymRec.withPath, if_neg hx]
    exact ih hxs

theorem withPaths_of_mem (hnd : (xs.map Prod.fst).Nodup) (h : (r.symbol, p) ∈ xs) :
    r.withPaths xs = { r with code := pathCode p, codeLength := BitVec.ofNat 7 p.length } := by
  induction xs with
  | nil => cases h
  | cons x xs ih =>
    rw [List.map_cons, List.nodup_cons] at hnd
    obtain ⟨hx, hnd⟩ := hnd
    rw [SymRec.withPaths, List.foldl_cons, SymRec.withPath]
    rcases List.mem_cons.1 h with rfl | h
    · rw [if_pos rfl]
      exact withPaths_of_not_mem hx
    · have hne : r.symbol ≠ x.1 := fun e => hx (e ▸ List.mem_map_of_mem (f := Prod.fst) h)
      rw [if_neg hne]
      exact ih hnd h

/-- `t` is `s` after assignments to the table `qs`: its table `ys` has the symbols of `qs`, each record with its path
where they are distinct, and nothing else has changed. -/
structure Assigned (xs : List (Byte × List Bool)) (qs : List SymRec) (s : State) (ys : List SymRec) (t : State) :
    Prop where
  frame : t = { s with sym := t.sym }
  table : Table ys t
  symbols : (ys.map fun r => r.symbol) = qs.map fun r => r.symbol
  records : (qs.map fun r => r.symbol).Nodup → ys = qs.map fun r => r.withPaths xs
  above : ∀ i, qs.length ≤ i → Store.read t.sym i = Store.read s.sym i

theorem Assigned.refl (h : Table qs s) : Assigned [] qs s qs s :=
  ⟨rfl, h, rfl, fun _ => (List.map_id qs).symm, fun _ _ => rfl⟩

theorem Assigned.cons {x : Byte × List Bool} {u : State} {zs : List SymRec} (h : Assigned [x] qs s ys t)
    (h' : Assigned xs ys t zs u) : Assigned (x :: xs) qs s zs u where
  frame := by rw [h'.frame, h.frame]
  table := h'.table
  symbols := h'.symbols.trans h.symbols
  records hnd := by
    rw [h'.records (h.symbols ▸ hnd), h.records hnd, List.map_map]
    rfl
  above i hi := by
    have hl : ys.length = qs.length := by simpa using congrArg List.length h.symbols
    rw [h'.above i (hl ▸ hi), h.above i hi]

/-- The record a symbol is found at is the one that gets its path. -/
theorem set_withPath {x : Byte × List Bool} (hnd : (qs.map fun r => r.symbol).Nodup) (hk : k < qs.length)
    (hx : qs[k].symbol = x.1) : qs.set k (qs[k].withPath x) = qs.map fun r => r.withPath x := by
  refine List.ext_getElem (by simp) fun i hi _ => ?_
  rw [List.length_set] at hi
  rw [List.getElem_map]
  by_cases hik : k = i
  · subst hik
    rw [List.getElem_set_self]
  · have hne : qs[i].symbol ≠ x.1 := hx ▸ symbol_ne_of_ne hnd hi hk (Ne.symm hik)
    rw [List.getElem_set_ne hik]
    exact (if_neg hne).symm

/-- A record written over one with its symbol leaves the symbols of the table as they are. -/
theorem map_symbol_set (hk : k < qs.length) (hr : r.symbol = qs[k].symbol) :
    ((qs.set k r).map fun q => q.symbol) = qs.map fun q => q.symbol := by
  have hself := List.set_getElem_self (as := qs.map fun q => q.symbol) (i := k) (by simpa using hk)
  rw [List.getElem_map] at hself
  rw [List.map_set, hr, hself]

/-- A leaf whose symbol is in the table does not stop the walk (R182, R184). -/
theorem assignCode_assigns (h : Table qs s) {x : Byte × List Bool} (hx : x.1 ∈ qs.map fun r => r.symbol) :
    ∃ t ys, assignCode x.1 (pathCode x.2) x.2.length s = .ok () t ∧ Assigned [x] qs s ys t := by
  rcases find_table h x.1 with ⟨k, r, hr, hc, e⟩ | ⟨hnot, -⟩
  · obtain ⟨hk, rfl⟩ := List.getElem?_eq_some_iff.1 hr
    have hpath : qs[k].withPath x = { qs[k] with code := pathCode x.2, codeLength := BitVec.ofNat 7 x.2.length } :=
      if_pos hc
    refine ⟨writeSym k (qs[k].withPath x) s, qs.set k (qs[k].withPath x), ?_, rfl, h.writeSym hk _,
      map_symbol_set hk (symbol_withPath _ _), fun hnd => set_withPath hnd hk hc,
      fun i hi => Store.read_write_other _ _ (by omega)⟩
    rw [assignCode, e, Res.bind_ok, hpath]
    simp only [readSym_of_held ((h.2 k hk).trans hr), Res.bind_ok]
  · exact absurd hx hnot

/-- The assignments to symbols of the table all succeed (R182, R184). -/
theorem assignAll_assigns (h : Table qs s) (hxs : ∀ x ∈ xs, x.1 ∈ qs.map fun r => r.symbol) :
    ∃ t ys, assignAll xs s = .ok () t ∧ Assigned xs qs s ys t := by
  induction xs generalizing qs s with
  | nil => exact ⟨s, qs, rfl, .refl h⟩
  | cons x xs ih =>
    obtain ⟨hx, hrest⟩ := List.forall_mem_cons.1 hxs
    obtain ⟨t, ys, e, ha⟩ := assignCode_assigns h hx
    obtain ⟨u, zs, e', ha'⟩ := ih ha.table (ha.symbols ▸ hrest)
    exact ⟨u, zs, by rw [assignAll, e, Res.bind_ok, e'], ha.cons ha'⟩

/-! ### The command -/

/-- `CODES` on a tree of depth at most 64 over symbols of the table (R182). -/
theorem codesBody_assigns_paths (h : Table rs s) (hroot : s.root = some n) (hrep : Represents s.node n ht)
    (hd : ht.depth ≤ 64) (hsyms : ∀ c ∈ ht.symbols, c ∈ rs.map fun r => r.symbol) :
    ∃ t ys, codesBody s = .ok () (setPhase .coded t) ∧ Assigned ht.paths rs s ys t := by
  obtain ⟨t, ys, e, ha⟩ := assignAll_assigns h fun x hx => hsyms _ (List.mem_map_of_mem (f := Prod.fst) hx)
  refine ⟨t, ys, ?_, ha⟩
  have hv := visit_eq_assignAll (p := []) hrep rfl rfl hd
  rw [pathsFrom_root, e] at hv
  have hv : visit Config.codeW n 0 s = .ok () t := hv
  rw [codesBody, hroot]
  simp only [hv, Res.bind_ok]
  rfl

/-- Settles O32: the walk gives each leaf's symbol its path, and the table has that symbol once. -/
theorem codesAssignsPaths : Obligations.CodesAssignsPaths := by
  refine ⟨fun s rs root ht hp htab hroot hrep hd hnd hleaves hsyms => ?_, fun s hp hroot => ?_⟩
  · obtain ⟨t, ys, e, ha⟩ := codesBody_assigns_paths htab hroot hrep hd hsyms
    obtain rfl := ha.records hnd
    have hread : ∀ i r, rs[i]? = some r → Store.read t.sym i = some (r.withPaths ht.paths) := fun i r hr => by
      have hi : i < rs.length := (List.getElem?_eq_some_iff.1 hr).1
      rw [ha.table.2 i (by simpa using hi), List.getElem?_map, hr, Option.map_some]
    refine ⟨setPhase .coded t, by rw [exec_codes hp, e, Res.toOutcome_ok], congrArg (setPhase .coded) ha.frame,
      fun i r c p hr hp hc => ?_, fun i r hr hc => ?_, ha.above⟩
    · subst hc
      exact (hread i r hr).trans (congrArg some (withPaths_of_mem hleaves hp))
    · exact (hread i r hr).trans (congrArg some (withPaths_of_not_mem hc))
  · have e : codesBody s = finish .coded s := by rw [codesBody, hroot]
    rw [exec_codes hp, e]
    rfl

/-- Settles O34: the walk raises at the first node it meets at depth 64 that is internal. -/
theorem codesGuardsCapacity : Obligations.CodesGuardsCapacity := by
  intro s rs root ht hp htab hroot hrep hd hsyms
  obtain ⟨xs, q, j, r, hxs, hq, hend, hr, hleaf, hv⟩ := visit_raises (p := []) hrep rfl hd
  obtain ⟨t, ys, e, ha⟩ := assignAll_assigns htab fun x hx => hsyms _ (hxs x hx)
  have hv : visit Config.codeW root 0 s = .raised (raise .capacityExceeded 1 j t) := by
    have := hv s rfl
    rwa [e] at this
  refine ⟨raise .capacityExceeded 1 j t, j, q, r, ?_, congrArg (raise .capacityExceeded 1 j) ha.frame, hq, ?_, hr,
    hleaf⟩
  · rw [exec_codes hp, codesBody, hroot]
    simp only [hv, Res.bind_raised, Res.toOutcome_raised]
  · rw [endOf, hroot]
    exact hend

end Sys2Proof.Machine
end
section
/-!
SUPPORT. The weights of the nodes while `TREE` merges (`42_tree_builder.md` R161, R162), and from them the depth of its
tree: two levels up a weight at least doubles, so a tree of weight below 2^32 is no deeper than 63 (`43_code_table.md`
R186).
-/
namespace Sys2Proof.Machine

variable {s t : State} {rs : List SymRec} {x : Store NodeRec} {h h' : Heads} {k a b : Nat}

/-! ### The weights -/

/-- The frequency of a node as a number. -/
def weightAt (x : Store NodeRec) (j : Nat) : Nat := (freqAt x j).toNat

/-- Node `c` is a child of node `j`. -/
def HasChild (x : Store NodeRec) (j c : Nat) : Prop :=
  ∃ r, Store.read x j = some r ∧ (r.left = some c ∨ r.right = some c)

theorem BuiltOver.lt_of_hasChild (hb : BuiltOver rs k x) {j c : Nat} (hj : j < k) (hc : HasChild x j c) : c < j := by
  obtain ⟨r, hr, hc⟩ := hc
  exact hb.child_lt hj hr hc

theorem BuiltOver.not_hasChild_leaf (hb : BuiltOver rs k x) {j c : Nat} (hj : j < rs.length) : ¬ HasChild x j c := by
  rintro ⟨r, hr, hc⟩
  rw [hb.read_leaf hj] at hr
  cases hr
  rcases hc with hc | hc <;> cases hc

theorem BuiltOver.weightAt_leaf (hb : BuiltOver rs k x) {j : Nat} (hj : j < rs.length) :
    weightAt x j = rs[j].frequency.toNat :=
  congrArg BitVec.toNat (freqAt_of_read (hb.read_leaf hj))

/-- An internal node is at most as heavy as its children together. -/
theorem BuiltOver.weightAt_inner_le (hb : BuiltOver rs k x) {j : Nat} (hl : rs.length ≤ j) (hj : j < k) :
    ∃ c d, HasChild x j c ∧ HasChild x j d ∧ weightAt x j ≤ weightAt x c + weightAt x d := by
  obtain ⟨c, d, rc, rd, -, -, -, hc, hd, hr⟩ := hb.inner j hl hj
  refine ⟨c, d, ⟨_, hr, .inl rfl⟩, ⟨_, hr, .inr rfl⟩, ?_⟩
  rw [weightAt, weightAt, weightAt, freqAt_of_read hr, freqAt_of_read hc, freqAt_of_read hd]
  exact (BitVec.toNat_add _ _).trans_le (Nat.mod_le _ _)

/-- The node a merge of `a` and `b` allocates (R162). -/
def mergedNode (x : Store NodeRec) (a b : Nat) : NodeRec := innerNode (freqAt x a + freqAt x b) (some a) (some b)

/-- The node memory after a merge of `a` and `b`, `k` nodes in use before it (R162). -/
def afterMerge (x : Store NodeRec) (k a b : Nat) : Store NodeRec := Store.write x k (mergedNode x a b)

theorem weightAt_afterMerge_of_lt {j : Nat} (hj : j < k) : weightAt (afterMerge x k a b) j = weightAt x j := by
  rw [weightAt, freqAt, afterMerge, Store.read_write_other _ _ (Nat.ne_of_lt hj)]
  rfl

theorem weightAt_afterMerge_new (h : weightAt x a + weightAt x b < 2 ^ 32) :
    weightAt (afterMerge x k a b) k = weightAt x a + weightAt x b := by
  rw [weightAt, afterMerge, freqAt_of_read (Store.read_write_same _ _ _)]
  exact BitVec.toNat_add_of_lt h

theorem hasChild_afterMerge_of_lt {j c : Nat} (hj : j < k) : HasChild (afterMerge x k a b) j c ↔ HasChild x j c := by
  rw [HasChild, afterMerge, Store.read_write_other _ _ (Nat.ne_of_lt hj)]
  rfl

theorem hasChild_afterMerge_new {c : Nat} : HasChild (afterMerge x k a b) k c ↔ c = a ∨ c = b := by
  rw [HasChild, afterMerge, Store.read_write_same]
  simp [mergedNode, innerNode, eq_comm]

/-! ### The invariant of the merges -/

/-- A table for which no sum of `TREE` wraps (R163): observed symbols in the order of their frequencies. -/
structure FitsTree (rs : List SymRec) : Prop where
  positive : ∀ r ∈ rs, r.frequency ≠ 0
  sorted : rs.Pairwise fun a b => a.frequency ≤ b.frequency
  total : (rs.map fun r => r.frequency.toNat).sum < 2 ^ 32

/-- While `TREE` merges, `k` nodes in use: the records left weigh less than 2^32 together and none of them less than a
record already merged, the internal nodes stand in the order of their weights, and a node weighs at least twice as much
as a child of its child. -/
structure Weighed (rs : List SymRec) (h : Heads) (k : Nat) (x : Store NodeRec) : Prop where
  positive : ∀ j, j < k → 0 < weightAt x j
  total : ((h.pending rs.length k).map (weightAt x)).sum < 2 ^ 32
  light : ∀ j c, j < k → HasChild x j c → ∀ p ∈ h.pending rs.length k, weightAt x c ≤ weightAt x p
  ordered : ∀ i j, rs.length ≤ i → i ≤ j → j < k → weightAt x i ≤ weightAt x j
  doubled : ∀ j c d, j < k → HasChild x j c → HasChild x c d → 2 * weightAt x d ≤ weightAt x j

theorem weighed_leaves (hb : BuiltOver rs rs.length x) (hfit : FitsTree rs) :
    Weighed rs { lq := 0, iq := rs.length } rs.length x where
  positive j hj := by
    rw [hb.weightAt_leaf hj]
    exact Nat.pos_of_ne_zero fun h0 => hfit.positive _ (List.getElem_mem hj) (BitVec.eq_of_toNat_eq h0)
  total := by
    have hp : Heads.pending rs.length rs.length { lq := 0, iq := rs.length } = List.range rs.length := by
      simp [Heads.pending, List.range_eq_range']
    have hw : (List.range rs.length).map (weightAt x) = rs.map fun r => r.frequency.toNat :=
      List.ext_getElem (by simp) fun i hi _ => by
        rw [List.getElem_map, List.getElem_range, List.getElem_map, hb.weightAt_leaf (by simpa using hi)]
    rw [hp, hw]
    exact hfit.total
  light _ _ hj hc := absurd hc (hb.not_hasChild_leaf hj)
  ordered _ _ hi hij hj := by omega
  doubled _ _ _ hj hc := absurd hc (hb.not_hasChild_leaf hj)

/-- `a` and `b` are taken from the records left, each of them a least one; the queues are then at `h'`. -/
structure LeastTaken (n : Nat) (h h' : Heads) (k : Nat) (x : Store NodeRec) (a b : Nat) : Prop where
  inUse : n ≤ k
  inner : h'.iq ≤ k
  perm : (h.pending n k).Perm (a :: b :: h'.pending n k)
  first : ∀ p ∈ h.pending n k, weightAt x a ≤ weightAt x p
  second : ∀ p ∈ h'.pending n k, weightAt x b ≤ weightAt x p

section
variable (hl : LeastTaken rs.length h h' k x a b)
include hl

theorem LeastTaken.mem_iff {p : Nat} :
    p ∈ h.pending rs.length k ↔ p = a ∨ p = b ∨ p ∈ h'.pending rs.length k := by
  rw [hl.perm.mem_iff, List.mem_cons, List.mem_cons]

theorem LeastTaken.lt {p : Nat} (hp : p = a ∨ p = b ∨ p ∈ h'.pending rs.length k) : p < k :=
  Heads.lt_of_mem_pending hl.inUse (hl.mem_iff.2 hp)

theorem LeastTaken.sum_eq : ((h.pending rs.length k).map (weightAt x)).sum =
    weightAt x a + (weightAt x b + ((h'.pending rs.length k).map (weightAt x)).sum) := by
  rw [(hl.perm.map _).sum_eq, List.map_cons, List.map_cons, List.sum_cons, List.sum_cons]

/-- A child of a node in use after the merge is one of the two or was a child before it. -/
theorem LeastTaken.child_cases (hb : BuiltOver rs k x) {j c : Nat} (hj : j < k + 1)
    (hc : HasChild (afterMerge x k a b) j c) :
    c < k ∧ ((c = a ∨ c = b) ∨ j < k ∧ HasChild x j c) := by
  rcases Nat.lt_succ_iff_lt_or_eq.1 hj with hj | rfl
  · rw [hasChild_afterMerge_of_lt hj] at hc
    exact ⟨Nat.lt_trans (hb.lt_of_hasChild hj hc) hj, .inr ⟨hj, hc⟩⟩
  · rw [hasChild_afterMerge_new] at hc
    exact ⟨hl.lt (hc.imp_right .inl), .inl hc⟩

variable (hw : Weighed rs h k x)
include hw

theorem LeastTaken.weightAt_new : weightAt (afterMerge x k a b) k = weightAt x a + weightAt x b := by
  have := hw.total
  rw [hl.sum_eq] at this
  exact weightAt_afterMerge_new (by omega)

/-- A record merged before weighs no more than either of the two. -/
theorem LeastTaken.child_le {j c : Nat} (hj : j < k) (hc : HasChild x j c) :
    weightAt x c ≤ weightAt x a ∧ weightAt x c ≤ weightAt x b :=
  ⟨hw.light j c hj hc a (hl.mem_iff.2 (.inl rfl)), hw.light j c hj hc b (hl.mem_iff.2 (.inr (.inl rfl)))⟩

theorem LeastTaken.total : ((h'.pending rs.length (k + 1)).map (weightAt (afterMerge x k a b))).sum < 2 ^ 32 := by
  have hrest :
      (h'.pending rs.length k).map (weightAt (afterMerge x k a b)) = (h'.pending rs.length k).map (weightAt x) :=
    List.map_congr_left fun p hp => weightAt_afterMerge_of_lt (hl.lt (.inr (.inr hp)))
  have := hw.total
  rw [hl.sum_eq] at this
  rw [((Heads.pending_succ hl.inner).map _).sum_eq, List.map_cons, List.sum_cons, hl.weightAt_new hw, hrest]
  omega

theorem LeastTaken.light (hb : BuiltOver rs k x) {j c p : Nat} (hj : j < k + 1)
    (hc : HasChild (afterMerge x k a b) j c) (hp : p ∈ h'.pending rs.length (k + 1)) :
    weightAt (afterMerge x k a b) c ≤ weightAt (afterMerge x k a b) p := by
  obtain ⟨hck, hc⟩ := hl.child_cases hb hj hc
  rw [weightAt_afterMerge_of_lt hck]
  rw [(Heads.pending_succ hl.inner).mem_iff, List.mem_cons] at hp
  rcases hp with rfl | hp
  · rw [hl.weightAt_new hw]
    rcases hc with (rfl | rfl) | ⟨hj, hc⟩
    · exact Nat.le_add_right _ _
    · exact Nat.le_add_left _ _
    · exact Nat.le_add_right_of_le (hl.child_le hw hj hc).1
  · have hmem := hl.mem_iff.2 (.inr (.inr hp))
    rw [weightAt_afterMerge_of_lt (hl.lt (.inr (.inr hp)))]
    rcases hc with (rfl | rfl) | ⟨hj, hc⟩
    · exact hl.first p hmem
    · exact hl.second p hp
    · exact hw.light j c hj hc p hmem

/-- The new node is at least as heavy as every internal node before it. -/
theorem LeastTaken.ordered (hb : BuiltOver rs k x) {i j : Nat} (hi : rs.length ≤ i) (hij : i ≤ j) (hj : j < k + 1) :
    weightAt (afterMerge x k a b) i ≤ weightAt (afterMerge x k a b) j := by
  rcases Nat.lt_succ_iff_lt_or_eq.1 hj with hj | rfl
  · rw [weightAt_afterMerge_of_lt (by omega), weightAt_afterMerge_of_lt hj]
    exact hw.ordered i j hi hij hj
  · rcases Nat.lt_or_eq_of_le hij with hij | rfl
    · obtain ⟨c, d, hc, hd, hle⟩ := hb.weightAt_inner_le hi hij
      have hca := (hl.child_le hw hij hc).1
      have hdb := (hl.child_le hw hij hd).2
      rw [weightAt_afterMerge_of_lt hij, hl.weightAt_new hw]
      omega
    · exact Nat.le_refl _

/-- The new node is at least twice as heavy as every child of the two. -/
theorem LeastTaken.doubled (hb : BuiltOver rs k x) {j c d : Nat} (hj : j < k + 1)
    (hc : HasChild (afterMerge x k a b) j c) (hd : HasChild (afterMerge x k a b) c d) :
    2 * weightAt (afterMerge x k a b) d ≤ weightAt (afterMerge x k a b) j := by
  have hck := (hl.child_cases hb hj hc).1
  rw [hasChild_afterMerge_of_lt hck] at hd
  rw [weightAt_afterMerge_of_lt (Nat.lt_trans (hb.lt_of_hasChild hck hd) hck)]
  rcases Nat.lt_succ_iff_lt_or_eq.1 hj with hj | rfl
  · rw [hasChild_afterMerge_of_lt hj] at hc
    rw [weightAt_afterMerge_of_lt hj]
    exact hw.doubled j c d hj hc hd
  · obtain ⟨hda, hdb⟩ := hl.child_le hw hck hd
    rw [hl.weightAt_new hw]
    omega

/-- A merge of two least records keeps the invariant. -/
theorem LeastTaken.weighed (hb : BuiltOver rs k x) : Weighed rs h' (k + 1) (afterMerge x k a b) where
  positive j hj := by
    rcases Nat.lt_succ_iff_lt_or_eq.1 hj with hj | rfl
    · rw [weightAt_afterMerge_of_lt hj]
      exact hw.positive j hj
    · rw [hl.weightAt_new hw]
      exact Nat.add_pos_left (hw.positive a (hl.lt (.inl rfl))) _
  total := hl.total hw
  light _ _ hj hc _ hp := hl.light hw hb hj hc hp
  ordered _ _ hi hij hj := hl.ordered hw hb hi hij hj
  doubled _ _ _ hj hc hd := hl.doubled hw hb hj hc hd

end

/-! ### The merges -/

/-- `pick` takes a least record where both queues are in order (R161). -/
theorem pick_least (hb : BuiltOver rs s.nnode.toNat s.node) (hfirst : rs.length ≤ h.iq)
    (hsorted : rs.Pairwise fun a b => a.frequency ≤ b.frequency)
    (hord : ∀ i j, rs.length ≤ i → i ≤ j → j < s.nnode.toNat → weightAt s.node i ≤ weightAt s.node j)
    (e : pick rs.length h s = .ok (a, h') s) :
    ∀ p ∈ h.pending rs.length s.nnode.toNat, weightAt s.node a ≤ weightAt s.node p := by
  have leaves : ∀ j, h.lq ≤ j → j < rs.length → weightAt s.node h.lq ≤ weightAt s.node j := fun j hlj hj => by
    rw [hb.weightAt_leaf hj, hb.weightAt_leaf (by omega)]
    rcases Nat.lt_or_eq_of_le hlj with hlt | rfl
    · exact BitVec.le_def.1 (List.pairwise_iff_getElem.1 hsorted _ _ (by omega) hj hlt)
    · exact Nat.le_refl _
  have inners : ∀ j, h.iq ≤ j → j < s.nnode.toNat → weightAt s.node h.iq ≤ weightAt s.node j := fun j =>
    hord h.iq j hfirst
  intro p hp
  rw [Heads.pending, List.mem_append, List.mem_range'_1, List.mem_range'_1] at hp
  by_cases hl : h.lq < rs.length
  · by_cases hi : h.iq < s.nnode.toNat
    · obtain ⟨l, hrl⟩ := hb.held (j := h.lq) (by omega)
      obtain ⟨r, hrr⟩ := hb.held hi
      have wl : weightAt s.node h.lq = l.frequency.toNat := congrArg BitVec.toNat (freqAt_of_read hrl)
      have wr : weightAt s.node h.iq = r.frequency.toNat := congrArg BitVec.toNat (freqAt_of_read hrr)
      by_cases hf : l.frequency ≤ r.frequency
      · rw [pick_leaf_of_le hl hi hrl hrr hf] at e
        cases e
        rw [BitVec.le_def] at hf
        rcases hp with hp | hp
        · exact leaves p (by omega) (by omega)
        · exact Nat.le_trans (by omega) (inners p (by omega) (by omega))
      · have hf := BitVec.not_le.1 hf
        rw [pick_inner_of_lt hl hi hrl hrr hf] at e
        cases e
        rw [BitVec.lt_def] at hf
        rcases hp with hp | hp
        · exact Nat.le_trans (by omega) (leaves p (by omega) (by omega))
        · exact inners p (by omega) (by omega)
    · rw [pick_leaf_of_no_inner hl (by omega)] at e
      cases e
      exact leaves p (by omega) (by omega)
  · rw [pick_inner_of_no_leaf (by omega)] at e
    cases e
    exact inners p (by omega) (by omega)

/-- A merge takes two least records (R161, R162). -/
theorem Weighed.merge_takes_least (hw : Weighed rs h s.nnode.toNat s.node) (hg : Forested rs h s.nnode.toNat s.node)
    (hsorted : rs.Pairwise fun a b => a.frequency ≤ b.frequency) (hk : s.nnode.toNat + 2 ≤ 2 * rs.length) :
    ∃ a b h', merge rs.length h s = .ok h' (allocNode (mergedNode s.node a b) s) ∧
      LeastTaken rs.length h h' s.nnode.toNat s.node a b := by
  obtain ⟨hb, -, hfirst, hinner, -, hcount⟩ := hg
  have hn : rs.length ≤ s.nnode.toNat := Nat.le_trans hfirst hinner
  have held : ∀ j, j < s.nnode.toNat → ∃ r, Store.read s.node j = some r := fun _ => hb.held
  obtain ⟨a, h1, e1, hp1, hle1, hi1⟩ := pick_takes_pending held hn hinner (List.length_pos_iff.1 (by omega))
  obtain ⟨b, h2, e2, hp2, -, hi2⟩ := pick_takes_pending (h := h1) held hn hi1
    (List.length_pos_iff.1 (by have := hp1.length_eq; rw [List.length_cons] at this; omega))
  have hl : LeastTaken rs.length h h2 s.nnode.toNat s.node a b :=
    ⟨hn, hi2, hp1.trans (hp2.cons a), pick_least hb hfirst hsorted hw.ordered e1, fun p hp =>
      pick_least hb (Nat.le_trans hfirst hle1) hsorted hw.ordered e2 p (hp2.mem_iff.2 (List.mem_cons_of_mem b hp))⟩
  obtain ⟨ra, hra⟩ := hb.held (hl.lt (.inl rfl))
  obtain ⟨rb, hrb⟩ := hb.held (hl.lt (.inr (.inl rfl)))
  refine ⟨a, b, h2, ?_, hl⟩
  simp only [Machine.merge, e1, e2, Res.bind_ok, readNode_of_held hra, readNode_of_held hrb, mergedNode,
    freqAt_of_read hra, freqAt_of_read hrb]

/-- A merge leaves the forest and its weights in order (R162). -/
theorem Weighed.merge (hw : Weighed rs h s.nnode.toNat s.node) (hg : Forested rs h s.nnode.toNat s.node)
    (hsorted : rs.Pairwise fun a b => a.frequency ≤ b.frequency) (hk : s.nnode.toNat + 2 ≤ 2 * rs.length) :
    ∃ h' r, merge rs.length h s = .ok h' (allocNode r s) ∧
      Forested rs h' (s.nnode.toNat + 1) (allocNode r s).node ∧
      Weighed rs h' (s.nnode.toNat + 1) (allocNode r s).node := by
  obtain ⟨h', r, e, hg'⟩ := hg.merge hk
  obtain ⟨a, b, h'', e', hl⟩ := hw.merge_takes_least hg hsorted hk
  obtain ⟨rfl, hnode⟩ := Res.ok.inj (e.symm.trans e')
  refine ⟨h', r, e, hg', ?_⟩
  rw [hnode]
  exact hl.weighed hw hg.built

theorem Weighed.mergeTimes {m : Nat} (hw : Weighed rs h s.nnode.toNat s.node)
    (hg : Forested rs h s.nnode.toNat s.node) (hsorted : rs.Pairwise fun a b => a.frequency ≤ b.frequency)
    (hm : s.nnode.toNat + m < 2 * rs.length) (hroom : s.nnode.toNat + m < 2 ^ 15)
    (e : mergeTimes rs.length m h s = .ok () t) : ∃ h', Weighed rs h' (s.nnode.toNat + m) t.node := by
  induction m generalizing h s with
  | zero =>
    cases e
    exact ⟨h, hw⟩
  | succ m ih =>
    obtain ⟨h1, r, e1, hg1, hw1⟩ := hw.merge hg hsorted (by omega)
    have hsucc : (allocNode r s).nnode.toNat = s.nnode.toNat + 1 := toNat_nnode_succ (by omega)
    rw [Machine.mergeTimes, e1, Res.bind_ok] at e
    rw [← hsucc] at hg1 hw1
    obtain ⟨h', hw'⟩ := ih hw1 hg1 (by omega) (by omega) e
    exact ⟨h', by rwa [hsucc, Nat.add_assoc, Nat.add_comm 1 m] at hw'⟩

/-! ### The depth -/

theorem le_of_half_pow_le {d w : Nat} (hle : 2 ^ (d / 2) ≤ w) (hw : w < 2 ^ 32) : d ≤ 63 := by
  have := (Nat.pow_lt_pow_iff_right (by decide : 1 < 2)).1 (Nat.lt_of_le_of_lt hle hw)
  omega

/-- A tree of depth `d` weighs at least 2^(d/2), and so does, one level less deep, a child of its root. -/
theorem Weighed.half_pow_depth_le (hw : Weighed rs h k x) (hb : BuiltOver rs k x) {j : Nat} {ht : HTree}
    (hrep : Represents x j ht) (hj : j < k) :
    2 ^ (ht.depth / 2) ≤ weightAt x j ∧
      (0 < ht.depth → ∃ c, HasChild x j c ∧ 2 ^ ((ht.depth - 1) / 2) ≤ weightAt x c) := by
  induction hrep with
  | leaf hr hl =>
    rw [HTree.depth, Nat.zero_div, Nat.pow_zero]
    exact ⟨hw.positive _ hj, fun h0 => absurd h0 (Nat.lt_irrefl 0)⟩
  | @node j a b r l u hr hl ha hbr _ _ ihl ihr =>
    have hca : HasChild x j a := ⟨r, hr, .inl ha⟩
    have hcb : HasChild x j b := ⟨r, hr, .inr hbr⟩
    have ihl := ihl (Nat.lt_trans (hb.lt_of_hasChild hj hca) hj)
    have ihr := ihr (Nat.lt_trans (hb.lt_of_hasChild hj hcb) hj)
    obtain ⟨c, e, hc, hd, hce, hdeep⟩ : ∃ c e, HasChild x j c ∧ (HTree.node l u).depth = e + 1 ∧
        2 ^ (e / 2) ≤ weightAt x c ∧ (0 < e → ∃ d, HasChild x c d ∧ 2 ^ ((e - 1) / 2) ≤ weightAt x d) := by
      rcases Nat.le_total l.depth u.depth with hle | hle
      · exact ⟨b, u.depth, hcb, by rw [HTree.depth, Nat.max_eq_right hle], ihr⟩
      · exact ⟨a, l.depth, hca, by rw [HTree.depth, Nat.max_eq_left hle], ihl⟩
    rw [hd]
    refine ⟨?_, fun _ => ⟨c, hc, hce⟩⟩
    rcases Nat.eq_zero_or_pos e with rfl | he
    · exact hw.positive j hj
    · obtain ⟨d, hd, hde⟩ := hdeep he
      have hdouble := hw.doubled j c d hj hc hd
      rw [show (e + 1) / 2 = (e - 1) / 2 + 1 by omega, Nat.pow_succ]
      omega

/-! ### The command -/

/-- The leaves of the table copied and counted (R162). -/
def leavesCopied (rs : List SymRec) (s : State) : State :=
  { s with node := Store.writeList s.node 0 (rs.map SymRec.leaf), nnode := BitVec.ofNat 15 rs.length }

theorem treeBody_eq_growTree (ht : Table rs s) :
    treeBody s = (growTree rs.length (leavesCopied rs s)).bind fun _ t => finish .treed t := by
  obtain ⟨hn, hsym⟩ := ht
  rw [treeBody, hn, copyLeaves_writes (by simpa using hsym), Res.bind_ok, leavesCopied, ← hn]

/-- The weights of the tree `TREE` leaves (R162). -/
theorem treeBody_weighed (ht : Table rs s) (hfit : FitsTree rs) (hne : rs ≠ []) (e : treeBody s = .ok () t) :
    ∃ h', Weighed rs h' (2 * rs.length - 1) t.node := by
  have hlen := List.length_pos_iff.2 hne
  have hlt : rs.length < 512 := ht.1 ▸ s.nsym.isLt
  have hcount : (leavesCopied rs s).nnode.toNat = rs.length := by
    rw [leavesCopied, BitVec.toNat_ofNat]
    exact Nat.mod_eq_of_lt (by omega)
  have hb : BuiltOver rs rs.length (leavesCopied rs s).node := builtOver_leaves rs s.node
  rw [treeBody_eq_growTree ht, growTree_of_ne_zero (by omega) hcount, Res.bind_assoc] at e
  obtain ⟨_, u, emerge, e⟩ := Res.bind_eq_ok.1 e
  cases e
  obtain ⟨h', hw'⟩ := Weighed.mergeTimes (by rw [hcount]; exact weighed_leaves hb hfit)
    (by rw [hcount]; exact forested_leaves hne hb) hfit.sorted (by omega) (by omega) emerge
  exact ⟨h', by rwa [show 2 * rs.length - 1 = (leavesCopied rs s).nnode.toNat + (rs.length - 1) by omega]⟩

/-- The tree of a table whose frequencies sum to less than 2^32 is no deeper than 63 (R186). -/
theorem exec_tree_depth_le {n : Nat} {tree : HTree} (hp : s.phase = .fsorted) (ht : Table rs s) (hfit : FitsTree rs)
    (e : exec .tree s = .next t) (hroot : t.root = some n) (hrep : Represents t.node n tree) : tree.depth ≤ 63 := by
  obtain ⟨x, e', hx⟩ := treeBody_builds ht
  rw [exec_of_legalIn (i := .tree) (by decide) (by rw [hp]; rfl), bodyOf, e', Res.toOutcome_ok] at e
  cases e
  have hne : rs ≠ [] := by
    rintro rfl
    cases hroot
  have hlen := List.length_pos_iff.2 hne
  have hn : n < 2 * rs.length - 1 := by
    have : (if rs.length = 0 then none else some (2 * rs.length - 2)) = some n := hroot
    rw [if_neg (by omega), Option.some.injEq] at this
    omega
  obtain ⟨h', hw⟩ := treeBody_weighed ht hfit hne e'
  exact le_of_half_pow_le (hw.half_pow_depth_le hx.built hrep hn).1 (freqAt x n).isLt

end Sys2Proof.Machine
end
section
/-!
SUPPORT. The commands of `COMPRESS` between `SCAN` and the header (`46_top_level.md` R265): on a table whose frequencies
sum to less than 2^32 none of them raises, `CODES` included (`43_code_table.md` R186).
-/
namespace Sys2Proof.Machine

variable {s t : State} {rs ys : List SymRec}

/-! ### `TREE` and `CODES` -/

/-- `TREE` on a held table leaves the table and a tree over it (R162, R184). -/
theorem exec_tree_stands (hp : s.phase = .fsorted) (ht : Table rs s) :
    ∃ t, exec .tree s = .next t ∧
      t = { s with node := t.node, nnode := t.nnode, root := t.root, phase := .treed } ∧ Table rs t ∧
      TreeStands rs t := by
  obtain ⟨x, e, hx⟩ := exec_tree_builds hp ht
  refine ⟨_, e, rfl, ht, fun hroot => ?_, fun n hroot => ?_⟩
  · have hroot : (if rs.length = 0 then none else some (2 * rs.length - 2)) = none := hroot
    exact List.length_eq_zero_iff.1 (Classical.byContradiction fun hne => by simp [hne] at hroot)
  · have hne : rs ≠ [] := by
      rintro rfl
      cases hroot
    obtain ⟨root, tree, -, hr, hrep, hperm, -⟩ := treeIsOneTreeOverTheTable s _ rs hp ht hne e
    cases hroot.symm.trans hr
    exact ⟨tree, hrep, hperm⟩

/-- What the sorts and `CODES` leave of a record (R146, R182). -/
def SymRec.count (r : SymRec) : Byte × BitVec 32 := (r.symbol, r.frequency)

/-- `CODES` on a tree of depth at most 64 over the table gives every record a code, and no code begins with another
(R182, R184). -/
theorem codesBody_codes (ht : Table rs s) (hnd : (rs.map fun r => r.symbol).Nodup) (htree : TreeStands rs s)
    (hd : ∀ n tree, s.root = some n → Represents s.node n tree → tree.depth ≤ 64) :
    ∃ t ys, codesBody s = .ok () t ∧ t = { s with sym := t.sym, phase := .coded } ∧ Table ys t ∧
      ys.map SymRec.count = rs.map SymRec.count ∧ PrefixFree ys := by
  obtain ⟨t, ys, e, hframe, hys, hcount⟩ : ∃ t ys, codesBody s = .ok () t ∧
      t = { s with sym := t.sym, phase := .coded } ∧ Table ys t ∧ ys.map SymRec.count = rs.map SymRec.count := by
    rcases Option.eq_none_or_eq_some s.root with hroot | ⟨n, hroot⟩
    · exact ⟨setPhase .coded s, rs, by rw [codesBody, hroot]; rfl, rfl, ht, rfl⟩
    · obtain ⟨tree, hrep, hsyms⟩ := htree.tree n hroot
      obtain ⟨t, ys, e, ha⟩ := codesBody_assigns_paths ht hroot hrep (hd n tree hroot hrep) fun c => hsyms.mem_iff.1
      refine ⟨_, ys, e, congrArg (setPhase .coded) ha.frame, ha.table, ?_⟩
      rw [ha.records hnd, List.map_map]
      exact List.map_congr_left fun r _ => by simp [SymRec.count]
  obtain ⟨-, qs, hqs, -, hfree⟩ := (codesBody_assigns ht hnd htree).of_ok e
  exact ⟨t, ys, e, hframe, hys, hcount, hqs.unique hys ▸ hfree⟩

/-! ### From `PACK` to `HSORT.S` -/

/-- A state with the table, the tree and `PHASE` taken out: all that the five commands leave alone. -/
def withoutTable (s : State) : State :=
  { s with phase := .idle, empty := false, sym := [], nsym := 0, hsize := 0, node := [], nnode := 0, root := none }

/-- What the five commands make of the table `rs` of `s`: the observed records in the order of their symbols, with their
frequencies and codes. -/
structure TableCoded (rs : List SymRec) (s : State) (ys : List SymRec) (t : State) : Prop where
  rest : withoutTable t = withoutTable s
  phase : t.phase = .ssorted
  hsize : t.hsize = t.nsym
  empty : t.empty = true ↔ t.nsym = 0
  table : Table ys t
  counts : (ys.map SymRec.count).Perm ((observed rs).map SymRec.count)
  ordered : ys.Pairwise fun a b => a.symbol < b.symbol
  prefixFree : PrefixFree ys

theorem symbols_eq_map_count (rs : List SymRec) :
    (rs.map fun r => r.symbol) = (rs.map SymRec.count).map Prod.fst := by
  rw [List.map_map]
  rfl

theorem fitsTree_of_perm_observed (hp : ys.Perm (observed rs))
    (hsorted : ys.Pairwise fun a b => a.frequency ≤ b.frequency)
    (htotal : (rs.map fun r => r.frequency.toNat).sum < 2 ^ 32) : FitsTree ys where
  positive r hr := by simpa using (List.mem_filter.1 (hp.mem_iff.1 hr)).2
  sorted := hsorted
  total := by
    have hsub : ((observed rs).map fun r => r.frequency.toNat).Sublist (rs.map fun r => r.frequency.toNat) :=
      List.filter_sublist.map _
    rw [(hp.map _).sum_eq]
    exact Nat.lt_of_le_of_lt (hsub.sum_le_sum fun _ _ => Nat.zero_le _) htotal

/-- `PACK`, `HSORT.F`, `TREE`, `CODES` and `HSORT.S` on such a table never raise (R186). -/
theorem execAll_codes_table (hp : s.phase = .counted) (hl : rs.length = 256) (ht : Table rs s)
    (hnd : (rs.map fun r => r.symbol).Nodup) (htotal : (rs.map fun r => r.frequency.toNat).sum < 2 ^ 32) :
    ∃ t ys, execAll [.pack, .hsortF, .tree, .codes, .hsortS] s = .next t ∧ TableCoded rs s ys t := by
  obtain ⟨t₁, e₁, f₁, ht₁, hempty, -⟩ := packKeepsObservedRecords s rs hp hl ht.2
  obtain ⟨t₂, y₂, e₂, f₂, ht₂, hperm₂, hsorted, -⟩ := hsortFSortsByFrequency t₁ _ (congrArg State.phase f₁ :) ht₁
  have hfit : FitsTree y₂ := fitsTree_of_perm_observed hperm₂ hsorted htotal
  have hnd₂ : (y₂.map fun r => r.symbol).Nodup :=
    (hperm₂.map _).nodup_iff.2 (hnd.sublist (List.filter_sublist.map _))
  have hp₂ : t₂.phase = .fsorted := (congrArg State.phase f₂ :)
  obtain ⟨t₃, e₃, f₃, ht₃, htree⟩ := exec_tree_stands hp₂ ht₂
  obtain ⟨t₄, y₄, e₄, f₄, ht₄, hcount, hfree⟩ := codesBody_codes ht₃ hnd₂ htree fun n tree hroot hrep =>
    Nat.le_succ_of_le (exec_tree_depth_le hp₂ ht₂ hfit e₃ hroot hrep)
  have e₄ : exec .codes t₃ = .next t₄ := by rw [exec_codes (congrArg State.phase f₃ :), e₄, Res.toOutcome_ok]
  obtain ⟨t₅, y₅, e₅, f₅, ht₅, hperm₅, hord, -⟩ := hsortSSortsBySymbol t₄ y₄ (congrArg State.phase f₄ :) ht₄
  have hnd₄ : (y₄.map fun r => r.symbol).Nodup := by
    rw [symbols_eq_map_count, hcount, ← symbols_eq_map_count]
    exact hnd₂
  have hrest : withoutTable t₅ = withoutTable s :=
    calc withoutTable t₅ = withoutTable t₄ := (congrArg withoutTable f₅ :)
      _ = withoutTable t₃ := (congrArg withoutTable f₄ :)
      _ = withoutTable t₂ := (congrArg withoutTable f₃ :)
      _ = withoutTable t₁ := (congrArg withoutTable f₂ :)
      _ = withoutTable s := (congrArg withoutTable f₁ :)
  have hsize : (t₅.empty, t₅.nsym) = (t₁.empty, t₁.nsym) :=
    calc (t₅.empty, t₅.nsym) = (t₄.empty, t₄.nsym) := (congrArg (fun u : State => (u.empty, u.nsym)) f₅ :)
      _ = (t₃.empty, t₃.nsym) := (congrArg (fun u : State => (u.empty, u.nsym)) f₄ :)
      _ = (t₂.empty, t₂.nsym) := (congrArg (fun u : State => (u.empty, u.nsym)) f₃ :)
      _ = (t₁.empty, t₁.nsym) := (congrArg (fun u : State => (u.empty, u.nsym)) f₂ :)
  rw [Prod.mk.injEq] at hsize
  refine ⟨t₅, y₅, ?_, hrest, (congrArg State.phase f₅ :),
    (congrArg State.hsize f₅ :).trans (congrArg State.nsym f₅ :).symm, by rw [hsize.1, hsize.2, hempty], ht₅, ?_,
    hord hnd₄, hfree.perm hperm₅⟩
  · rw [execAll_cons_of_next e₁, execAll_cons_of_next e₂, execAll_cons_of_next e₃, execAll_cons_of_next e₄,
      execAll_singleton, e₅]
  · have h₅ := hperm₅.map SymRec.count
    rw [hcount] at h₅
    exact h₅.trans (hperm₂.map _)

end Sys2Proof.Machine
end
section
/-!
SUPPORT. `COMPRESS` never raises `CapacityExceeded` (`43_code_table.md` R186): `SCAN` counts at most `LEN` bytes, so the
frequencies sum to less than 2^32, and no command of the flow but `CODES` raises that kind (`60_exceptions.md` R281).
-/
namespace Sys2Proof.Machine

variable {s t : State} {cs : List Byte} {k : Nat} {i : Instr} {is : List Instr}

/-! ### The sum of the counts -/

/-- The table has these symbols in order, and its frequencies sum to at most `k`. -/
def CountsAtMost (cs : List Byte) (k : Nat) (s : State) : Prop :=
  ∃ rs, Table rs s ∧ (rs.map fun r => r.symbol) = cs ∧ (rs.map fun r => r.frequency.toNat).sum ≤ k

theorem sum_map_set_le {α : Type} {f : α → Nat} {xs : List α} {v : α} (hk : k < xs.length) (hv : f v ≤ f xs[k] + 1) :
    ((xs.set k v).map f).sum ≤ (xs.map f).sum + 1 := by
  induction xs generalizing k with
  | nil => exact absurd hk (Nat.not_lt_zero k)
  | cons x xs ih =>
    cases k with
    | zero =>
      rw [List.getElem_cons_zero] at hv
      simp only [List.set_cons_zero, List.map_cons, List.sum_cons]
      omega
    | succ k =>
      have := ih (Nat.lt_of_succ_lt_succ hk) hv
      simp only [List.set_cons_succ, List.map_cons, List.sum_cons]
      omega

/-- Counting a byte raises one frequency by at most 1 (R122). -/
theorem CountsAtMost.countByte (h : CountsAtMost cs k s) (hcs : cs.length = 256) (b : Byte) :
    ∃ t, countByte b s = .ok () t ∧ CountsAtMost cs (k + 1) t := by
  obtain ⟨rs, ht, hsyms, hsum⟩ := h
  have hb : b.toNat < rs.length := by
    rw [← List.length_map (f := fun r : SymRec => r.symbol), hsyms, hcs]
    exact b.isLt
  have hr : Store.read s.sym b.toNat = some rs[b.toNat] := (ht.2 _ hb).trans (List.getElem?_eq_getElem hb)
  refine ⟨writeSym b.toNat { rs[b.toNat] with frequency := rs[b.toNat].frequency + 1 } s, ?_, _, ht.writeSym hb _,
    (map_symbol_set hb (by rfl)).trans hsyms, ?_⟩
  · rw [Machine.countByte, readSym_of_held hr, Res.bind_ok]
  · refine Nat.le_trans (sum_map_set_le (f := fun r : SymRec => r.frequency.toNat) hb ?_) (Nat.succ_le_succ hsum)
    rw [BitVec.toNat_add]
    exact Nat.mod_le _ _

/-- `SCAN` counts at most `LEN` bytes (R122). -/
theorem scanBody_countsAtMost (h : CountsAtMost cs 0 s) (hcs : cs.length = 256) :
    (scanBody s).Ends (fun _ t => t.phase = .counted ∧ CountsAtMost cs s.len.toNat t) InError fun _ => True := by
  have loop := forUp_ends (body := scanByte) (I := CountsAtMost cs) (Q := InError) (F := fun _ => True)
    (n := s.len.toNat) (i := 0) h fun a t _ _ ht => by
      rw [scanByte]
      rcases inByte_cases a t with ⟨-, e⟩ | ⟨-, -, e⟩ | ⟨-, -, b, -, e⟩ | ⟨-, -, -, e⟩ <;> rw [e]
      · trivial
      · exact inError_raise _ _ _ _
      · obtain ⟨u, eu, hu⟩ := CountsAtMost.countByte (s := popAnswer t) ht hcs b
        rw [Res.bind_ok, eu]
        exact hu
      · trivial
  rw [Nat.zero_add] at loop
  exact loop.bind fun _ t ht => ⟨rfl, ht⟩

/-- The table of no bytes counts none. -/
theorem countsAtMost_of_clr (h : Table (countedTable []) s) :
    CountsAtMost ((countedTable []).map fun r => r.symbol) 0 s := by
  refine ⟨_, h, rfl, Nat.le_of_eq (List.sum_eq_zero fun x hx => ?_)⟩
  simp only [countedTable, List.map_map, List.mem_map] at hx
  obtain ⟨i, -, rfl⟩ := hx
  rfl

/-- `CLR` and `SCAN` that go on leave a table of 256 symbols whose frequencies sum to less than 2^32. -/
theorem exec_scan_total (h : Table (countedTable []) s) (hp : s.phase = .cleared) (e : exec .scan s = .next t) :
    InError t ∨ t.phase = .counted ∧ ∃ rs, Table rs t ∧ rs.length = 256 ∧ (rs.map fun r => r.symbol).Nodup ∧
      (rs.map fun r => r.frequency.toNat).sum < 2 ^ 32 := by
  have hends := scanBody_countsAtMost (countsAtMost_of_clr h) (by rw [List.length_map, length_countedTable])
  rw [exec_of_legalIn (i := .scan) (by decide) (by rw [hp]; rfl)] at e
  rcases Res.toOutcome_eq_next.1 e with hok | hraised
  · obtain ⟨hphase, rs, ht, hsyms, hsum⟩ := hends.of_ok hok
    refine .inr ⟨hphase, rs, ht, ?_, hsyms ▸ (covers_countedTable []).nodup, Nat.lt_of_le_of_lt hsum s.len.isLt⟩
    rw [← List.length_map (f := fun r : SymRec => r.symbol), hsyms, List.length_map, length_countedTable]
  · exact .inl (hends.of_raised hraised)

/-! ### The commands that do not raise `CapacityExceeded` -/

/-- If `s` has no `CapacityExceeded` recorded, neither has `t`. -/
def CapacityKept (s t : State) : Prop := s.err ≠ .capacityExceeded → t.err ≠ .capacityExceeded

theorem CapacityKept.refl (s : State) : CapacityKept s s := id

theorem CapacityKept.trans (s t u : State) (h : CapacityKept s t) (h' : CapacityKept t u) : CapacityKept s u := h' ∘ h

theorem inByte_capacityKept (a : Nat) (s : State) : (inByte a s).Within CapacityKept s :=
  inByte_within id fun _ => by simp

theorem outByte_capacityKept (v : Byte) (s : State) : (outByte v s).Within CapacityKept s :=
  outByte_within id fun _ => by simp

theorem outLE_capacityKept (v n : Nat) (s : State) : (outLE v n s).Within CapacityKept s :=
  outLE_within .refl .trans outByte_capacityKept v n s

theorem putBits_capacityKept (v : CodeWord) (n : Nat) (s : State) : (putBits v n s).Within CapacityKept s := by
  refine forUp_within .refl .trans (fun k s => ?_) n 0 s
  rcases putBit_cases (v.getLsbD k) s with ⟨-, e⟩ | ⟨-, -, e⟩ | ⟨-, -, e⟩ <;> rw [e]
  · exact fun h => h
  · exact fun h => h
  · exact fun _ => by simp

theorem scanBody_capacityKept (s : State) : (scanBody s).Within CapacityKept s := by
  refine Res.Within.bind .trans (forUp_within .refl .trans (fun a s => ?_) _ _ s) fun _ t => (CapacityKept.refl t :)
  refine Res.Within.bind .trans (inByte_capacityKept a s) fun b t => ?_
  exact Res.Within.bind .trans (readSym_within .refl _ t) fun r u => (CapacityKept.refl u :)

theorem whdrBody_capacityKept (s : State) : (whdrBody s).Within CapacityKept s := by
  have entry : ∀ i s, (writeEntry i s).Within CapacityKept s := fun i s =>
    .bind .trans (readSym_within .refl i s) fun r t => .bind .trans (outByte_capacityKept _ t) fun _ u =>
      .bind .trans (outByte_capacityKept _ u) fun _ v => outLE_capacityKept _ _ v
  exact .bind .trans (outLE_capacityKept _ _ s) fun _ t => .bind .trans (outLE_capacityKept _ _ t) fun _ u =>
    .bind .trans (forUp_within .refl .trans entry _ _ u) fun _ v => (CapacityKept.refl v :)

theorem encBody_capacityKept (s : State) : (encBody s).Within CapacityKept s := by
  refine Res.Within.bind .trans (forUp_within .refl .trans (fun a s => ?_) _ _ s) fun _ t => (CapacityKept.refl t :)
  refine Res.Within.bind .trans (inByte_capacityKept a s) fun b t => ?_
  refine Res.Within.bind .trans (find_within .refl b t) fun found u => ?_
  cases found with
  | none => exact fun _ => by simp
  | some k => exact Res.Within.bind .trans (readSym_within .refl k u) fun r v => putBits_capacityKept _ _ v

theorem flushBody_capacityKept (s : State) : (flushBody s).Within CapacityKept s := by
  unfold flushBody
  split
  · exact Res.Within.bind .trans (outByte_capacityKept _ s) fun _ t => (CapacityKept.refl t :)
  · exact CapacityKept.refl s

/-- Of the commands of `COMPRESS` those that access IN or OUT raise other kinds (R281). -/
theorem exec_capacityKept (hi : i ∈ [Instr.scan, .whdr, .enc, .flush]) (e : exec i s = .next t) : CapacityKept s t := by
  obtain ⟨hne, body⟩ : i ≠ .rst ∧ (bodyOf i s).Within CapacityKept s := by
    simp only [List.mem_cons, List.not_mem_nil, or_false] at hi
    rcases hi with rfl | rfl | rfl | rfl
    · exact ⟨by decide, scanBody_capacityKept s⟩
    · exact ⟨by decide, whdrBody_capacityKept s⟩
    · exact ⟨by decide, encBody_capacityKept s⟩
    · exact ⟨by decide, flushBody_capacityKept s⟩
  rw [exec_eq_command hne] at e
  exact command_ends e (fun _ => .refl s) (fun _ _ _ => by simp) fun _ _ => body

theorem execAll_capacityKept (his : ∀ i ∈ is, i ∈ [Instr.scan, .whdr, .enc, .flush]) (e : execAll is s = .next t) :
    CapacityKept s t := by
  induction is generalizing s with
  | nil =>
    cases e
    exact .refl _
  | cons i is ih =>
    obtain ⟨u, e₁, e₂⟩ := exists_next_of_execAll_cons e
    obtain ⟨hi, his⟩ := List.forall_mem_cons.1 his
    exact .trans _ _ _ (exec_capacityKept hi e₁) (ih his e₂)

/-! ### The flow -/

theorem execAll_append_of_next (e : execAll is s = .next t) (js : List Instr) :
    execAll (is ++ js) s = execAll js t := by
  induction is generalizing s with
  | nil =>
    cases e
    rfl
  | cons i is ih =>
    obtain ⟨u, e₁, e₂⟩ := exists_next_of_execAll_cons e
    rw [List.cons_append, execAll_cons_of_next e₁, ih e₂]

/-- Settles O49: the sum of the counts is below 2^32, so the tree is too flat for the guard of `CODES`. -/
theorem compressNeverExceedsCapacity : Obligations.CompressNeverExceedsCapacity := by
  intro s t hp herr e
  rw [(wholeFlowsEqualTheirScripts s hp).1] at e
  obtain ⟨t₁, e₁, htable, hphase, -⟩ := exec_clr_starts hp
  have h₁ : t₁.err ≠ .capacityExceeded := by
    obtain ⟨u, eu, f, -⟩ := clrStartsRun s hp
    cases eu.symm.trans e₁
    rw [(congrArg State.err f :), herr]
    decide
  rw [execAll_cons_of_next e₁] at e
  obtain ⟨t₂, e₂, e⟩ := exists_next_of_execAll_cons e
  have h₂ := exec_capacityKept (by decide) e₂ h₁
  rcases exec_scan_total htable hphase e₂ with herror | ⟨hcounted, rs, ht, hl, hnd, htotal⟩
  · rw [execAll_of_phase_error (by decide) herror] at e
    cases e
    exact h₂
  · obtain ⟨t₃, ys, e₃, h⟩ := execAll_codes_table hcounted hl ht hnd htotal
    rw [show [Instr.pack, .hsortF, .tree, .codes, .hsortS, .whdr, .enc, .flush] =
      [.pack, .hsortF, .tree, .codes, .hsortS] ++ [.whdr, .enc, .flush] from rfl, execAll_append_of_next e₃] at e
    have herr₃ : t₃.err = t₂.err := (congrArg State.err h.rest :)
    exact execAll_capacityKept (by decide) e (herr₃ ▸ h₂)

end Sys2Proof.Machine
end
section
/-!
SUPPORT. `COMPRESS` where no access fails writes the complete file (`46_top_level.md` R265, `30_encoding.md` R100, R104,
`45_bitstream.md` R233).
-/
namespace Sys2Proof.Machine

variable {s t : State} {rs ys : List SymRec} {bytes : List Byte}

/-! ### The writers -/

/-- A state without what the writers change: OUT, `OPOS`, the accumulator, the oracle and `PHASE`. -/
def withoutOutput (s : State) : State :=
  { s with phase := .idle, out := [], opos := 0, acc := 0, accn := 0, oracle := [] }

/-- The bytes `bs` have been appended to OUT, nothing is left in the accumulator, and the flow is done. -/
structure Flushed (s : State) (bs : List Byte) (t : State) : Prop where
  rest : withoutOutput t = withoutOutput s
  phase : t.phase = .doneC
  out : t.out = s.out ++ bs
  opos : t.opos = s.opos + BitVec.ofNat 40 bs.length
  acc : t.acc = 0
  accn : t.accn = 0

theorem acc_eq_zero_of_accHeld (h : AccHeld s) (h0 : s.accn = 0) : s.acc = 0 := by
  have hlt : s.acc.toNat < 2 ^ s.accn.toNat := h.2
  rw [h0] at hlt
  exact BitVec.eq_of_toNat_eq (by simpa using hlt)

/-- `FLUSH` writes the bits held and fewer than 8 zeros (R233). -/
theorem exec_flush_pads (hp : s.phase = .encoded) (hn : NoFail s) (ha : AccHeld s) :
    ∃ t last pad, exec .flush s = .next t ∧ Flushed s last t ∧
      last.flatMap byteBits = accBits s ++ List.replicate pad false ∧ pad < 8 := by
  obtain ⟨hempty, hheld, -⟩ := flushWritesPartialByte s hp
  by_cases h0 : s.accn = 0
  · refine ⟨_, [], 0, hempty h0, ⟨rfl, rfl, (List.append_nil _).symm, (BitVec.add_zero _).symm,
      acc_eq_zero_of_accHeld ha h0, h0⟩, ?_, by decide⟩
    rw [accBits_eq_lowBits, h0]
    rfl
  · obtain ⟨b, e, hb⟩ := hheld h0 hn fun _ => ha
    have hpos : s.accn.toNat ≠ 0 := fun h => h0 (BitVec.eq_of_toNat_eq h)
    exact ⟨_, [b], 8 - s.accn.toNat, e, ⟨rfl, rfl, rfl, rfl, rfl, rfl⟩, by rw [List.flatMap_singleton, hb], by omega⟩

/-- `WHDR`, `ENC` and `FLUSH` append the file of the bytes (R201, R232, R233). -/
theorem execAll_writers (hp : s.phase = .ssorted) (hr : Reads bytes s) (ht : Table rs s) (horig : s.origLen = s.len)
    (hmem : ∀ b ∈ bytes, b ∈ rs.map fun r => r.symbol) (hacc : s.acc = 0) (haccn : s.accn = 0) :
    ∃ t pay pad, execAll [.whdr, .enc, .flush] s = .next t ∧
      Flushed s (headerOf (rs.map SymRec.entry) bytes.length ++ pay) t ∧
      pay.flatMap byteBits = payloadBits rs bytes ++ List.replicate pad false ∧ pad < 8 := by
  obtain ⟨t, e, f⟩ : ∃ t, exec .whdr s = .next t ∧ t = _ := ⟨_, whdrWritesHeader s rs hp hr.noFail ht, rfl⟩
  have hlen : t.len = s.len := (congrArg State.len f :)
  have htacc : t.acc = 0 := (congrArg State.acc f :).trans hacc
  have htaccn : t.accn = 0 := (congrArg State.accn f :).trans haccn
  have hrt : Reads bytes t := hr.exec e hlen
  have htt : Table rs t := by
    rw [Table, (congrArg State.nsym f :), (congrArg State.sym f :)]
    exact ht
  have horigt : t.origLen.toNat = bytes.length := by
    rw [(congrArg State.origLen f :), horig, hr.len]
  obtain ⟨u, new, e', f', hbits, ha⟩ := encWritesPayload t bytes rs (congrArg State.phase f :) hrt.noFail horigt
    (Nat.le_of_eq hrt.len.symm) hrt.input htt hmem fun _ => accHeld_empty htacc htaccn
  have hup : u.phase = .encoded := (congrArg State.phase f' :)
  obtain ⟨v, last, pad, e'', hflushed, hlast, hpad⟩ := exec_flush_pads hup
    (hrt.exec e' (congrArg State.len f' :)).noFail (ha (by rw [hup]; decide))
  have hheader : (headerOf (rs.map SymRec.entry) bytes.length).length = 6 + 10 * rs.length := by
    rw [length_headerOf, List.length_map]
  have hsorig : s.origLen.toNat = bytes.length := by rw [horig, hr.len]
  refine ⟨v, new ++ last, pad, ?_, ⟨?_, hflushed.phase, ?_, ?_, hflushed.acc, hflushed.accn⟩, ?_, hpad⟩
  · rw [execAll_cons_of_next e, execAll_cons_of_next e', execAll_singleton, e'']
  · exact hflushed.rest.trans ((congrArg withoutOutput f' :).trans (congrArg withoutOutput f :))
  · rw [hflushed.out, (congrArg State.out f' :), (congrArg State.out f :), hsorig]
    simp only [List.append_assoc]
  · rw [hflushed.opos, (congrArg State.opos f' :), (congrArg State.opos f :), List.length_append, List.length_append,
      hheader]
    simp only [BitVec.ofNat_add, BitVec.add_assoc]
  · have hempty : accBits t = [] := by
      rw [accBits_eq_lowBits, htaccn]
      rfl
    rw [List.flatMap_append, hlast, ← List.append_assoc, hbits, hempty, List.nil_append]

/-! ### The table of the bytes -/

/-- The observed records of the counted table are those of the bytes that occur, with their counts (R122, R124). -/
theorem mem_observed_countedTable (hl : bytes.length < 2 ^ 32) {r : SymRec} (hr : r ∈ observed (countedTable bytes)) :
    r.frequency.toNat = bytes.count r.symbol ∧ r.symbol ∈ bytes := by
  obtain ⟨hmem, hne⟩ := List.mem_filter.1 hr
  obtain ⟨i, -, rfl⟩ := List.mem_map.1 hmem
  have hle : bytes.count (BitVec.ofNat 8 i) ≤ bytes.length := List.count_le_length
  have hcount : (BitVec.ofNat 32 (bytes.count (BitVec.ofNat 8 i))).toNat = bytes.count (BitVec.ofNat 8 i) := by
    rw [BitVec.toNat_ofNat, Nat.mod_eq_of_lt (by omega)]
  refine ⟨hcount, List.count_pos_iff.1 (Nat.pos_of_ne_zero fun h0 => ?_)⟩
  have h0 : bytes.count (BitVec.ofNat 8 i) = 0 := h0
  simp [symFreq, h0] at hne

/-- The table of the file: the bytes that occur, each once, with their counts. -/
structure TableOf (bytes : List Byte) (rs : List SymRec) : Prop where
  symbols : ∀ b, b ∈ bytes ↔ b ∈ rs.map fun r => r.symbol
  counts : ∀ r ∈ rs, r.frequency.toNat = bytes.count r.symbol

theorem TableCoded.tableOf (h : TableCoded (countedTable bytes) s ys t) (hl : bytes.length < 2 ^ 32) :
    TableOf bytes ys := by
  have hobs : ∀ r ∈ ys, ∃ q ∈ observed (countedTable bytes), q.symbol = r.symbol ∧ q.frequency = r.frequency := by
    intro r hr
    obtain ⟨q, hq, he⟩ := List.mem_map.1 (h.counts.mem_iff.1 (List.mem_map_of_mem (f := SymRec.count) hr))
    exact ⟨q, hq, congrArg Prod.fst he, congrArg Prod.snd he⟩
  refine ⟨fun b => ⟨fun hb => ?_, fun hb => ?_⟩, fun r hr => ?_⟩
  · rw [symbols_eq_map_count, (h.counts.map Prod.fst).mem_iff, ← symbols_eq_map_count]
    exact (covers_observed hl).mem b hb
  · obtain ⟨r, hr, rfl⟩ := List.mem_map.1 hb
    obtain ⟨q, hq, hsym, -⟩ := hobs r hr
    exact hsym ▸ (mem_observed_countedTable hl hq).2
  · obtain ⟨q, hq, hsym, hfreq⟩ := hobs r hr
    rw [← hsym, ← hfreq]
    exact (mem_observed_countedTable hl hq).1

theorem TableCoded.empty_eq (h : TableCoded rs s ys t) : t.empty = ys.isEmpty := by
  rw [Bool.eq_iff_iff, h.empty, List.isEmpty_iff, ← List.length_eq_zero_iff, ← h.table.1, ← BitVec.toNat_inj]
  rfl

theorem TableOf.isEmpty_eq (h : TableOf bytes rs) : bytes.isEmpty = rs.isEmpty := by
  rw [Bool.eq_iff_iff, List.isEmpty_iff, List.isEmpty_iff]
  constructor
  · rintro rfl
    exact List.eq_nil_iff_forall_not_mem.2 fun r hr => nomatch (h.symbols _).2 (List.mem_map_of_mem hr)
  · rintro rfl
    exact List.eq_nil_iff_forall_not_mem.2 fun b hb => nomatch (h.symbols b).1 hb

/-! ### The flow -/

/-- A state without all that `COMPRESS` changes. -/
def withoutRun (s : State) : State :=
  { withoutOutput (withoutTable s) with len := 0, origLen := 0, rbuf := 0, rbn := 0, rpos := 0 }

/-- A state with all that `COMPRESS` changes taken from `t`. -/
def withRunOf (t s : State) : State :=
  { s with
    phase := t.phase, len := t.len, origLen := t.origLen, empty := t.empty, sym := t.sym, nsym := t.nsym,
    hsize := t.hsize, node := t.node, nnode := t.nnode, root := t.root, acc := t.acc, accn := t.accn, rbuf := t.rbuf,
    rbn := t.rbn, rpos := t.rpos, opos := t.opos, out := t.out, oracle := t.oracle }

theorem eq_withRunOf (h : withoutRun t = withoutRun s) : t = withRunOf t s := (congrArg (withRunOf t) h :)

/-- The registers that no command of `COMPRESS` writes after `SCAN`: the two lengths and the reader. -/
def lengthsAndReader (s : State) : Word × Word × BitVec 8 × BitVec 4 × Word := (s.len, s.origLen, s.rbuf, s.rbn, s.rpos)

/-- A run of `s` has started and scanned its input: the lengths are set, the reader and OUT are empty (R43, R122). -/
structure Started (s t : State) : Prop where
  rest : withoutRun t = withoutRun s
  registers : lengthsAndReader t = (s.inLen, s.inLen, 0, 0, 0)
  output : (t.out, t.opos) = ([], 0)

theorem exec_clr_scan_started (hp : s.phase ∈ [Phase.idle, .doneC, .doneD]) (hn : NoFail s) (hin : Presents bytes s) :
    ∃ t u, exec .clr s = .next t ∧ exec .scan t = .next u ∧ Running bytes .counted (countedTable bytes) u ∧
      Started s u ∧ ((countedTable bytes).map fun r => r.frequency.toNat).sum < 2 ^ 32 := by
  obtain ⟨t, u, e, e', h⟩ := exec_clr_scan hp hn hin
  obtain ⟨t', et, f, -⟩ := clrStartsRun s hp
  cases et.symm.trans e
  obtain ⟨t', et, ht, hphase, -⟩ := exec_clr_starts hp
  cases et.symm.trans e
  obtain ⟨htin, -, -, -, ho⟩ := exec_hostSide e
  have hlen : t.len = s.inLen := (congrArg State.len f :)
  obtain ⟨u', eu, g, -⟩ := scanCountsEveryByte t bytes (countedTable []) hphase (fun hm => hn (ho.subset hm))
    (by rw [hlen, hin.1]) (by rw [htin]; exact hin.2) (length_countedTable []) ht.2
  cases eu.symm.trans e'
  have htotal : ((countedTable bytes).map fun r => r.frequency.toNat).sum < 2 ^ 32 := by
    rcases exec_scan_total ht hphase e' with herror | ⟨-, rs, hrs, -, -, hsum⟩
    · cases h.phase.symm.trans herror
    · exact hrs.unique h.table ▸ hsum
  refine ⟨t, u, e, e', h, ⟨?_, ?_, ?_⟩, htotal⟩
  · exact (congrArg withoutRun g :).trans (congrArg withoutRun f :)
  · have hg : lengthsAndReader u = (t.len, t.len, t.rbuf, t.rbn, t.rpos) := (congrArg lengthsAndReader g :)
    rw [hg, hlen, f]
  · exact (congrArg (fun v : State => (v.out, v.opos)) g :).trans (congrArg (fun v : State => (v.out, v.opos)) f :)

/-- `COMPRESS` where no access fails: the commands one after the other, `CODES` going on since the sum of the counts is
below 2^32 (R265, R186). -/
theorem exec_compress_flushes (hp : s.phase ∈ [Phase.idle, .doneC, .doneD]) (hn : NoFail s) (hin : Presents bytes s) :
    ∃ t₂ t₃ t ys pay pad, exec .compress s = .next t ∧ Running bytes .counted (countedTable bytes) t₂ ∧ Started s t₂ ∧
      TableCoded (countedTable bytes) t₂ ys t₃ ∧ Flushed t₃ (headerOf (ys.map SymRec.entry) bytes.length ++ pay) t ∧
      pay.flatMap byteBits = payloadBits ys bytes ++ List.replicate pad false ∧ pad < 8 := by
  obtain ⟨t₁, t₂, e₁, e₂, h₂, hstart, htotal⟩ := exec_clr_scan_started hp hn hin
  obtain ⟨t₃, ys, e₃, h₃⟩ := execAll_codes_table h₂.phase (length_countedTable bytes) h₂.table h₂.covers.nodup htotal
  have hlen : t₃.len = t₂.len := (congrArg State.len h₃.rest :)
  have horacle : t₃.oracle = t₂.oracle := (congrArg State.oracle h₃.rest :)
  have hinput : t₃.input = t₂.input := (congrArg State.input h₃.rest :)
  have hr₃ : Reads bytes t₃ := by
    obtain ⟨hnf, hl, hheld⟩ := h₂.reads
    exact ⟨by rwa [NoFail, horacle], by rwa [hlen], by rwa [hinput]⟩
  obtain ⟨t, pay, pad, e₄, h₄, hpay, hpad⟩ := execAll_writers h₃.phase hr₃ h₃.table
    ((congrArg State.origLen h₃.rest :).trans (h₂.origLen.trans hlen.symm))
    (fun b => ((h₃.tableOf h₂.length_lt).symbols b).1) ((congrArg State.acc h₃.rest :).trans h₂.acc)
    ((congrArg State.accn h₃.rest :).trans h₂.accn)
  refine ⟨t₂, t₃, t, ys, pay, pad, ?_, h₂, hstart, h₃, h₄, hpay, hpad⟩
  rw [(wholeFlowsEqualTheirScripts s hp).1, execAll_cons_of_next e₁, execAll_cons_of_next e₂, ← e₄]
  exact execAll_append_of_next e₃ [.whdr, .enc, .flush]

/-- Settles O46: the fields of the state `COMPRESS` leaves, each from the command that wrote it last. -/
theorem compressWritesWholeFile : Obligations.CompressWritesWholeFile := by
  intro s bytes hp hn hin
  obtain ⟨t₂, t₃, t, ys, pay, pad, e, h₂, hstart, h₃, h₄, hpay, hpad⟩ := exec_compress_flushes hp hn hin
  have hys := h₃.tableOf h₂.length_lt
  have hrest : withoutRun t = withoutRun s :=
    calc withoutRun t = withoutRun t₃ := (congrArg withoutRun h₄.rest :)
      _ = withoutRun t₂ := (congrArg withoutRun h₃.rest :)
      _ = withoutRun s := hstart.rest
  have hregisters : lengthsAndReader t = (s.inLen, s.inLen, 0, 0, 0) :=
    calc lengthsAndReader t = lengthsAndReader t₃ := (congrArg lengthsAndReader h₄.rest :)
      _ = lengthsAndReader t₂ := (congrArg lengthsAndReader h₃.rest :)
      _ = _ := hstart.registers
  have houtput : (t₃.out, t₃.opos) = ([], 0) :=
    (congrArg (fun u : State => (u.out, u.opos)) h₃.rest :).trans hstart.output
  have htableside : (t.empty, t.sym, t.nsym, t.hsize) = (t₃.empty, t₃.sym, t₃.nsym, t₃.hsize) :=
    (congrArg (fun u : State => (u.empty, u.sym, u.nsym, u.hsize)) h₄.rest :)
  simp only [lengthsAndReader, Prod.mk.injEq] at hregisters houtput htableside
  obtain ⟨hlen, horig, hrbuf, hrbn, hrpos⟩ := hregisters
  obtain ⟨hout₃, hopos₃⟩ := houtput
  obtain ⟨hempty₄, hsym₄, hnsym₄, hhsize₄⟩ := htableside
  have hout : t.out = headerOf (ys.map SymRec.entry) bytes.length ++ pay := by rw [h₄.out, hout₃, List.nil_append]
  have hopos : t.opos = BitVec.ofNat 40 t.out.length := by
    rw [h₄.opos, hopos₃, hout]
    exact BitVec.zero_add _
  have hempty : t.empty = bytes.isEmpty := by rw [hempty₄, h₃.empty_eq, hys.isEmpty_eq]
  have hhsize : t.hsize = t.nsym := by rw [hhsize₄, h₃.hsize, hnsym₄]
  have htable : Table ys t := by
    rw [Table, hnsym₄, hsym₄]
    exact h₃.table
  refine ⟨t, ys, pay, pad, e, ?_, htable, h₃.ordered, hys.symbols, hys.counts, h₃.prefixFree.apart, hpay, hpad⟩
  have hframe := eq_withRunOf hrest
  rwa [withRunOf, h₄.phase, hlen, horig, hempty, hhsize, h₄.acc, h₄.accn, hrbuf, hrbn, hrpos, hout, hopos] at hframe

end Sys2Proof.Machine
end
